-- ==== Sys2Proof/Word.lean ====
section
/-! DEFINITION. The words of the Q240: octets, addresses, counters and timers (spec/00_scope.md, Conventions). -/

namespace Sys2Proof

/-- One octet on a wire. -/
abbrev Byte := BitVec 8

/-- A 16-bit value: sequence numbers, tags, temperatures, CRCs. -/
abbrev U16 := BitVec 16

/-- A 32-bit value: timebase and seal stamps. -/
abbrev U32 := BitVec 32

/-- A 48-bit Ethernet or radio address. -/
abbrev Addr := BitVec 48

/-- A counter: 32-bit, wrapping modulo 2^32 (Conventions, Counters). -/
abbrev Counter := BitVec 32

/-- A timer: stopped, or the quarter milliseconds left to its expiry (log 1). -/
abbrev Timer := Option Nat

end Sys2Proof
end

