-- ==== Sys2Proof/Syntax.lean ====
section
/-! DEFINITION. The commands of the Q240: one constructor for each row of spec/opcode_table.json, with the fields that the
arriving frame, block or event carries. A management row stands for the TAKING of the request at the head of the request
queue (R156), so its operands are in that queued request (log 6). -/

namespace Sys2Proof

/-- The two quay chains (1.1). -/
inductive Chain | N | S
  deriving DecidableEq, Repr

/-- Urgency of a batch or entry (R111). -/
inductive Urgency | routine | urgent
  deriving DecidableEq, Repr

/-- A radio cell, 0-15. -/
abbrev CellId := Fin 16
/-- A crane index, 0-11. -/
abbrev CraneId := Fin 12
/-- A band of the berth, 0-63. -/
abbrev BandId := Fin 64
/-- A reefer group, 0-63. -/
abbrev GroupId := Fin 64
/-- A batch buffer, 0-31. -/
abbrev BatchId := Fin 32
/-- A reefer index, 0-4095. -/
abbrev ReeferId := Fin 4096
/-- A general unit record, 0-1023. -/
abbrev GeneralId := Fin 1024

/-- The Ethernet header of a frame arriving on the uplink port. -/
structure RxHeader where
  dst : Addr
  src : Addr
  etherType : U16
  deriving DecidableEq, Repr

/-- A status record as a cell appends it to the turn marker (R19; 11.3). The cell number is the octet received: it may
name no cell of the chain. -/
structure StatusRecord where
  cell : Byte
  quality : Fin 16
  fault : Bool
  join : Bool
  backlog : Byte
  deriving DecidableEq, Repr

/-- The content of a REEFER-REPORT block (6.4; 11.3). Mode and power are the octets received: their codes may be
undefined (R97). -/
structure Report where
  unit : Addr
  seq : Byte
  supply : U16
  ret : U16
  setpoint : U16
  mode : Byte
  power : Byte
  alarms : List U16
  deriving DecidableEq, Repr

/-- A block of the returning stream as the line code delivers it: its header, the octets after it, and the number of
slots the line code marks for it (11.3, R170). -/
structure RawBlock where
  cell : Byte
  kind : Byte
  length : U16
  content : List Byte
  slots : Nat
  deriving DecidableEq, Repr

/-- The commands, in the order of the opcode table. -/
inductive Instr
  | resetNAssert
  | resetNRelease (straps : Byte)
  | linkUp
  | linkLoss
  | frameSent
  | uplinkFrameDiscarded (h : RxHeader) (octets : List Byte)
  | craneDown (h : RxHeader) (subject : Byte) (payload : List Byte)
  | craneResume (h : RxHeader) (subject : Byte)
  | drainOpen (h : RxHeader) (tag : U16) (credit : Byte)
  | drainCheck (h : RxHeader) (tag : U16) (index : Byte) (crc : U16)
  | drainPause (h : RxHeader) (tag : U16)
  | drainResume (h : RxHeader) (tag : U16)
  | drainStop (h : RxHeader) (tag : U16)
  | mgmtRequest (h : RxHeader) (id : U16) (command : U16) (data : List Byte)
  | generalFrame (h : RxHeader) (unit : Addr) (payload : List Byte)
  | cycleTimerExpiry (c : Chain)
  | backoffTimerExpiry (c : Chain)
  | stableTimerExpiry (c : Chain)
  | signalLoss (c : Chain)
  | fillBlock (c : Chain)
  | openerReturned (c : Chain)
  | undeliveredDownlink (x : CellId)
  | craneUp (x : CellId) (radio : Addr) (seq : U16) (payload : List Byte)
  | reeferReport (x : CellId) (r : Report)
  | generalUp (x : CellId) (unit : Addr) (payload : List Byte)
  | turnMarker (c : Chain) (cycle : Byte) (records : List StatusRecord)
  | abortMarker (x : CellId)
  | malformedBlock (c : Chain) (b : RawBlock)
  | supervisionTimerExpiry (k : CraneId)
  | handoverCountdownExpiry (k : CraneId)
  | failedTargetBarExpiry (k : CraneId)
  | reportTick
  | missCharge (i : ReeferId)
  | generalAgeOut (j : GeneralId)
  | sealTimeExpiry (u : Urgency)
  | checkTimerExpiry (index : Nat)
  | pauseTimerExpiry
  | transactionTimerExpiry
  | identify
  | readParams
  | setParams
  | loadBegin
  | loadSegment
  | loadEnd
  | readCrane
  | readCell
  | readChain
  | readReefer
  | readGroup
  | readBatches
  | readDrain
  | readCounters
  | clearExcursion
  | clearGroup
  | releaseCrane
  | barCell
  | unbarCell
  | chainEnable
  | chainDisable
  | restartTraffic
  | restartAll
  | unknownRequest
  | rollcallLedBlink (c : Chain)
  deriving DecidableEq, Repr

end Sys2Proof
end

