-- ==== Sys2Proof/WellFormed.lean ====
section
/-! DEFINITION. What a command's operands must satisfy to spell an event of the table's row, whatever the state: the
lengths that the formats chapter allows (R169, R170) and the ranges of the fields. A meaning does not rely on it: an
ill-formed frame or block given to `exec` is discarded and counted as malformed. -/

namespace Sys2Proof

/-- Octets after the EtherType of an Ethernet frame (R169, R41). -/
def frameOctetsOk (n : Nat) : Bool := 46 ≤ n && n ≤ 1500

/-- The content a quay frame can carry behind its 10-octet header. -/
def maxContent : Nat := 1490

/-- Well-formedness of a command. -/
def Instr.wf : Instr → Bool
  | .uplinkFrameDiscarded _ octets => frameOctetsOk octets.length
  | .craneDown _ _ payload => 1 ≤ payload.length && payload.length ≤ maxContent
  | .mgmtRequest _ _ _ data => data.length + 2 ≤ maxContent
  | .generalFrame _ _ payload => 1 ≤ payload.length && payload.length + 6 ≤ maxContent
  | .craneUp _ _ _ payload => 2 ≤ payload.length && payload.length + 8 < 65536
  | .reeferReport _ r => r.alarms.length ≤ 4
  | .generalUp _ _ payload => 1 ≤ payload.length && payload.length + 6 < 65536
  | .turnMarker _ _ records => records.length ≤ 8
  | .checkTimerExpiry index => 1 ≤ index && index ≤ 16
  | .resetNAssert | .resetNRelease _ | .linkUp | .linkLoss | .frameSent | .craneResume _ _ | .drainOpen _ _ _
  | .drainCheck _ _ _ _ | .drainPause _ _ | .drainResume _ _ | .drainStop _ _ | .cycleTimerExpiry _
  | .backoffTimerExpiry _ | .stableTimerExpiry _ | .signalLoss _ | .fillBlock _ | .openerReturned _
  | .undeliveredDownlink _ | .abortMarker _ | .malformedBlock _ _ | .supervisionTimerExpiry _
  | .handoverCountdownExpiry _ | .failedTargetBarExpiry _ | .reportTick | .missCharge _ | .generalAgeOut _
  | .sealTimeExpiry _ | .pauseTimerExpiry | .transactionTimerExpiry | .identify | .readParams | .setParams
  | .loadBegin | .loadSegment | .loadEnd | .readCrane | .readCell | .readChain | .readReefer | .readGroup
  | .readBatches | .readDrain | .readCounters | .clearExcursion | .clearGroup | .releaseCrane | .barCell
  | .unbarCell | .chainEnable | .chainDisable | .restartTraffic | .restartAll | .unknownRequest
  | .rollcallLedBlink _ => true

end Sys2Proof
end

