-- ==== Sys2Proof/Decode.lean ====
section
/-! DEFINITION. Words to commands. No row of spec/opcode_table.json gives bits (98_reader.md: 63 rows, none with fixed
bits), so no word spells a command. Octets of frames, blocks and staged tables are read in Machine/Formats.lean and
Machine/Operands.lean. -/

namespace Sys2Proof

/-- The command a table word spells: none, for every width and word. -/
def decodeTableWord (_nbits _w : Nat) : Option Instr := none

end Sys2Proof
end

