-- ==== Sys2Proof/Config.lean ====
section
/-! DEFINITION. What the Q240 fixes once: capacities, fixed counts and times. The fields of what the part sends whose
width or absent form the manual does not give are a free value of Machine/Encodings.lean (log 19), and the fill of a slot
one of Machine/Wire.lean (log 32); the orders it leaves open are the order of the commands (log 28) and the list
`choices` of the state (log 8). -/

namespace Sys2Proof
namespace Config

/-- Quarter milliseconds in a millisecond: the finest step of the cycle timer (R2, log 1). -/
def quartersPerMs : Nat := 4

/-- Capacity of the crane-up queue (9.1). -/
def craneUpCapacity : Nat := 64
/-- Capacity of the control queue (9.1). -/
def controlCapacity : Nat := 32
/-- Capacity of the drain queue (9.1). -/
def drainCapacity : Nat := 1
/-- Capacity of the general-up queue (9.1). -/
def generalUpCapacity : Nat := 256
/-- The run of upper grants after which a lower class is granted (R148, R149). -/
def runLimit : Nat := 8

/-- Capacity of a chain's general downlink queue (R22). -/
def generalDownCapacity : Nat := 128
/-- Good turns in a row that complete roll call (R4). -/
def goodTurnsNeeded : Nat := 4
/-- Turns judged after which roll call fails (R4). -/
def rollcallLimit : Nat := 32
/-- First backoff, in ms (R1). -/
def firstBackoff : Nat := 100
/-- Ceiling of the backoff, in ms (R7). -/
def maxBackoff : Nat := 1600
/-- Continuous RUNNING that resets the backoff, in ms (R5). -/
def stableMs : Nat := 10000
/-- Slots of downlink for each quarter millisecond of the cycle period (R11). -/
def slotsPerQuarter : Nat := 32
/-- Octets in a slot (00, Conventions). -/
def slotOctets : Nat := 128

/-- Fault-free records that take a JOINING cell UP (R24, R27). -/
def joinCycles : Nat := 3
/-- Low-quality records that take an UP cell to FADING (R24, R27). -/
def fadeCycles : Nat := 8
/-- Good records that take a FADING cell UP (R24, R27). -/
def recoverCycles : Nat := 16
/-- Most slots the cells of a chain may be budgeted (R25). -/
def chainBudget : Nat := 128
/-- Most octets of payload after the unit address of a GENERAL-UP block that is forwarded (R41). -/
def generalUpPayload : Nat := 1484
/-- Records of the general unit table (R40). -/
def generalUnits : Nat := 1024

/-- Most octets of control payload a CRANE-DOWN may carry (R54). -/
def craneDownPayload : Nat := 1020
/-- Entries of a crane's downlink queue (R55). -/
def craneQueueCapacity : Nat := 16
/-- Ceiling of the crane and station miss counts (R63). -/
def missCeiling : Nat := 15
/-- Default supervision interval in ms, loss limit and hold-off of a crane definition (R46). -/
def defaultInterval : Nat := 100
def defaultLossLimit : Nat := 3
def defaultHoldOff : Nat := 2

/-- Ceiling of a reefer's miss count and of its masked count (R106). -/
def reeferMissCeiling : Nat := 15
def maskedCeiling : Nat := 255

/-- Entries in a full batch (R111). -/
def batchEntries : Nat := 64
/-- FREE batches needed to open a routine batch and an urgent batch (R116). -/
def routineReserve : Nat := 3
def urgentReserve : Nat := 1

/-- Bursts that may await their checks at once (R130). -/
def checkWindow : Nat := 2
/-- Octets of entries in one DRAIN-BURST frame (R131). -/
def burstOctets : Nat := 1024
/-- Highest credit of a DRAIN-OPEN (R129). -/
def maxCredit : Nat := 16
/-- Seed of the CRC of a burst (R132) and of a load transaction (R160). -/
def burstSeed : U16 := 0xC3A5#16
def loadSeed : U16 := 0xFFFF#16

/-- Requests the request queue holds (R155). -/
def requestCapacity : Nat := 8
/-- Octets of the staging memory, and of one segment (R160, R161). -/
def stagingOctets : Nat := 65536
def segmentOctets : Nat := 1024
/-- Most segments of a transaction (R160). -/
def maxSegments : Nat := 64
/-- Transaction timer, in ms (R160). -/
def transactionMs : Nat := 2000

/-- Part code and revision number of the identification record (R159). -/
def partCode : Nat := 0x0240
def revision : Nat := 1

end Config
end Sys2Proof
end

