-- ==== Sys2Proof/Machine/State.lean ====
section
/-! DEFINITION. The state of the Q240, block by block, as plain data, with its value after power-on (R168).
Field tables: R1 (chains), R23, R36, R38, R40 (coverage), R44, R74 (crane links), R92, R94 (reefers), R111 (pool),
R126 (drain), R143 (port), R154, R157 (management). -/

namespace Sys2Proof
namespace Machine

/-! ### Names -/

/-- Link state of the uplink port (R143). -/
inductive LinkState | down | up
  deriving DecidableEq, Repr

/-- The four classes of outgoing traffic, in rank order (9.1). -/
inductive TxClass | craneUp | control | drain | generalUp
  deriving DecidableEq, Repr

/-- Chain states (R1). -/
inductive ChainState | disabled | rollcall | running | broken
  deriving DecidableEq, Repr

/-- Causes of a CHAIN-STATE notice (R9). -/
inductive ChainCause
  | enabled | rollcallDone | rollcallFailed | missedTurns | abort | signalLoss | backoffExpired | disabled
  deriving DecidableEq, Repr

/-- Unit states of a cell (R23). -/
inductive UnitState | absent | joining | up | fading | down
  deriving DecidableEq, Repr

/-- Causes of a CELL-CHANGE notice (R35). -/
inductive CycleEndCause | turn | missedTurn | noCycle | chainLeft
  deriving DecidableEq, Repr

/-- Crane states (R45). -/
inductive CraneState | vacant | idle | linked | handover | lost
  deriving DecidableEq, Repr

/-- Boom positions (R52). -/
inductive Boom | raised | lowered | unknown
  deriving DecidableEq, Repr

/-- Causes of a CRANE-LOST notice (R72). -/
inductive LostCause | craneSilent | stationSilent | bothSilent
  deriving DecidableEq, Repr

/-- Causes of a CRANE-RESUME-REFUSED notice (R70). -/
inductive ResumeRefusal | notLost | stillSilent
  deriving DecidableEq, Repr

/-- Causes of a CRANE-NOROOM notice (R49). -/
inductive NoRoomCause | notUsable | noRoom
  deriving DecidableEq, Repr

/-- Causes of a HANDOVER-DONE notice (R91). -/
inductive DoneCause | planned | craneLed
  deriving DecidableEq, Repr

/-- Causes of a handover failure (R84). -/
inductive FailCause | timeout | targetUnusable | chainLeft | lost
  deriving DecidableEq, Repr

/-- Causes of a HANDOVER-DEFERRED notice (R79). -/
inductive DeferCause | noCandidate | noRoom
  deriving DecidableEq, Repr

/-- Reefer states (6.1). -/
inductive ReeferState | vacant | expected | reporting | silent
  deriving DecidableEq, Repr

/-- Classes of a report (R98), in the order of their wire codes (11.4). -/
inductive ReportClass | below | within | above | exempt
  deriving DecidableEq, Repr

/-- Reefer modes (6.4), in the order of their wire codes. -/
inductive Mode | chill | frozen | defrost | off
  deriving DecidableEq, Repr

/-- Reefer power sources (6.4), in the order of their wire codes. -/
inductive Power | mains | genset | none
  deriving DecidableEq, Repr

/-- Kinds of entry (R112). -/
inductive EntryKind | report | returned | silent
  deriving DecidableEq, Repr

/-- Batch states (R111). -/
inductive BatchState | free | openUrgent | openRoutine | sealed | inFlight
  deriving DecidableEq, Repr

/-- Causes of sealing (R119). -/
inductive SealCause | full | age | drainOpen
  deriving DecidableEq, Repr

/-- Drain states (R126). -/
inductive DrainState | closed | sending | paused | closing
  deriving DecidableEq, Repr

/-- Outcomes of a drain (R140; 11.2 gives the codes of the first eight; LINK-LOSS is only recorded, R126). -/
inductive DrainOutcome
  | complete | short | stop | pauseLimit | checkTimeout | protocol | empty | busy | linkLoss
  deriving DecidableEq, Repr

/-- Phases of a burst (R126). -/
inductive BurstPhase | sending | awaiting
  deriving DecidableEq, Repr

/-- Statuses of a response, in the order the catalogue lists them (10.1). -/
inductive Status
  | ok | busy | unknownRequest | range | state | inUse | duplicateAddress | noLoad | sequence | tooLarge
  | crcMismatch | notFound
  deriving DecidableEq, Repr

/-- The tables a load transaction may name (R160). -/
inductive Table | cranes | cells | coverage | reefers | groups
  deriving DecidableEq, Repr

/-- Causes of an abandoned transaction (R162). -/
inductive AbandonCause | interleaved | refused | timeout | linkLoss
  deriving DecidableEq, Repr

/-! ### Timebase and signals -/

/-- The millisecond count (R167, R168) and the quarter of the current millisecond (log 1). -/
structure Timebase where
  ms : U32 := 0
  quarter : Fin 4 := 0
  deriving DecidableEq, Repr

/-- The LED drivers: lit or dark (R172). -/
structure Leds where
  link : Bool := false
  chn : Bool := false
  chs : Bool := false
  deriving DecidableEq, Repr

/-! ### Chain records (R1) -/

/-- Counters of a chain (1.7). -/
structure ChainCounters where
  openersSent : Counter := 0
  returnedTurns : Counter := 0
  missedTurns : Counter := 0
  staleTurns : Counter := 0
  staleStatus : Counter := 0
  breaks : Counter := 0
  aborts : Counter := 0
  signalLosses : Counter := 0
  malformed : Counter := 0
  ungranted : Counter := 0
  undelivered : Counter := 0
  generalFull : Counter := 0
  generalStale : Counter := 0
  generalFlushed : Counter := 0
  deriving DecidableEq, Repr

/-- A frame of the general downlink queue (R22). -/
structure GeneralDown where
  cell : CellId
  unit : Addr
  payload : List Byte
  deriving DecidableEq, Repr

/-- Lost reasons of a crane (R44). -/
structure LostReasons where
  craneSilent : Bool := false
  stationSilent : Bool := false
  deriving DecidableEq, Repr

/-- A downlink block as it is built into a cycle (R12; contents 11.3). -/
inductive DownBlock
  | hold (cell : CellId) (radio : Addr) (reasons : LostReasons) (stamp : U32)
  | handoverNotice (cell : CellId) (radio : Addr) (anchor target : CellId) (stamp : U32)
  | keep (cell : CellId) (radio : Addr) (stamp : U32)
  | craneDown (cell : CellId) (radio : Addr) (payload : List Byte)
  | generalDown (cell : CellId) (unit : Addr) (payload : List Byte)
  deriving DecidableEq, Repr

/-- A cycle as put on the line: the opener's number and slot count, the downlink blocks in order, and the grant pairs of
the turn marker in position order, crane grant then open grant (R15). -/
structure LineCycle where
  cycle : Byte
  slots : Nat
  blocks : List DownBlock
  grants : List (Nat × Nat)
  deriving DecidableEq, Repr

/-- A chain record (R1). -/
structure ChainRec where
  state : ChainState := .disabled
  cycle : Byte := 0
  awaited : Option Byte := none
  missed : Nat := 0
  nextBackoff : Nat := Config.firstBackoff
  backoff : Timer := none
  stable : Timer := none
  goodTurns : Nat := 0
  rollcallTurns : Nat := 0
  heard : List CellId := []
  lastAbort : Option CellId := none
  cranePtr : Option CraneId := none
  /-- Quarter milliseconds since the line last carried a block (log 17). -/
  silence : Nat := 0
  generalQ : List GeneralDown := []
  counters : ChainCounters := {}
  /-- Quarter milliseconds to the next expiry of the cycle timer (R10). -/
  cycleTimer : Nat := Config.quartersPerMs
  /-- The cycle last put on the line (R16; log 12). -/
  line : Option LineCycle := none
  deriving DecidableEq, Repr

/-! ### Coverage Unit -/

/-- A cell record (R23). The cell number and the chain follow from its place in the table. -/
structure Cell where
  position : Fin 8 := 0
  fitted : Bool := false
  budget : Nat := 0
  barred : Bool := false
  unit : UnitState := .absent
  quality : Fin 16 := 0
  backlog : Byte := 0
  progress : Nat := 0
  missCount : Nat := 0
  shadowCount : Nat := 0
  reserved : Nat := 0
  changed : Bool := false
  uplinkBlocks : Counter := 0
  downlinkBlocks : Counter := 0
  statusMisses : Counter := 0
  deriving DecidableEq, Repr

/-- A band entry of the coverage map (R36). -/
structure Band where
  ranked : List CellId := []
  shadow : List CellId := []
  deriving DecidableEq, Repr

/-- What a directory entry names (R38). -/
inductive DirTarget
  | crane (k : CraneId)
  | reefer (i : ReeferId)
  | general (j : GeneralId)
  deriving DecidableEq, Repr

/-- A general unit record in use (R40). Age in seconds. -/
structure GeneralRec where
  unit : Addr
  cell : CellId
  age : Nat
  deriving DecidableEq, Repr

/-- Counters of the Coverage Unit (2.9). -/
structure CoverageCounters where
  ignoredStatus : Counter := 0
  reserveRefusals : Counter := 0
  changeQueued : Counter := 0
  changeDeferred : Counter := 0
  learned : Counter := 0
  notLearnedOff : Counter := 0
  notLearnedFull : Counter := 0
  fromDefined : Counter := 0
  oversize : Counter := 0
  agedOut : Counter := 0
  evicted : Counter := 0
  noRoute : Counter := 0
  unknownUnit : Counter := 0
  toDefined : Counter := 0
  deriving DecidableEq, Repr

/-- The Coverage Unit. The directory is keyed by address, the general table by record index, both in rising order
(log 7). -/
structure Coverage where
  cells : Vector Cell 16
  map : Vector Band 64
  directory : List (Nat × DirTarget) := []
  general : List (Nat × GeneralRec) := []
  counters : CoverageCounters := {}
  deriving DecidableEq, Repr

/-! ### Crane Link Unit -/

/-- A crane definition (R46): addresses, slots, interval in ms, limits. -/
structure CraneDef where
  station : Addr
  radio : Addr
  reservation : Nat
  interval : Nat
  lossLimit : Nat
  holdOff : Nat
  deriving DecidableEq, Repr

/-- A duplicate window (R50): the base and a mark for each of the 64 numbers at and below it; bit i marks base - i. -/
structure Window where
  base : U16
  marks : BitVec 64
  deriving DecidableEq, Repr

/-- An entry of a crane's downlink queue (R55). -/
structure DownEntry where
  payload : List Byte
  dests : List CellId
  deriving DecidableEq, Repr

/-- Counters of a crane (3.8, 4.9, 5.10). -/
structure CraneCounters where
  uplinkBlocks : Counter := 0
  firstContactRefused : Counter := 0
  duplicates : Counter := 0
  stale : Counter := 0
  forwarded : Counter := 0
  stationFrames : Counter := 0
  badSource : Counter := 0
  notLinked : Counter := 0
  oversize : Counter := 0
  noDestination : Counter := 0
  queued : Counter := 0
  overflow : Counter := 0
  copies : Counter := 0
  undeliverable : Counter := 0
  keepSent : Counter := 0
  keepReplaced : Counter := 0
  craneMisses : Counter := 0
  stationMisses : Counter := 0
  losses : Counter := 0
  flushed : Counter := 0
  holdsSent : Counter := 0
  holdsWithdrawn : Counter := 0
  resumes : Counter := 0
  resumeRefused : Counter := 0
  releases : Counter := 0
  starts : Counter := 0
  done : Counter := 0
  craneLed : Counter := 0
  failures : Counter := 0
  deferrals : Counter := 0
  stray : Counter := 0
  noticesWithdrawn : Counter := 0
  deriving DecidableEq, Repr

/-- A crane record (R44). `holds` and `keeps` pair each cell with the stamp its block carries (R59, R68; log 24).
`oldHoldOff` is the hold-off still used until the next position report after a load has raised it (R47; log 31). -/
structure Crane where
  defn : Option CraneDef := none
  oldHoldOff : Option Nat := none
  state : CraneState := .vacant
  anchor : Option CellId := none
  target : Option CellId := none
  countdown : Nat := 0
  bar : Option (CellId × Nat) := none
  deferred : Bool := false
  progress : Nat := 0
  band : Option BandId := none
  boom : Boom := .unknown
  shadow : List CellId := []
  craneHeard : Bool := false
  stationHeard : Bool := false
  craneMiss : Nat := 0
  stationMiss : Nat := 0
  lost : LostReasons := {}
  downlinkSent : Bool := false
  holds : List (CellId × U32) := []
  keeps : List (CellId × U32) := []
  window : Option Window := none
  queue : List DownEntry := []
  supervision : Timer := none
  counters : CraneCounters := {}
  deriving DecidableEq, Repr

/-- A pending HANDOVER-NOTICE block (R74, R81). -/
structure PendingNotice where
  crane : CraneId
  cell : CellId
  anchor : CellId
  target : CellId
  stamp : U32
  deriving DecidableEq, Repr

/-- The Crane Link Unit. -/
structure CraneLink where
  cranes : Vector Crane 12
  notices : List PendingNotice := []
  unknownCrane : Counter := 0
  unknownSubject : Counter := 0
  deriving DecidableEq, Repr

/-! ### Reefer Unit -/

/-- A group definition (R92). Interval in seconds, bands and deadband in tenths of a degree. -/
structure GroupDef where
  interval : Nat
  silentLimit : Nat
  bandBelow : Nat
  bandAbove : Nat
  deadband : Nat
  reload : Nat
  excursionEnable : Bool
  deriving DecidableEq, Repr

/-- A group record (R92); not defined when `defn` is none. -/
structure Group where
  defn : Option GroupDef := none
  summary : Bool := false
  members : Nat := 0
  deriving DecidableEq, Repr

/-- A reefer definition (R94). -/
structure ReeferDef where
  unit : Addr
  group : GroupId
  deriving DecidableEq, Repr

/-- The last forwarded values (R94); the alarm set without repeats, in the order the codes first stood. -/
structure Forwarded where
  supply : U16
  ret : U16
  setpoint : U16
  mode : Mode
  power : Power
  alarms : List U16
  deriving DecidableEq, Repr

/-- Counters of a reefer (6.10). -/
structure ReeferCounters where
  invalid : Counter := 0
  duplicates : Counter := 0
  taken : Counter := 0
  excursions : Counter := 0
  suppressed : Counter := 0
  forwarded : Counter := 0
  dropped : Counter := 0
  returned : Counter := 0
  misses : Counter := 0
  maskedMisses : Counter := 0
  silences : Counter := 0
  deriving DecidableEq, Repr

/-- A reefer record (R94). -/
structure Reefer where
  defn : Option ReeferDef := none
  state : ReeferState := .vacant
  cell : Option CellId := none
  lastSeq : Option Byte := none
  last : Option Forwarded := none
  cls : Option ReportClass := none
  excursion : Bool := false
  countdown : Nat := 0
  owed : Bool := false
  age : Nat := 0
  miss : Nat := 0
  masked : Nat := 0
  ref : Option (BatchId × Nat) := none
  counters : ReeferCounters := {}
  deriving DecidableEq, Repr

/-- The Reefer Unit. Reefers that are not VACANT are listed by index in rising order (log 7). -/
structure ReeferUnit where
  groups : Vector Group 64
  reefers : List (Nat × Reefer) := []
  unknown : Counter := 0
  deriving DecidableEq, Repr

/-! ### Batch Pool -/

/-- The report fields an entry carries when it is not a SILENT entry (R112). -/
structure EntryReport where
  seq : Byte
  mode : Mode
  power : Power
  supply : U16
  ret : U16
  setpoint : U16
  deriving DecidableEq, Repr

/-- An entry (R112). -/
structure Entry where
  kind : EntryKind
  urgent : Bool
  reefer : ReeferId
  unit : Addr
  report : Option EntryReport
  cls : Option ReportClass
  excursion : Bool
  cell : Option CellId
  alarms : List U16
  deriving DecidableEq, Repr

/-- A batch (R111). `age` is the open age in quarter milliseconds (log 23). -/
structure Batch where
  state : BatchState := .free
  urgency : Option Urgency := none
  age : Nat := 0
  stamp : Option U32 := none
  entries : List Entry := []
  deriving DecidableEq, Repr

/-- Counters of the pool (7.9). -/
structure PoolCounters where
  placed : Counter := 0
  overwrites : Counter := 0
  upgrades : Counter := 0
  overflow : Counter := 0
  droppedRoutine : Counter := 0
  droppedUrgent : Counter := 0
  episodes : Counter := 0
  openedUrgent : Counter := 0
  openedRoutine : Counter := 0
  sealedFull : Counter := 0
  sealedAge : Counter := 0
  sealedDrainOpen : Counter := 0
  removed : Counter := 0
  good : Counter := 0
  pruned : Counter := 0
  returned : Counter := 0
  freedEmpty : Counter := 0
  deriving DecidableEq, Repr

/-- The Batch Pool (R111). -/
structure Pool where
  batches : Vector Batch 32
  sealedList : List BatchId := []
  stamp : U32 := 0
  exhausted : Bool := false
  counters : PoolCounters := {}
  deriving DecidableEq, Repr

/-! ### Drain Engine -/

/-- A burst of the check window (R126). -/
structure Burst where
  index : Nat
  batch : BatchId
  count : Nat
  remaining : List Entry
  crc : U16
  phase : BurstPhase
  check : Timer
  framesBuilt : Nat
  framesSent : Nat
  deriving DecidableEq, Repr

/-- What the first frame of a burst carries besides (R131). -/
structure BurstHead where
  stamp : U32
  urgency : Urgency
  count : Nat
  deriving DecidableEq, Repr

/-- A DRAIN-BURST frame (R131). -/
structure BurstFrame where
  tag : U16
  index : Nat
  number : Nat
  head : Option BurstHead
  last : Bool
  entries : List Entry
  deriving DecidableEq, Repr

/-- Counters of the Drain Engine (8.13). -/
structure DrainCounters where
  badSource : Counter := 0
  noDrain : Counter := 0
  wrongTag : Counter := 0
  busyRefused : Counter := 0
  openRefused : Counter := 0
  empty : Counter := 0
  opened : Counter := 0
  started : Counter := 0
  framesSent : Counter := 0
  good : Counter := 0
  failed : Counter := 0
  pauses : Counter := 0
  ignored : Counter := 0
  lateCheck : Counter := 0
  complete : Counter := 0
  short : Counter := 0
  stopped : Counter := 0
  pauseLimit : Counter := 0
  checkTimeout : Counter := 0
  protocol : Counter := 0
  linkLoss : Counter := 0
  endDropped : Counter := 0
  deriving DecidableEq, Repr

/-- The Drain Engine (R126). `disregard`: a frame already chosen when its burst was withdrawn is still on the line, and
its send report is to be disregarded (R139; log 13). -/
structure Drain where
  state : DrainState := .closed
  tag : Option U16 := none
  credit : Option Nat := none
  started : Nat := 0
  good : Nat := 0
  firstFailed : Option Nat := none
  delivered : Nat := 0
  cause : Option DrainOutcome := none
  lastOutcome : Option DrainOutcome := none
  pause : Timer := none
  window : List Burst := []
  staging : Option BurstFrame := none
  disregard : Bool := false
  counters : DrainCounters := {}
  deriving DecidableEq, Repr

/-! ### Management Unit -/

/-- The features (R157). -/
structure Features where
  craneLed : Bool := true
  keepFrames : Bool := true
  missMasking : Bool := true
  generalLearning : Bool := true
  deriving DecidableEq, Repr

/-- The parameter set (R157), each at its reset value. The cycle period is counted in quarter milliseconds; seal, check
and pause times in ms, but for the routine seal time and the general age-out, in seconds. -/
structure Params where
  quayType : U16 := 0x88B6#16
  mgmtHead : BitVec 40 := 0x02415A5124#40
  controller : Option Addr := none
  collector : Option Addr := none
  managers : List Addr := []
  cyclePeriod : Nat := 4
  downlinkCapacity : Nat := 64
  breakLimit : Nat := 3
  statusMissLimit : Nat := 4
  fadeLevel : Nat := 4
  recoverLevel : Nat := 6
  urgentSealMs : Nat := 100
  routineSealS : Nat := 30
  checkWaitMs : Nat := 50
  pauseLimitMs : Nat := 200
  ageOutS : Nat := 300
  handoverLimit : Nat := 16
  handoverBar : Nat := 32
  features : Features := {}
  deriving DecidableEq, Repr

/-- A management request as it was received (R155): the source, the request id, the command number and its data. -/
structure Request where
  src : Addr
  id : U16
  command : U16
  data : List Byte
  deriving DecidableEq, Repr

/-- An open load transaction (R154, R160). Its staged octet count is the length of the staging memory. -/
structure Transaction where
  table : Table
  segments : Nat
  total : Nat
  next : Nat
  crc : U16
  deriving DecidableEq, Repr

/-- Counters of the Management Unit (10.7). -/
structure MgmtCounters where
  taken : Counter := 0
  busy : Counter := 0
  responsesRefused : Counter := 0
  opened : Counter := 0
  applied : Counter := 0
  refused : Counter := 0
  abandonedInterleaved : Counter := 0
  abandonedRefused : Counter := 0
  abandonedTimeout : Counter := 0
  abandonedLinkLoss : Counter := 0
  deriving DecidableEq, Repr

/-- The Management Unit (R154). -/
structure Mgmt where
  queue : List Request := []
  current : Option Request := none
  load : Option Transaction := none
  staging : List Byte := []
  timer : Timer := none
  abandoned : Bool := false
  params : Params := {}
  strap : Byte := 0
  counters : MgmtCounters := {}
  deriving DecidableEq, Repr

/-! ### Frames the part sends -/

/-- An item of a CELL-CHANGE notice (R35). -/
structure CellItem where
  cell : CellId
  unit : UnitState
  usable : Bool
  shadowCount : Nat
  deriving DecidableEq, Repr

/-- The notices, in the order of the table of R151, with cause and further fields (R9, R35, R72, R91, R118). -/
inductive Notice
  | craneLost (k : CraneId) (cause : LostCause) (anchor : Option CellId) (band : Option BandId) (boom : Boom)
      (held : List CellId)
  | craneResumed (k : CraneId) (anchor : Option CellId)
  | craneResumeRefused (k : CraneId) (cause : ResumeRefusal) (state : CraneState) (craneMiss stationMiss : Nat)
  | craneNoRoom (k : CraneId) (cause : NoRoomCause) (cell : CellId)
  | handoverDone (k : CraneId) (cause : DoneCause) (old new : Option CellId) (band : Option BandId)
  | handoverFailed (k : CraneId) (cause : FailCause) (anchor target : Option CellId) (bar : Option Nat)
  | handoverDeferred (k : CraneId) (cause : DeferCause) (anchor : Option CellId) (band : Option BandId)
      (anchorUsable : Bool) (tried : List CellId)
  | cellChange (c : Chain) (cause : CycleEndCause) (items : List CellItem)
  | chainState (c : Chain) (cause : ChainCause) (new : ChainState) (abortCell : Option CellId)
  | poolExhausted (cause : Urgency) (reefer : ReeferId) (kind : EntryKind) (free sealed inFlight : Nat)
  deriving DecidableEq, Repr

/-- The figures of a DRAIN-END (R140). -/
structure DrainEnd where
  tag : U16
  outcome : DrainOutcome
  started : Nat
  good : Nat
  firstFailed : Option Nat
  delivered : Nat
  deriving DecidableEq, Repr

/-- READ-CRANE's answer for a crane that is not VACANT (R60): the record without the model's own field of R47 (log 31), the
depth and pending sets of the queue, and the base and mark count of the window in place of their contents; and the ms that
remain to the supervision timer's next expiry. -/
structure CraneReading where
  record : Crane
  supervision : Option Nat
  queueDests : List (List CellId)
  window : Option (U16 × Nat)
  deriving DecidableEq, Repr

/-- READ-CHAIN's answer (R1): the record with the queue's depth in place of its contents, and its times in ms: what remains
of the two timers, and the time since the line last carried a block. -/
structure ChainReading where
  record : ChainRec
  backoff : Option Nat
  stable : Option Nat
  silence : Nat
  depth : Nat
  deriving DecidableEq, Repr

/-- One batch of READ-BATCHES' answer (R125), its open age in ms (R111). -/
structure BatchReading where
  state : BatchState
  urgency : Option Urgency
  entries : Nat
  marked : Nat
  age : Nat
  stamp : Option U32
  deriving DecidableEq, Repr

/-- One burst of READ-DRAIN's answer (R142), the time remaining on its check timer in ms. -/
structure BurstReading where
  index : Nat
  batch : BatchId
  count : Nat
  phase : BurstPhase
  framesSent : Nat
  check : Option Nat
  deriving DecidableEq, Repr

/-- READ-DRAIN's answer (R142): the record without window and staging area, the pause timer's time remaining in ms, the
window's bursts, the counters. -/
structure DrainReading where
  state : DrainState
  tag : Option U16
  credit : Option Nat
  started : Nat
  good : Nat
  firstFailed : Option Nat
  delivered : Nat
  cause : Option DrainOutcome
  lastOutcome : Option DrainOutcome
  pause : Option Nat
  window : List BurstReading
  counters : DrainCounters
  deriving DecidableEq, Repr

/-- Counters of the uplink port kept once per class (9.9). -/
structure ClassCounters where
  queued : Counter := 0
  full : Counter := 0
  linkDown : Counter := 0
  sent : Counter := 0
  aborted : Counter := 0
  flushed : Counter := 0
  deriving DecidableEq, Repr

/-- Counters of the uplink port (9.9). -/
structure PortCounters where
  linkLoss : Counter := 0
  otherType : Counter := 0
  notAddressed : Counter := 0
  badHeader : Counter := 0
  malformed : Counter := 0
  unknownKind : Counter := 0
  received : Counter := 0
  managerRefused : Counter := 0
  drainWithdrawn : Counter := 0
  noticesQueued : Counter := 0
  noticesDropped : Counter := 0
  noticesSuppressed : Counter := 0
  craneUp : ClassCounters := {}
  control : ClassCounters := {}
  drain : ClassCounters := {}
  generalUp : ClassCounters := {}
  deriving DecidableEq, Repr

/-- The data of a response (the rule of each request; log 19). -/
inductive ResponseData
  | none
  | identification (partCode revision : Nat) (capacities : List Nat) (supported enabled : Features) (mgmt : Addr)
  | params (p : Params) (strap : Byte)
  /-- The first item at fault of a refused SET-PARAMS list, from 0 (R157; log 18). -/
  | itemAtFault (position : Option Nat)
  /-- The transaction as it stands when a load request is answered (R154), with the staged octet count. -/
  | load (t : Option Transaction) (staged : Nat)
  /-- An applied load: the number of entries, and the transaction fields (R163, R154). -/
  | loadApplied (entries : Nat) (t : Option Transaction) (staged : Nat)
  /-- A load refused by validation: the position of the first entry at fault, and the transaction fields. -/
  | loadRefused (position : Option Nat) (t : Option Transaction) (staged : Nat)
  | vacantCrane
  | crane (r : CraneReading)
  | cell (x : CellId) (c : Chain) (r : Cell)
  | chain (r : ChainReading)
  | reefers (first : Nat) (rs : List Reefer)
  | undefinedGroup
  | group (g : Group)
  | batches (bs : List BatchReading) (sealedList : List BatchId) (free : Nat) (stamp : U32) (exhausted : Bool)
  | drain (r : DrainReading)
  | portCounters (c : PortCounters)
  | chainCounters (c : ChainCounters)
  | coverageCounters (c : CoverageCounters) (cells : List (Counter × Counter × Counter))
  | craneCounters (unknownCrane unknownSubject : Counter) (c : CraneCounters)
  | reeferCounters (unknown : Counter) (cs : List ReeferCounters)
  | poolCounters (c : PoolCounters)
  | drainCounters (c : DrainCounters)
  | mgmtCounters (c : MgmtCounters)
  /-- CLEAR-EXCURSION: the flag as it stood before (R108). -/
  | flagBefore (b : Bool)
  /-- CLEAR-GROUP: the members whose flag was set before (R109). -/
  | membersCleared (n : Nat)
  /-- RELEASE-CRANE: the state before the release (R71). -/
  | stateBefore (st : CraneState)
  deriving DecidableEq, Repr

/-- What a frame the part sends carries (11.2). -/
inductive TxContent
  | craneUp (k : CraneId) (seq : U16) (payload : List Byte)
  | general (unit : Addr) (payload : List Byte)
  | drainBurst (b : BurstFrame)
  | drainEnd (d : DrainEnd)
  | response (id : U16) (command : U16) (status : Status) (abandoned changed : Bool) (data : ResponseData)
  | notice (stamp : U32) (n : Notice)
  deriving DecidableEq, Repr

/-- A quay frame the part sends, complete as it was offered (R147). -/
structure TxFrame where
  dst : Addr
  src : Addr
  etherType : U16
  content : TxContent
  deriving DecidableEq, Repr

/-- The uplink port record (R143). -/
structure Port where
  link : LinkState := .down
  tx : Option (TxClass × TxFrame) := none
  craneUpQ : List TxFrame := []
  controlQ : List TxFrame := []
  drainQ : List TxFrame := []
  generalUpQ : List TxFrame := []
  run : Nat := 0
  counters : PortCounters := {}
  deriving DecidableEq, Repr

/-! ### The machine -/

/-- What other blocks have handed the Crane Link Unit and it has not yet taken: a usability change naming a cell (R31), a
notice that room has grown (R32), a map change (R37). Each is an event of its own, taken after the event that caused it
(R75; log 9). -/
inductive CluEvent
  | usability (x : CellId)
  | room (x : CellId)
  | mapChange
  deriving DecidableEq, Repr

/-- The whole machine and the queue of commands. -/
structure State where
  time : Timebase := {}
  /-- RESET_N is held asserted (R168). -/
  held : Bool := false
  leds : Leds := {}
  port : Port := {}
  chainN : ChainRec := {}
  chainS : ChainRec := {}
  cov : Coverage
  clu : CraneLink
  ree : ReeferUnit
  pool : Pool
  drain : Drain := {}
  mgmt : Mgmt := {}
  events : List CluEvent := []
  /-- Orders that R84 leaves open, one for each chain departure: true when the usability changes are taken before the
  controller's word; the word first when the list is used up (log 8). -/
  choices : List Bool := []
  /-- Commands waiting, first in first out. -/
  pending : List Instr := []
  deriving DecidableEq, Repr

/-- The ways a step can stop with a fault: none. The spec gives every event an effect (log 21), so no meaning raises one;
safe. -/
inductive Fault : Type
  deriving DecidableEq, Repr

/-- The ways a command can be refused. -/
inductive Refusal
  /-- Raised by an arm of `exec` whose command has no meaning yet (none is left); safe. -/
  | notModelled (mnemonic : String)
  deriving DecidableEq, Repr

/-- The cell table after power-on (R23): position the cell number modulo 8, all else at rest. -/
def cellsAtReset : Vector Cell 16 :=
  #v[{ position := 0 }, { position := 1 }, { position := 2 }, { position := 3 },
     { position := 4 }, { position := 5 }, { position := 6 }, { position := 7 },
     { position := 0 }, { position := 1 }, { position := 2 }, { position := 3 },
     { position := 4 }, { position := 5 }, { position := 6 }, { position := 7 }]

/-- The Coverage Unit after power-on. -/
def Coverage.reset : Coverage := { cells := cellsAtReset, map := Vector.replicate 64 {} }

/-- The Crane Link Unit after power-on. -/
def CraneLink.reset : CraneLink := { cranes := Vector.replicate 12 {} }

/-- The Reefer Unit after power-on. -/
def ReeferUnit.reset : ReeferUnit := { groups := Vector.replicate 64 {} }

/-- The Batch Pool after power-on and either restart. -/
def Pool.reset : Pool := { batches := Vector.replicate 32 {} }

/-- The power-on state with a strap octet (R168). -/
def State.powerOn (straps : Byte) : State :=
  { cov := Coverage.reset, clu := CraneLink.reset, ree := ReeferUnit.reset, pool := Pool.reset,
    mgmt := { strap := straps } }

/-- The machine right after the release of RESET_N (R168). DESIGN CHOICE: the straps read 0x00 (log 5). -/
def State.reset : State := State.powerOn 0

end Machine
end Sys2Proof
end

