-- ==== Sys2Proof/Machine/Ops.lean ====
section
/-! DEFINITION. The named operations over the tables and registers of the state: every register is read and written
through these. -/

namespace Sys2Proof
namespace Machine

/-! ### Tables -/

/-- A table with every record changed. -/
def tabMap {α β : Type} {n : Nat} (f : α → β) (v : Vector α n) : Vector β n :=
  ⟨⟨v.toList.map f⟩, by simp⟩

/-- The record a keyed list holds for a number. -/
def sparseFind {α : Type} : List (Nat × α) → Nat → Option α
  | [], _ => none
  | (j, v) :: t, i => if j = i then some v else sparseFind t i

/-- A keyed list with the record of a number set, kept in rising order. -/
def sparseInsert {α : Type} : List (Nat × α) → Nat → α → List (Nat × α)
  | [], i, v => [(i, v)]
  | (j, w) :: t, i, v =>
    if i < j then (i, v) :: (j, w) :: t
    else if i = j then (i, v) :: t
    else (j, w) :: sparseInsert t i v

/-- A keyed list without the record of a number. -/
def sparseErase {α : Type} (l : List (Nat × α)) (i : Nat) : List (Nat × α) :=
  l.filter fun e => e.1 != i

/-- The canonical form of a keyed list: numbers strictly rising. -/
abbrev sparseSorted {α : Type} (l : List (Nat × α)) : Prop := l.Pairwise fun a b => a.1 < b.1

/-- The lowest number from `n` up that a rising keyed list does not use (R40). -/
def firstFree {α : Type} : List (Nat × α) → Nat → Nat
  | [], n => n
  | (j, _) :: t, n => if j = n then firstFree t (n + 1) else n

/-! ### Cells, chains and cranes by number -/

/-- The cells in ascending number. -/
def allCells : List CellId := [0, 1, 2, 3, 4, 5, 6, 7, 8, 9, 10, 11, 12, 13, 14, 15]

/-- The cranes in index order. -/
def allCranes : List CraneId := [0, 1, 2, 3, 4, 5, 6, 7, 8, 9, 10, 11]

/-- The batches in number order. -/
def allBatches : List BatchId :=
  [0, 1, 2, 3, 4, 5, 6, 7, 8, 9, 10, 11, 12, 13, 14, 15] ++
  [16, 17, 18, 19, 20, 21, 22, 23, 24, 25, 26, 27, 28, 29, 30, 31]

/-- The chain of a cell: N for 0-7, S for 8-15 (2.1). -/
def chainOf (x : CellId) : Chain := if x.val < 8 then .N else .S

/-- The cells of a chain in ascending number. -/
def cellsOf : Chain → List CellId
  | .N => [0, 1, 2, 3, 4, 5, 6, 7]
  | .S => [8, 9, 10, 11, 12, 13, 14, 15]

/-- The cells of a list in ascending number, each once. -/
def sortCells (l : List CellId) : List CellId := allCells.filter fun x => l.contains x

/-- The cell a received octet names, if it is a cell of the chain. -/
def cellOn (c : Chain) (o : Byte) : Option CellId := (cellsOf c).find? fun x => x.val == o.toNat

/-! ### Records of the state -/

/-- The record of a chain. -/
def State.chain (s : State) : Chain → ChainRec
  | .N => s.chainN
  | .S => s.chainS

/-- The state with a chain's record changed. -/
def State.modChain (s : State) (c : Chain) (f : ChainRec → ChainRec) : State :=
  match c with
  | .N => { s with chainN := f s.chainN }
  | .S => { s with chainS := f s.chainS }

/-- The state with a chain's counters changed. -/
def State.countChain (s : State) (c : Chain) (f : ChainCounters → ChainCounters) : State :=
  s.modChain c fun r => { r with counters := f r.counters }

/-- The record of a cell. -/
def State.cell (s : State) (x : CellId) : Cell := s.cov.cells[x]

/-- The state with a cell's record changed. -/
def State.modCell (s : State) (x : CellId) (f : Cell → Cell) : State :=
  { s with cov := { s.cov with cells := s.cov.cells.set x (f s.cov.cells[x]) } }

/-- The state with the Coverage Unit's counters changed. -/
def State.countCov (s : State) (f : CoverageCounters → CoverageCounters) : State :=
  { s with cov := { s.cov with counters := f s.cov.counters } }

/-- The entry of a band in the coverage map (R36). -/
def State.bandEntry (s : State) (b : BandId) : Band := s.cov.map[b]

/-- The record of a crane. -/
def State.crane (s : State) (k : CraneId) : Crane := s.clu.cranes[k]

/-- The state with a crane's record changed. -/
def State.modCrane (s : State) (k : CraneId) (f : Crane → Crane) : State :=
  { s with clu := { s.clu with cranes := s.clu.cranes.set k (f s.clu.cranes[k]) } }

/-- The state with a crane's counters changed. -/
def State.countCrane (s : State) (k : CraneId) (f : CraneCounters → CraneCounters) : State :=
  s.modCrane k fun c => { c with counters := f c.counters }

/-- The crane's reservation in slots. -/
def Crane.reservation (c : Crane) : Nat := (c.defn.map CraneDef.reservation).getD 0

/-- The crane's radio address, all zero for none (11.1). -/
def Crane.radio (c : Crane) : Addr := (c.defn.map CraneDef.radio).getD 0

/-- The record of a group. -/
def State.group (s : State) (g : GroupId) : Group := s.ree.groups[g]

/-- The state with a group's record changed. -/
def State.modGroup (s : State) (g : GroupId) (f : Group → Group) : State :=
  { s with ree := { s.ree with groups := s.ree.groups.set g (f s.ree.groups[g]) } }

/-- The record of a VACANT reefer (R94). -/
def Reefer.vacant : Reefer := {}

/-- The record of a reefer: the VACANT record when none is listed (log 7). -/
def State.reefer (s : State) (i : ReeferId) : Reefer := (sparseFind s.ree.reefers i.val).getD Reefer.vacant

/-- The state with a reefer's record set; a VACANT record is not listed (log 7). -/
def State.setReefer (s : State) (i : ReeferId) (r : Reefer) : State :=
  { s with ree := { s.ree with reefers :=
      if r = Reefer.vacant then sparseErase s.ree.reefers i.val else sparseInsert s.ree.reefers i.val r } }

/-- The state with a reefer's record changed. -/
def State.modReefer (s : State) (i : ReeferId) (f : Reefer → Reefer) : State :=
  s.setReefer i (f (s.reefer i))

/-- The state with a reefer's counters changed. -/
def State.countReefer (s : State) (i : ReeferId) (f : ReeferCounters → ReeferCounters) : State :=
  s.modReefer i fun r => { r with counters := f r.counters }

/-- The reefer indices listed, in index order. -/
def State.reeferIds (s : State) : List ReeferId :=
  s.ree.reefers.filterMap fun e => if h : e.1 < 4096 then some ⟨e.1, h⟩ else none

/-- The general record indices in use, in index order. -/
def State.generalIds (s : State) : List GeneralId :=
  s.cov.general.filterMap fun e => if h : e.1 < 1024 then some ⟨e.1, h⟩ else none

/-- The record of a FREE batch (R111). -/
def Batch.emptied : Batch := {}

/-- The record of a batch. -/
def State.batch (s : State) (b : BatchId) : Batch := s.pool.batches[b]

/-- The state with a batch's record changed. -/
def State.modBatch (s : State) (b : BatchId) (f : Batch → Batch) : State :=
  { s with pool := { s.pool with batches := s.pool.batches.set b (f s.pool.batches[b]) } }

/-- The state with the pool's counters changed. -/
def State.countPool (s : State) (f : PoolCounters → PoolCounters) : State :=
  { s with pool := { s.pool with counters := f s.pool.counters } }

/-- The state with the drain record changed. -/
def State.modDrain (s : State) (f : Drain → Drain) : State := { s with drain := f s.drain }

/-- The state with the Drain Engine's counters changed. -/
def State.countDrain (s : State) (f : DrainCounters → DrainCounters) : State :=
  s.modDrain fun d => { d with counters := f d.counters }

/-- The state with the Management Unit changed. -/
def State.modMgmt (s : State) (f : Mgmt → Mgmt) : State := { s with mgmt := f s.mgmt }

/-- The state with the Management Unit's counters changed. -/
def State.countMgmt (s : State) (f : MgmtCounters → MgmtCounters) : State :=
  s.modMgmt fun m => { m with counters := f m.counters }

/-- The state with the port record changed. -/
def State.modPort (s : State) (f : Port → Port) : State := { s with port := f s.port }

/-- The state with the port's counters changed. -/
def State.countPort (s : State) (f : PortCounters → PortCounters) : State :=
  s.modPort fun p => { p with counters := f p.counters }

/-- The parameter set in force (R157). -/
def State.params (s : State) : Params := s.mgmt.params

/-- The timebase stamp of an event (R72). -/
def State.now (s : State) : U32 := s.time.ms

/-- The management address: the five-octet head followed by the strap octet (R145). -/
def State.mgmtAddress (s : State) : Addr := s.mgmt.params.mgmtHead ++ s.mgmt.strap

/-- The state with an event handed to the Crane Link Unit (R75; log 9). -/
def State.push (s : State) (e : CluEvent) : State := { s with events := s.events ++ [e] }

/-- A timer started at a number of milliseconds. -/
def startTimer (ms : Nat) : Timer := some (ms * Config.quartersPerMs)

/-- The time remaining on a timer, in ms of the timebase (Conventions, R1, R142). DESIGN CHOICE: a part of a millisecond
counts as a whole one, so that a running timer shows 0 only when its expiry is due (log 23). -/
def msRemaining (t : Timer) : Option Nat := t.map fun n => (n + (Config.quartersPerMs - 1)) / Config.quartersPerMs

/-- A time that has gone by, in whole ms of the timebase (Conventions, R1, R111; log 23). -/
def msGone (quarters : Nat) : Nat := quarters / Config.quartersPerMs

/-- An event of the part, taken unless RESET_N is held asserted (R168). -/
def State.take (s : State) (f : State → State) : Host.Outcome State Fault Refusal :=
  .next (if s.held then s else f s)

/-! ### Chain states and LED drivers (R172) -/

/-- The light of a chain's LED: steady in RUNNING, the first 250 ms of each 500 ms in ROLLCALL, else dark (R172). -/
def chainLed (st : ChainState) (ms : U32) : Bool :=
  match st with
  | .running => true
  | .rollcall => ms.toNat % 500 < 250
  | .disabled | .broken => false

/-- The state with every LED driver following its state; all dark while RESET_N is held (R172). -/
def State.refreshLeds (s : State) : State :=
  { s with leds :=
      if s.held then {}
      else { link := s.port.link = .up
             chn := chainLed s.chainN.state s.time.ms
             chs := chainLed s.chainS.state s.time.ms } }

/-- The state with a chain in a new chain state, its LED with it (R172). -/
def State.setChainState (s : State) (c : Chain) (st : ChainState) : State :=
  (s.modChain c fun r => { r with state := st }).refreshLeds

/-! ### Time (log 1) -/

/-- A timer one quarter millisecond on; a timer at 0 waits for its expiry to be taken (log 2). -/
def tickTimer (t : Timer) : Timer := t.map (· - 1)

/-- The timebase one quarter millisecond on. -/
def Timebase.tick (t : Timebase) : Timebase :=
  if t.quarter = 3 then { ms := t.ms + 1, quarter := 0 } else { t with quarter := t.quarter + 1 }

/-- A chain's timers one quarter millisecond on. The time since the line last carried a block (R1) grows in every state
but DISABLED, where there is no signal monitoring (R3; log 17). -/
def ChainRec.tick (r : ChainRec) : ChainRec :=
  { r with
    backoff := tickTimer r.backoff
    stable := tickTimer r.stable
    cycleTimer := r.cycleTimer - 1
    silence := if r.state = .disabled then r.silence else r.silence + 1 }

/-- A batch one quarter millisecond on: the open age runs while the batch is open (R111). -/
def Batch.tick (b : Batch) : Batch :=
  match b.state with
  | .openUrgent | .openRoutine => { b with age := b.age + 1 }
  | .free | .sealed | .inFlight => b

/-- The Drain Engine's timers one quarter millisecond on. -/
def Drain.tick (d : Drain) : Drain :=
  { d with
    pause := tickTimer d.pause
    window := d.window.map fun w => { w with check := tickTimer w.check } }

/-- The part one quarter millisecond on: every timer moves, none expires by itself (log 1, log 2). -/
def State.tick (s : State) : State :=
  if s.held then s
  else State.refreshLeds
    { s with
      time := s.time.tick
      chainN := s.chainN.tick
      chainS := s.chainS.tick
      clu := { s.clu with cranes := tabMap (fun c => { c with supervision := tickTimer c.supervision }) s.clu.cranes }
      pool := { s.pool with batches := tabMap Batch.tick s.pool.batches }
      drain := s.drain.tick
      mgmt := { s.mgmt with timer := tickTimer s.mgmt.timer } }

end Machine
end Sys2Proof
end

