-- ==== Sys2Proof/Machine/Flags.lean ====
section
/-! DEFINITION. The conditions other rules read: usability and room of a cell (R31, R32), candidates of a handover
(R76), sets of alarm codes (R100), the comparison of seal stamps (R120) and of sequence numbers (Conventions). -/

namespace Sys2Proof
namespace Machine

/-- A cell is usable: UP, not barred, not shadowed (R31). -/
def usable (s : State) (x : CellId) : Bool :=
  (s.cell x).unit = .up && !(s.cell x).barred && (s.cell x).shadowCount = 0

/-- Crane k's contribution to a cell's shadow count (R31). -/
def contribution (s : State) (k : CraneId) (x : CellId) : Nat :=
  if (s.crane k).shadow.contains x then 1 else 0

/-- A cell is usable for crane k: its shadow count less k's contribution is 0 (R31). -/
def usableFor (s : State) (k : CraneId) (x : CellId) : Bool :=
  (s.cell x).unit = .up && !(s.cell x).barred && (s.cell x).shadowCount - contribution s k x = 0

/-- A cell has room for an amount of slots: fitted, and budget less reserved at least the amount (R32). -/
def hasRoom (s : State) (x : CellId) (amount : Nat) : Bool :=
  (s.cell x).fitted && amount + (s.cell x).reserved ≤ (s.cell x).budget

/-- A cell is DOWN. -/
def isDown (s : State) (x : CellId) : Bool := (s.cell x).unit = .down

/-- A cell is UP or FADING: it carries general frames (R14, R43). -/
def carriesGeneral (s : State) (x : CellId) : Bool :=
  (s.cell x).unit = .up || (s.cell x).unit = .fading

/-- What the Coverage Unit compares before and after an event (R31): usability, and usability for each defined crane. -/
def usabilityView (s : State) (x : CellId) : Bool × List Bool :=
  (usable s x, allCranes.map fun k => (s.crane k).defn.isSome && usableFor s k x)

/-- The ranked list of crane k: that of its band, empty when the band is unknown (R76). -/
def ranked (s : State) (k : CraneId) : List CellId :=
  match (s.crane k).band with
  | none => []
  | some b => (s.bandEntry b).ranked

/-- A cell of the ranked list is a candidate of crane k (R76). -/
def candidate (s : State) (k : CraneId) (x : CellId) : Bool :=
  usableFor s k x && (s.crane k).anchor != some x && ((s.crane k).bar.map Prod.fst) != some x

/-- The candidates of crane k in rank order (R76). -/
def candidates (s : State) (k : CraneId) : List CellId := (ranked s k).filter (candidate s k)

/-- The candidates that stand ahead of an anchor in the ranked list (R76). -/
def candidatesAhead (s : State) (k : CraneId) (a : CellId) : List CellId :=
  ((ranked s k).takeWhile (· != a)).filter (candidate s k)

/-- How a sequence number stands to a window's base: newer by n, or older by n (0 when equal) (Conventions). -/
def newerBy (s b : U16) : Nat := (s - b).toNat

/-- Two alarm lists hold the same set of codes (R100). -/
def sameAlarms (a b : List U16) : Bool := a.all b.contains && b.all a.contains

/-- An alarm list without repeats, in the order the codes first stand (R103). -/
def alarmSet (l : List U16) : List U16 :=
  l.foldl (fun acc a => if acc.contains a then acc else acc ++ [a]) []

/-- A stamp is older than another across the wrap of the counter (R120). -/
def olderStamp (s t : U32) : Bool := 1 ≤ (t - s).toNat && (t - s).toNat ≤ 2147483647

end Machine
end Sys2Proof
end

