-- ==== Sys2Proof/Machine/Formats.lean ====
section
/-! DEFINITION. Octet layouts that the part itself computes with: values to octets and back (11.1), the CRC (R171), the
position word (11.3), a batch entry on the wire (11.4), the length checks of blocks (R170) and of quay frames (R169). -/

namespace Sys2Proof
namespace Machine

/-! ### Values and octets, most significant octet first -/

/-- A value of n octets. -/
def octetsOf : Nat → Nat → List Byte
  | 0, _ => []
  | n + 1, v => BitVec.ofNat 8 (v / 256 ^ n) :: octetsOf n v

/-- The value of a run of octets. -/
def valueOf (l : List Byte) : Nat := l.foldl (fun acc o => acc * 256 + o.toNat) 0

/-- A 16-bit value from its two octets. -/
def u16Of (l : List Byte) : U16 := BitVec.ofNat 16 (valueOf l)

/-- An address from its six octets. -/
def addrOf (l : List Byte) : Addr := BitVec.ofNat 48 (valueOf l)

/-- The first octet of an address. -/
def firstOctet (a : Addr) : Byte := BitVec.ofNat 8 (a.toNat / 256 ^ 5)

/-- A group address has an odd first octet (R46, R157). -/
def isGroup (a : Addr) : Bool := (firstOctet a).toNat % 2 = 1

/-! ### The CRC (R171) -/

/-- One shift of the register. -/
def crcShift (r : U16) : U16 := if r.msb then (r <<< 1) ^^^ 0x1021#16 else r <<< 1

/-- One octet taken into the register. -/
def crcOctet (r : U16) (o : Byte) : U16 :=
  crcShift (crcShift (crcShift (crcShift (crcShift (crcShift (crcShift (crcShift
    (r ^^^ BitVec.ofNat 16 (o.toNat * 256)))))))))

/-- The CRC carried on over octets. -/
def crcOver (r : U16) (l : List Byte) : U16 := l.foldl crcOctet r

/-! ### Codes -/

/-- The mode a code names, if any (11.3). -/
def modeOf (o : Byte) : Option Mode :=
  match o.toNat with
  | 0 => some .chill
  | 1 => some .frozen
  | 2 => some .defrost
  | 3 => some .off
  | _ => none

/-- The power source a code names, if any (11.3). -/
def powerOf (o : Byte) : Option Power :=
  match o.toNat with
  | 0 => some .mains
  | 1 => some .genset
  | 2 => some .none
  | _ => Option.none

/-- Code of a mode. -/
def Mode.code : Mode → Nat
  | .chill => 0
  | .frozen => 1
  | .defrost => 2
  | .off => 3

/-- Code of a power source. -/
def Power.code : Power → Nat
  | .mains => 0
  | .genset => 1
  | .none => 2

/-- Code of a class (11.4). -/
def ReportClass.code : ReportClass → Nat
  | .below => 0
  | .within => 1
  | .above => 2
  | .exempt => 3

/-- Code of an entry kind (11.4). -/
def EntryKind.code : EntryKind → Nat
  | .report => 1
  | .returned => 2
  | .silent => 3

/-- Code of an urgency in a burst head (11.2), used wherever an urgency is sent (log 19). -/
def Urgency.code : Urgency → Nat
  | .routine => 0
  | .urgent => 1

/-- The octet of a cell number, 0xFF for none (11.1). -/
def cellOctet (x : Option CellId) : Nat := (x.map Fin.val).getD 255

/-! ### The position word (11.3, R52) -/

/-- The band of a position word: 0-63 known, else unknown. -/
def positionBand (w : U16) : Option BandId :=
  if h : w.toNat / 512 < 64 then some ⟨w.toNat / 512, h⟩ else none

/-- The boom of a position word; code 3 is taken as UNKNOWN. -/
def positionBoom (w : U16) : Boom :=
  match w.toNat / 128 % 4 with
  | 0 => .raised
  | 1 => .lowered
  | _ => .unknown

/-! ### Temperatures (00, Conventions) -/

/-- "Not measured". -/
def notMeasured : U16 := 0x8000#16

/-- A temperature is in range or not measured (R97). -/
def temperatureOk (t : U16) : Bool := t = notMeasured || (-1000 ≤ t.toInt && t.toInt ≤ 1000)

/-! ### A batch entry on the wire (11.4) -/

/-- The octets of an entry: 22 + 2n. -/
def Entry.octets (e : Entry) : List Byte :=
  octetsOf 1 e.kind.code
  ++ octetsOf 1 ((if e.urgent then 1 else 0) + (if e.excursion then 2 else 0))
  ++ octetsOf 2 e.reefer.val
  ++ octetsOf 6 e.unit.toNat
  ++ octetsOf 1 ((e.report.map fun r => r.seq.toNat).getD 0)
  ++ octetsOf 1 ((e.cls.map ReportClass.code).getD 255)
  ++ octetsOf 1 ((e.report.map fun r => r.mode.code).getD 255)
  ++ octetsOf 1 ((e.report.map fun r => r.power.code).getD 255)
  ++ octetsOf 2 ((e.report.map fun r => r.supply).getD notMeasured).toNat
  ++ octetsOf 2 ((e.report.map fun r => r.ret).getD notMeasured).toNat
  ++ octetsOf 2 ((e.report.map fun r => r.setpoint).getD notMeasured).toNat
  ++ octetsOf 1 (cellOctet e.cell)
  ++ octetsOf 1 e.alarms.length
  ++ e.alarms.flatMap fun a => octetsOf 2 a.toNat

/-- The wire length of an entry. -/
def Entry.size (e : Entry) : Nat := 22 + 2 * e.alarms.length

/-! ### Slots (R11) -/

/-- Slots of a block with so many octets behind its 4-octet header. -/
def slotsOf (octets : Nat) : Nat := (4 + octets + (Config.slotOctets - 1)) / Config.slotOctets

/-! ### Length checks of blocks (R170) -/

/-- The length a block's kind allows, given its content; none for a kind outside the table. -/
def blockLengthOk (kind : Byte) (length : Nat) (content : List Byte) : Option Bool :=
  match kind.toNat with
  | 0x00 => some true
  | 0x01 => some (length == 2)
  | 0x02 =>
    let m := ((content.drop 17).headD 0).toNat
    some (m ≤ 8 && length == 18 + 3 * m)
  | 0x03 => some (length == 0)
  | 0x10 => some (length == 11)
  | 0x11 => some (length == 12)
  | 0x12 => some (length == 10)
  | 0x13 => some (7 ≤ length)
  | 0x14 => some (7 ≤ length)
  | 0x20 => some (10 ≤ length)
  | 0x21 =>
    let n := ((content.drop 15).headD 0).toNat
    some (n ≤ 4 && length == 16 + 2 * n)
  | 0x22 => some (7 ≤ length)
  | _ => none

/-- Whether a kind's cell field names a cell: fill, openers and turn markers carry 0xFF and are not judged by it (R17). -/
def blockHasCell (kind : Byte) : Bool := !(kind.toNat ≤ 2)

/-- A block is malformed on a chain: unknown kind, a length its kind does not allow or that does not fit its slots, or a
cell field that names no cell of the chain (R17, R170). -/
def blockMalformed (c : Chain) (b : RawBlock) : Bool :=
  match blockLengthOk b.kind b.length.toNat b.content with
  | none => true
  | some ok =>
    !ok || b.slots * Config.slotOctets < 4 + b.length.toNat
      || (blockHasCell b.kind && (cellOn c b.cell).isNone)

/-! ### Length checks of quay frames (R169) -/

/-- The content length a receive kind allows; any for a kind that is not a receive kind, which step 5 judges. -/
def kindLengthOk (kind length : Nat) : Bool :=
  match kind with
  | 0x01 => 1 ≤ length
  | 0x02 => length == 0
  | 0x04 => 7 ≤ length
  | 0x10 => length == 1
  | 0x11 => length == 3
  | 0x12 => length == 0
  | 0x13 => length == 0
  | 0x14 => length == 0
  | 0x20 => 2 ≤ length
  | _ => true

/-- The kinds the part receives (R146). -/
def isReceiveKind (kind : Nat) : Bool :=
  [0x01, 0x02, 0x04, 0x10, 0x11, 0x12, 0x13, 0x14, 0x20].contains kind

/-- The length field agrees with the octets behind the header, which a minimum frame may exceed by its padding (R169). -/
def lengthAgrees (octets : List Byte) (length : Nat) : Bool :=
  octets.length == 10 + length || (octets.length == 46 && 10 + length ≤ 46)

end Machine
end Sys2Proof
end

