-- ==== Sys2Proof/Machine/Port.lean ====
section
/-! DEFINITION. The Uplink Port Unit (spec/09): transmit queues, arbiter, offers, notices, and the receive checks. -/

namespace Sys2Proof
namespace Machine

/-! ### Queues and per-class counters -/

/-- The queue of a class. -/
def Port.queue (p : Port) : TxClass → List TxFrame
  | .craneUp => p.craneUpQ
  | .control => p.controlQ
  | .drain => p.drainQ
  | .generalUp => p.generalUpQ

/-- The port with a class's queue set. -/
def Port.setQueue (p : Port) (c : TxClass) (q : List TxFrame) : Port :=
  match c with
  | .craneUp => { p with craneUpQ := q }
  | .control => { p with controlQ := q }
  | .drain => { p with drainQ := q }
  | .generalUp => { p with generalUpQ := q }

/-- The capacity of a class's queue (9.1). -/
def capacityOf : TxClass → Nat
  | .craneUp => Config.craneUpCapacity
  | .control => Config.controlCapacity
  | .drain => Config.drainCapacity
  | .generalUp => Config.generalUpCapacity

/-- The port with the counters of a class changed. -/
def Port.countClass (p : Port) (c : TxClass) (f : ClassCounters → ClassCounters) : Port :=
  match c with
  | .craneUp => { p with counters := { p.counters with craneUp := f p.counters.craneUp } }
  | .control => { p with counters := { p.counters with control := f p.counters.control } }
  | .drain => { p with counters := { p.counters with drain := f p.counters.drain } }
  | .generalUp => { p with counters := { p.counters with generalUp := f p.counters.generalUp } }

/-! ### The arbiter (R148, R149) -/

/-- Class 3 or class 4 waits. -/
def Port.lowerWaits (p : Port) : Bool := !p.drainQ.isEmpty || !p.generalUpQ.isEmpty

/-- The class the arbiter grants, if any queue waits (R148). -/
def Port.pick (p : Port) : Option TxClass :=
  if Config.runLimit ≤ p.run ∧ p.lowerWaits then
    if !p.drainQ.isEmpty then some .drain else some .generalUp
  else if !p.craneUpQ.isEmpty then some .craneUp
  else if !p.controlQ.isEmpty then some .control
  else if !p.drainQ.isEmpty then some .drain
  else if !p.generalUpQ.isEmpty then some .generalUp
  else none

/-- The run count after a grant (R149). -/
def Port.runAfter (p : Port) : TxClass → Nat
  | .craneUp | .control => if p.lowerWaits then p.run + 1 else 0
  | .drain | .generalUp => 0

/-- The arbiter's choice: taken when the link is UP and the transmitter IDLE (R148). -/
def Port.choose (p : Port) : Port :=
  if p.link = .up ∧ p.tx = none then
    match p.pick with
    | none => p
    | some c =>
      match p.queue c with
      | [] => p
      | f :: rest => { p.setQueue c rest with tx := some (c, f), run := p.runAfter c }
  else p

/-! ### Offers (R147) -/

/-- An offer to the queue of a class, and whether the frame was taken (R147). -/
def Port.offer (p : Port) (c : TxClass) (f : TxFrame) : Port × Bool :=
  if p.link = .down then (p.countClass c fun k => { k with linkDown := k.linkDown + 1 }, false)
  else if capacityOf c ≤ (p.queue c).length then (p.countClass c fun k => { k with full := k.full + 1 }, false)
  else
    (Port.choose ((p.setQueue c (p.queue c ++ [f])).countClass c fun k => { k with queued := k.queued + 1 }), true)

/-- A block offers a frame (R147). -/
def State.offer (s : State) (c : TxClass) (f : TxFrame) : State × Bool :=
  ({ s with port := (s.port.offer c f).1 }, (s.port.offer c f).2)

/-- A frame built with the addresses and the quay type in force (R147, R151, R155). -/
def State.frame (s : State) (dst : Addr) (content : TxContent) : TxFrame :=
  { dst := dst, src := s.mgmtAddress, etherType := s.params.quayType, content := content }

/-! ### Notices (R151, R152) -/

/-- One copy of a notice, offered on its own (R152). -/
def State.noticeTo (s : State) (dst : Addr) (n : Notice) : State :=
  let o := s.offer .control (s.frame dst (.notice s.now n))
  if o.2 then o.1.countPort fun k => { k with noticesQueued := k.noticesQueued + 1 }
  else o.1.countPort fun k => { k with noticesDropped := k.noticesDropped + 1 }

/-- A notice to the controller address; suppressed when none is set (R151). -/
def State.noticeController (s : State) (n : Notice) : State :=
  match s.params.controller with
  | none => s.countPort fun k => { k with noticesSuppressed := k.noticesSuppressed + 1 }
  | some a => s.noticeTo a n

/-- A crane notice: the controller copy, then the copy to the crane's station (R73). -/
def State.noticeCrane (s : State) (k : CraneId) (n : Notice) : State :=
  match (s.crane k).defn with
  | none => s.noticeController n
  | some d => (s.noticeController n).noticeTo d.station n

/-! ### Receiving (R145, R146) -/

/-- A frame of a receive kind arrives: nothing arrives while the link is DOWN (R144); steps 1, 2 and 4 of R145 are judged
with the values in force; a frame that passes is counted and handed on (R145, R146). Version and kind are right in a
frame of a named kind (log 15). -/
def State.receive (h : RxHeader) (lengthOk : Bool) (f : State → State) (s : State) : State :=
  if s.port.link = .down then s
  else if h.etherType ≠ s.params.quayType then s.countPort fun k => { k with otherType := k.otherType + 1 }
  else if h.dst ≠ s.mgmtAddress then s.countPort fun k => { k with notAddressed := k.notAddressed + 1 }
  else if !lengthOk then s.countPort fun k => { k with malformed := k.malformed + 1 }
  else f (s.countPort fun k => { k with received := k.received + 1 })

/-- The counter that a raw frame's first failed receive check advances (R145); none for a frame that passes them all. -/
def discardCount (s : State) (h : RxHeader) (octets : List Byte) : Option (PortCounters → PortCounters) :=
  let kind := (octets.getD 1 0).toNat
  let length := valueOf ((octets.drop 6).take 2)
  if h.etherType ≠ s.params.quayType then some fun k => { k with otherType := k.otherType + 1 }
  else if h.dst ≠ s.mgmtAddress then some fun k => { k with notAddressed := k.notAddressed + 1 }
  else if octets.length < 10 ∨ (octets.getD 0 0).toNat ≠ 1 then some fun k => { k with badHeader := k.badHeader + 1 }
  else if !lengthAgrees octets length || !kindLengthOk kind length then
    some fun k => { k with malformed := k.malformed + 1 }
  else if !isReceiveKind kind then some fun k => { k with unknownKind := k.unknownKind + 1 }
  else none

/-- An arriving frame is judged by the receive checks, and counted and discarded at the first it fails (R145). A frame
that passes them all is no discarded frame: nothing happens under this command (log 15). -/
def State.discardFrame (h : RxHeader) (octets : List Byte) (s : State) : State :=
  if s.port.link = .down then s
  else
    match discardCount s h octets with
    | none => s
    | some f => s.countPort f

/-! ### Link state (R144) -/

/-- The physical link comes up: queues are empty and the transmitter IDLE as the loss left them (R144). -/
def State.linkComesUp (s : State) : State :=
  if s.port.link = .up then s else (s.modPort fun p => { p with link := .up }).refreshLeds

/-- A class's queue is flushed and its frames counted (R144, step 3). -/
def Port.flush (p : Port) (c : TxClass) : Port :=
  (p.countClass c fun k => { k with flushed := k.flushed + BitVec.ofNat 32 (p.queue c).length }).setQueue c []

/-- Step 2 of a link loss: a frame in transmission is cut off (R144). -/
def Port.cutOff (p : Port) : Port :=
  match p.tx with
  | none => p
  | some (c, _) => { p.countClass c fun k => { k with aborted := k.aborted + 1 } with tx := none }

/-- Steps 1 to 4 of a link loss (R144), and the port's link-loss counter. -/
def Port.loseLink (p : Port) : Port :=
  let q := ((((Port.cutOff { p with link := .down }).flush .craneUp).flush .control).flush .drain).flush .generalUp
  { q with run := 0, counters := { q.counters with linkLoss := q.counters.linkLoss + 1 } }

/-- The sent counter of the class in transmission advances (R150). -/
def Port.countSent (p : Port) (c : TxClass) : Port := p.countClass c fun k => { k with sent := k.sent + 1 }

/-- The transmitter becomes IDLE and the arbiter chooses again (R150, R148). -/
def Port.nextFrame (p : Port) : Port := Port.choose { p with tx := none }

end Machine
end Sys2Proof
end

