-- ==== Sys2Proof/Machine/Coverage.lean ====
section
/-! DEFINITION. The Coverage Unit (spec/02): the cell state machine, claims, change flags and the CELL-CHANGE notice, the
unit directory, and general units. -/

namespace Sys2Proof
namespace Machine

/-! ### Events of one cell (R31, R34) -/

/-- The change flag is raised by a change of unit state, of the barred flag or of plain usability (R34). -/
def flagRaised (s s' : State) (x : CellId) : Bool :=
  (s.cell x).unit != (s'.cell x).unit || (s.cell x).barred != (s'.cell x).barred || usable s x != usable s' x

/-- An event of the Coverage Unit on one cell: the change, the change flag (R34), and the usability change handed to the
Crane Link Unit once for the event (R31). -/
def coverageEvent (x : CellId) (f : State → State) (s : State) : State :=
  let s' := f s
  let s1 := if flagRaised s s' x then s'.modCell x fun r => { r with changed := true } else s'
  if usabilityView s x ≠ usabilityView s' x then s1.push (.usability x) else s1

/-! ### The cell state machine (R26-R29) -/

/-- Entry to a unit state sets the progress count to 0 (R27). -/
def Cell.enter (st : UnitState) (r : Cell) : Cell := { r with unit := st, progress := 0 }

/-- Entry to DOWN also returns the status miss count to 0 (R28). -/
def Cell.enterDown (r : Cell) : Cell := { r with unit := .down, progress := 0, missCount := 0 }

/-- A cell that becomes unfitted enters ABSENT with its counts, quality and backlog at 0 (R25). -/
def Cell.becomeUnfitted (r : Cell) : Cell :=
  { r with unit := .absent, progress := 0, missCount := 0, quality := 0, backlog := 0 }

/-- A fault-free record in JOINING, UP or FADING (R27). -/
def Cell.advance (p : Params) (r : Cell) : Cell :=
  match r.unit with
  | .joining =>
    if Config.joinCycles ≤ r.progress + 1 then r.enter .up else { r with progress := r.progress + 1 }
  | .up =>
    if r.quality.val < p.fadeLevel then
      if Config.fadeCycles ≤ r.progress + 1 then r.enter .fading else { r with progress := r.progress + 1 }
    else { r with progress := 0 }
  | .fading =>
    if p.recoverLevel ≤ r.quality.val then
      if Config.recoverCycles ≤ r.progress + 1 then r.enter .up else { r with progress := r.progress + 1 }
    else { r with progress := 0 }
  | .absent | .down => r

/-- A status record taken for a fitted cell (R26, R28). -/
def Cell.takeStatus (p : Params) (q : StatusRecord) (r : Cell) : Cell :=
  let r1 := { r with quality := q.quality, backlog := q.backlog, missCount := 0 }
  match r.unit with
  | .absent => if q.join && !q.fault then r1.enter .joining else r1
  | .down => if q.fault then r1 else r1.enter .joining
  | .joining | .up | .fading => if q.fault then r1.enterDown else r1.advance p

/-- A status record handed on by the Chain Controller; one of an unfitted cell is counted and ignored (R26). -/
def statusRecord (x : CellId) (q : StatusRecord) (s : State) : State :=
  if (s.cell x).fitted then coverageEvent x (fun t => t.modCell x (Cell.takeStatus t.params q)) s
  else s.countCov fun k => { k with ignoredStatus := k.ignoredStatus + 1 }

/-- A status miss charged to a fitted cell in JOINING, UP or FADING (R28). -/
def Cell.takeMiss (p : Params) (r : Cell) : Cell :=
  match r.unit with
  | .absent | .down => r
  | .joining | .up | .fading =>
    let r1 := { r with progress := 0, missCount := r.missCount + 1, statusMisses := r.statusMisses + 1 }
    if p.statusMissLimit ≤ r1.missCount then r1.enterDown else r1

/-- A fitted cell appended no record to a turn in time (R28). -/
def statusMiss (x : CellId) (s : State) : State :=
  coverageEvent x (fun t => t.modCell x (Cell.takeMiss t.params)) s

/-- A cell whose chain has left RUNNING (R29). -/
def Cell.depart (r : Cell) : Cell :=
  match r.unit with
  | .joining | .up | .fading => r.enterDown
  | .absent | .down => r

/-- The Coverage Unit takes a chain's departure: each cell, in ascending number (R29). -/
def departure (c : Chain) (s : State) : State :=
  (cellsOf c).foldl (fun t x => coverageEvent x (fun u => u.modCell x Cell.depart) t) s

/-- The barred flag of a cell set or cleared (R30). -/
def setBarred (x : CellId) (b : Bool) (s : State) : State :=
  coverageEvent x (fun t => t.modCell x fun r => { r with barred := b }) s

/-! ### Claims (R32, R33) -/

/-- A reserve claim, and whether it was granted (R32). -/
def reserveClaim (x : CellId) (amount : Nat) (s : State) : State × Bool :=
  if hasRoom s x amount then (s.modCell x fun r => { r with reserved := r.reserved + amount }, true)
  else (s.countCov fun k => { k with reserveRefusals := k.reserveRefusals + 1 }, false)

/-- A release claim: always granted, and room has then grown on the cell (R32). -/
def releaseClaim (x : CellId) (amount : Nat) (s : State) : State :=
  (s.modCell x fun r => { r with reserved := r.reserved - amount }).push (.room x)

/-- A shadow add claim of crane k, whose shadow set takes the cell as the claim is sent (R33, R52). -/
def shadowAdd (k : CraneId) (x : CellId) (s : State) : State :=
  coverageEvent x (fun t =>
    (t.modCell x fun r => { r with shadowCount := r.shadowCount + 1 }).modCrane k fun c =>
      { c with shadow := sortCells (x :: c.shadow) }) s

/-- A shadow remove claim of crane k, whose shadow set gives up the cell as the claim is sent (R33, R52). -/
def shadowRemove (k : CraneId) (x : CellId) (s : State) : State :=
  coverageEvent x (fun t =>
    (t.modCell x fun r => { r with shadowCount := r.shadowCount - 1 }).modCrane k fun c =>
      { c with shadow := c.shadow.filter (· != x) }) s

/-! ### The CELL-CHANGE notice (R35) -/

/-- The flagged cells of a chain in ascending number. -/
def flaggedCells (s : State) (c : Chain) : List CellId := (cellsOf c).filter fun x => (s.cell x).changed

/-- The change flags of cells cleared. -/
def clearFlags (l : List CellId) (s : State) : State :=
  l.foldl (fun t x => t.modCell x fun r => { r with changed := false }) s

/-- One item of the notice: the cell as it stands (R34, R35). -/
def cellItem (s : State) (x : CellId) : CellItem :=
  { cell := x, unit := (s.cell x).unit, usable := usable s x, shadowCount := (s.cell x).shadowCount }

/-- A cycle-end event of a chain (R35): the flagged cells are reported in one notice, or deferred. A refusal is not
counted as a dropped notice (R152). -/
def cycleEnd (c : Chain) (cause : CycleEndCause) (s : State) : State :=
  match flaggedCells s c with
  | [] => s
  | l =>
    match s.params.controller with
    | none => clearFlags l s
    | some a =>
      let o := s.offer .control (s.frame a (.notice s.now (.cellChange c cause (l.map (cellItem s)))))
      if o.2 then
        ((clearFlags l o.1).countCov fun k => { k with changeQueued := k.changeQueued + 1 }).countPort fun k =>
          { k with noticesQueued := k.noticesQueued + 1 }
      else o.1.countCov fun k => { k with changeDeferred := k.changeDeferred + 1 }

/-! ### The unit directory (R38, R39) -/

/-- A lookup of an address (R38). -/
def dirFind (s : State) (a : Addr) : Option DirTarget := sparseFind s.cov.directory a.toNat

/-- The crane a CRANE entry names (R38). -/
def dirCrane (s : State) (a : Addr) : Option CraneId :=
  match dirFind s a with
  | some (.crane k) => some k
  | some (.reefer _) | some (.general _) | none => none

/-- The reefer a REEFER entry names (R38). -/
def dirReefer (s : State) (a : Addr) : Option ReeferId :=
  match dirFind s a with
  | some (.reefer i) => some i
  | some (.crane _) | some (.general _) | none => none

/-- The directory with the entry of an address set. -/
def dirSet (a : Addr) (t : DirTarget) (s : State) : State :=
  { s with cov := { s.cov with directory := sparseInsert s.cov.directory a.toNat t } }

/-- The directory without the entry of an address. -/
def dirErase (a : Addr) (s : State) : State :=
  { s with cov := { s.cov with directory := sparseErase s.cov.directory a.toNat } }

/-- The general unit table changed. -/
def State.setGeneral (s : State) (l : List (Nat × GeneralRec)) : State := { s with cov := { s.cov with general := l } }

/-- A general record removed: it is freed and its directory entry removed (R40). -/
def removeGeneral (j : GeneralId) (s : State) : State :=
  match sparseFind s.cov.general j.val with
  | none => s
  | some r => (dirErase r.unit s).setGeneral (sparseErase s.cov.general j.val)

/-- The entry of a definition removed, if it still stands (R39). -/
def dirForget (a : Addr) (t : DirTarget) (s : State) : State :=
  if dirFind s a = some t then dirErase a s else s

/-- A definition takes an address: a general unit that holds it is evicted, and the entry is the definition's (R39). -/
def dirDefine (a : Addr) (t : DirTarget) (s : State) : State :=
  match dirFind s a with
  | some (.general j) =>
    dirSet a t ((removeGeneral j s).countCov fun k => { k with evicted := k.evicted + 1 })
  | some (.crane _) | some (.reefer _) | none => dirSet a t s

/-! ### General units (R41-R43) -/

/-- What an unknown sender that is not learned advances: the count for the feature off, the count for the full table, or
both when both hold (R41, 2.9). -/
def CoverageCounters.notLearned (off full : Bool) (k : CoverageCounters) : CoverageCounters :=
  { k with
    notLearnedOff := if off then k.notLearnedOff + 1 else k.notLearnedOff
    notLearnedFull := if full then k.notLearnedFull + 1 else k.notLearnedFull }

/-- An unknown sender is learned into the lowest free record, when the feature is on and a record is free (R40, R41). -/
def learnGeneral (x : CellId) (unit : Addr) (s : State) : State :=
  let off := !s.params.features.generalLearning
  if h : firstFree s.cov.general 0 < Config.generalUnits then
    if off then s.countCov (CoverageCounters.notLearned off false)
    else
      let j := firstFree s.cov.general 0
      (dirSet unit (.general ⟨j, h⟩)
        (s.setGeneral (sparseInsert s.cov.general j { unit := unit, cell := x, age := 0 }))).countCov fun k =>
          { k with learned := k.learned + 1 }
  else s.countCov (CoverageCounters.notLearned off true)

/-- A sender is refreshed, learned or left as it is (R41). -/
def hearGeneral (x : CellId) (unit : Addr) (s : State) : State :=
  match dirFind s unit with
  | some (.general j) =>
    s.setGeneral (sparseInsert s.cov.general j.val { unit := unit, cell := x, age := 0 })
  | none => learnGeneral x unit s
  | some (.crane _) | some (.reefer _) => s.countCov fun k => { k with fromDefined := k.fromDefined + 1 }

/-- The broadcast address (R41). -/
def broadcast : Addr := 0xFFFFFFFFFFFF#48

/-- A GENERAL-UP block dispatched through a cell (R41). -/
def takeGeneralUp (x : CellId) (unit : Addr) (payload : List Byte) (s : State) : State :=
  if Config.generalUpPayload < payload.length then s.countCov fun k => { k with oversize := k.oversize + 1 }
  else
    let s1 := hearGeneral x unit s
    (s1.offer .generalUp (s1.frame broadcast (.general unit payload))).1

/-- A general record's age reaching the age-out: it is removed and counted (R42). -/
def ageOutIfDue (j : GeneralId) (s : State) : State :=
  match sparseFind s.cov.general j.val with
  | none => s
  | some r =>
    if s.params.ageOutS ≤ r.age then (removeGeneral j s).countCov fun k => { k with agedOut := k.agedOut + 1 } else s

/-- One record at the report tick: one second older, then removed if it has aged out (R42). -/
def tickGeneral (s : State) (j : GeneralId) : State :=
  match sparseFind s.cov.general j.val with
  | none => s
  | some r => ageOutIfDue j (s.setGeneral (sparseInsert s.cov.general j.val { r with age := r.age + 1 }))

/-- A frame offered to a chain's general downlink queue (R22). -/
def offerGeneralDown (x : CellId) (unit : Addr) (payload : List Byte) (s : State) : State :=
  let r := s.chain (chainOf x)
  if r.state = .running ∧ r.generalQ.length < Config.generalDownCapacity then
    s.modChain (chainOf x) fun q => { q with generalQ := q.generalQ ++ [{ cell := x, unit := unit, payload := payload }] }
  else s.countChain (chainOf x) fun k => { k with generalFull := k.generalFull + 1 }

/-- A downlink GENERAL frame handed to the Coverage Unit (R43). -/
def takeGeneralDown (unit : Addr) (payload : List Byte) (s : State) : State :=
  match dirFind s unit with
  | some (.general j) =>
    match sparseFind s.cov.general j.val with
    | none => s.countCov fun k => { k with unknownUnit := k.unknownUnit + 1 }
    | some r =>
      if carriesGeneral s r.cell then offerGeneralDown r.cell unit payload s
      else s.countCov fun k => { k with noRoute := k.noRoute + 1 }
  | none => s.countCov fun k => { k with unknownUnit := k.unknownUnit + 1 }
  | some (.crane _) | some (.reefer _) => s.countCov fun k => { k with toDefined := k.toDefined + 1 }

end Machine
end Sys2Proof
end

