-- ==== Sys2Proof/Machine/Handover.lean ====
section
/-! DEFINITION. Handover (spec/05): pending notices, withdrawal of destinations, evaluation, start, deferral, failure,
completion, crane-led moves, and the events other blocks hand to the Crane Link Unit. -/

namespace Sys2Proof
namespace Machine

/-! ### Withdrawals (R57, R81) -/

/-- Cells withdrawn from every pending set of a crane's downlink queue and from its pending KEEP set; an entry left empty
leaves the queue and is counted (R57). -/
def Crane.withdraw (p : CellId → Bool) (c : Crane) : Crane :=
  let q := c.queue.map fun e => { e with dests := e.dests.filter fun x => !p x }
  let kept := q.filter fun e => !e.dests.isEmpty
  { c with
    queue := kept
    keeps := c.keeps.filter fun e => !p e.1
    counters := { c.counters with
      undeliverable := c.counters.undeliverable + BitVec.ofNat 32 (q.length - kept.length) } }

/-- Pending HANDOVER-NOTICE blocks withdrawn, each counted for its crane (R81). -/
def withdrawNotices (p : PendingNotice → Bool) (s : State) : State :=
  let gone := s.clu.notices.filter p
  gone.foldl (fun t n => t.countCrane n.crane fun k => { k with noticesWithdrawn := k.noticesWithdrawn + 1 })
    { s with clu := { s.clu with notices := s.clu.notices.filter fun n => !p n } }

/-- A crane's pending HANDOVER-NOTICE blocks withdrawn (R81). -/
def withdrawCraneNotices (k : CraneId) (s : State) : State := withdrawNotices (fun n => n.crane == k) s

/-! ### Start and deferral (R79-R81) -/

/-- HANDOVER-NOTICE blocks queued at a start: to the anchor unless it is DOWN, then to the target (R81). -/
def queueNotices (k : CraneId) (a t : CellId) (s : State) : State :=
  let block := fun x => ({ crane := k, cell := x, anchor := a, target := t, stamp := s.now } : PendingNotice)
  let new := if isDown s a then [block t] else [block a, block t]
  { s with clu := { s.clu with notices := s.clu.notices ++ new } }

/-- A start whose claim was granted on a cell (R80). -/
def startHandover (k : CraneId) (t : CellId) (s : State) : State :=
  let s1 := s.modCrane k fun c =>
    { c with target := some t, countdown := s.params.handoverLimit, deferred := false, progress := 0, state := .handover }
  let s2 := match (s.crane k).anchor with
    | none => s1
    | some a => queueNotices k a t s1
  s2.countCrane k fun c => { c with starts := c.starts + 1 }

/-- A start that was granted no candidate ends in deferral; one notice for one deferral (R79). -/
def deferHandover (k : CraneId) (tried : List CellId) (s : State) : State :=
  let c := s.crane k
  if c.deferred then s
  else
    let anchorUsable := match c.anchor with
      | none => false
      | some a => usableFor s k a
    let s1 := s.modCrane k fun r => { r with deferred := true }
    let cause := if tried.isEmpty then DeferCause.noCandidate else DeferCause.noRoom
    (s1.noticeCrane k (.handoverDeferred k cause c.anchor c.band anchorUsable tried)).countCrane k fun r =>
      { r with deferrals := r.deferrals + 1 }

/-- An attempted start: reserve claims, one candidate at a time in the order given (R80); `tried` are those refused. -/
def attemptStart (k : CraneId) : List CellId → List CellId → State → State
  | [], tried, s => deferHandover k tried s
  | x :: rest, tried, s =>
    let o := reserveClaim x (s.crane k).reservation s
    if o.2 then startHandover k x o.1 else attemptStart k rest (tried ++ [x]) o.1

/-! ### Evaluation (R77, R78) -/

/-- The hold-off that an evaluation uses: the one defined, or, before the next position report after a load raised it, the
one before it (R47). -/
def Crane.holdOffInUse (c : Crane) : Nat := c.oldHoldOff.getD ((c.defn.map CraneDef.holdOff).getD 0)

/-- The crane with a new definition. A raised hold-off is used from the next position report on (R47); a lowered one at the
next evaluation (R78). DESIGN CHOICE: several loads before that report keep the lowest hold-off in use (log 31). -/
def Crane.redefine (d : CraneDef) (c : Crane) : Crane :=
  { c with defn := some d, oldHoldOff := if c.holdOffInUse < d.holdOff then some c.holdOffInUse else none }

/-- The hold-off progress after a HOLD-OFF outcome: a band report advances it up to the crane's hold-off (R78). -/
def Crane.holdOffStep (bandReport : Bool) (c : Crane) : Nat :=
  if bandReport ∧ c.progress < c.holdOffInUse then c.progress + 1 else c.progress

/-- The progress stands at the hold-off, or above one that a load has lowered (R78). -/
def Crane.holdOffReached (c : Crane) (progress : Nat) : Bool := c.holdOffInUse ≤ progress

/-- The STAY outcome (R77). -/
def stay (k : CraneId) (s : State) : State := s.modCrane k fun c => { c with progress := 0, deferred := false }

/-- The HOLD-OFF outcome with candidates ahead of the anchor (R77, R78). -/
def holdOff (k : CraneId) (bandReport : Bool) (ahead : List CellId) (s : State) : State :=
  let n := (s.crane k).holdOffStep bandReport
  let s1 := s.modCrane k fun c => { c with progress := n }
  if (s.crane k).holdOffReached n then attemptStart k ahead [] s1
  else s1.modCrane k fun c => { c with deferred := false }

/-- Evaluation of a LINKED crane (R77); `bandReport` when it runs for a position report with a known band (R75). -/
def evaluate (k : CraneId) (bandReport : Bool) (s : State) : State :=
  let c := s.crane k
  match c.state, c.anchor with
  | .linked, some a =>
    if usableFor s k a then
      if c.band = none then s
      else if (ranked s k).contains a then
        match candidatesAhead s k a with
        | [] => stay k s
        | ahead => holdOff k bandReport ahead s
      else attemptStart k (candidates s k) [] s
    else attemptStart k (candidates s k) [] s
  | _, _ => s

/-! ### Failure (R85) -/

/-- The failed-target bar set at a failure: none when the handover bar is 0 (R85). -/
def newBar (s : State) (t : CellId) : Option (CellId × Nat) :=
  if s.params.handoverBar = 0 then none else some (t, s.params.handoverBar)

/-- A failure for TIMEOUT, TARGET-UNUSABLE or CHAIN-LEFT, of a crane in HANDOVER (R85). -/
def failHandover (k : CraneId) (cause : FailCause) (s : State) : State :=
  match (s.crane k).target with
  | none => s
  | some t =>
    let s1 := releaseClaim t (s.crane k).reservation s
    let s2 := s1.modCrane k (Crane.withdraw (· == t))
    let s3 := withdrawCraneNotices k s2
    let s4 := s3.modCrane k fun c => { c with bar := newBar s t, target := none, countdown := 0, state := .linked }
    let s5 := s4.noticeCrane k
      (.handoverFailed k cause (s.crane k).anchor (some t) ((newBar s t).map Prod.snd))
    evaluate k false (s5.countCrane k fun c => { c with failures := c.failures + 1 })

/-! ### Countdowns (R82, R86) -/

/-- A crane whose countdown has reached 0 in HANDOVER fails with TIMEOUT (R82, R84). -/
def timeoutIfDue (k : CraneId) (s : State) : State :=
  if (s.crane k).state = .handover ∧ (s.crane k).countdown = 0 then failHandover k .timeout s else s

/-- A bar whose countdown has reached 0 becomes none (R86). -/
def barEndIfDue (k : CraneId) (s : State) : State :=
  match (s.crane k).bar with
  | some (_, 0) => s.modCrane k fun c => { c with bar := none }
  | some (_, _ + 1) | none => s

/-- One opener of a chain moves a crane's bar (R86). -/
def barStep (c : Chain) (k : CraneId) (s : State) : State :=
  match (s.crane k).bar with
  | some (x, n) =>
    if chainOf x = c then barEndIfDue k (s.modCrane k fun r => { r with bar := some (x, n - 1) }) else s
  | none => s

/-- One opener of a chain moves a crane's handover countdown (R82). -/
def countdownStep (c : Chain) (k : CraneId) (s : State) : State :=
  match (s.crane k).state, (s.crane k).target with
  | .handover, some t =>
    if chainOf t = c then timeoutIfDue k (s.modCrane k fun r => { r with countdown := r.countdown - 1 }) else s
  | _, _ => s

/-- The Crane Link Unit is told of an opener sent on a chain: each crane's bar, then each crane's countdown (R82, R86;
log 10). -/
def openerSent (c : Chain) (s : State) : State :=
  allCranes.foldl (fun t k => countdownStep c k t) (allCranes.foldl (fun t k => barStep c k t) s)

/-! ### Events handed to the Crane Link Unit (R75; log 9) -/

/-- One visit of the sweep at a usability change (R75). -/
def sweepVisit (k : CraneId) (s : State) : State :=
  match (s.crane k).state, (s.crane k).target with
  | .handover, some t => if usableFor s k t then s else failHandover k .targetUnusable s
  | .linked, _ => evaluate k false s
  | _, _ => s

/-- The sweep at a usability change (R75). -/
def usabilitySweep (s : State) : State := allCranes.foldl (fun t k => sweepVisit k t) s

/-- A notice that room has grown: every LINKED crane whose deferred flag is set, in index order (R75). -/
def roomNotice (s : State) : State :=
  allCranes.foldl (fun t k => if (t.crane k).deferred then evaluate k false t else t) s

/-- A usability change or room notice is taken. -/
def takeLinkEvent (s : State) : CluEvent → State
  | .usability _ => usabilitySweep s
  | .room _ => roomNotice s
  | .mapChange => s

/-- The usability changes and room notices handed on so far are taken, first in first out, and then those they caused. A
sweep causes only room notices and a room notice causes nothing, so two rounds empty the list. -/
def settleLink : Nat → State → State
  | 0, s => s
  | n + 1, s => if s.events.isEmpty then s else settleLink n (s.events.foldl takeLinkEvent { s with events := [] })

/-- Rounds that empty the list of events. -/
def settleRounds : Nat := 3

/-! ### Shadow sets and the map change (R52, R53) -/

/-- The shadow set a band and boom give under the map as it stands (R52). -/
def shadowSet (s : State) (band : Option BandId) (boom : Boom) : List CellId :=
  match band, boom with
  | some b, .lowered => sortCells (s.bandEntry b).shadow
  | _, _ => []

/-- The claims that bring a crane's shadow set to a new one: the cells that leave, then the cells that enter, each in
ascending number; `after` is what is taken after each claim (R52, R53). -/
def moveShadow (k : CraneId) (new : List CellId) (after : State → State) (s : State) : State :=
  let old := (s.crane k).shadow
  let s1 := ((sortCells old).filter fun x => !new.contains x).foldl (fun t x => after (shadowRemove k x t)) s
  (new.filter fun x => !old.contains x).foldl (fun t x => after (shadowAdd k x t)) s1

/-- A crane visited at a map change: one in LINKED, HANDOVER or LOST has its shadow set recomputed, and the usability
changes are taken as they arrive (R53; log 9). -/
def mapVisit (k : CraneId) (s : State) : State :=
  match (s.crane k).state with
  | .linked | .handover | .lost =>
    moveShadow k (shadowSet s (s.crane k).band (s.crane k).boom) (settleLink settleRounds) s
  | .vacant | .idle => s

/-- A map change: shadow sets, then the evaluation of every LINKED crane in index order (R53). -/
def mapChanged (s : State) : State :=
  allCranes.foldl (fun t k => evaluate k false t) (allCranes.foldl (fun t k => mapVisit k t) s)

/-- An event handed to the Crane Link Unit is taken. -/
def takeCluEvent (s : State) : CluEvent → State
  | .mapChange => mapChanged s
  | e => takeLinkEvent s e

/-- Everything handed to the Crane Link Unit is taken, in order, until nothing is left (R75; log 9). -/
def settleN : Nat → State → State
  | 0, s => s
  | n + 1, s => if s.events.isEmpty then s else settleN n (s.events.foldl takeCluEvent { s with events := [] })

/-- The events that follow the event just taken (R31, R32, R75). -/
def settle (s : State) : State := settleN settleRounds s

/-! ### Arrivals (R83, R87) -/

/-- Completion of a handover by a block through the target (R83). -/
def completeHandover (k : CraneId) (a t : CellId) (s : State) : State :=
  let s1 := releaseClaim a (s.crane k).reservation s
  let s2 := s1.modCrane k fun c => { c with anchor := some t, target := none, countdown := 0 }
  let s3 := (withdrawCraneNotices k s2).modCrane k fun c => { c with state := .linked }
  (s3.noticeCrane k (.handoverDone k .planned (some a) (some t) (s.crane k).band)).countCrane k fun c =>
    { c with done := c.done + 1 }

/-- A stray arrival is counted when the window accepted its frame (R83, R87). -/
def strayArrival (k : CraneId) (accepted : Bool) (s : State) : State :=
  if accepted then s.countCrane k fun c => { c with stray := c.stray + 1 } else s

/-- A crane-led move to a cell whose claim was granted (R87). -/
def craneLedMove (k : CraneId) (a x : CellId) (s : State) : State :=
  let s1 := releaseClaim a (s.crane k).reservation (s.modCrane k fun c => { c with anchor := some x })
  let s2 := s1.modCrane k fun c => { c with deferred := false, progress := 0 }
  (s2.noticeCrane k (.handoverDone k .craneLed (some a) (some x) (s.crane k).band)).countCrane k fun c =>
    { c with craneLed := c.craneLed + 1 }

/-- A LINKED crane heard through a cell other than its anchor (R87). -/
def otherArrival (k : CraneId) (a x : CellId) (accepted : Bool) (s : State) : State :=
  if accepted && s.params.features.craneLed && (ranked s k).contains x && usableFor s k x then
    let o := reserveClaim x (s.crane k).reservation s
    if o.2 then craneLedMove k a x o.1 else strayArrival k accepted o.1
  else strayArrival k accepted s

/-- The cell of arrival of a block is handed to the handover mechanism (R48, R83, R87). -/
def arrival (k : CraneId) (x : CellId) (accepted : Bool) (s : State) : State :=
  match (s.crane k).state, (s.crane k).anchor, (s.crane k).target with
  | .handover, some a, some t =>
    if x = t then completeHandover k a t s
    else if x = a then s
    else strayArrival k accepted s
  | .linked, some a, _ => if x = a then s else otherArrival k a x accepted s
  | _, _, _ => s

/-! ### Chain departures (R89) -/

/-- Pending holds of a crane withdrawn and counted (R68). -/
def Crane.withdrawHolds (p : CellId → Bool) (c : Crane) : Crane :=
  { c with
    holds := c.holds.filter fun e => !p e.1
    counters := { c.counters with
      holdsWithdrawn := c.counters.holdsWithdrawn + BitVec.ofNat 32 (c.holds.filter fun e => p e.1).length } }

/-- A crane whose target is on a chain that left RUNNING fails with CHAIN-LEFT (R89). -/
def chainLeftVisit (c : Chain) (k : CraneId) (s : State) : State :=
  match (s.crane k).state, (s.crane k).target with
  | .handover, some t => if chainOf t = c then failHandover k .chainLeft s else s
  | _, _ => s

/-- The Crane Link Unit takes the controller's word that a chain has left RUNNING (R57, R68, R81, R89). -/
def chainLeftWord (c : Chain) (s : State) : State :=
  let on := fun x => chainOf x == c
  let s1 := allCranes.foldl (fun t k => t.modCrane k (Crane.withdraw on)) s
  let s2 := allCranes.foldl (fun t k => t.modCrane k (Crane.withdrawHolds on)) s1
  let s3 := withdrawNotices (fun n => chainOf n.cell == c) s2
  allCranes.foldl (fun t k => chainLeftVisit c k t) s3

end Machine
end Sys2Proof
end

