-- ==== Sys2Proof/Machine/Crane.lean ====
section
/-! DEFINITION. Crane links and their supervision (spec/03, spec/04): the duplicate window, first contact, position words,
station frames, the supervision timer, loss, holds, resume and release; and the meanings of their commands. -/

namespace Sys2Proof
namespace Machine

/-! ### The duplicate window (R50) -/

/-- Judgement of a sequence number (R50). -/
inductive Verdict | accepted | duplicate | stale
  deriving DecidableEq, Repr

/-- The window a first contact starts: the number alone marked (R49). -/
def Window.start (seq : U16) : Window := { base := seq, marks := 1#64 }

/-- The window after a number, and the judgement (R50). -/
def Window.judge (w : Window) (seq : U16) : Window × Verdict :=
  let d := newerBy seq w.base
  if 1 ≤ d ∧ d ≤ 32767 then
    ({ base := seq, marks := if 64 ≤ d then 1#64 else (w.marks <<< d) ||| 1#64 }, .accepted)
  else
    let n := newerBy w.base seq
    if 64 ≤ n then (w, .stale)
    else if w.marks.getLsbD n then (w, .duplicate)
    else ({ w with marks := w.marks ||| (1#64 <<< n) }, .accepted)

/-! ### Uplink (R48-R52) -/

/-- A frame offered to the crane-up queue toward the station (R51). -/
def forwardUp (k : CraneId) (seq : U16) (payload : List Byte) (s : State) : State :=
  match (s.crane k).defn with
  | none => s
  | some d =>
    let o := s.offer .craneUp (s.frame d.station (.craneUp k seq payload))
    if o.2 then o.1.countCrane k fun c => { c with forwarded := c.forwarded + 1 } else o.1

/-- The record of a crane whose position word is handed on as a position report, with which a raised hold-off comes into use
(R47). A LOST crane hands on no position report (R52). -/
def Crane.reported (c : Crane) : Crane := { c with oldHoldOff := if c.state = .lost then c.oldHoldOff else none }

/-- A position word is taken: position, shadow set and claims, then the position report to handover (R52, R75). -/
def takePosition (k : CraneId) (word : U16) (s : State) : State :=
  let band := positionBand word
  let boom := positionBoom word
  let bandChanged := (s.crane k).band != band
  let boomChanged := (s.crane k).boom != boom
  let s0 := s.modCrane k Crane.reported
  let s1 :=
    if bandChanged || boomChanged then
      moveShadow k (shadowSet s0 band boom) id (s0.modCrane k fun c => { c with band := band, boom := boom })
    else s0
  if band.isSome || bandChanged || boomChanged then evaluate k band.isSome s1 else s1

/-- The position word of a control payload: its first two octets (11.3). -/
def positionWord (payload : List Byte) : U16 := u16Of (payload.take 2)

/-- A refused first contact (R49). -/
def refuseContact (k : CraneId) (x : CellId) (cause : NoRoomCause) (s : State) : State :=
  (s.countCrane k fun c => { c with firstContactRefused := c.firstContactRefused + 1 }).noticeCrane k
    (.craneNoRoom k cause x)

/-- First contact of an IDLE crane through a cell (R49). -/
def firstContact (k : CraneId) (x : CellId) (seq : U16) (payload : List Byte) (s : State) : State :=
  if usableFor s k x then
    let o := reserveClaim x (s.crane k).reservation s
    if o.2 then
      let s1 := o.1.modCrane k fun c =>
        { c with
          state := .linked, anchor := some x, craneHeard := true, stationHeard := true, craneMiss := 0, stationMiss := 0
          supervision := startTimer ((c.defn.map CraneDef.interval).getD 0), window := some (Window.start seq) }
      takePosition k (positionWord payload) (forwardUp k seq payload s1)
    else refuseContact k x .noRoom o.1
  else refuseContact k x .notUsable s

/-- A block of a crane in LINKED, HANDOVER or LOST (R48). -/
def liveBlock (k : CraneId) (x : CellId) (seq : U16) (payload : List Byte) (s : State) : State :=
  let s1 := s.modCrane k fun c =>
    { c with craneHeard := true, counters := { c.counters with uplinkBlocks := c.counters.uplinkBlocks + 1 } }
  let j := (((s.crane k).window).map fun w => w.judge seq).getD (Window.start seq, .accepted)
  match j.2 with
  | .accepted =>
    let s2 := s1.modCrane k fun c => { c with window := some j.1 }
    arrival k x true (takePosition k (positionWord payload) (forwardUp k seq payload s2))
  | .duplicate => arrival k x false (s1.countCrane k fun c => { c with duplicates := c.duplicates + 1 })
  | .stale => arrival k x false (s1.countCrane k fun c => { c with stale := c.stale + 1 })

/-- A CRANE-UP block handed to the Crane Link Unit (R48), and the events that follow it. -/
def takeCraneUp (x : CellId) (radio : Addr) (seq : U16) (payload : List Byte) (s : State) : State :=
  let unknown := { s with clu := { s.clu with unknownCrane := s.clu.unknownCrane + 1 } }
  match dirCrane s radio with
  | none => unknown
  | some k =>
    match (s.crane k).state with
    | .vacant => unknown
    | .idle => settle (firstContact k x seq payload s)
    | .linked | .handover | .lost => settle (liveBlock k x seq payload s)

/-! ### Station frames (R54, R55) -/

/-- A station frame is checked for its subject and its source; an accepted one sets station-heard (R54). -/
def stationFrame (src : Addr) (subject : Byte) (f : CraneId → State → State) (s : State) : State :=
  let unknown := { s with clu := { s.clu with unknownSubject := s.clu.unknownSubject + 1 } }
  if h : subject.toNat < 12 then
    let k : CraneId := ⟨subject.toNat, h⟩
    match (s.crane k).defn with
    | none => unknown
    | some d =>
      if d.station = src then
        f k (s.modCrane k fun c =>
          { c with
            stationHeard := true
            counters := { c.counters with stationFrames := c.counters.stationFrames + 1 } })
      else s.countCrane k fun c => { c with badSource := c.badSource + 1 }
  else unknown

/-- The pending destinations of a frame queued now: the cells the link runs through, less those DOWN (R55, R58). -/
def linkCells (s : State) (k : CraneId) : List CellId :=
  let c := s.crane k
  (c.anchor.toList ++ (if c.state = .handover then c.target.toList else [])).filter fun x => !isDown s x

/-- An entry joins the tail of a crane's downlink queue; a full queue first gives up its oldest (R55). -/
def Crane.enqueue (e : DownEntry) (c : Crane) : Crane :=
  if Config.craneQueueCapacity ≤ c.queue.length then
    { c with
      queue := c.queue.drop 1 ++ [e]
      counters := { c.counters with overflow := c.counters.overflow + 1, queued := c.counters.queued + 1 } }
  else { c with queue := c.queue ++ [e], counters := { c.counters with queued := c.counters.queued + 1 } }

/-- An accepted CRANE-DOWN frame (R54, R55). -/
def takeCraneDown (payload : List Byte) (k : CraneId) (s : State) : State :=
  if Config.craneDownPayload < payload.length then s.countCrane k fun c => { c with oversize := c.oversize + 1 }
  else
    match (s.crane k).state with
    | .linked | .handover =>
      match linkCells s k with
      | [] => s.countCrane k fun c => { c with noDestination := c.noDestination + 1 }
      | dests => s.modCrane k (Crane.enqueue { payload := payload, dests := dests })
    | .vacant | .idle | .lost => s.countCrane k fun c => { c with notLinked := c.notLinked + 1 }

/-! ### Resume (R69, R70) -/

/-- A resume (R69). -/
def resume (k : CraneId) (s : State) : State :=
  let s1 := s.modCrane k fun c =>
    { (c.withdrawHolds fun _ => true) with lost := {}, state := .linked }
  let s2 := (s1.noticeCrane k (.craneResumed k (s.crane k).anchor)).countCrane k fun c =>
    { c with resumes := c.resumes + 1 }
  evaluate k false s2

/-- A refused resume (R70). -/
def refuseResume (k : CraneId) (cause : ResumeRefusal) (s : State) : State :=
  let c := s.crane k
  (s.noticeCrane k (.craneResumeRefused k cause c.state c.craneMiss c.stationMiss)).countCrane k fun n =>
    { n with resumeRefused := n.resumeRefused + 1 }

/-- An accepted CRANE-RESUME frame (R69, R70). -/
def takeResume (k : CraneId) (s : State) : State :=
  let c := s.crane k
  match c.state with
  | .lost => if c.craneMiss = 0 ∧ c.stationMiss = 0 then settle (resume k s) else refuseResume k .stillSilent s
  | .vacant | .idle | .linked | .handover => refuseResume k .notLost s

/-! ### Supervision (R58, R63-R67) -/

/-- The keep decision, with the flags as they stand (R58). -/
def keepDecision (k : CraneId) (s : State) : State :=
  let c := s.crane k
  if s.params.features.keepFrames && c.stationHeard && !c.downlinkSent then
    s.modCrane k fun r =>
      { r with
        keeps := (linkCells s k).map fun x => (x, s.now)
        counters := { r.counters with keepReplaced := r.counters.keepReplaced + BitVec.ofNat 32 r.keeps.length } }
  else s

/-- A miss count after an expiry: 0 when the side was heard, else one more up to 15 (R63). -/
def missAfter (heard : Bool) (n : Nat) : Nat := if heard then 0 else min (n + 1) Config.missCeiling

/-- Steps 2 and 3 of R63 (1 and 2 of R64): the miss counts and their counters, then the flags cleared. -/
def Crane.countMisses (c : Crane) : Crane :=
  { c with
    craneMiss := missAfter c.craneHeard c.craneMiss
    stationMiss := missAfter c.stationHeard c.stationMiss
    craneHeard := false
    stationHeard := false
    downlinkSent := false
    counters := { c.counters with
      craneMisses := c.counters.craneMisses + (if c.craneHeard then 0 else 1)
      stationMisses := c.counters.stationMisses + (if c.stationHeard then 0 else 1) } }

/-- The sides whose miss count is at or above the loss limit (R63). -/
def Crane.silentSides (c : Crane) : LostReasons :=
  let limit := (c.defn.map CraneDef.lossLimit).getD 0
  { craneSilent := limit ≤ c.craneMiss, stationSilent := limit ≤ c.stationMiss }

/-- The cells a LOST crane's holds go to: the anchor and the abandoned target unless DOWN, and the ranked cells usable for
the crane; each once, in ascending number (R66, R67). -/
def holdCells (s : State) (k : CraneId) (abandoned : Option CellId) : List CellId :=
  sortCells
    (((s.crane k).anchor.toList ++ abandoned.toList).filter (fun x => !isDown s x)
      ++ (ranked s k).filter (usableFor s k))

/-- The handover of a crane entering LOST is abandoned (R65); the abandoned target is kept aside by the caller. -/
def abandonHandover (k : CraneId) (t : CellId) (s : State) : State :=
  let s1 := releaseClaim t (s.crane k).reservation s
  let s2 := s1.modCrane k (Crane.withdraw (· == t))
  let s3 := (withdrawCraneNotices k s2).modCrane k fun c => { c with target := none, countdown := 0 }
  (s3.noticeCrane k (.handoverFailed k .lost (s.crane k).anchor (some t) none)).countCrane k fun c =>
    { c with failures := c.failures + 1 }

/-- The cause of a CRANE-LOST notice (R72). -/
def LostReasons.cause (r : LostReasons) : LostCause :=
  if r.craneSilent && r.stationSilent then .bothSilent
  else if r.craneSilent then .craneSilent
  else .stationSilent

/-- Entry to LOST, after the abandonment if there was one (R66). -/
def enterLost (k : CraneId) (reasons : LostReasons) (abandoned : Option CellId) (s : State) : State :=
  let s1 := s.modCrane k fun c =>
    { c with queue := [], counters := { c.counters with flushed := c.counters.flushed + BitVec.ofNat 32 c.queue.length } }
  let s2 := withdrawCraneNotices k (s1.modCrane k fun c => { c with keeps := [] })
  let s3 := s2.modCrane k fun c => { c with deferred := false, progress := 0, state := .lost, lost := reasons }
  let cells := holdCells s3 k abandoned
  let s4 := s3.modCrane k fun c => { c with holds := cells.map fun x => (x, s.now) }
  let c := s4.crane k
  (s4.noticeCrane k (.craneLost k reasons.cause c.anchor c.band c.boom cells)).countCrane k fun n =>
    { n with losses := n.losses + 1 }

/-- The supervision timer runs on: the next expiry is one interval later (R61; log 23). -/
def restartSupervision (k : CraneId) (s : State) : State :=
  s.modCrane k fun c => { c with supervision := startTimer ((c.defn.map CraneDef.interval).getD 0) }

/-- An expiry in LINKED or HANDOVER (R63). -/
def superviseLive (k : CraneId) (s : State) : State :=
  let s1 := (keepDecision k s).modCrane k Crane.countMisses
  let silent := (s1.crane k).silentSides
  if silent.craneSilent || silent.stationSilent then
    match (s1.crane k).target with
    | some t => enterLost k silent (some t) (abandonHandover k t s1)
    | none => enterLost k silent none s1
  else s1

/-- An expiry in LOST (R64, R67). -/
def superviseLost (k : CraneId) (s : State) : State :=
  let s1 := s.modCrane k Crane.countMisses
  let silent := (s1.crane k).silentSides
  let cells := holdCells s1 k none
  s1.modCrane k fun c =>
    { (c.withdrawHolds fun x => !cells.contains x) with
      lost := { craneSilent := c.lost.craneSilent || silent.craneSilent
                stationSilent := c.lost.stationSilent || silent.stationSilent }
      holds := cells.map fun x => (x, s.now) }

/-- An expiry of a crane's supervision timer; a stopped timer has none (R61, R63, R64). -/
def superviseExpiry (k : CraneId) (s : State) : State :=
  match (s.crane k).state with
  | .linked | .handover => settle (superviseLive k (restartSupervision k s))
  | .lost => superviseLost k (restartSupervision k s)
  | .vacant | .idle => s

/-! ### Release (R71) -/

/-- A crane at rest in IDLE: every dynamic field at its initial value, definition and counters kept (R45, R71). -/
def Crane.atRest (c : Crane) : Crane := { defn := c.defn, state := .idle, counters := c.counters }

/-- RELEASE-CRANE of a crane in LINKED, HANDOVER or LOST (R71). -/
def releaseCrane (k : CraneId) (s : State) : State :=
  let c := s.crane k
  let s1 := match c.state, c.target with
    | .handover, some t => withdrawCraneNotices k (releaseClaim t c.reservation s)
    | _, _ => s
  let s2 := match c.anchor with
    | some a => releaseClaim a c.reservation s1
    | none => s1
  let s3 := (sortCells c.shadow).foldl (fun t x => shadowRemove k x t) s2
  s3.modCrane k fun r =>
    let r1 := r.withdrawHolds fun _ => true
    { r1.atRest with counters := { r1.counters with
        flushed := r1.counters.flushed + BitVec.ofNat 32 r.queue.length
        releases := r1.counters.releases + 1 } }

/-! ### Meanings -/

/-- CRANE_DOWN (R54, R55, R145, R169). -/
def execCraneDown (h : RxHeader) (subject : Byte) (payload : List Byte) (s : State) :
    Host.Outcome State Fault Refusal :=
  s.take (State.receive h (1 ≤ payload.length) (stationFrame h.src subject (takeCraneDown payload)))

/-- CRANE_RESUME (R54, R69, R70). -/
def execCraneResume (h : RxHeader) (subject : Byte) (s : State) : Host.Outcome State Fault Refusal :=
  s.take (State.receive h true (stationFrame h.src subject takeResume))

/-- SUPERVISION_TIMER_EXPIRY (R63, R64). -/
def execSupervisionTimerExpiry (k : CraneId) (s : State) : Host.Outcome State Fault Refusal :=
  s.take (superviseExpiry k)

/-- HANDOVER_COUNTDOWN_EXPIRY (R82, R85; log 11). -/
def execHandoverCountdownExpiry (k : CraneId) (s : State) : Host.Outcome State Fault Refusal :=
  s.take fun t => settle (timeoutIfDue k t)

/-- FAILED_TARGET_BAR_EXPIRY (R86; log 11). -/
def execFailedTargetBarExpiry (k : CraneId) (s : State) : Host.Outcome State Fault Refusal :=
  s.take (barEndIfDue k)

end Machine
end Sys2Proof
end

