-- ==== Sys2Proof/Machine/Pool.lean ====
section
/-! DEFINITION. The Batch Pool (spec/07): placing, overwriting, upgrading, dropping, sealing, the sealed list, removal, and
the batches of a drain. -/

namespace Sys2Proof
namespace Machine

/-! ### Looking at the pool -/

/-- The batches in a state, in number order. -/
def batchesIn (s : State) (st : BatchState) : List BatchId := allBatches.filter fun b => (s.batch b).state == st

/-- The open batch of an urgency, if there is one (R111). -/
def openBatch (s : State) : Urgency → Option BatchId
  | .urgent => (batchesIn s .openUrgent).head?
  | .routine => (batchesIn s .openRoutine).head?

/-- The open state of an urgency (R111). -/
def openStateOf : Urgency → BatchState
  | .urgent => .openUrgent
  | .routine => .openRoutine

/-- FREE batches needed to open one of an urgency (R116). -/
def reserveOf : Urgency → Nat
  | .urgent => Config.urgentReserve
  | .routine => Config.routineReserve

/-- A batch is OPEN or SEALED: its entries may still change (R114). -/
def BatchState.changeable : BatchState → Bool
  | .openUrgent | .openRoutine | .sealed => true
  | .free | .inFlight => false

/-- The seal time of an urgency, in quarter milliseconds (R113). -/
def sealTime (s : State) : Urgency → Nat
  | .urgent => s.params.urgentSealMs * Config.quartersPerMs
  | .routine => s.params.routineSealS * 1000 * Config.quartersPerMs

/-! ### The sealed list (R120) -/

/-- A batch goes ahead of another in the sealed list: urgent before routine, then the older stamp (R120). -/
def Batch.ahead (a b : Batch) : Bool :=
  match a.urgency, b.urgency with
  | some .urgent, some .routine => true
  | some .routine, some .urgent => false
  | _, _ => olderStamp (a.stamp.getD 0) (b.stamp.getD 0)

/-- A batch put into the sealed list at its place (R120). -/
def insertSealed (s : State) (b : BatchId) : List BatchId → List BatchId
  | [] => [b]
  | x :: rest => if (s.batch b).ahead (s.batch x) then b :: x :: rest else x :: insertSealed s b rest

/-- A SEALED batch joins the sealed list (R120). -/
def joinSealed (b : BatchId) (s : State) : State :=
  { s with pool := { s.pool with sealedList := insertSealed s b s.pool.sealedList } }

/-- A batch leaves the sealed list (R120). -/
def leaveSealed (b : BatchId) (s : State) : State :=
  { s with pool := { s.pool with sealedList := s.pool.sealedList.filter (· != b) } }

/-! ### Freeing and sealing (R114, R118, R119) -/

/-- A batch becomes FREE, which ends an exhaustion episode (R114, R118). -/
def freeBatch (b : BatchId) (s : State) : State :=
  let s1 := leaveSealed b (s.modBatch b fun _ => Batch.emptied)
  { s1 with pool := { s1.pool with exhausted := false } }

/-- The sealed counter of a cause (R119). -/
def PoolCounters.countSealed (cause : SealCause) (k : PoolCounters) : PoolCounters :=
  match cause with
  | .full => { k with sealedFull := k.sealedFull + 1 }
  | .age => { k with sealedAge := k.sealedAge + 1 }
  | .drainOpen => { k with sealedDrainOpen := k.sealedDrainOpen + 1 }

/-- An open batch is sealed: it takes its stamp and joins the sealed list (R113, R119). -/
def sealBatch (b : BatchId) (cause : SealCause) (s : State) : State :=
  let s1 := s.modBatch b fun r => { r with state := .sealed, stamp := some s.pool.stamp }
  let s2 := { s1 with pool := { s1.pool with stamp := s1.pool.stamp + 1 } }
  (joinSealed b s2).countPool (PoolCounters.countSealed cause)

/-- The open batch of an urgency, if there is one, is sealed for a cause. -/
def sealOpen (u : Urgency) (cause : SealCause) (s : State) : State :=
  match openBatch s u with
  | some b => sealBatch b cause s
  | none => s

/-! ### Batch references (R114) -/

/-- A reefer's batch reference set. -/
def State.setRef (s : State) (i : ReeferId) (r : Option (BatchId × Nat)) : State := s.modReefer i fun q => { q with ref := r }

/-- The entries of a batch renumbered from a slot on: each live entry's reference follows it (R114). `old` is the slot the
first of the entries stood in, `new` the slot it stands in now. -/
def moveRefs (b : BatchId) : List Entry → Nat → Nat → State → State
  | [], _, _, s => s
  | e :: rest, old, new, s =>
    let s1 := if (s.reefer e.reefer).ref = some (b, old) then s.setRef e.reefer (some (b, new)) else s
    moveRefs b rest (old + 1) (new + 1) s1

/-- An entry removed from an OPEN or SEALED batch: the batch compacts, and is FREE if left empty (R114). -/
def removeEntry (b : BatchId) (slot : Nat) (s : State) : State :=
  let es := (s.batch b).entries
  let s1 := s.modBatch b fun r => { r with entries := es.eraseIdx slot }
  let s2 := moveRefs b (es.drop (slot + 1)) (slot + 1) slot s1
  if (es.eraseIdx slot).isEmpty then freeBatch b s2 else s2

/-! ### Placing (R115-R118) -/

/-- A drop, and the episode it may begin (R117, R118). -/
def dropEntry (e : Entry) (u : Urgency) (s : State) : State :=
  let s1 := s.countPool fun k =>
    match u with
    | .routine => { k with droppedRoutine := k.droppedRoutine + 1 }
    | .urgent => { k with droppedUrgent := k.droppedUrgent + 1 }
  if s1.pool.exhausted then s1
  else
    let s2 := { s1 with pool := { s1.pool with exhausted := true } }
    (s2.countPool fun k => { k with episodes := k.episodes + 1 }).noticeController
      (.poolExhausted u e.reefer e.kind (batchesIn s2 .free).length (batchesIn s2 .sealed).length
        (batchesIn s2 .inFlight).length)

/-- An entry added at the tail of an open batch, with the seal that may follow (R116, R117, R119). -/
def appendEntry (b : BatchId) (e : Entry) (s : State) : State :=
  let slot := (s.batch b).entries.length
  let s1 := s.modBatch b fun r => { r with entries := r.entries ++ [e] }
  let s2 := (s1.setRef e.reefer (some (b, slot))).countPool fun k => { k with placed := k.placed + 1 }
  if Config.batchEntries ≤ slot + 1 then sealBatch b .full s2
  else if (s.batch b).state = .openUrgent ∧ s.params.urgentSealMs = 0 then sealBatch b .age s2
  else s2

/-- A FREE batch opened for an urgency (R116). -/
def openNew (b : BatchId) (u : Urgency) (s : State) : State :=
  (s.modBatch b fun _ => { state := openStateOf u, urgency := some u }).countPool fun k =>
    match u with
    | .urgent => { k with openedUrgent := k.openedUrgent + 1 }
    | .routine => { k with openedRoutine := k.openedRoutine + 1 }

/-- A new entry placed, overflowed or dropped; true when the answer is placed (R116, R117). -/
def placeNew (e : Entry) (u : Urgency) (s : State) : State × Bool :=
  match openBatch s u with
  | some b => (appendEntry b e s, true)
  | none =>
    match batchesIn s .free with
    | b :: rest =>
      if reserveOf u ≤ rest.length + 1 then (appendEntry b e (openNew b u s), true)
      else overflow s
    | [] => overflow s
where
  /-- No batch of the urgency exists or can be opened (R117). -/
  overflow (s : State) : State × Bool :=
    match u, openBatch s .routine with
    | .urgent, some b =>
      ((appendEntry b e s).countPool fun k => { k with overflow := k.overflow + 1 }, true)
    | _, _ => (dropEntry e u s, false)

/-- A live entry overwritten in place and counted (R115, 7.9; log 14); its mark stays or becomes set. -/
def overwriteEntry (b : BatchId) (slot : Nat) (e : Entry) (s : State) : State :=
  (s.modBatch b fun r => { r with entries := r.entries.set slot e }).countPool fun k =>
    { k with overwrites := k.overwrites + 1 }

/-- An entry placed for its reefer with an urgency; true when the answer is placed (7.3, R115, R116, R117). -/
def placeInPool (e : Entry) (u : Urgency) (s : State) : State × Bool :=
  let e := { e with urgent := u = .urgent }
  match (s.reefer e.reefer).ref with
  | none => placeNew e u s
  | some (b, slot) =>
    if !(s.batch b).state.changeable then placeNew e u s
    else
      let marked := (((s.batch b).entries[slot]?).map Entry.urgent).getD false
      if marked || u = .routine then
        (overwriteEntry b slot { e with urgent := marked || u = .urgent } s, true)
      else if (openBatch s .urgent).isSome || !(batchesIn s .free).isEmpty then
        let s1 := (removeEntry b slot s).setRef e.reefer none
        let o := placeNew e .urgent s1
        (o.1.countPool fun k => { k with upgrades := k.upgrades + 1 }, o.2)
      else
        ((overwriteEntry b slot e s).countPool fun k => { k with overflow := k.overflow + 1 }, true)

/-! ### Removal of a reefer's entry (R121) -/

/-- A reefer's live entry removed for a new definition; the reference is cleared (R96, R121). -/
def removeLive (i : ReeferId) (s : State) : State :=
  match (s.reefer i).ref with
  | none => s
  | some (b, slot) =>
    if (s.batch b).state.changeable then
      (((removeEntry b slot s).setRef i none).countPool fun k => { k with removed := k.removed + 1 })
    else s.setRef i none

/-! ### Batches in a drain (R122-R124) -/

/-- The head of the sealed list becomes IN-FLIGHT, and its number is answered (R122). -/
def takeHead (s : State) : State × Option BatchId :=
  match s.pool.sealedList with
  | [] => (s, none)
  | b :: rest =>
    ({ (s.modBatch b fun r => { r with state := .inFlight }) with
        pool := { (s.modBatch b fun r => { r with state := .inFlight }).pool with sealedList := rest } }, some b)

/-- A burst reported good: the references to its batch are cleared and the batch is FREE (R123). -/
def batchGood (b : BatchId) (s : State) : State :=
  let s1 := s.reeferIds.foldl (fun t i => if (t.reefer i).ref.map Prod.fst = some b then t.setRef i none else t) s
  (freeBatch b s1).countPool fun k => { k with good := k.good + 1 }

/-- The entries of a batch with their slots, those no longer live left out (R124). -/
def liveEntries (s : State) (b : BatchId) : List (Entry × Nat) :=
  (s.batch b).entries.zipIdx.filter fun p => (s.reefer p.1.reefer).ref == some (b, p.2)

/-- References of a returned batch's entries set to their new slots (R124). -/
def renumber (b : BatchId) : List (Entry × Nat) → Nat → State → State
  | [], _, s => s
  | (e, _) :: rest, n, s => renumber b rest (n + 1) (s.setRef e.reefer (some (b, n)))

/-- A batch returned after a failed, terminated or lost burst: pruned, then FREE or back in the sealed list (R124). -/
def batchReturn (b : BatchId) (s : State) : State :=
  let live := liveEntries s b
  let gone := (s.batch b).entries.length - live.length
  let s1 := renumber b live 0 (s.modBatch b fun r => { r with entries := live.map Prod.fst })
  let s2 := s1.countPool fun k => { k with pruned := k.pruned + BitVec.ofNat 32 gone }
  if live.isEmpty then (freeBatch b s2).countPool fun k => { k with freedEmpty := k.freedEmpty + 1 }
  else
    (joinSealed b (s2.modBatch b fun r => { r with state := .sealed })).countPool fun k =>
      { k with returned := k.returned + 1 }

end Machine
end Sys2Proof
end

