-- ==== Sys2Proof/Machine/Drain.lean ====
section
/-! DEFINITION. The Drain Engine (spec/08): opening, bursts and their CRC, checks, pause and resume, stop, termination,
DRAIN-END and link loss; and the meanings of the collector's frames and of the drain's timers. -/

namespace Sys2Proof
namespace Machine

/-! ### DRAIN-END (R140) -/

/-- A DRAIN-END offered to the control queue; without a collector address, or refused, it is counted as dropped (R140). -/
def sendDrainEnd (d : DrainEnd) (s : State) : State :=
  let dropped := fun t : State => t.countDrain fun k => { k with endDropped := k.endDropped + 1 }
  match s.params.collector with
  | none => dropped s
  | some a =>
    let o := s.offer .control (s.frame a (.drainEnd d))
    if o.2 then o.1 else dropped o.1

/-- A DRAIN-END that refuses an opening: the frame's tag and zero counts (R129, R140). -/
def refuseOpen (tag : U16) (o : DrainOutcome) (s : State) : State :=
  sendDrainEnd { tag := tag, outcome := o, started := 0, good := 0, firstFailed := none, delivered := 0 } s

/-- The counter of the outcome of a drain that opened (8.13). -/
def DrainCounters.countOutcome (o : DrainOutcome) (k : DrainCounters) : DrainCounters :=
  match o with
  | .complete => { k with complete := k.complete + 1 }
  | .short => { k with short := k.short + 1 }
  | .stop => { k with stopped := k.stopped + 1 }
  | .pauseLimit => { k with pauseLimit := k.pauseLimit + 1 }
  | .checkTimeout => { k with checkTimeout := k.checkTimeout + 1 }
  | .protocol => { k with protocol := k.protocol + 1 }
  | .linkLoss => { k with linkLoss := k.linkLoss + 1 }
  | .empty => { k with empty := k.empty + 1 }
  | .busy => { k with busyRefused := k.busyRefused + 1 }

/-- A drain closes with an outcome: CLOSED, recorded, counted, and a DRAIN-END with the record's figures (R135, R138,
R139). -/
def closeDrain (o : DrainOutcome) (s : State) : State :=
  let s1 := s.modDrain fun d =>
    { d with state := .closed, pause := none, lastOutcome := some o, counters := d.counters.countOutcome o }
  sendDrainEnd
    { tag := s.drain.tag.getD 0, outcome := o, started := s.drain.started, good := s.drain.good,
      firstFailed := s.drain.firstFailed, delivered := s.drain.delivered } s1

/-! ### Failing bursts and termination (R139) -/

/-- A burst sets the first failed index if that is none (R134, R139). -/
def Drain.markFailed (index : Nat) (d : Drain) : Drain :=
  { d with
    firstFailed := match d.firstFailed with
      | none => some index
      | some i => some i
    counters := { d.counters with failed := d.counters.failed + 1 } }

/-- A burst leaves the check window. -/
def Drain.dropBurst (index : Nat) (d : Drain) : Drain := { d with window := d.window.filter fun w => w.index != index }

/-- The frame in the staging area withdrawn: from the drain queue if the arbiter has not chosen it, otherwise it is sent
whole and its send report will be disregarded (R139, R147; log 13). -/
def withdrawStaged (s : State) : State :=
  match s.drain.staging with
  | none => s
  | some _ =>
    let s1 := s.modDrain fun d => { d with staging := none }
    if s.port.drainQ.isEmpty then s1.modDrain fun d => { d with disregard := true }
    else s1.modPort fun p =>
      { p with drainQ := [], counters := { p.counters with drainWithdrawn := p.counters.drainWithdrawn + 1 } }

/-- A burst fails without a judgement: it leaves the window and its batch is returned (R139). -/
def failBurst (w : Burst) (s : State) : State :=
  batchReturn w.batch (s.modDrain fun d => (d.markFailed w.index).dropBurst w.index)

/-- Step 2 of a termination: the half-sent burst, if there is one, is withdrawn (R139). -/
def withdrawHalfSent (s : State) : State :=
  match s.drain.window.find? fun w => w.phase == .sending with
  | none => s
  | some w => failBurst w (withdrawStaged s)

/-- A drain terminates on a cause (R139). -/
def terminate (o : DrainOutcome) (s : State) : State :=
  let s1 := s.modDrain fun d => { d with cause := some o, pause := none }
  let s2 := withdrawHalfSent s1
  let s3 := s2.drain.window.foldl (fun t w => failBurst w t) s2
  closeDrain o s3

/-! ### Bursts (R130-R132) -/

/-- The entries the next frame takes: until one would bring it past 1,024 octets (R131). -/
def frameEntries : Nat → List Entry → List Entry
  | _, [] => []
  | used, e :: rest =>
    if Config.burstOctets < used + e.size then [] else e :: frameEntries (used + e.size) rest

/-- The next frame of a burst, and the burst once it is built (R131, R132). -/
def nextBurstFrame (s : State) (w : Burst) : BurstFrame × Burst :=
  let es := frameEntries 0 w.remaining
  let rest := w.remaining.drop es.length
  let b := s.batch w.batch
  ({ tag := s.drain.tag.getD 0, index := w.index, number := w.framesBuilt
     head := if w.framesBuilt = 0 then
        some { stamp := b.stamp.getD 0, urgency := b.urgency.getD .routine, count := w.count }
      else none
     last := rest.isEmpty, entries := es },
   { w with
      remaining := rest, framesBuilt := w.framesBuilt + 1
      crc := crcOver w.crc (es.flatMap Entry.octets) })

/-- A burst of the window changed. -/
def Drain.setBurst (w : Burst) (d : Drain) : Drain :=
  { d with window := d.window.map fun x => if x.index = w.index then w else x }

/-- The next frame of a burst is built in the staging area and offered; without a collector address the drain terminates
with PROTOCOL (R131). -/
def buildFrame (w : Burst) (s : State) : State :=
  match s.params.collector with
  | none => terminate .protocol s
  | some a =>
    let f := nextBurstFrame s w
    let s1 := s.modDrain fun d => { d.setBurst f.2 with staging := some f.1 }
    (s1.offer .drain (s1.frame a (.drainBurst f.1))).1

/-- The start condition (R130). -/
def startCondition (s : State) : Bool :=
  s.drain.state = .sending && s.drain.started < s.drain.credit.getD 0
    && s.drain.window.length < Config.checkWindow
    && !(s.drain.window.any fun w => w.phase == .sending)
    && !s.pool.sealedList.isEmpty

/-- A burst is started (R130). -/
def startBurst (s : State) : State :=
  let o := takeHead s
  match o.2 with
  | none => s
  | some b =>
    let w : Burst :=
      { index := s.drain.started + 1, batch := b, count := (s.batch b).entries.length,
        remaining := (s.batch b).entries, crc := Config.burstSeed, phase := .sending, check := none,
        framesBuilt := 0, framesSent := 0 }
    buildFrame w (o.1.modDrain fun d =>
      { d with
        started := d.started + 1, window := d.window ++ [w]
        counters := { d.counters with started := d.counters.started + 1 } })

/-- The ending of a drain whose check window is empty (R135). -/
def endTest (s : State) : State :=
  match s.drain.state with
  | .sending | .paused =>
    if s.drain.window.isEmpty then
      if s.drain.credit.getD 0 ≤ s.drain.started then closeDrain .complete s
      else if s.pool.sealedList.isEmpty then closeDrain .short s
      else s
    else s
  | .closed | .closing => s

/-- The start condition tested; in SENDING, a test that finds the sealed list and the window empty ends the drain (R130,
R135). -/
def startTest (s : State) : State :=
  if startCondition s then startBurst s
  else if s.drain.state = .sending && s.pool.sealedList.isEmpty then endTest s
  else s

/-- The start condition tested when a batch has joined the sealed list, which the seal stamp counter shows (R130). -/
def afterSeal (before s : State) : State :=
  if s.pool.stamp = before.pool.stamp then s else if startCondition s then startBurst s else s

/-! ### Send reports (R131, R136) -/

/-- The offered frame is reported sent: the next frame is built, or the burst awaits its check (R131). -/
def burstFrameSent (s : State) : State :=
  match s.drain.staging, s.drain.window.find? fun w => w.phase == .sending with
  | some f, some w =>
    let sent := { w with framesSent := w.framesSent + 1 }
    let s1 := s.modDrain fun d =>
      { d.setBurst sent with
        staging := none
        counters := { d.counters with framesSent := d.counters.framesSent + 1 } }
    if f.last then
      startTest (s1.modDrain fun d =>
        d.setBurst { sent with phase := .awaiting, check := startTimer s.params.checkWaitMs })
    else if s.drain.state = .sending then buildFrame sent s1
    else s1
  | _, _ => s

/-- The port reports a DRAIN-BURST frame sent; a withdrawn one is disregarded (R139, R150; log 13). -/
def drainReport (s : State) : State :=
  if s.drain.disregard then s.modDrain fun d => { d with disregard := false } else burstFrameSent s

/-! ### Judgements (R133-R135) -/

/-- A burst is judged good (R134, R123). -/
def judgeGood (w : Burst) (s : State) : State :=
  batchGood w.batch (s.modDrain fun d =>
    { d.dropBurst w.index with
      good := d.good + 1, delivered := d.delivered + w.count
      counters := { d.counters with good := d.counters.good + 1 } })

/-- What follows a judgement (R134, R135, R138). -/
def afterJudgement (s : State) : State :=
  match s.drain.state with
  | .sending => endTest (startTest s)
  | .paused => endTest s
  | .closing => if s.drain.window.isEmpty then closeDrain .stop s else s
  | .closed => s

/-- A DRAIN-CHECK satisfies the test: the oldest burst awaits its check and the check names it (R133). -/
def checkMatches (s : State) (index : Nat) : Option Burst :=
  match s.drain.window with
  | w :: _ => if w.phase = .awaiting ∧ w.index = index then some w else none
  | [] => none

/-- A DRAIN-CHECK of the open drain (R133). -/
def takeCheck (index : Nat) (crc : U16) (s : State) : State :=
  match checkMatches s index, s.drain.state with
  | some w, _ => afterJudgement (if crc = w.crc then judgeGood w s else failBurst w s)
  | none, .closing => s.countDrain fun k => { k with lateCheck := k.lateCheck + 1 }
  | none, _ => terminate .protocol s

/-- The check timer of an awaiting burst expires (R133). -/
def checkExpiry (index : Nat) (s : State) : State :=
  match s.drain.window.find? fun w => w.phase == .awaiting && w.index == index with
  | none => s
  | some w =>
    match s.drain.state with
    | .sending | .paused => terminate .checkTimeout s
    | .closing => afterJudgement (failBurst w s)
    | .closed => s

/-! ### Collector frames (R128, R129, R136-R138) -/

/-- A collector frame is checked for its source (R128). -/
def fromCollector (src : Addr) (f : State → State) (s : State) : State :=
  if s.params.collector = some src then f s
  else s.countDrain fun k => { k with badSource := k.badSource + 1 }

/-- A frame of the open drain is checked for a drain and for its tag (R128). -/
def ofOpenDrain (tag : U16) (f : State → State) (s : State) : State :=
  if s.drain.state = .closed then s.countDrain fun k => { k with noDrain := k.noDrain + 1 }
  else if s.drain.tag = some tag then f s
  else s.countDrain fun k => { k with wrongTag := k.wrongTag + 1 }

/-- A frame discarded for the state of the drain (R136-R138). -/
def ignoreFrame (s : State) : State := s.countDrain fun k => { k with ignored := k.ignored + 1 }

/-- A DRAIN-OPEN in CLOSED (R129). -/
def openDrain (tag : U16) (credit : Byte) (s : State) : State :=
  if credit.toNat < 1 ∨ Config.maxCredit < credit.toNat then
    (refuseOpen tag .protocol s).countDrain fun k => { k with openRefused := k.openRefused + 1 }
  else
    let s1 := sealOpen .urgent .drainOpen s
    if s1.pool.sealedList.isEmpty then
      let s2 := s1.modDrain fun d => { d with tag := some tag, lastOutcome := some .empty }
      refuseOpen tag .empty (s2.countDrain fun k => { k with empty := k.empty + 1 })
    else
      startTest (s1.modDrain fun d =>
        { d with
          state := .sending, tag := some tag, credit := some credit.toNat, started := 0, good := 0
          firstFailed := none, delivered := 0, cause := none, lastOutcome := none, pause := none, window := []
          staging := none, counters := { d.counters with opened := d.counters.opened + 1 } })

/-- A DRAIN-OPEN from the collector (R128, R129). -/
def takeOpen (tag : U16) (credit : Byte) (s : State) : State :=
  if s.drain.state = .closed then openDrain tag credit s
  else (refuseOpen tag .busy s).countDrain fun k => { k with busyRefused := k.busyRefused + 1 }

/-- A DRAIN-PAUSE of the open drain (R136). -/
def takePause (s : State) : State :=
  match s.drain.state with
  | .sending =>
    s.modDrain fun d =>
      { d with
        state := .paused, pause := startTimer s.params.pauseLimitMs
        counters := { d.counters with pauses := d.counters.pauses + 1 } }
  | .paused | .closing | .closed => ignoreFrame s

/-- A DRAIN-RESUME of the open drain (R137): a half-sent burst goes on, unless its frame is still offered; otherwise the
start condition is tested. -/
def takeDrainResume (s : State) : State :=
  match s.drain.state with
  | .paused =>
    let s1 := s.modDrain fun d => { d with state := .sending, pause := none }
    match s1.drain.window.find? fun w => w.phase == .sending with
    | some w => if s1.drain.staging.isSome then s1 else buildFrame w s1
    | none => startTest s1
  | .sending | .closing | .closed => ignoreFrame s

/-- A DRAIN-STOP of the open drain (R138). -/
def takeStop (s : State) : State :=
  match s.drain.state with
  | .sending | .paused =>
    let s1 := s.modDrain fun d => { d with state := .closing, cause := some .stop, pause := none }
    let s2 := withdrawHalfSent s1
    if s2.drain.window.isEmpty then closeDrain .stop s2 else s2
  | .closing | .closed => ignoreFrame s

/-- The pause timer of a PAUSED drain expires (R136). -/
def pauseExpiry (s : State) : State :=
  match s.drain.state with
  | .paused => terminate .pauseLimit s
  | .sending | .closing | .closed => s

/-! ### Link loss (R141) -/

/-- The uplink is lost: an open drain is closed without a DRAIN-END, its batches returned in window order (R141). A frame
cut off on the line is not reported (R144), so no report is left to disregard. -/
def drainLinkLoss (s : State) : State :=
  let s0 := s.modDrain fun d => { d with disregard := false }
  if s0.drain.state = .closed then s0
  else
    let w := s0.drain.window
    let s1 := s0.modDrain fun d =>
      { d with
        state := .closed, pause := none, staging := none, window := [], lastOutcome := some .linkLoss
        counters := { d.counters with linkLoss := d.counters.linkLoss + 1 } }
    w.foldl (fun t b => batchReturn b.batch t) s1

/-! ### Meanings -/

/-- DRAIN_OPEN (R128, R129). -/
def execDrainOpen (h : RxHeader) (tag : U16) (credit : Byte) (s : State) : Host.Outcome State Fault Refusal :=
  s.take (State.receive h true (fromCollector h.src (takeOpen tag credit)))

/-- DRAIN_CHECK (R128, R133). -/
def execDrainCheck (h : RxHeader) (tag : U16) (index : Byte) (crc : U16) (s : State) :
    Host.Outcome State Fault Refusal :=
  s.take (State.receive h true (fromCollector h.src (ofOpenDrain tag (takeCheck index.toNat crc))))

/-- DRAIN_PAUSE (R128, R136). -/
def execDrainPause (h : RxHeader) (tag : U16) (s : State) : Host.Outcome State Fault Refusal :=
  s.take (State.receive h true (fromCollector h.src (ofOpenDrain tag takePause)))

/-- DRAIN_RESUME (R128, R137). -/
def execDrainResume (h : RxHeader) (tag : U16) (s : State) : Host.Outcome State Fault Refusal :=
  s.take (State.receive h true (fromCollector h.src (ofOpenDrain tag takeDrainResume)))

/-- DRAIN_STOP (R128, R138). -/
def execDrainStop (h : RxHeader) (tag : U16) (s : State) : Host.Outcome State Fault Refusal :=
  s.take (State.receive h true (fromCollector h.src (ofOpenDrain tag takeStop)))

/-- CHECK_TIMER_EXPIRY (R133). -/
def execCheckTimerExpiry (index : Nat) (s : State) : Host.Outcome State Fault Refusal := s.take (checkExpiry index)

/-- PAUSE_TIMER_EXPIRY (R136). -/
def execPauseTimerExpiry (s : State) : Host.Outcome State Fault Refusal := s.take pauseExpiry

/-- SEAL_TIME_EXPIRY (R119, R130). -/
def execSealTimeExpiry (u : Urgency) (s : State) : Host.Outcome State Fault Refusal :=
  s.take fun t => afterSeal t (sealOpen u .age t)

end Machine
end Sys2Proof
end

