-- ==== Sys2Proof/Machine/Reefer.lean ====
section
/-! DEFINITION. The Reefer Unit (spec/06): report arrival, classification, significance and urgency, suppression,
forwarding, return, ageing and silence; and the meanings of the report tick and what falls due at it. -/

namespace Sys2Proof
namespace Machine

/-! ### Classification and judgement (R98, R100, R101) -/

/-- The class of a report under a group (R98); limits are computed without bound. -/
def classify (g : GroupDef) (m : Mode) (supply setpoint : U16) : ReportClass :=
  match m with
  | .defrost | .off => .exempt
  | .chill | .frozen =>
    if supply = notMeasured ∨ setpoint = notMeasured then .within
    else if supply.toInt < setpoint.toInt - (g.bandBelow : Int) then .below
    else if setpoint.toInt + (g.bandAbove : Int) < supply.toInt then .above
    else .within

/-- A class outside the band. -/
def ReportClass.outside : ReportClass → Bool
  | .below | .above => true
  | .within | .exempt => false

/-- The supply differs from the last forwarded one by at least the deadband (R100). -/
def supplyReaches (g : GroupDef) (last new : U16) : Bool :=
  if last = notMeasured ∧ new = notMeasured then false
  else if last = notMeasured ∨ new = notMeasured then true
  else g.deadband ≤ (new.toInt - last.toInt).natAbs

/-- What a report changes against the record before it (R100); comparisons with no last forwarded values count as
changes. -/
structure Changes where
  cls : Bool
  alarms : Bool
  mode : Bool
  power : Bool
  supply : Bool
  deriving DecidableEq, Repr

/-- The changes of a report (R100). -/
def changesOf (g : GroupDef) (before : Reefer) (cls : ReportClass) (f : Forwarded) : Changes :=
  { cls := before.cls != some cls
    alarms := match before.last with
      | none => true
      | some l => !sameAlarms l.alarms f.alarms
    mode := match before.last with
      | none => true
      | some l => l.mode != f.mode
    power := match before.last with
      | none => true
      | some l => l.power != f.power
    supply := match before.last with
      | none => true
      | some l => supplyReaches g l.supply f.supply }

/-- A report is significant (R100). -/
def significant (before : Reefer) (c : Changes) (newlySet : Bool) : Bool :=
  before.state == .expected || c.cls || c.alarms || c.mode || c.power || newlySet || c.supply || before.owed

/-- A significant report is urgent (R101). -/
def urgentReport (c : Changes) (cls : ReportClass) (f : Forwarded) (newlySet : Bool) : Bool :=
  (c.alarms && !f.alarms.isEmpty) || newlySet || (c.cls && cls.outside) || (c.power && f.power == Power.none)

/-! ### Forwarding (R103, R104) -/

/-- The pool places an entry, and a batch sealed by the placement is offered to the drain (R103, R130). -/
def placeEntry (e : Entry) (u : Urgency) (s : State) : State × Bool :=
  let o := placeInPool e u s
  (afterSeal s o.1, o.2)

/-- The entry of a reefer built from a report (R103). -/
def reportEntry (kind : EntryKind) (i : ReeferId) (unit : Addr) (seq : Byte) (r : Reefer) (f : Forwarded) : Entry :=
  { kind := kind, urgent := false, reefer := i, unit := unit
    report := some { seq := seq, mode := f.mode, power := f.power, supply := f.supply, ret := f.ret,
                     setpoint := f.setpoint }
    cls := r.cls, excursion := r.excursion, cell := r.cell, alarms := f.alarms }

/-- A report forwarded as an entry of a kind, and the pool's answer taken (R103, R104). -/
def forwardReport (kind : EntryKind) (u : Urgency) (i : ReeferId) (d : ReeferDef) (g : GroupDef) (seq : Byte)
    (f : Forwarded) (s : State) : State :=
  let s1 := s.modReefer i fun r => { r with state := .reporting, countdown := g.reload }
  let o := placeEntry (reportEntry kind i d.unit seq (s1.reefer i) f) u s1
  if o.2 then
    o.1.modReefer i fun r =>
      { r with last := some f, owed := false, counters := { r.counters with forwarded := r.counters.forwarded + 1 } }
  else
    o.1.modReefer i fun r =>
      { r with owed := true, counters := { r.counters with dropped := r.counters.dropped + 1 } }

/-- A report that is not significant (R102). -/
def suppressReport (i : ReeferId) (d : ReeferDef) (g : GroupDef) (seq : Byte) (f : Forwarded) (s : State) : State :=
  let n := min (s.reefer i).countdown g.reload - 1
  if g.reload = 0 ∨ n = 0 then forwardReport .report .routine i d g seq f s
  else
    s.modReefer i fun r =>
      { r with countdown := n, counters := { r.counters with suppressed := r.counters.suppressed + 1 } }

/-! ### Report arrival (R97) -/

/-- Steps 4 and 5 of R97: heard, classified, and the excursion (R98, R99). -/
def hearReport (x : CellId) (seq : Byte) (cls : ReportClass) (hit newlySet : Bool) (i : ReeferId) (gid : GroupId)
    (s : State) : State :=
  let s1 := s.modReefer i fun r =>
    { r with
      lastSeq := some seq, cell := some x, age := 0, miss := 0, masked := 0, cls := some cls
      excursion := r.excursion || hit
      counters := { r.counters with
        taken := r.counters.taken + 1
        excursions := r.counters.excursions + (if newlySet then 1 else 0) } }
  if newlySet then s1.modGroup gid fun g => { g with summary := true } else s1

/-- Steps 4 to 6 of R97, for a valid report of a defined reefer with a defined group. -/
def takeValid (x : CellId) (seq : Byte) (f : Forwarded) (i : ReeferId) (d : ReeferDef) (g : GroupDef) (s : State) :
    State :=
  let before := s.reefer i
  let cls := classify g f.mode f.supply f.setpoint
  let hit := cls.outside && g.excursionEnable
  let newlySet := hit && !before.excursion
  let c := changesOf g before cls f
  let s1 := hearReport x seq cls hit newlySet i d.group s
  match before.state with
  | .vacant => s1
  | .silent =>
    forwardReport .returned .urgent i d g seq f
      (s1.countReefer i fun k => { k with returned := k.returned + 1 })
  | .expected | .reporting =>
    if significant before c newlySet then
      forwardReport .report (if urgentReport c cls f newlySet then .urgent else .routine) i d g seq f s1
    else suppressReport i d g seq f s1

/-- A REEFER-REPORT block handed to the Reefer Unit (R97). A reefer without a defined group cannot be (R95; log 22). -/
def takeReport (x : CellId) (r : Report) (s : State) : State :=
  match dirReefer s r.unit with
  | none => { s with ree := { s.ree with unknown := s.ree.unknown + 1 } }
  | some i =>
    match modeOf r.mode, powerOf r.power with
    | some m, some p =>
      if temperatureOk r.supply && temperatureOk r.ret && temperatureOk r.setpoint then
        if (s.reefer i).lastSeq = some r.seq then s.countReefer i fun k => { k with duplicates := k.duplicates + 1 }
        else
          match (s.reefer i).defn with
          | none => s
          | some d =>
            match (s.group d.group).defn with
            | none => s
            | some g =>
              takeValid x r.seq
                { supply := r.supply, ret := r.ret, setpoint := r.setpoint, mode := m, power := p,
                  alarms := alarmSet r.alarms } i d g s
      else s.countReefer i fun k => { k with invalid := k.invalid + 1 }
    | _, _ => s.countReefer i fun k => { k with invalid := k.invalid + 1 }

/-! ### Ageing, misses and silence (R105-R107) -/

/-- The entry of a reefer that falls silent (R107, R112). DESIGN CHOICE: R107 names a set of alarm codes, and its list
keeps the order in which they first stood in the report last placed (log 35). -/
def silentEntry (i : ReeferId) (unit : Addr) (r : Reefer) : Entry :=
  { kind := .silent, urgent := true, reefer := i, unit := unit, report := none, cls := r.cls, excursion := r.excursion,
    cell := r.cell, alarms := (r.last.map Forwarded.alarms).getD [] }

/-- Entry to SILENT (R107). -/
def enterSilent (i : ReeferId) (d : ReeferDef) (s : State) : State :=
  let s1 := s.modReefer i fun r =>
    { r with state := .silent, counters := { r.counters with silences := r.counters.silences + 1 } }
  let o := placeEntry (silentEntry i d.unit (s1.reefer i)) .urgent s1
  if o.2 then o.1 else o.1.modReefer i fun r => { r with owed := true }

/-- The serving cell of a reefer is usable; a reefer with none has no usable cell (R106; log 22). -/
def servingUsable (s : State) (r : Reefer) : Bool :=
  match r.cell with
  | none => false
  | some x => usable s x

/-- A miss charged, masked or counted against the reefer (R106, R107). -/
def chargeMiss (i : ReeferId) (d : ReeferDef) (g : GroupDef) (s : State) : State :=
  if s.params.features.missMasking && !servingUsable s (s.reefer i) then
    s.modReefer i fun r =>
      { r with
        masked := min (r.masked + 1) Config.maskedCeiling
        counters := { r.counters with maskedMisses := r.counters.maskedMisses + 1 } }
  else
    let s1 := s.modReefer i fun r =>
      { r with
        miss := min (r.miss + 1) Config.reeferMissCeiling
        counters := { r.counters with misses := r.counters.misses + 1 } }
    if g.silentLimit ≤ (s1.reefer i).miss then enterSilent i d s1 else s1

/-- A REPORTING reefer whose age is at or above its group's expected interval: the age returns to 0 and one miss is
charged (R105). -/
def missIfDue (i : ReeferId) (s : State) : State :=
  match (s.reefer i).state, (s.reefer i).defn with
  | .reporting, some d =>
    match (s.group d.group).defn with
    | none => s
    | some g =>
      if g.interval ≤ (s.reefer i).age then chargeMiss i d g (s.modReefer i fun r => { r with age := 0 }) else s
  | _, _ => s

/-- One record at the report tick (R105). -/
def tickReefer (s : State) (i : ReeferId) : State :=
  match (s.reefer i).state with
  | .reporting => missIfDue i (s.modReefer i fun r => { r with age := r.age + 1 })
  | .vacant | .expected | .silent => s

/-- The report tick: reefers in index order, then general records in index order (R42, R105; log 11). DESIGN CHOICE: R105
leaves the order of the visits open; it fixes the slots of the SILENT entries that the tick places and, without room for all
of them, which are dropped (log 34). -/
def reportTick (s : State) : State :=
  let s1 := s.reeferIds.foldl tickReefer s
  s1.generalIds.foldl tickGeneral s1

/-! ### Clears (R108, R109) -/

/-- The excursion flag of a reefer cleared (R108). -/
def clearExcursion (i : ReeferId) (s : State) : State := s.modReefer i fun r => { r with excursion := false }

/-- The defined reefers that name a group and whose flag is set (R109). -/
def flaggedMembers (s : State) (g : GroupId) : List ReeferId :=
  s.reeferIds.filter fun i => (s.reefer i).defn.map ReeferDef.group == some g && (s.reefer i).excursion

/-- A group's summary and the flags of its members cleared (R109). -/
def clearGroup (g : GroupId) (s : State) : State :=
  (flaggedMembers s g).foldl (fun t i => clearExcursion i t) (s.modGroup g fun r => { r with summary := false })

/-! ### Meanings -/

/-- REPORT_TICK (R42, R105). -/
def execReportTick (s : State) : Host.Outcome State Fault Refusal := s.take reportTick

/-- MISS_CHARGE (R105-R107; log 11). -/
def execMissCharge (i : ReeferId) (s : State) : Host.Outcome State Fault Refusal := s.take (missIfDue i)

/-- GENERAL_AGE_OUT (R42; log 11). -/
def execGeneralAgeOut (j : GeneralId) (s : State) : Host.Outcome State Fault Refusal := s.take (ageOutIfDue j)

end Machine
end Sys2Proof
end

