-- ==== Sys2Proof/Machine/Chains.lean ====
section
/-! DEFINITION. The Chain Controllers (spec/01): chain states, roll call and backoff, leaving RUNNING, the cycle and its
downlink, the returning stream; and the meanings of the chain's timers and blocks. -/

namespace Sys2Proof
namespace Machine

/-! ### Chain states (R3-R9) -/

/-- A CHAIN-STATE notice (R9). -/
def chainNotice (c : Chain) (cause : ChainCause) (new : ChainState) (abortCell : Option CellId) (s : State) : State :=
  s.noticeController (.chainState c cause new abortCell)

/-- Entry to ROLLCALL (R4). -/
def enterRollcall (c : Chain) (cause : ChainCause) (s : State) : State :=
  chainNotice c cause .rollcall none
    ((s.modChain c fun r => { r with goodTurns := 0, rollcallTurns := 0, heard := [], awaited := none }).setChainState c
      .rollcall)

/-- Entry to RUNNING (R5). The Coverage Unit, told of it, keeps its cells' states (R29). -/
def enterRunning (c : Chain) (s : State) : State :=
  chainNotice c .rollcallDone .running none
    ((s.modChain c fun r =>
      { r with missed := 0, stable := startTimer Config.stableMs, silence := 0 }).setChainState c .running)

/-- Entry to BROKEN: backoff and notice (R7). -/
def enterBroken (c : Chain) (cause : ChainCause) (abortCell : Option CellId) (s : State) : State :=
  chainNotice c cause .broken abortCell
    ((s.modChain c fun r =>
      { r with
        backoff := startTimer r.nextBackoff
        nextBackoff := min (2 * r.nextBackoff) Config.maxBackoff
        awaited := none
        counters := { r.counters with breaks := r.counters.breaks + 1 } }).setChainState c .broken)

/-- Entry to DISABLED (R3). -/
def enterDisabled (c : Chain) (s : State) : State :=
  chainNotice c .disabled .disabled none
    ((s.modChain c fun r =>
      { r with
        awaited := none, backoff := none, stable := none, nextBackoff := Config.firstBackoff
        goodTurns := 0, rollcallTurns := 0, heard := [] }).setChainState c .disabled)

/-- The next order left open by R84, used up (log 8). -/
def State.popChoice (s : State) : Bool × State := (s.choices.headD false, { s with choices := s.choices.tail })

/-- What a chain does first on leaving RUNNING: its queue is flushed and its turn state cleared (R5, R6). -/
def ChainRec.leave (r : ChainRec) : ChainRec :=
  { r with
    generalQ := [], missed := 0, awaited := none, stable := none
    counters := { r.counters with
      generalFlushed := r.counters.generalFlushed + BitVec.ofNat 32 r.generalQ.length } }

/-- A chain leaves RUNNING (R6): queue and turn state, the Coverage Unit, the Crane Link Unit, then a cycle-end event. The
order of the controller's word and of the usability changes is the next choice (R84; log 8). -/
def leaveRunning (c : Chain) (s : State) : State :=
  let s1 := departure c (s.modChain c ChainRec.leave)
  let o := s1.popChoice
  let s2 := if o.1 then settle (chainLeftWord c (settle o.2)) else settle (chainLeftWord c o.2)
  cycleEnd c .chainLeft s2

/-- A RUNNING chain breaks on a cause (R6, R7). -/
def breakChain (c : Chain) (cause : ChainCause) (abortCell : Option CellId) (s : State) : State :=
  enterBroken c cause abortCell (leaveRunning c s)

/-! ### Building the downlink (R11-R14) -/

/-- A downlink being built: the state as blocks are taken, the slots used, the blocks in order, and whether a block that
did not fit has ended the build (R12). -/
structure Build where
  st : State
  used : Nat
  blocks : List DownBlock
  full : Bool

/-- The effective capacity of a cycle in slots (R11). -/
def effectiveCapacity (p : Params) : Nat := min p.downlinkCapacity (Config.slotsPerQuarter * p.cyclePeriod)

/-- The cell a downlink block is addressed to. -/
def DownBlock.cell : DownBlock → CellId
  | .hold x _ _ _ => x
  | .handoverNotice x _ _ _ _ => x
  | .keep x _ _ => x
  | .craneDown x _ _ => x
  | .generalDown x _ _ => x

/-- The slots a downlink block occupies (R11). -/
def DownBlock.slots : DownBlock → Nat
  | .hold _ _ _ _ => 1
  | .handoverNotice _ _ _ _ _ => 1
  | .keep _ _ _ => 1
  | .craneDown _ _ payload => slotsOf (6 + payload.length)
  | .generalDown _ _ payload => slotsOf (6 + payload.length)

/-- A block is taken if it fits, with what its taking changes and its cell's downlink block counter; the first block that
does not fit ends the build (R12). -/
def Build.offer (cap : Nat) (b : DownBlock) (commit : State → State) (u : Build) : Build :=
  if u.full then u
  else if cap < u.used + b.slots then { u with full := true }
  else
    { st := (commit u.st).modCell b.cell fun r => { r with downlinkBlocks := r.downlinkBlocks + 1 }
      used := u.used + b.slots, blocks := u.blocks ++ [b], full := false }

/-- The HOLD blocks of a crane for a chain (R12, R68). -/
def buildHolds (cap : Nat) (c : Chain) (u : Build) (k : CraneId) : Build :=
  ((u.st.crane k).holds.filter fun e => chainOf e.1 == c).foldl
    (fun v e =>
      v.offer cap (.hold e.1 (v.st.crane k).radio (v.st.crane k).lost e.2) fun t =>
        t.modCrane k fun r =>
          { r with
            holds := r.holds.filter fun x => x.1 != e.1
            counters := { r.counters with holdsSent := r.counters.holdsSent + 1 } })
    u

/-- The pending HANDOVER-NOTICE blocks for a chain, oldest first (R12, R81). -/
def buildNotices (cap : Nat) (c : Chain) (u : Build) : Build :=
  (u.st.clu.notices.filter fun n => chainOf n.cell == c).foldl
    (fun v n =>
      v.offer cap (.handoverNotice n.cell (v.st.crane n.crane).radio n.anchor n.target n.stamp) fun t =>
        { t with clu := { t.clu with notices := t.clu.notices.erase n } })
    u

/-- Which of the cells of a chain a block is for first: the anchor, else the lower-numbered cell (R56). -/
def firstCell (c : Chain) (anchor : Option CellId) (cells : List CellId) : Option CellId :=
  let on := sortCells (cells.filter fun x => chainOf x == c)
  match anchor with
  | some a => if on.contains a then some a else on.head?
  | none => on.head?

/-- The oldest entry of a queue with a pending cell of a chain (R56). -/
def oldestFor (c : Chain) (q : List DownEntry) : Option DownEntry := q.find? fun e => e.dests.any fun x => chainOf x == c

/-- A queue after a copy of its oldest entry for the chain is taken for a cell; an entry left empty leaves (R56). -/
def takeCopy (c : Chain) (x : CellId) : List DownEntry → List DownEntry
  | [] => []
  | e :: rest =>
    if e.dests.any fun y => chainOf y == c then
      let d := e.dests.filter (· != x)
      if d.isEmpty then rest else { e with dests := d } :: rest
    else e :: takeCopy c x rest

/-- A crane's next block for a chain and what its taking changes: a pending KEEP block, else a copy of the oldest entry
(R13, R56, R59). -/
def craneOffer (c : Chain) (k : CraneId) (s : State) : Option (DownBlock × (Crane → Crane)) :=
  let r := s.crane k
  match firstCell c r.anchor (r.keeps.map Prod.fst) with
  | some x =>
    some (.keep x r.radio (((r.keeps.find? fun e => e.1 == x).map Prod.snd).getD 0), fun q =>
      { q with
        keeps := q.keeps.filter fun e => e.1 != x
        counters := { q.counters with keepSent := q.counters.keepSent + 1 } })
  | none =>
    match oldestFor c r.queue with
    | none => none
    | some e =>
      match firstCell c r.anchor e.dests with
      | none => none
      | some x =>
        some (.craneDown x r.radio e.payload, fun q =>
          { q with
            queue := takeCopy c x q.queue, downlinkSent := true
            counters := { q.counters with copies := q.counters.copies + 1 } })

/-- The order of one pass of the crane round robin: from the crane after the pointer (R13). -/
def roundFrom : Option CraneId → List CraneId
  | none => allCranes
  | some p => allCranes.drop (p.val + 1) ++ allCranes.take (p.val + 1)

/-- The first crane of a pass that offers a block (R13). -/
def firstOffer (c : Chain) (s : State) : List CraneId → Option (CraneId × DownBlock × (Crane → Crane))
  | [] => none
  | k :: rest =>
    match craneOffer c k s with
    | some o => some (k, o.1, o.2)
    | none => firstOffer c s rest

/-- The crane round robin (R13): each block taken uses a slot, so the capacity bounds the turns. -/
def buildCranes (cap : Nat) (c : Chain) : Nat → Build → Build
  | 0, u => u
  | n + 1, u =>
    if u.full then u
    else
      match firstOffer c u.st (roundFrom (u.st.chain c).cranePtr) with
      | none => u
      | some (k, b, f) =>
        buildCranes cap c n
          (u.offer cap b fun t => (t.modCrane k f).modChain c fun r => { r with cranePtr := some k })

/-- The general downlink queue from its head (R14). -/
def buildGeneral (cap : Nat) (c : Chain) : List GeneralDown → Build → Build
  | [], u => u
  | g :: rest, u =>
    if u.full then u
    else if carriesGeneral u.st g.cell then
      buildGeneral cap c rest
        (u.offer cap (.generalDown g.cell g.unit g.payload) fun t => t.modChain c fun r => { r with generalQ := rest })
    else
      buildGeneral cap c rest
        { u with st := (u.st.modChain c fun r =>
            { r with
              generalQ := rest
              counters := { r.counters with generalStale := r.counters.generalStale + 1 } }) }

/-- A cycle's downlink (R12). -/
def buildDownlink (c : Chain) (s : State) : Build :=
  let cap := effectiveCapacity s.params
  let u1 := allCranes.foldl (buildHolds cap c) { st := s, used := 0, blocks := [], full := false }
  let u2 := buildNotices cap c u1
  let u3 := buildCranes cap c (cap + 1) u2
  buildGeneral cap c (u3.st.chain c).generalQ u3

/-! ### Sending a cycle (R10, R15, R82) -/

/-- The grant pair of a position: crane grant and open grant (R15). -/
def grantAt (s : State) (c : Chain) (p : Nat) : Nat × Nat :=
  match (cellsOf c).find? fun x => (s.cell x).position.val == p with
  | none => (0, 0)
  | some x => if (s.cell x).fitted then ((s.cell x).reserved, (s.cell x).budget - (s.cell x).reserved) else (0, 0)

/-- The grant pairs of a turn marker in position order; all zero in ROLLCALL (R15). -/
def grantsOf (s : State) (c : Chain) : List (Nat × Nat) :=
  [0, 1, 2, 3, 4, 5, 6, 7].map fun p => if (s.chain c).state = .rollcall then (0, 0) else grantAt s c p

/-- A cycle goes out: the opener's number, the downlink, the marker with its grants; the turn is awaited, and the Crane
Link Unit is told of the opener (R10, R15, R82). -/
def sendCycle (c : Chain) (s : State) : State :=
  let n := (s.chain c).cycle + 1
  let u := if (s.chain c).state = .rollcall then { st := s, used := 0, blocks := [], full := false } else buildDownlink c s
  let image : LineCycle := { cycle := n, slots := u.used, blocks := u.blocks, grants := grantsOf s c }
  let s1 := u.st.modChain c fun r =>
    { r with
      cycle := n, awaited := some n, line := some image
      counters := { r.counters with openersSent := r.counters.openersSent + 1 } }
  settle (openerSent c s1)

/-! ### The cycle timer (R4, R10) -/

/-- A turn is found missed (R10): counted, no longer awaited (log 25). -/
def countMissed (c : Chain) (s : State) : State :=
  s.modChain c fun r =>
    { r with awaited := none, counters := { r.counters with missedTurns := r.counters.missedTurns + 1 } }

/-- Roll call has failed: 32 turns judged with fewer than four good ones in a row (R4). -/
def rollcallFailed (r : ChainRec) : Bool := Config.rollcallLimit ≤ r.rollcallTurns && r.goodTurns < Config.goodTurnsNeeded

/-- An expiry of the cycle timer in ROLLCALL (R4, R10). A missed turn is a turn judged on which no cell was heard: it leaves
the set of cells heard empty (R1, 1.2; log 30). -/
def rollcallExpiry (c : Chain) (s : State) : State :=
  if (s.chain c).awaited = none then sendCycle c s
  else
    let s1 := cycleEnd c .missedTurn
      ((countMissed c s).modChain c fun r => { r with rollcallTurns := r.rollcallTurns + 1, goodTurns := 0, heard := [] })
    if rollcallFailed (s1.chain c) then enterBroken c .rollcallFailed none s1 else sendCycle c s1

/-- An expiry of the cycle timer in RUNNING (R10). -/
def runningExpiry (c : Chain) (s : State) : State :=
  if (s.chain c).awaited = none then sendCycle c s
  else
    let s1 := cycleEnd c .missedTurn ((countMissed c s).modChain c fun r => { r with missed := r.missed + 1 })
    if s1.params.breakLimit ≤ (s1.chain c).missed then breakChain c .missedTurns none s1 else sendCycle c s1

/-- An expiry of a chain's cycle timer: the timer runs on, and the expiry acts by the chain state (R10). -/
def cycleExpiry (c : Chain) (s : State) : State :=
  let s1 := s.modChain c fun r => { r with cycleTimer := s.params.cyclePeriod }
  match (s.chain c).state with
  | .disabled | .broken => cycleEnd c .noCycle s1
  | .rollcall => rollcallExpiry c s1
  | .running => runningExpiry c s1

/-- The backoff timer of a BROKEN chain expires (R8). -/
def backoffExpiry (c : Chain) (s : State) : State :=
  if (s.chain c).state = .broken ∧ (s.chain c).backoff.isSome then
    enterRollcall c .backoffExpired (s.modChain c fun r => { r with backoff := none })
  else s

/-- The stable timer expires (R5). -/
def stableExpiry (c : Chain) (s : State) : State :=
  if (s.chain c).stable.isSome then
    s.modChain c fun r => { r with stable := none, nextBackoff := Config.firstBackoff }
  else s

/-- The line of a RUNNING chain is silent for more than 1 ms (R21). -/
def lineSilent (c : Chain) (s : State) : State :=
  if (s.chain c).state = .running then
    breakChain c .signalLoss none (s.countChain c fun k => { k with signalLosses := k.signalLosses + 1 })
  else s

/-! ### The returning stream (R17-R20) -/

/-- A block arrives on a chain: nothing is taken in DISABLED; otherwise the silence is measured afresh (R3, R21). -/
def onBlock (c : Chain) (f : State → State) (s : State) : State :=
  if (s.chain c).state = .disabled then s else f (s.modChain c fun r => { r with silence := 0 })

/-- A malformed block or status record is discarded and counted (R17, R19). -/
def countMalformed (c : Chain) (n : Nat) (s : State) : State :=
  s.countChain c fun k => { k with malformed := k.malformed + BitVec.ofNat 32 n }

/-- An uplink block through a cell: dispatched in RUNNING from a fitted cell, else discarded as ungranted (R7, R18a);
malformed when its length is not one its kind allows (R170). -/
def uplinkBlock (x : CellId) (lengthOk : Bool) (f : State → State) (s : State) : State :=
  onBlock (chainOf x) (fun t =>
    if !lengthOk then countMalformed (chainOf x) 1 t
    else if (t.chain (chainOf x)).state = .running ∧ (t.cell x).fitted then
      f (t.modCell x fun r => { r with uplinkBlocks := r.uplinkBlocks + 1 })
    else t.countChain (chainOf x) fun k => { k with ungranted := k.ungranted + 1 }) s

/-- The status records of a marker that stand: the first of each cell of the chain, with its cell (R19). -/
def standingRecords (c : Chain) : List StatusRecord → List CellId → List (CellId × StatusRecord)
  | [], _ => []
  | q :: rest, seen =>
    match cellOn c q.cell with
    | none => standingRecords c rest seen
    | some x => if seen.contains x then standingRecords c rest seen else (x, q) :: standingRecords c rest (x :: seen)

/-- A turn in time in RUNNING: the records, the misses of the fitted cells without one, the cycle-end event. What each
hands to the Crane Link Unit is taken before the next (R19, R26, R28, R35; log 9). DESIGN CHOICE: the misses, which R19
hands on as a set without an order, are taken in ascending cell number (log 33). -/
def handTurn (c : Chain) (qs : List (CellId × StatusRecord)) (s : State) : State :=
  let s1 := qs.foldl (fun t p => settle (statusRecord p.1 p.2 t)) s
  let silent := (cellsOf c).filter fun x => (s1.cell x).fitted && !(qs.map Prod.fst).contains x
  let s2 := silent.foldl (fun t x => settle (statusMiss x t)) s1
  cycleEnd c .turn s2

/-- A turn in time in ROLLCALL (R4, R5). -/
def rollcallTurn (c : Chain) (qs : List (CellId × StatusRecord)) (s : State) : State :=
  let s1 := s.modChain c fun r =>
    { r with
      goodTurns := r.goodTurns + 1, rollcallTurns := r.rollcallTurns + 1, heard := sortCells (qs.map Prod.fst) }
  if Config.goodTurnsNeeded ≤ (s1.chain c).goodTurns then handTurn c qs (enterRunning c s1)
  else if rollcallFailed (s1.chain c) then enterBroken c .rollcallFailed none s1
  else s1

/-- A stale turn marker (R7, R18). -/
def staleTurn (c : Chain) (records : Nat) (s : State) : State :=
  s.countChain c fun k =>
    { k with staleTurns := k.staleTurns + 1, staleStatus := k.staleStatus + BitVec.ofNat 32 records }

/-- A turn marker whose length agrees (R18, R19). -/
def takeTurn (c : Chain) (cycle : Byte) (records : List StatusRecord) (s : State) : State :=
  if (s.chain c).awaited = some cycle then
    let s1 := s.modChain c fun r =>
      { r with awaited := none, counters := { r.counters with returnedTurns := r.counters.returnedTurns + 1 } }
    let qs := standingRecords c records []
    let s2 := countMalformed c (records.length - qs.length) s1
    match (s.chain c).state with
    | .running => handTurn c qs (s2.modChain c fun r => { r with missed := 0 })
    | .rollcall => rollcallTurn c qs s2
    | .disabled | .broken => s2
  else staleTurn c records.length s

/-- An ABORT marker of a cell of the chain (R20). -/
def takeAbort (x : CellId) (s : State) : State :=
  let c := chainOf x
  let s1 := s.modChain c fun r =>
    { r with lastAbort := some x, counters := { r.counters with aborts := r.counters.aborts + 1 } }
  match (s.chain c).state with
  | .running => breakChain c .abort (some x) s1
  | .rollcall => s1.modChain c fun r => { r with goodTurns := 0 }
  | .disabled | .broken => s1

/-! ### CHAIN-ENABLE and CHAIN-DISABLE (R3) -/

/-- CHAIN-DISABLE: a RUNNING chain first does what leaving RUNNING requires (R3). -/
def disableChain (c : Chain) (s : State) : State :=
  match (s.chain c).state with
  | .disabled => s
  | .running => enterDisabled c (leaveRunning c s)
  | .rollcall | .broken => enterDisabled c s

/-! ### Meanings -/

/-- CYCLE_TIMER_EXPIRY (R10). -/
def execCycleTimerExpiry (c : Chain) (s : State) : Host.Outcome State Fault Refusal := s.take (cycleExpiry c)

/-- BACKOFF_TIMER_EXPIRY (R8). -/
def execBackoffTimerExpiry (c : Chain) (s : State) : Host.Outcome State Fault Refusal := s.take (backoffExpiry c)

/-- STABLE_TIMER_EXPIRY (R5). -/
def execStableTimerExpiry (c : Chain) (s : State) : Host.Outcome State Fault Refusal := s.take (stableExpiry c)

/-- SIGNAL_LOSS (R21). -/
def execSignalLoss (c : Chain) (s : State) : Host.Outcome State Fault Refusal := s.take (lineSilent c)

/-- FILL_BLOCK: ignored, but for the silence measurement (R17, R21). -/
def execFillBlock (c : Chain) (s : State) : Host.Outcome State Fault Refusal := s.take (onBlock c id)

/-- OPENER_RETURNED: ignored, but for the silence measurement (R17, R21). -/
def execOpenerReturned (c : Chain) (s : State) : Host.Outcome State Fault Refusal := s.take (onBlock c id)

/-- UNDELIVERED_DOWNLINK (R17). -/
def execUndeliveredDownlink (x : CellId) (s : State) : Host.Outcome State Fault Refusal :=
  s.take (onBlock (chainOf x) fun t => t.countChain (chainOf x) fun k => { k with undelivered := k.undelivered + 1 })

/-- CRANE_UP (R18a, R48). -/
def execCraneUp (x : CellId) (radio : Addr) (seq : U16) (payload : List Byte) (s : State) :
    Host.Outcome State Fault Refusal :=
  s.take (uplinkBlock x (2 ≤ payload.length) (takeCraneUp x radio seq payload))

/-- REEFER_REPORT (R18a, R97). -/
def execReeferReport (x : CellId) (r : Report) (s : State) : Host.Outcome State Fault Refusal :=
  s.take (uplinkBlock x (r.alarms.length ≤ 4) (takeReport x r))

/-- GENERAL_UP (R18a, R41). -/
def execGeneralUp (x : CellId) (unit : Addr) (payload : List Byte) (s : State) : Host.Outcome State Fault Refusal :=
  s.take (uplinkBlock x (1 ≤ payload.length) (takeGeneralUp x unit payload))

/-- TURN_MARKER (R18, R19); a marker of more than eight records is malformed (R170). -/
def execTurnMarker (c : Chain) (cycle : Byte) (records : List StatusRecord) (s : State) :
    Host.Outcome State Fault Refusal :=
  s.take (onBlock c (if records.length ≤ 8 then takeTurn c cycle records else countMalformed c 1))

/-- ABORT_MARKER (R20). -/
def execAbortMarker (x : CellId) (s : State) : Host.Outcome State Fault Refusal :=
  s.take (onBlock (chainOf x) (takeAbort x))

/-- MALFORMED_BLOCK (R17, R170); a block that is not malformed is not counted as one (log 16). -/
def execMalformedBlock (c : Chain) (b : RawBlock) (s : State) : Host.Outcome State Fault Refusal :=
  s.take (onBlock c (if blockMalformed c b then countMalformed c 1 else id))

/-- GENERAL_FRAME (R43, R145). -/
def execGeneralFrame (h : RxHeader) (unit : Addr) (payload : List Byte) (s : State) :
    Host.Outcome State Fault Refusal :=
  s.take (State.receive h (1 ≤ payload.length) (takeGeneralDown unit payload))

/-- ROLLCALL_LED_BLINK: the LED of a chain in ROLLCALL takes the light of the count (R172). -/
def rollcallBlink (c : Chain) (s : State) : State :=
  if (s.chain c).state = .rollcall then
    match c with
    | .N => { s with leds := { s.leds with chn := chainLed .rollcall s.time.ms } }
    | .S => { s with leds := { s.leds with chs := chainLed .rollcall s.time.ms } }
  else s

/-- ROLLCALL_LED_BLINK (R172). -/
def execRollcallLedBlink (c : Chain) (s : State) : Host.Outcome State Fault Refusal := s.take (rollcallBlink c)

end Machine
end Sys2Proof
end

