-- ==== Sys2Proof/Machine/Operands.lean ====
section
/-! DEFINITION. What management requests carry: the fields of request data (R156, R165, R166; 11.1, 11.2), the items of a
SET-PARAMS list (R157), and the entries of the staged tables (11.4). -/

namespace Sys2Proof
namespace Machine

/-! ### Request numbers (11.1) -/

/-- The requests of the catalogue in order, numbered from 1 (11.1). -/
inductive RequestKind
  | identify | readParams | setParams | loadBegin | loadSegment | loadEnd | readCrane | readCell | readChain
  | readReefer | readGroup | readBatches | readDrain | readCounters | clearExcursion | clearGroup | releaseCrane
  | barCell | unbarCell | chainEnable | chainDisable | restartTraffic | restartAll
  deriving DecidableEq, Repr

/-- The request a command number names, if any (11.1). -/
def requestKind (command : U16) : Option RequestKind :=
  match command.toNat with
  | 1 => some .identify
  | 2 => some .readParams
  | 3 => some .setParams
  | 4 => some .loadBegin
  | 5 => some .loadSegment
  | 6 => some .loadEnd
  | 7 => some .readCrane
  | 8 => some .readCell
  | 9 => some .readChain
  | 10 => some .readReefer
  | 11 => some .readGroup
  | 12 => some .readBatches
  | 13 => some .readDrain
  | 14 => some .readCounters
  | 15 => some .clearExcursion
  | 16 => some .clearGroup
  | 17 => some .releaseCrane
  | 18 => some .barCell
  | 19 => some .unbarCell
  | 20 => some .chainEnable
  | 21 => some .chainDisable
  | 22 => some .restartTraffic
  | 23 => some .restartAll
  | _ => none

/-- The requests of a load, which do not interleave (R162). -/
def RequestKind.continuesLoad : RequestKind → Bool
  | .loadSegment | .loadEnd => true
  | .identify | .readParams | .setParams | .loadBegin | .readCrane | .readCell | .readChain | .readReefer
  | .readGroup | .readBatches | .readDrain | .readCounters | .clearExcursion | .clearGroup | .releaseCrane
  | .barCell | .unbarCell | .chainEnable | .chainDisable | .restartTraffic | .restartAll => false

/-! ### Fields of request data -/

/-- A value below a bound. -/
def below (n : Nat) (v : Nat) : Option (Fin n) := if h : v < n then some ⟨v, h⟩ else none

/-- One octet that names one of n things; any other length names none. -/
def octetBelow (n : Nat) : List Byte → Option (Fin n)
  | [o] => below n o.toNat
  | _ => none

/-- Two octets that name one of n things. -/
def pairBelow (n : Nat) : List Byte → Option (Fin n)
  | [a, b] => below n (valueOf [a, b])
  | _ => none

/-- One octet that names a chain: N 0, S 1 (11.1). -/
def chainNamed : List Byte → Option Chain
  | [o] => match o.toNat with
    | 0 => some .N
    | 1 => some .S
    | _ => none
  | _ => none

/-- A yes/no octet (11.1). -/
def flagOf (o : Byte) : Option Bool :=
  match o.toNat with
  | 0 => some false
  | 1 => some true
  | _ => none

/-- A first reefer index and a count (R110): the count 1-16, the run within the table. -/
def reeferRun : List Byte → Option (Nat × Nat)
  | [a, b, n] =>
    let first := valueOf [a, b]
    if first < 4096 ∧ 1 ≤ n.toNat ∧ n.toNat ≤ 16 ∧ first + n.toNat ≤ 4096 then some (first, n.toNat) else none
  | _ => none

/-- The scope of a READ-COUNTERS with its argument (R165). -/
inductive Scope
  | port
  | chain (c : Chain)
  | coverage
  | crane (k : CraneId)
  | reefer (first count : Nat)
  | pool
  | drain
  | management
  deriving DecidableEq, Repr

/-- The scope and its argument, numbered in the order of R165 (11.1). -/
def scopeOf (code : Byte) (arg : List Byte) : Option Scope :=
  match code.toNat, arg with
  | 0, [] => some .port
  | 1, [_] => (chainNamed arg).map .chain
  | 2, [] => some .coverage
  | 3, [_] => (octetBelow 12 arg).map .crane
  | 4, [_, _, _] => (reeferRun arg).map fun p => .reefer p.1 p.2
  | 5, [] => some .pool
  | 6, [] => some .drain
  | 7, [] => some .management
  | _, _ => none

/-- The data of a READ-COUNTERS: scope, argument, clear flag (R165). -/
def countersArg : List Byte → Option (Scope × Bool)
  | [] => none
  | code :: rest =>
    match rest.getLast? with
    | none => none
    | some last =>
      match scopeOf code rest.dropLast, flagOf last with
      | some sc, some b => some (sc, b)
      | _, _ => none

/-- The table a code names, in the order of R160 (11.1). -/
def tableOf (o : Byte) : Option Table :=
  match o.toNat with
  | 0 => some .cranes
  | 1 => some .cells
  | 2 => some .coverage
  | 3 => some .reefers
  | 4 => some .groups
  | _ => none

/-- The fields of a LOAD-BEGIN: table code, segment count, total length (R160; 11.1). -/
def loadBeginArg : List Byte → Option (Byte × Nat × Nat)
  | [t, n, a, b, c, d] => some (t, n.toNat, valueOf [a, b, c, d])
  | _ => none

/-! ### SET-PARAMS (R157; widths log 18) -/

/-- An item of a SET-PARAMS list: parameter number and value octets (11.2). -/
structure ParamItem where
  number : Nat
  value : List Byte
  deriving DecidableEq, Repr

/-- The items of a list; none when the octets do not divide into that many items. -/
def paramItems : Nat → List Byte → Option (List ParamItem)
  | 0, [] => some []
  | 0, _ :: _ => none
  | n + 1, number :: len :: rest =>
    if len.toNat ≤ rest.length then
      (paramItems n (rest.drop len.toNat)).map fun l => { number := number.toNat, value := rest.take len.toNat } :: l
    else none
  | _ + 1, _ => none

/-- The list a SET-PARAMS carries: a count of 1-19 and so many items (R157); none for any other data, which then has no
first item at fault (DESIGN CHOICE, log 18). -/
def paramList : List Byte → Option (List ParamItem)
  | [] => none
  | n :: rest => if 1 ≤ n.toNat ∧ n.toNat ≤ 19 then paramItems n.toNat rest else none

/-- A value of one octet within a range. -/
def octetIn (lo hi : Nat) : List Byte → Option Nat
  | [o] => if lo ≤ o.toNat ∧ o.toNat ≤ hi then some o.toNat else none
  | _ => none

/-- A value of two octets within a range. -/
def pairIn (lo hi : Nat) : List Byte → Option Nat
  | [a, b] => if lo ≤ valueOf [a, b] ∧ valueOf [a, b] ≤ hi then some (valueOf [a, b]) else none
  | _ => none

/-- An Ethernet address with an even first octet, not all zero (R157). -/
def stationAddress (a : Addr) : Bool := a ≠ 0 && !isGroup a

/-- None, or an address as the controller address (R157); all zero is none (11.1). -/
def optionalAddress (v : List Byte) : Option (Option Addr) :=
  if v.length = 6 then
    if addrOf v = 0 then some none
    else if isGroup (addrOf v) then none
    else some (some (addrOf v))
  else none

/-- So many addresses, six octets each. -/
def addressRun : Nat → List Byte → List Addr
  | 0, _ => []
  | n + 1, v => addrOf (v.take 6) :: addressRun n (v.drop 6)

/-- A whole manager list: 0-4 addresses, none twice (R157). -/
def managerList : List Byte → Option (List Addr)
  | [] => none
  | n :: rest =>
    let l := addressRun n.toNat rest
    if n.toNat ≤ 4 ∧ rest.length = 6 * n.toNat ∧ l.all stationAddress ∧ l.Nodup then some l else none

/-- The set of features an octet names (11.2). -/
def featuresOf : List Byte → Option Features
  | [o] =>
    if o.toNat < 16 then
      some { craneLed := o.getLsbD 0, keepFrames := o.getLsbD 1, missMasking := o.getLsbD 2,
             generalLearning := o.getLsbD 3 }
    else none
  | _ => none

/-- The parameter set with one item applied; none when the item names no parameter or its value is outside its range
(R157). -/
def applyItem (p : Params) (i : ParamItem) : Option Params :=
  match i.number with
  | 1 => (pairIn 0x0600 0xFFFF i.value).map fun n => { p with quayType := BitVec.ofNat 16 n }
  | 2 =>
    if i.value.length = 5 ∧ ((i.value.headD 0).toNat % 2 = 0) then
      some { p with mgmtHead := BitVec.ofNat 40 (valueOf i.value) }
    else none
  | 3 => (optionalAddress i.value).map fun a => { p with controller := a }
  | 4 => (optionalAddress i.value).map fun a => { p with collector := a }
  | 5 => (managerList i.value).map fun l => { p with managers := l }
  | 6 => (octetIn 2 32 i.value).map fun n => { p with cyclePeriod := n }
  | 7 => (octetIn 16 255 i.value).map fun n => { p with downlinkCapacity := n }
  | 8 => (octetIn 1 15 i.value).map fun n => { p with breakLimit := n }
  | 9 => (octetIn 1 15 i.value).map fun n => { p with statusMissLimit := n }
  | 10 => (octetIn 1 14 i.value).map fun n => { p with fadeLevel := n }
  | 11 => (octetIn 2 15 i.value).map fun n => { p with recoverLevel := n }
  | 12 => (pairIn 0 1000 i.value).map fun n => { p with urgentSealMs := n }
  | 13 => (pairIn 1 600 i.value).map fun n => { p with routineSealS := n }
  | 14 => (pairIn 10 1000 i.value).map fun n => { p with checkWaitMs := n }
  | 15 => (pairIn 1 1000 i.value).map fun n => { p with pauseLimitMs := n }
  | 16 => (pairIn 30 3600 i.value).map fun n => { p with ageOutS := n }
  | 17 => (octetIn 2 64 i.value).map fun n => { p with handoverLimit := n }
  | 18 => (octetIn 0 255 i.value).map fun n => { p with handoverBar := n }
  | 19 => (featuresOf i.value).map fun f => { p with features := f }
  | _ => none

/-- The judgement of a SET-PARAMS list: the new parameter set, or the position of the first item at fault (R157). -/
inductive ParamVerdict
  | accepted (p : Params)
  | atFault (position : Option Nat)
  deriving DecidableEq, Repr

/-- The items judged in order: each names a parameter, none named before, with a value in its range (R157). DESIGN CHOICE: of
two items that name one parameter the later is at fault (log 18). -/
def judgeItems : Params → List Nat → Nat → List ParamItem → ParamVerdict
  | p, _, _, [] => .accepted p
  | p, seen, n, i :: rest =>
    if seen.contains i.number then .atFault (some n)
    else
      match applyItem p i with
      | none => .atFault (some n)
      | some q => judgeItems q (i.number :: seen) (n + 1) rest

/-- A list judged whole: its items, then the levels as they would stand (R24, R157). The first item that names either
level is at fault when the recover level would not exceed the fade level (log 18). DESIGN CHOICE: the levels are judged
only when no item is at fault by itself, so a later item out of range is named before an earlier one that puts the levels
out of order (log 18). DESIGN CHOICE: a list whose count is 0 or above 19, or that does not divide into its items, is
refused and names no item (log 18). -/
def judgeParams (p : Params) (data : List Byte) : ParamVerdict :=
  match paramList data with
  | none => .atFault none
  | some l =>
    match judgeItems p [] 0 l with
    | .atFault n => .atFault n
    | .accepted q =>
      if q.fadeLevel < q.recoverLevel then .accepted q
      else .atFault (l.findIdx? fun i => i.number == 10 || i.number == 11)

/-! ### Entries of the staged tables (11.4) -/

/-- The staged octets cut into entries of a size. -/
def entriesOf (size : Nat) (content : List Byte) : List (List Byte) :=
  (List.range (content.length / size)).map fun n => (content.drop (n * size)).take size

/-- Octet n of an entry. -/
def octetAt (e : List Byte) (n : Nat) : Nat := (e.getD n 0).toNat

/-- The value of octets n and n + 1 of an entry. -/
def pairAt (e : List Byte) (n : Nat) : Nat := valueOf ((e.drop n).take 2)

/-- The address at octet n of an entry. -/
def addrAt (e : List Byte) (n : Nat) : Addr := addrOf ((e.drop n).take 6)

/-- A crane entry (11.4): a removal when `defn` is none. -/
structure CraneEntry where
  index : Nat
  action : Nat
  presence : Nat
  defn : CraneDef
  deriving DecidableEq, Repr

/-- A crane entry's fields; those the presence octet omits take their defaults (R46). -/
def craneEntry (e : List Byte) : CraneEntry :=
  let p := octetAt e 2
  { index := octetAt e 0, action := octetAt e 1, presence := p
    defn :=
      { station := addrAt e 3, radio := addrAt e 9, reservation := octetAt e 15
        interval := if p % 2 = 1 then pairAt e 16 else Config.defaultInterval
        lossLimit := if p / 2 % 2 = 1 then octetAt e 18 else Config.defaultLossLimit
        holdOff := if p / 4 % 2 = 1 then octetAt e 19 else Config.defaultHoldOff } }

/-- A cell entry (11.4). -/
structure CellEntry where
  cell : Nat
  fitted : Nat
  budget : Nat
  position : Nat
  deriving DecidableEq, Repr

/-- A cell entry's fields. -/
def cellEntry (e : List Byte) : CellEntry :=
  { cell := octetAt e 0, fitted := octetAt e 1, budget := octetAt e 2, position := octetAt e 3 }

/-- A list of a coverage entry: a count, and as many of the four cell octets as it says (11.4). -/
def cellList (e : List Byte) (n : Nat) : List Nat := ((e.drop (n + 1)).take (min (octetAt e n) 4)).map (·.toNat)

/-- A coverage entry (11.4). -/
structure BandListing where
  rankedCount : Nat
  ranked : List Nat
  shadowCount : Nat
  shadow : List Nat
  deriving DecidableEq, Repr

/-- A coverage entry's fields. -/
def bandListing (e : List Byte) : BandListing :=
  { rankedCount := octetAt e 0, ranked := cellList e 0, shadowCount := octetAt e 5, shadow := cellList e 5 }

/-- A reefer entry (11.4). -/
structure ReeferEntry where
  index : Nat
  action : Nat
  group : Nat
  unit : Addr
  deriving DecidableEq, Repr

/-- A reefer entry's fields. -/
def reeferEntry (e : List Byte) : ReeferEntry :=
  { index := pairAt e 0, action := octetAt e 2, group := octetAt e 3, unit := addrAt e 4 }

/-- A group entry (11.4). -/
structure GroupEntry where
  index : Nat
  defn : GroupDef
  enable : Nat
  deriving DecidableEq, Repr

/-- A group entry's fields. -/
def groupEntry (e : List Byte) : GroupEntry :=
  { index := octetAt e 0, enable := octetAt e 8
    defn :=
      { interval := pairAt e 1, silentLimit := octetAt e 3, bandBelow := octetAt e 4, bandAbove := octetAt e 5
        deadband := octetAt e 6, reload := octetAt e 7, excursionEnable := octetAt e 8 = 1 } }

/-- The size of an entry of a table (11.4). -/
def entrySize : Table → Nat
  | .cranes => 20
  | .cells => 4
  | .coverage => 10
  | .reefers => 10
  | .groups => 9

end Machine
end Sys2Proof
end

