-- ==== Sys2Proof/Machine/Load.lean ====
section
/-! DEFINITION. The apply of a load by the owner of its table (R163, R164): validation of the table as it would stand
(R25, R37, R39, R46, R93, R95), and its effects (R25, R37, R39, R47, R93, R96, R121). -/

namespace Sys2Proof
namespace Machine

/-! ### Validation (R163) -/

/-- A load refused by its owner: the status and the position of the first entry at fault, or none (R163; log 20). -/
structure LoadFault where
  status : Status
  position : Option Nat
  deriving DecidableEq, Repr

/-- The position of the first entry at fault, judged with the entries before it. -/
def firstFault {α : Type} (bad : List α → α → Bool) : List α → List α → Nat → Option Nat
  | _, [], _ => none
  | before, e :: rest, n => if bad before e then some n else firstFault bad (e :: before) rest (n + 1)

/-- The first fault of the entries of a table, if any, with its status. -/
def entryFault {α : Type} (status : Status) (bad : List α → α → Bool) (l : List α) : Option LoadFault :=
  (firstFault bad [] l 0).map fun n => { status := status, position := some n }

/-- A fault that lies in no single entry. -/
def wholeFault (status : Status) (bad : Bool) : Option LoadFault :=
  if bad then some { status := status, position := none } else none

/-- An address is held by more than one of the definitions (R39). -/
def heldTwice (held : List Addr) (a : Addr) : Bool := 1 < held.count a

/-- The addresses of the crane definitions, as a list of definitions gives them. -/
def craneAddresses (l : List (Option CraneDef)) : List Addr := l.filterMap fun d => d.map CraneDef.radio

/-- The crane definitions in force. -/
def craneDefs (s : State) : List (Option CraneDef) := allCranes.map fun k => (s.crane k).defn

/-- The reefer definitions in force, by index. -/
def reeferDefs (s : State) : List (Nat × ReeferDef) :=
  s.ree.reefers.filterMap fun e => e.2.defn.map fun d => (e.1, d)

/-! ### CRANES (R46, R47) -/

/-- A crane entry outside its ranges, or naming a crane that stands in an entry before it (R46; 11.4). -/
def craneOutOfRange (before : List CraneEntry) (e : CraneEntry) : Bool :=
  12 ≤ e.index || 2 ≤ e.action || 8 ≤ e.presence || before.any (fun x => x.index == e.index)
    || (e.action == 0
      && (e.defn.reservation < 1 || 8 < e.defn.reservation || e.defn.interval < 10 || 1000 < e.defn.interval
        || e.defn.interval % 10 != 0 || e.defn.lossLimit < 1 || 15 < e.defn.lossLimit || e.defn.holdOff < 1
        || 8 < e.defn.holdOff || !stationAddress e.defn.station || e.defn.radio == 0))

/-- The crane definitions as they would stand after the apply (R46). -/
def craneDefsAfter (s : State) (l : List CraneEntry) : List (Option CraneDef) :=
  allCranes.map fun k =>
    match l.find? fun e => e.index == k.val with
    | none => (s.crane k).defn
    | some e => if e.action = 0 then some e.defn else none

/-- A crane entry that would change a crane in use (R46). -/
def craneInUse (s : State) (e : CraneEntry) : Bool :=
  match below 12 e.index with
  | none => false
  | some k =>
    match (s.crane k).state, (s.crane k).defn with
    | .linked, some d | .handover, some d | .lost, some d =>
      e.action != 0 || d.station != e.defn.station || d.radio != e.defn.radio || d.reservation != e.defn.reservation
    | .linked, none | .handover, none | .lost, none => true
    | .vacant, _ | .idle, _ => false

/-- The validation of a CRANES load (R46, R163). DESIGN CHOICE: of two entries of the load that would hold one address,
each is at fault, and so the earlier is named (log 20). -/
def craneFault (s : State) (l : List CraneEntry) : Option LoadFault :=
  let held := craneAddresses (craneDefsAfter s l) ++ (reeferDefs s).map fun p => p.2.unit
  (entryFault .range craneOutOfRange l).orElse fun _ =>
    (entryFault .duplicateAddress (fun _ e => e.action == 0 && heldTwice held e.defn.radio) l).orElse fun _ =>
      entryFault .inUse (fun _ e => craneInUse s e) l

/-- A directory entry made for a definition, or moved from its old address (R39). -/
def moveEntry (old : Option Addr) (new : Addr) (t : DirTarget) (s : State) : State :=
  match old with
  | none => dirDefine new t s
  | some a => if a = new then s else dirDefine new t (dirForget a t s)

/-- One crane entry takes effect (R47). -/
def applyCrane (s : State) (e : CraneEntry) : State :=
  match below 12 e.index with
  | none => s
  | some k =>
    let c := s.crane k
    if e.action = 0 then
      moveEntry (c.defn.map CraneDef.radio) e.defn.radio (.crane k)
        (s.modCrane k fun r =>
          match r.state with
          | .vacant => { defn := some e.defn, state := .idle }
          | .idle => { r with defn := some e.defn }
          | .linked | .handover | .lost => r.redefine e.defn)
    else
      match c.state, c.defn with
      | .idle, some d => dirForget d.radio (.crane k) (s.modCrane k fun _ => {})
      | .idle, none => s.modCrane k fun _ => {}
      | .vacant, _ | .linked, _ | .handover, _ | .lost, _ => s

/-! ### CELLS (R25) -/

/-- A cell entry outside its ranges, or naming a cell that stands in an entry before it (R25; 11.4). -/
def cellOutOfRange (before : List CellEntry) (e : CellEntry) : Bool :=
  16 ≤ e.cell || 2 ≤ e.fitted || 64 < e.budget || 8 ≤ e.position || before.any fun x => x.cell == e.cell

/-- The entry of a cell, if the load lists it. -/
def entryFor (l : List CellEntry) (x : CellId) : Option CellEntry := l.find? fun e => e.cell == x.val

/-- The position of a cell as it would stand (R25). -/
def positionAfter (s : State) (l : List CellEntry) (x : CellId) : Nat :=
  ((entryFor l x).map CellEntry.position).getD (s.cell x).position.val

/-- The budget of a cell as it would stand (R25). -/
def budgetAfter (s : State) (l : List CellEntry) (x : CellId) : Nat :=
  ((entryFor l x).map CellEntry.budget).getD (s.cell x).budget

/-- A cell entry that would take slots in use (R25). -/
def cellInUse (s : State) (e : CellEntry) : Bool :=
  match below 16 e.cell with
  | none => false
  | some x =>
    e.budget < (s.cell x).reserved || ((s.cell x).fitted && e.fitted == 0 && (s.cell x).reserved != 0)

/-- The budgets of a chain's cells as they would stand total more than 128 (R25). -/
def overBudget (s : State) (l : List CellEntry) (c : Chain) : Bool :=
  Config.chainBudget < ((cellsOf c).map (budgetAfter s l)).sum

/-- The positions of a chain's cells as they would stand are not all different (R25). -/
def positionsClash (s : State) (l : List CellEntry) (c : Chain) : Bool :=
  !decide ((cellsOf c).map (positionAfter s l)).Nodup

/-- The validation of a CELLS load (R25, R163). -/
def cellFault (s : State) (l : List CellEntry) : Option LoadFault :=
  (entryFault .range cellOutOfRange l).orElse fun _ =>
    (wholeFault .range (positionsClash s l .N || positionsClash s l .S)).orElse fun _ =>
      (entryFault .inUse (fun _ e => cellInUse s e) l).orElse fun _ =>
        wholeFault .inUse (overBudget s l .N || overBudget s l .S)

/-- A cell's definition set; a cell that becomes unfitted enters ABSENT (R25). -/
def Cell.define (fitted : Bool) (budget : Nat) (position : Fin 8) (r : Cell) : Cell :=
  let r1 := { r with fitted := fitted, budget := budget, position := position }
  if r.fitted && !fitted then r1.becomeUnfitted else r1

/-- One cell entry takes effect (R25, R31, R34). -/
def applyCell (s : State) (e : CellEntry) : State :=
  match below 16 e.cell, below 8 e.position with
  | some x, some p => coverageEvent x (fun t => t.modCell x (Cell.define (e.fitted == 1) e.budget p)) s
  | _, _ => s

/-! ### COVERAGE (R37) -/

/-- A list with too many cells, a number that is no cell, or a cell twice (R37). -/
def listOutOfRange (count : Nat) (l : List Nat) : Bool := 4 < count || l.any (16 ≤ ·) || !decide l.Nodup

/-- A coverage entry outside its ranges (R37). -/
def bandOutOfRange (e : BandListing) : Bool :=
  listOutOfRange e.rankedCount e.ranked || listOutOfRange e.shadowCount e.shadow

/-- The validation of a COVERAGE load (R37, R163). -/
def bandFault (l : List BandListing) : Option LoadFault :=
  (wholeFault .range (l.length != 64)).orElse fun _ => entryFault .range (fun _ e => bandOutOfRange e) l

/-- The band entry a coverage entry gives. -/
def BandListing.band (e : BandListing) : Band :=
  { ranked := e.ranked.filterMap (below 16), shadow := e.shadow.filterMap (below 16) }

/-- The new map replaces the old one, and the Crane Link Unit is handed a map change (R37, R53). -/
def applyCoverage (l : List BandListing) (s : State) : State :=
  let map := l.zipIdx.foldl (fun m p => if h : p.2 < 64 then m.set p.2 p.1.band else m) s.cov.map
  { s with cov := { s.cov with map := map } }.push .mapChange

/-! ### REEFERS (R95, R96) -/

/-- A group index names a defined group. -/
def groupDefined (s : State) (n : Nat) : Bool :=
  match below 64 n with
  | none => false
  | some g => (s.group g).defn.isSome

/-- A reefer index names a VACANT reefer. -/
def reeferVacant (s : State) (n : Nat) : Bool :=
  match below 4096 n with
  | none => true
  | some i => (s.reefer i).defn.isNone

/-- A reefer entry outside its ranges, or naming a reefer that stands in an entry before it (R95; 11.4). -/
def reeferOutOfRange (s : State) (before : List ReeferEntry) (e : ReeferEntry) : Bool :=
  4096 ≤ e.index || 3 ≤ e.action || before.any (fun x => x.index == e.index)
    || (e.action != 2 && (!groupDefined s e.group || e.unit == 0))
    || (e.action == 1 && reeferVacant s e.index)

/-- The unit addresses as they would stand after the apply (R95). -/
def reeferAddressesAfter (s : State) (l : List ReeferEntry) : List Addr :=
  ((reeferDefs s).filter fun p => !(l.any fun e => e.index == p.1)).map (fun p => p.2.unit)
    ++ (l.filter fun e => e.action != 2).map ReeferEntry.unit

/-- The validation of a REEFERS load (R95, R163). DESIGN CHOICE: of two entries of the load that would hold one address,
each is at fault, and so the earlier is named (log 20). -/
def reeferFault (s : State) (l : List ReeferEntry) : Option LoadFault :=
  let held := craneAddresses (craneDefs s) ++ reeferAddressesAfter s l
  (entryFault .range (reeferOutOfRange s) l).orElse fun _ =>
    entryFault .duplicateAddress (fun _ e => e.action != 2 && heldTwice held e.unit) l

/-- A reefer leaves a group's member count, if it was defined (R96). -/
def leaveGroup (d : Option ReeferDef) (s : State) : State :=
  match d with
  | none => s
  | some d => s.modGroup d.group fun g => { g with members := g.members - 1 }

/-- A reefer joins a group's member count (R96). -/
def joinGroup (g : GroupId) (s : State) : State := s.modGroup g fun r => { r with members := r.members + 1 }

/-- The suppression reload of a group. -/
def reloadOf (s : State) (g : GroupId) : Nat := ((s.group g).defn.map GroupDef.reload).getD 0

/-- A reefer added, or its address changed (R96). -/
def addReefer (i : ReeferId) (g : GroupId) (unit : Addr) (s : State) : State :=
  let old := (s.reefer i).defn
  let s1 := joinGroup g (leaveGroup old (removeLive i s))
  let s2 := s1.setReefer i { defn := some { unit := unit, group := g }, state := .expected, countdown := reloadOf s g }
  moveEntry (old.map ReeferDef.unit) unit (.reefer i) s2

/-- A reefer replaced with the same address (R96). -/
def regroupReefer (i : ReeferId) (g : GroupId) (unit : Addr) (s : State) : State :=
  let r := s.reefer i
  let s1 := if r.defn.map ReeferDef.group = some g then s else joinGroup g (leaveGroup r.defn s)
  let s2 := s1.modReefer i fun q => { q with defn := some { unit := unit, group := g } }
  if r.excursion then s2.modGroup g fun q => { q with summary := true } else s2

/-- A reefer removed; one that is VACANT is left as it is (R95, R96). -/
def dropReefer (i : ReeferId) (s : State) : State :=
  match (s.reefer i).defn with
  | none => s
  | some d => dirForget d.unit (.reefer i) ((leaveGroup (some d) (removeLive i s)).setReefer i Reefer.vacant)

/-- One reefer entry takes effect (R96). -/
def applyReefer (s : State) (e : ReeferEntry) : State :=
  match below 4096 e.index with
  | none => s
  | some i =>
    if e.action = 2 then dropReefer i s
    else
      match below 64 e.group with
      | none => s
      | some g =>
        if e.action = 1 ∧ (s.reefer i).defn.map ReeferDef.unit = some e.unit then regroupReefer i g e.unit s
        else addReefer i g e.unit s

/-! ### GROUPS (R93) -/

/-- A group entry outside its ranges, or naming a group that stands in an entry before it (R92, R93; 11.4). -/
def groupOutOfRange (before : List GroupEntry) (e : GroupEntry) : Bool :=
  64 ≤ e.index || before.any (fun x => x.index == e.index) || e.defn.interval < 10 || 3600 < e.defn.interval
    || e.defn.silentLimit < 1 || 15 < e.defn.silentLimit || 2 ≤ e.enable

/-- The validation of a GROUPS load (R93, R163). -/
def groupFault (l : List GroupEntry) : Option LoadFault := entryFault .range groupOutOfRange l

/-- One group entry takes effect: summary and member count are kept (R93). -/
def applyGroup (s : State) (e : GroupEntry) : State :=
  match below 64 e.index with
  | none => s
  | some g => s.modGroup g fun r => { r with defn := some e.defn }

/-! ### Any table (R163, R164) -/

/-- The owner's validation of the staged content of a table (R163). DESIGN CHOICE: content that is not a whole number of
entries is judged first, with no position, whatever entry is at fault besides (log 20). -/
def loadFault (t : Table) (content : List Byte) (s : State) : Option LoadFault :=
  let l := entriesOf (entrySize t) content
  (wholeFault .range (content.length % entrySize t != 0)).orElse fun _ =>
    match t with
    | .cranes => craneFault s (l.map craneEntry)
    | .cells => cellFault s (l.map cellEntry)
    | .coverage => bandFault (l.map bandListing)
    | .reefers => reeferFault s (l.map reeferEntry)
    | .groups => groupFault (l.map groupEntry)

/-- The owner's apply of the staged content of a table (R164). -/
def applyLoad (t : Table) (content : List Byte) (s : State) : State :=
  let l := entriesOf (entrySize t) content
  match t with
  | .cranes => (l.map craneEntry).foldl applyCrane s
  | .cells => (l.map cellEntry).foldl applyCell s
  | .coverage => applyCoverage (l.map bandListing) s
  | .reefers => (l.map reeferEntry).foldl applyReefer s
  | .groups => (l.map groupEntry).foldl applyGroup s

end Machine
end Sys2Proof
end

