-- ==== Sys2Proof/Machine/Management.lean ====
section
/-! DEFINITION. The Management Unit (spec/10): arrival and taking of requests, load transactions, parameters, reads,
counters, clears and commands on other blocks; and the meanings of the management rows. -/

namespace Sys2Proof
namespace Machine

/-! ### Load transactions abandoned (R162) -/

/-- The abandoned counter of a cause (R162). -/
def MgmtCounters.countAbandoned (cause : AbandonCause) (k : MgmtCounters) : MgmtCounters :=
  match cause with
  | .interleaved => { k with abandonedInterleaved := k.abandonedInterleaved + 1 }
  | .refused => { k with abandonedRefused := k.abandonedRefused + 1 }
  | .timeout => { k with abandonedTimeout := k.abandonedTimeout + 1 }
  | .linkLoss => { k with abandonedLinkLoss := k.abandonedLinkLoss + 1 }

/-- The transaction closed: staging memory empty, no transaction, timer stopped (R162, R163). -/
def Mgmt.closeLoad (m : Mgmt) : Mgmt := { m with load := none, staging := [], timer := none }

/-- The open transaction abandoned on a cause; nothing when none is open (R162). -/
def abandonLoad (cause : AbandonCause) (s : State) : State :=
  if s.mgmt.load.isSome then
    s.modMgmt fun m => { m.closeLoad with counters := m.counters.countAbandoned cause }
  else s

/-- The open transaction abandoned with no response to report it: the abandoned-pending flag is set (R162). -/
def abandonUnreported (cause : AbandonCause) (s : State) : State :=
  if s.mgmt.load.isSome then (abandonLoad cause s).modMgmt fun m => { m with abandoned := true } else s

/-! ### Requests and responses (R155, R156) -/

/-- A response offered to the control queue, and whether it was taken; a refused one is counted (R155). -/
def offerResponse (q : Request) (status : Status) (abandoned changed : Bool) (data : ResponseData) (s : State) :
    State × Bool :=
  let o := s.offer .control (s.frame q.src (.response q.id q.command status abandoned changed data))
  if o.2 then o
  else (o.1.countMgmt fun k => { k with responsesRefused := k.responsesRefused + 1 }, false)

/-- A request handed to the Management Unit: it joins the request queue, or is answered BUSY (R155). -/
def takeRequest (q : Request) (s : State) : State :=
  if s.mgmt.queue.length < Config.requestCapacity then s.modMgmt fun m => { m with queue := m.queue ++ [q] }
  else (offerResponse q .busy false false .none (s.countMgmt fun k => { k with busy := k.busy + 1 })).1

/-- The source check of a MGMT-REQUEST against the manager list (R146). -/
def fromManager (q : Request) (s : State) : State :=
  if s.params.managers.isEmpty || s.params.managers.contains q.src then takeRequest q s
  else s.countPort fun k => { k with managerRefused := k.managerRefused + 1 }

/-- What the execution of a request answers: the state it leaves, the response's status, CHANGED flag and data, and what
follows once the response has been offered, given whether it was taken (R158, R164, R167). -/
structure Reply where
  st : State
  status : Status := .ok
  changed : Bool := false
  data : ResponseData := .none
  after : Bool → State → State := fun _ s => s

/-- The request at the head of the queue is taken and executed, and its response offered (R155, R156, R162). -/
def executeHead (interleaves : Bool) (q : Request) (rest : List Request) (body : Request → State → Reply) (s : State) :
    State :=
  let s1 := s.modMgmt fun m => { m with queue := rest, current := some q }
  let reported := s.mgmt.abandoned || (interleaves && s.mgmt.load.isSome)
  let s2 := (if interleaves then abandonLoad .interleaved s1 else s1).modMgmt fun m => { m with abandoned := false }
  let r := body q s2
  let o := offerResponse q r.status reported r.changed r.data r.st
  r.after o.2
    (o.1.modMgmt fun m => { m with current := none, counters := { m.counters with taken := m.counters.taken + 1 } })

/-- A request of the catalogue is taken when it stands at the head of the queue (R156; log 6). -/
def serve (k : RequestKind) (body : Request → State → Reply) (s : State) : State :=
  match s.mgmt.queue with
  | [] => s
  | q :: rest => if requestKind q.command = some k then executeHead (!k.continuesLoad) q rest body s else s

/-- A reply with a status and nothing else. -/
def answer (status : Status) (s : State) : Reply := { st := s, status := status }

/-- A reply of OK with data. -/
def answerData (d : ResponseData) (s : State) : Reply := { st := s, data := d }

/-- A request without data: any octet makes its data not fit the command (R156). -/
def withoutData (f : State → Reply) (q : Request) (s : State) : Reply :=
  if q.data.isEmpty then f s else answer .range s

/-- A request whose data names one thing: RANGE when it names none (R156, R166). -/
def withArg {α : Type} (parse : List Byte → Option α) (f : α → State → Reply) (q : Request) (s : State) : Reply :=
  match parse q.data with
  | none => answer .range s
  | some a => f a s

/-! ### Identification and parameters (R157-R159) -/

/-- The identification record (R159). -/
def identification (s : State) : ResponseData :=
  .identification Config.partCode Config.revision [12, 16, 4096, 64, 32, 64, 1024] {} s.params.features s.mgmtAddress

/-- An open batch whose age stands at or above the seal time in force (R113). -/
def sealDue (s : State) (u : Urgency) : Bool :=
  match openBatch s u with
  | none => false
  | some b => sealTime s u ≤ (s.batch b).age

/-- An open batch is sealed by age within a change of its seal time, and the start condition tested (R113, R130). -/
def sealByAge (u : Urgency) (s : State) : State := afterSeal s (sealOpen u .age s)

/-- The open batches that a new seal time finds due are sealed: in the order the next choice gives when both are (R113,
R119; log 8). -/
def sealDueBatches (urgent routine : Bool) (s : State) : State :=
  match urgent && sealDue s .urgent, routine && sealDue s .routine with
  | true, true =>
    if s.popChoice.1 then sealByAge .urgent (sealByAge .routine s.popChoice.2)
    else sealByAge .routine (sealByAge .urgent s.popChoice.2)
  | true, false => sealByAge .urgent s
  | false, true => sealByAge .routine s
  | false, false => s

/-- The parameter set takes new values together, and each block takes its own as one event (R2, R113, R158). -/
def applyParams (new : Params) (s : State) : State :=
  sealDueBatches (new.urgentSealMs != s.params.urgentSealMs) (new.routineSealS != s.params.routineSealS)
    (s.modMgmt fun m => { m with params := new })

/-- SET-PARAMS (R157, R158). -/
def setParams (q : Request) (s : State) : Reply :=
  match judgeParams s.params q.data with
  | .atFault n => { st := s, status := .range, data := .itemAtFault n }
  | .accepted new => { st := s, changed := new != s.params, after := fun _ t => applyParams new t }

/-! ### Load requests (R160-R164) -/

/-- The data of a response to a load request: the transaction as it stands (R154). -/
def loadData (s : State) : ResponseData := .load s.mgmt.load s.mgmt.staging.length

/-- A load request answered with a status, and the transaction as it stands. -/
def answerLoad (status : Status) (s : State) : Reply := { st := s, status := status, data := loadData s }

/-- LOAD-BEGIN (R160). -/
def loadBegin (q : Request) (s : State) : Reply :=
  match loadBeginArg q.data with
  | none => answerLoad .range s
  | some (t, n, total) =>
    match tableOf t with
    | none => answerLoad .range s
    | some table =>
      if n < 1 ∨ Config.maxSegments < n ∨ total = 0 then answerLoad .range s
      else if Config.stagingOctets < total ∨ Config.segmentOctets * n < total then answerLoad .tooLarge s
      else
        answerLoad .ok (s.modMgmt fun m =>
          { m with
            load := some { table := table, segments := n, total := total, next := 0, crc := Config.loadSeed }
            staging := [], timer := startTimer Config.transactionMs
            counters := { m.counters with opened := m.counters.opened + 1 } })

/-- A load request refused, which abandons the transaction (R161, R163). -/
def refuseLoad (status : Status) (s : State) : Reply := answerLoad status (abandonLoad .refused s)

/-- LOAD-SEGMENT (R161). -/
def loadSegment (q : Request) (s : State) : Reply :=
  match q.data with
  | [] => answerLoad .range s
  | index :: payload =>
    match s.mgmt.load with
    | none => answerLoad .noLoad s
    | some t =>
      if index.toNat ≠ t.next ∨ t.segments ≤ index.toNat then refuseLoad .sequence s
      else if Config.segmentOctets < payload.length ∨ t.total < s.mgmt.staging.length + payload.length then
        refuseLoad .tooLarge s
      else
        answerLoad .ok (s.modMgmt fun m =>
          { m with
            load := some { t with next := t.next + 1, crc := crcOver t.crc payload }
            staging := m.staging ++ payload, timer := startTimer Config.transactionMs })

/-- The staged content handed to its owner: refused whole, or applied as one event (R163, R164). -/
def closeAndApply (t : Transaction) (s : State) : Reply :=
  let content := s.mgmt.staging
  match loadFault t.table content s with
  | some f =>
    let s1 := s.modMgmt fun m => { m.closeLoad with counters := { m.counters with refused := m.counters.refused + 1 } }
    { st := s1, status := f.status, data := .loadRefused f.position s1.mgmt.load s1.mgmt.staging.length }
  | none =>
    let s1 := (applyLoad t.table content s).modMgmt fun m =>
      { m.closeLoad with counters := { m.counters with applied := m.counters.applied + 1 } }
    { st := s1
      data := .loadApplied (content.length / entrySize t.table) s1.mgmt.load s1.mgmt.staging.length
      after := fun _ u => settle u }

/-- LOAD-END (R163). -/
def loadEnd (q : Request) (s : State) : Reply :=
  match q.data with
  | [a, b] =>
    match s.mgmt.load with
    | none => answerLoad .noLoad s
    | some t =>
      if t.next < t.segments then refuseLoad .sequence s
      else if s.mgmt.staging.length ≠ t.total then refuseLoad .range s
      else if u16Of [a, b] ≠ t.crc then refuseLoad .crcMismatch s
      else closeAndApply t s
  | _ => answerLoad .range s

/-! ### Reads (R1, R23, R60, R110, R125, R142) -/

/-- The marked numbers of a window (R60). -/
def Window.markCount (w : Window) : Nat := (List.range 64).countP fun i => w.marks.getLsbD i

/-- READ-CRANE (R60). -/
def readCrane (k : CraneId) (s : State) : Reply :=
  let c := s.crane k
  match c.state with
  | .vacant => answerData .vacantCrane s
  | .idle | .linked | .handover | .lost =>
    answerData
      (.crane { record := { c with queue := [], window := none, oldHoldOff := none, supervision := none }
                supervision := msRemaining c.supervision
                queueDests := c.queue.map DownEntry.dests, window := c.window.map fun w => (w.base, w.markCount) }) s

/-- READ-CELL (R23, R166). -/
def readCell (x : CellId) (s : State) : Reply := answerData (.cell x (chainOf x) (s.cell x)) s

/-- READ-CHAIN (R1): every field but the queue contents, times in ms; the cycle timer and the image of the line are no
fields of R1's table. -/
def readChain (c : Chain) (s : State) : Reply :=
  let r := s.chain c
  answerData
    (.chain { record := { r with
                generalQ := [], cycleTimer := 0, line := none, backoff := none, stable := none, silence := 0 }
              backoff := msRemaining r.backoff, stable := msRemaining r.stable, silence := msGone r.silence
              depth := r.generalQ.length }) s

/-- The reefers of a run, in index order (R110). -/
def reefersOf (s : State) (p : Nat × Nat) : List Reefer :=
  (List.range p.2).filterMap fun n => (below 4096 (p.1 + n)).map fun i => s.reefer i

/-- READ-REEFER (R110). -/
def readReefer (p : Nat × Nat) (s : State) : Reply := answerData (.reefers p.1 (reefersOf s p)) s

/-- READ-GROUP (R110). -/
def readGroup (g : GroupId) (s : State) : Reply :=
  match (s.group g).defn with
  | none => answerData .undefinedGroup s
  | some _ => answerData (.group (s.group g)) s

/-- One batch as READ-BATCHES reports it (R125), its open age in whole milliseconds (R111; log 23). -/
def Batch.reading (b : Batch) : BatchReading :=
  { state := b.state, urgency := b.urgency, entries := b.entries.length, marked := b.entries.countP Entry.urgent
    age := msGone b.age, stamp := b.stamp }

/-- READ-BATCHES (R125). -/
def readBatches (s : State) : Reply :=
  answerData
    (.batches (allBatches.map fun b => (s.batch b).reading) s.pool.sealedList (batchesIn s .free).length s.pool.stamp
      s.pool.exhausted) s

/-- One burst as READ-DRAIN reports it (R142). -/
def Burst.reading (w : Burst) : BurstReading :=
  { index := w.index, batch := w.batch, count := w.count, phase := w.phase, framesSent := w.framesSent
    check := if w.phase = .awaiting then msRemaining w.check else none }

/-- READ-DRAIN (R142). -/
def readDrain (s : State) : Reply :=
  let d := s.drain
  answerData
    (.drain
      { state := d.state, tag := d.tag, credit := d.credit, started := d.started, good := d.good
        firstFailed := d.firstFailed, delivered := d.delivered, cause := d.cause, lastOutcome := d.lastOutcome
        pause := msRemaining d.pause, window := d.window.map Burst.reading, counters := d.counters }) s

/-! ### READ-COUNTERS (R165) -/

/-- The three counters of a cell record (R165). -/
def Cell.counts (r : Cell) : Counter × Counter × Counter := (r.uplinkBlocks, r.downlinkBlocks, r.statusMisses)

/-- The counters of a scope as they stand (R165). -/
def countersOf (s : State) : Scope → ResponseData
  | .port => .portCounters s.port.counters
  | .chain c => .chainCounters (s.chain c).counters
  | .coverage => .coverageCounters s.cov.counters (allCells.map fun x => (s.cell x).counts)
  | .crane k => .craneCounters s.clu.unknownCrane s.clu.unknownSubject (s.crane k).counters
  | .reefer first count => .reeferCounters s.ree.unknown ((reefersOf s (first, count)).map Reefer.counters)
  | .pool => .poolCounters s.pool.counters
  | .drain => .drainCounters s.drain.counters
  | .management => .mgmtCounters s.mgmt.counters

/-- The counters of a scope set to 0 (R165). -/
def clearCounters (s : State) : Scope → State
  | .port => s.countPort fun _ => {}
  | .chain c => s.countChain c fun _ => {}
  | .coverage =>
    allCells.foldl (fun t x => t.modCell x fun r => { r with uplinkBlocks := 0, downlinkBlocks := 0, statusMisses := 0 })
      (s.countCov fun _ => {})
  | .crane k => { (s.countCrane k fun _ => {}) with
      clu := { (s.countCrane k fun _ => {}).clu with unknownCrane := 0, unknownSubject := 0 } }
  | .reefer first count =>
    let s1 := ((List.range count).filterMap fun n => below 4096 (first + n)).foldl
      (fun t i => t.countReefer i fun _ => {}) s
    { s1 with ree := { s1.ree with unknown := 0 } }
  | .pool => s.countPool fun _ => {}
  | .drain => s.countDrain fun _ => {}
  | .management => s.countMgmt fun _ => {}

/-- READ-COUNTERS (R165). -/
def readCounters (a : Scope × Bool) (s : State) : Reply :=
  { st := if a.2 then clearCounters s a.1 else s, data := countersOf s a.1 }

/-! ### Clears and commands on other blocks (R3, R30, R71, R108, R109) -/

/-- CLEAR-EXCURSION (R108). -/
def clearExcursionRequest (i : ReeferId) (s : State) : Reply :=
  match (s.reefer i).state with
  | .vacant => answer .notFound s
  | .expected | .reporting | .silent =>
    { st := clearExcursion i s, data := .flagBefore (s.reefer i).excursion }

/-- CLEAR-GROUP (R109). -/
def clearGroupRequest (g : GroupId) (s : State) : Reply :=
  match (s.group g).defn with
  | none => answer .notFound s
  | some _ => { st := clearGroup g s, data := .membersCleared (flaggedMembers s g).length }

/-- RELEASE-CRANE (R71): what follows from its claims is taken once the crane is IDLE. -/
def releaseRequest (k : CraneId) (s : State) : Reply :=
  match (s.crane k).state with
  | .vacant | .idle => answer .state s
  | .linked | .handover | .lost =>
    { st := releaseCrane k s, data := .stateBefore (s.crane k).state, after := fun _ t => settle t }

/-- BAR-CELL and UNBAR-CELL (R30). -/
def barRequest (b : Bool) (x : CellId) (s : State) : Reply :=
  { st := setBarred x b s, after := fun _ t => settle t }

/-- CHAIN-ENABLE (R3). -/
def enableRequest (c : Chain) (s : State) : Reply :=
  match (s.chain c).state with
  | .disabled => { st := enterRollcall c .enabled s }
  | .rollcall | .running | .broken => answer .state s

/-- CHAIN-DISABLE (R3). -/
def disableRequest (c : Chain) (s : State) : Reply := { st := disableChain c s }

/-! ### A command the part does not know (R156) -/

/-- A request whose command the part does not know is taken (R156). -/
def takeUnknown (s : State) : State :=
  match s.mgmt.queue with
  | [] => s
  | q :: rest =>
    if requestKind q.command = none then executeHead true q rest (fun _ => answer .unknownRequest) s else s

/-! ### Meanings -/

/-- MGMT_REQUEST (R145, R146, R155). -/
def execMgmtRequest (h : RxHeader) (id : U16) (command : U16) (data : List Byte) (s : State) :
    Host.Outcome State Fault Refusal :=
  s.take (State.receive h true (fromManager { src := h.src, id := id, command := command, data := data }))

/-- TRANSACTION_TIMER_EXPIRY (R162). -/
def execTransactionTimerExpiry (s : State) : Host.Outcome State Fault Refusal := s.take (abandonUnreported .timeout)

/-- IDENTIFY (R159). -/
def execIdentify (s : State) : Host.Outcome State Fault Refusal :=
  s.take (serve .identify (withoutData fun t => answerData (identification t) t))

/-- READ_PARAMS (R159). -/
def execReadParams (s : State) : Host.Outcome State Fault Refusal :=
  s.take (serve .readParams (withoutData fun t => answerData (.params t.params t.mgmt.strap) t))

/-- SET_PARAMS (R157, R158). -/
def execSetParams (s : State) : Host.Outcome State Fault Refusal := s.take (serve .setParams setParams)

/-- LOAD_BEGIN (R160). -/
def execLoadBegin (s : State) : Host.Outcome State Fault Refusal := s.take (serve .loadBegin loadBegin)

/-- LOAD_SEGMENT (R161). -/
def execLoadSegment (s : State) : Host.Outcome State Fault Refusal := s.take (serve .loadSegment loadSegment)

/-- LOAD_END (R163, R164). -/
def execLoadEnd (s : State) : Host.Outcome State Fault Refusal := s.take (serve .loadEnd loadEnd)

/-- READ_CRANE (R60). -/
def execReadCrane (s : State) : Host.Outcome State Fault Refusal :=
  s.take (serve .readCrane (withArg (octetBelow 12) readCrane))

/-- READ_CELL (R23, R166). -/
def execReadCell (s : State) : Host.Outcome State Fault Refusal :=
  s.take (serve .readCell (withArg (octetBelow 16) readCell))

/-- READ_CHAIN (R1, R166). -/
def execReadChain (s : State) : Host.Outcome State Fault Refusal :=
  s.take (serve .readChain (withArg chainNamed readChain))

/-- READ_REEFER (R110). -/
def execReadReefer (s : State) : Host.Outcome State Fault Refusal :=
  s.take (serve .readReefer (withArg reeferRun readReefer))

/-- READ_GROUP (R110). -/
def execReadGroup (s : State) : Host.Outcome State Fault Refusal :=
  s.take (serve .readGroup (withArg (octetBelow 64) readGroup))

/-- READ_BATCHES (R125). -/
def execReadBatches (s : State) : Host.Outcome State Fault Refusal := s.take (serve .readBatches (withoutData readBatches))

/-- READ_DRAIN (R142). -/
def execReadDrain (s : State) : Host.Outcome State Fault Refusal := s.take (serve .readDrain (withoutData readDrain))

/-- READ_COUNTERS (R165). -/
def execReadCounters (s : State) : Host.Outcome State Fault Refusal :=
  s.take (serve .readCounters (withArg countersArg readCounters))

/-- CLEAR_EXCURSION (R108). -/
def execClearExcursion (s : State) : Host.Outcome State Fault Refusal :=
  s.take (serve .clearExcursion (withArg (pairBelow 4096) clearExcursionRequest))

/-- CLEAR_GROUP (R109). -/
def execClearGroup (s : State) : Host.Outcome State Fault Refusal :=
  s.take (serve .clearGroup (withArg (octetBelow 64) clearGroupRequest))

/-- RELEASE_CRANE (R71). -/
def execReleaseCrane (s : State) : Host.Outcome State Fault Refusal :=
  s.take (serve .releaseCrane (withArg (octetBelow 12) releaseRequest))

/-- BAR_CELL (R30). -/
def execBarCell (s : State) : Host.Outcome State Fault Refusal :=
  s.take (serve .barCell (withArg (octetBelow 16) (barRequest true)))

/-- UNBAR_CELL (R30). -/
def execUnbarCell (s : State) : Host.Outcome State Fault Refusal :=
  s.take (serve .unbarCell (withArg (octetBelow 16) (barRequest false)))

/-- CHAIN_ENABLE (R3). -/
def execChainEnable (s : State) : Host.Outcome State Fault Refusal :=
  s.take (serve .chainEnable (withArg chainNamed enableRequest))

/-- CHAIN_DISABLE (R3). -/
def execChainDisable (s : State) : Host.Outcome State Fault Refusal :=
  s.take (serve .chainDisable (withArg chainNamed disableRequest))

/-- UNKNOWN_REQUEST (R156). -/
def execUnknownRequest (s : State) : Host.Outcome State Fault Refusal := s.take takeUnknown

end Machine
end Sys2Proof
end

