-- ==== Sys2Proof/Machine/Restart.lean ====
section
/-! DEFINITION. What bears on every block at once: the restarts (R153, R167), RESET_N (R168), the uplink's link state (R144)
and the end of a frame (R150); and the meanings of their commands. -/

namespace Sys2Proof
namespace Machine

/-! ### Restarts (R167) -/

/-- The port after either restart: link state and transmitter kept, queues empty but for the restart's own response, the
last of the control queue if it was taken and still waits (R143, R153; log 26). -/
def Port.restart (taken : Bool) (p : Port) : Port :=
  { link := p.link, tx := p.tx, controlQ := if taken then p.controlQ.getLast?.toList else [] }

/-- A chain record after RESTART-TRAFFIC (R1); the cycle timer runs on (R168). -/
def ChainRec.restartTraffic (r : ChainRec) : ChainRec :=
  { state := if r.state = .disabled then .disabled else .rollcall, cycle := r.cycle, cycleTimer := r.cycleTimer }

/-- A chain record after RESTART-ALL (R1). -/
def ChainRec.restartAll (r : ChainRec) : ChainRec := { cycleTimer := r.cycleTimer }

/-- A cell record after RESTART-TRAFFIC (R23). -/
def Cell.restartTraffic (r : Cell) : Cell :=
  { position := r.position, fitted := r.fitted, budget := r.budget, barred := r.barred }

/-- A directory target that names a definition (R38). -/
def DirTarget.defined : DirTarget → Bool
  | .crane _ | .reefer _ => true
  | .general _ => false

/-- The Coverage Unit after RESTART-TRAFFIC (R23, R36, R38, R40). -/
def Coverage.restartTraffic (c : Coverage) : Coverage :=
  { cells := tabMap Cell.restartTraffic c.cells, map := c.map, directory := c.directory.filter fun e => e.2.defined }

/-- A crane record after RESTART-TRAFFIC (R44). -/
def Crane.restartTraffic (c : Crane) : Crane :=
  match c.defn with
  | none => {}
  | some d => { defn := some d, state := .idle }

/-- A group record after RESTART-TRAFFIC (R92). -/
def Group.restartTraffic (g : Group) : Group := { defn := g.defn, members := g.members }

/-- A reefer record after RESTART-TRAFFIC, with its group's suppression reload (R94). -/
def Reefer.restartTraffic (reload : GroupId → Nat) (r : Reefer) : Reefer :=
  match r.defn with
  | none => {}
  | some d => { defn := some d, state := .expected, countdown := reload d.group }

/-- The reefers after RESTART-TRAFFIC; a record without a definition is VACANT and not listed (R94; log 7). -/
def restartReefers (reload : GroupId → Nat) (l : List (Nat × Reefer)) : List (Nat × Reefer) :=
  (l.filter fun e => e.2.defn.isSome).map fun e => (e.1, e.2.restartTraffic reload)

/-- The Drain Engine after either restart (R126); a burst frame on the line is sent whole and its report disregarded
(R153; log 13). -/
def Drain.restart (p : Port) : Drain := { disregard := (p.tx.map Prod.fst) == some .drain }

/-- RESTART-TRAFFIC takes effect in every block together (R167). -/
def restartTraffic (taken : Bool) (s : State) : State :=
  State.refreshLeds
    { time := s.time
      held := s.held
      port := s.port.restart taken
      chainN := s.chainN.restartTraffic
      chainS := s.chainS.restartTraffic
      cov := s.cov.restartTraffic
      clu := { cranes := tabMap Crane.restartTraffic s.clu.cranes }
      ree := { groups := tabMap Group.restartTraffic s.ree.groups, reefers := restartReefers (reloadOf s) s.ree.reefers }
      pool := Pool.reset
      drain := Drain.restart s.port
      mgmt := { params := s.mgmt.params, strap := s.mgmt.strap }
      choices := s.choices
      pending := s.pending }

/-- RESTART-ALL takes effect in every block together (R167). -/
def restartAll (taken : Bool) (s : State) : State :=
  State.refreshLeds
    { State.powerOn s.mgmt.strap with
      held := s.held
      port := s.port.restart taken
      chainN := s.chainN.restartAll
      chainS := s.chainS.restartAll
      drain := Drain.restart s.port
      choices := s.choices
      pending := s.pending }

/-! ### RESET_N (R168) -/

/-- RESET_N is asserted: nothing of the state is kept, and nothing is taken until its release (R168; log 4). -/
def assertReset (s : State) : State :=
  { State.powerOn s.mgmt.strap with held := true, choices := s.choices, pending := s.pending }

/-- RESET_N is released: the straps are read and the part enters its power-on state (R168). -/
def releaseReset (straps : Byte) (s : State) : State :=
  { State.powerOn straps with choices := s.choices, pending := s.pending }

/-! ### Link loss and the end of a frame (R144, R150) -/

/-- The uplink is lost (R144): the port, then the Drain Engine, then the Management Unit. -/
def linkLost (s : State) : State :=
  if s.port.link = .up then
    (abandonUnreported .linkLoss (drainLinkLoss (s.modPort Port.loseLink))).refreshLeds
  else s

/-- The last octet of the frame in transmission has gone out (R150): it is counted, a DRAIN-BURST is reported to the Drain
Engine, and the arbiter chooses again. -/
def frameSent (s : State) : State :=
  match s.port.tx with
  | none => s
  | some (c, _) =>
    let s1 := s.modPort fun p => p.countSent c
    let s2 := if c = .drain then drainReport s1 else s1
    s2.modPort Port.nextFrame

/-! ### Meanings -/

/-- RESET_N_ASSERT (R168, R172). -/
def execResetNAssert (s : State) : Host.Outcome State Fault Refusal := .next (assertReset s)

/-- RESET_N_RELEASE (R168, R172). -/
def execResetNRelease (straps : Byte) (s : State) : Host.Outcome State Fault Refusal := .next (releaseReset straps s)

/-- LINK_UP (R144, R172). -/
def execLinkUp (s : State) : Host.Outcome State Fault Refusal := s.take State.linkComesUp

/-- LINK_LOSS (R144, R141, R162, R172). -/
def execLinkLoss (s : State) : Host.Outcome State Fault Refusal := s.take linkLost

/-- FRAME_SENT (R150). -/
def execFrameSent (s : State) : Host.Outcome State Fault Refusal := s.take frameSent

/-- UPLINK_FRAME_DISCARDED (R145, R169). -/
def execUplinkFrameDiscarded (h : RxHeader) (octets : List Byte) (s : State) : Host.Outcome State Fault Refusal :=
  s.take (State.discardFrame h octets)

/-- RESTART_TRAFFIC (R153, R167). -/
def execRestartTraffic (s : State) : Host.Outcome State Fault Refusal :=
  s.take (serve .restartTraffic (withoutData fun t => { st := t, after := restartTraffic }))

/-- RESTART_ALL (R153, R167). -/
def execRestartAll (s : State) : Host.Outcome State Fault Refusal :=
  s.take (serve .restartAll (withoutData fun t => { st := t, after := restartAll }))

end Machine
end Sys2Proof
end

