-- ==== Sys2Proof/Machine/Dispatch.lean ====
section
/-! DEFINITION. What each command does: one arm per row of the opcode table. -/

namespace Sys2Proof
namespace Machine

/-- The effect of a command on everything but the queue of commands. -/
def exec (i : Instr) (s : State) : Host.Outcome State Fault Refusal :=
  match i with
  | .resetNAssert => Sys2Proof.Machine.execResetNAssert s
  | .resetNRelease straps => Sys2Proof.Machine.execResetNRelease straps s
  | .linkUp => Sys2Proof.Machine.execLinkUp s
  | .linkLoss => Sys2Proof.Machine.execLinkLoss s
  | .frameSent => Sys2Proof.Machine.execFrameSent s
  | .uplinkFrameDiscarded h octets => Sys2Proof.Machine.execUplinkFrameDiscarded h octets s
  | .craneDown h subject payload => Sys2Proof.Machine.execCraneDown h subject payload s
  | .craneResume h subject => Sys2Proof.Machine.execCraneResume h subject s
  | .drainOpen h tag credit => Sys2Proof.Machine.execDrainOpen h tag credit s
  | .drainCheck h tag index crc => Sys2Proof.Machine.execDrainCheck h tag index crc s
  | .drainPause h tag => Sys2Proof.Machine.execDrainPause h tag s
  | .drainResume h tag => Sys2Proof.Machine.execDrainResume h tag s
  | .drainStop h tag => Sys2Proof.Machine.execDrainStop h tag s
  | .mgmtRequest h id command data => Sys2Proof.Machine.execMgmtRequest h id command data s
  | .generalFrame h unit payload => Sys2Proof.Machine.execGeneralFrame h unit payload s
  | .cycleTimerExpiry c => Sys2Proof.Machine.execCycleTimerExpiry c s
  | .backoffTimerExpiry c => Sys2Proof.Machine.execBackoffTimerExpiry c s
  | .stableTimerExpiry c => Sys2Proof.Machine.execStableTimerExpiry c s
  | .signalLoss c => Sys2Proof.Machine.execSignalLoss c s
  | .fillBlock c => Sys2Proof.Machine.execFillBlock c s
  | .openerReturned c => Sys2Proof.Machine.execOpenerReturned c s
  | .undeliveredDownlink x => Sys2Proof.Machine.execUndeliveredDownlink x s
  | .craneUp x radio seq payload => Sys2Proof.Machine.execCraneUp x radio seq payload s
  | .reeferReport x r => Sys2Proof.Machine.execReeferReport x r s
  | .generalUp x unit payload => Sys2Proof.Machine.execGeneralUp x unit payload s
  | .turnMarker c cycle records => Sys2Proof.Machine.execTurnMarker c cycle records s
  | .abortMarker x => Sys2Proof.Machine.execAbortMarker x s
  | .malformedBlock c b => Sys2Proof.Machine.execMalformedBlock c b s
  | .supervisionTimerExpiry k => Sys2Proof.Machine.execSupervisionTimerExpiry k s
  | .handoverCountdownExpiry k => Sys2Proof.Machine.execHandoverCountdownExpiry k s
  | .failedTargetBarExpiry k => Sys2Proof.Machine.execFailedTargetBarExpiry k s
  | .reportTick => Sys2Proof.Machine.execReportTick s
  | .missCharge r => Sys2Proof.Machine.execMissCharge r s
  | .generalAgeOut j => Sys2Proof.Machine.execGeneralAgeOut j s
  | .sealTimeExpiry u => Sys2Proof.Machine.execSealTimeExpiry u s
  | .checkTimerExpiry index => Sys2Proof.Machine.execCheckTimerExpiry index s
  | .pauseTimerExpiry => Sys2Proof.Machine.execPauseTimerExpiry s
  | .transactionTimerExpiry => Sys2Proof.Machine.execTransactionTimerExpiry s
  | .identify => Sys2Proof.Machine.execIdentify s
  | .readParams => Sys2Proof.Machine.execReadParams s
  | .setParams => Sys2Proof.Machine.execSetParams s
  | .loadBegin => Sys2Proof.Machine.execLoadBegin s
  | .loadSegment => Sys2Proof.Machine.execLoadSegment s
  | .loadEnd => Sys2Proof.Machine.execLoadEnd s
  | .readCrane => Sys2Proof.Machine.execReadCrane s
  | .readCell => Sys2Proof.Machine.execReadCell s
  | .readChain => Sys2Proof.Machine.execReadChain s
  | .readReefer => Sys2Proof.Machine.execReadReefer s
  | .readGroup => Sys2Proof.Machine.execReadGroup s
  | .readBatches => Sys2Proof.Machine.execReadBatches s
  | .readDrain => Sys2Proof.Machine.execReadDrain s
  | .readCounters => Sys2Proof.Machine.execReadCounters s
  | .clearExcursion => Sys2Proof.Machine.execClearExcursion s
  | .clearGroup => Sys2Proof.Machine.execClearGroup s
  | .releaseCrane => Sys2Proof.Machine.execReleaseCrane s
  | .barCell => Sys2Proof.Machine.execBarCell s
  | .unbarCell => Sys2Proof.Machine.execUnbarCell s
  | .chainEnable => Sys2Proof.Machine.execChainEnable s
  | .chainDisable => Sys2Proof.Machine.execChainDisable s
  | .restartTraffic => Sys2Proof.Machine.execRestartTraffic s
  | .restartAll => Sys2Proof.Machine.execRestartAll s
  | .unknownRequest => Sys2Proof.Machine.execUnknownRequest s
  | .rollcallLedBlink c => Sys2Proof.Machine.execRollcallLedBlink c s

end Machine
end Sys2Proof
end

