-- ==== Sys2Proof/Machine/Step.lean ====
section
/-! DEFINITION. One step of the part: the command at the front of the queue, or a quarter of a millisecond (log 1). -/

namespace Sys2Proof
namespace Machine

/-- One step: the command at the front of the queue is taken with the queue's rest; on an empty queue a quarter of a
millisecond goes by (log 1). -/
def step (s : State) : Host.Outcome State Fault Refusal :=
  match s.pending with
  | [] => .next s.tick
  | c :: rest => exec c { s with pending := rest }

/-- The state with the command a table word spells at the front of the queue; no word spells one (98_reader.md). -/
def State.withFetchWord (s : State) (nbits w : Nat) : State :=
  match decodeTableWord nbits w with
  | none => s
  | some c => { s with pending := c :: s.pending }

end Machine
end Sys2Proof
end

