-- ==== Sys2Proof/Safety.lean ====
section
/-! DEFINITION. What a sound state of the part is, in the terms the claims use: the laws that the spec says always hold,
block by block, and when a frame or a request reaches its block. -/

namespace Sys2Proof
namespace Machine

/-! ### Laws of the state -/

/-- The queues within their capacities, the run count within its limit, nothing queued or sent while the link is DOWN, and
nothing left waiting while an UP link's transmitter is IDLE (9.1, R143, R144, R147, R148, R149). -/
structure PortSound (p : Port) : Prop where
  craneUp : p.craneUpQ.length ≤ Config.craneUpCapacity
  control : p.controlQ.length ≤ Config.controlCapacity
  drain : p.drainQ.length ≤ Config.drainCapacity
  generalUp : p.generalUpQ.length ≤ Config.generalUpCapacity
  run : p.run ≤ Config.runLimit
  down : p.link = .down →
    p.tx = none ∧ p.run = 0 ∧ p.craneUpQ = [] ∧ p.controlQ = [] ∧ p.drainQ = [] ∧ p.generalUpQ = []
  idle : p.link = .up → p.tx = none → p.craneUpQ = [] ∧ p.controlQ = [] ∧ p.drainQ = [] ∧ p.generalUpQ = []

/-- Every LED driver shows its state, and all are dark while RESET_N is held (R172). -/
def LedsSound (s : State) : Prop :=
  s.leds =
    if s.held then {}
    else
      { link := s.port.link = .up, chn := chainLed s.chainN.state s.time.ms, chs := chainLed s.chainS.state s.time.ms }

/-- The keyed tables are in rising order, list numbers of their tables alone, and list no VACANT reefer (log 7). -/
structure TablesSound (s : State) : Prop where
  directory : sparseSorted s.cov.directory
  general : sparseSorted s.cov.general
  generalIndex : ∀ e ∈ s.cov.general, e.1 < 1024
  reefers : sparseSorted s.ree.reefers
  reeferIndex : ∀ e ∈ s.ree.reefers, e.1 < 4096
  reeferListed : ∀ e ∈ s.ree.reefers, e.2 ≠ Reefer.vacant

/-- Each general record in use has a GENERAL entry with its index, and each GENERAL entry names a record in use with its
address (R40). -/
def GeneralSound (s : State) : Prop :=
  ∀ (a : Nat) (j : GeneralId),
    sparseFind s.cov.directory a = some (.general j) ↔ ∃ r, sparseFind s.cov.general j.val = some r ∧ r.unit.toNat = a

/-- Nothing handed to the Crane Link Unit is left untaken (R75; log 9). -/
def EventsSettled (s : State) : Prop := s.events = []

/-- The parameter set within its ranges, the recover level above the fade level (R157). -/
structure ParamsSound (p : Params) : Prop where
  quayType : 0x0600 ≤ p.quayType.toNat
  mgmtHead : p.mgmtHead.toNat / 2 ^ 32 % 2 = 0
  controller : ∀ a, p.controller = some a → stationAddress a
  collector : ∀ a, p.collector = some a → stationAddress a
  managers : p.managers.length ≤ 4 ∧ p.managers.Nodup ∧ ∀ a ∈ p.managers, stationAddress a
  cyclePeriod : 2 ≤ p.cyclePeriod ∧ p.cyclePeriod ≤ 32
  downlinkCapacity : 16 ≤ p.downlinkCapacity ∧ p.downlinkCapacity ≤ 255
  breakLimit : 1 ≤ p.breakLimit ∧ p.breakLimit ≤ 15
  statusMissLimit : 1 ≤ p.statusMissLimit ∧ p.statusMissLimit ≤ 15
  levels : 1 ≤ p.fadeLevel ∧ p.fadeLevel < p.recoverLevel ∧ p.recoverLevel ≤ 15
  sealTimes : p.urgentSealMs ≤ 1000 ∧ 1 ≤ p.routineSealS ∧ p.routineSealS ≤ 600
  checkWait : 10 ≤ p.checkWaitMs ∧ p.checkWaitMs ≤ 1000
  pauseLimit : 1 ≤ p.pauseLimitMs ∧ p.pauseLimitMs ≤ 1000
  ageOut : 30 ≤ p.ageOutS ∧ p.ageOutS ≤ 3600
  handover : 2 ≤ p.handoverLimit ∧ p.handoverLimit ≤ 64 ∧ p.handoverBar ≤ 255

/-- The Management Unit between requests (R154, R155, R160, R161): at most eight requests wait and none is current; without
a transaction the staging memory is empty and the timer stopped; with one, the timer runs, the counts are within what
LOAD-BEGIN announced, and the running CRC is that of the staged octets. -/
structure MgmtSound (m : Mgmt) : Prop where
  queue : m.queue.length ≤ Config.requestCapacity
  current : m.current = none
  closed : m.load = none → m.staging = [] ∧ m.timer = none
  opened : ∀ t, m.load = some t →
    m.timer.isSome ∧ 1 ≤ t.segments ∧ t.segments ≤ Config.maxSegments ∧ t.next ≤ t.segments
      ∧ 1 ≤ t.total ∧ t.total ≤ Config.stagingOctets ∧ t.total ≤ Config.segmentOctets * t.segments
      ∧ m.staging.length ≤ t.total ∧ t.crc = crcOver Config.loadSeed m.staging

/-- What a chain's state says of its record (R1, R3-R8, R22): frames queued, missed turns and a running stable timer only
in RUNNING; the backoff timer exactly in BROKEN; a turn awaited only in ROLLCALL and RUNNING, and then the cycle last sent;
roll call neither passed nor failed in ROLLCALL; the next backoff one of the five. -/
structure ChainSound (r : ChainRec) : Prop where
  running : r.state ≠ .running → r.generalQ = [] ∧ r.missed = 0 ∧ r.stable = none
  backoff : r.backoff.isSome ↔ r.state = .broken
  quiet : r.state = .disabled ∨ r.state = .broken → r.awaited = none
  awaited : ∀ n, r.awaited = some n → n = r.cycle
  rollcall : r.state = .rollcall → r.goodTurns < Config.goodTurnsNeeded ∧ r.rollcallTurns < Config.rollcallLimit
  queue : r.generalQ.length ≤ Config.generalDownCapacity
  nextBackoff : r.nextBackoff ∈ [100, 200, 400, 800, 1600]

/-- Both chains are sound. -/
def ChainsSound (s : State) : Prop := ChainSound s.chainN ∧ ChainSound s.chainS

/-- What a cell's unit state says of its record (R23, R25-R29): an unfitted cell is ABSENT with nothing heard; ABSENT and
DOWN hold no counts; the progress count stays short of the next step; the budget is within its range. -/
structure CellSound (r : Cell) : Prop where
  unfitted : r.fitted = false → r.unit = .absent ∧ r.quality = 0 ∧ r.backlog = 0
  quiet : r.unit = .absent ∨ r.unit = .down → r.progress = 0 ∧ r.missCount = 0
  joining : r.unit = .joining → r.progress < Config.joinCycles
  up : r.unit = .up → r.progress < Config.fadeCycles
  fading : r.unit = .fading → r.progress < Config.recoverCycles
  budget : r.budget ≤ 64

/-- Every cell is sound, and a cell is UP or FADING only while its chain is RUNNING (R29). -/
def CellsSound (s : State) : Prop :=
  ∀ x, CellSound (s.cell x)
    ∧ ((s.cell x).unit = .up ∨ (s.cell x).unit = .fading → (s.chain (chainOf x)).state = .running)

/-- The definitions of a chain's cells (R25): eight different positions, budgets of 128 slots at most in all. -/
def RingSound (s : State) : Prop :=
  ∀ c, ((cellsOf c).map fun x => (s.cell x).position).Nodup
    ∧ ((cellsOf c).map fun x => (s.cell x).budget).sum ≤ Config.chainBudget

/-- What a crane's state says of its fields (R45): defined unless VACANT; an anchor and a running supervision timer exactly
in LINKED, HANDOVER and LOST; a target exactly in HANDOVER, and never the anchor; no shadow in VACANT and IDLE; and an old
hold-off in use only below the one a load has raised it to, on a live crane (R47; log 31). -/
structure CraneSound (c : Crane) : Prop where
  defined : c.state = .vacant ↔ c.defn = none
  anchor : c.anchor.isSome ↔ c.state = .linked ∨ c.state = .handover ∨ c.state = .lost
  target : c.target.isSome ↔ c.state = .handover
  apart : c.target.isSome → c.target ≠ c.anchor
  supervised : c.supervision.isSome ↔ c.state = .linked ∨ c.state = .handover ∨ c.state = .lost
  shadowless : c.state = .vacant ∨ c.state = .idle → c.shadow = []
  holdOff : ∀ n, c.oldHoldOff = some n →
    (c.state = .linked ∨ c.state = .handover ∨ c.state = .lost) ∧ ∃ d, c.defn = some d ∧ n < d.holdOff

/-- Every crane is sound. -/
def CranesSound (s : State) : Prop := ∀ k, CraneSound (s.crane k)

/-- The slots a crane holds on a cell: its reservation for each of its anchor and target that names the cell (R32). -/
def slotsHeld (s : State) (x : CellId) (k : CraneId) : Nat :=
  (if (s.crane k).anchor = some x then (s.crane k).reservation else 0)
    + (if (s.crane k).target = some x then (s.crane k).reservation else 0)

/-- Every cell's reserved slots are those the cranes hold on it, within its budget (R32). -/
def ReservationsSound (s : State) : Prop :=
  ∀ x, (s.cell x).reserved = (allCranes.map (slotsHeld s x)).sum ∧ (s.cell x).reserved ≤ (s.cell x).budget

/-- Every cell's shadow count is the number of cranes whose shadow set contains it, and no set lists a cell twice (R33). -/
def ShadowsSound (s : State) : Prop :=
  (∀ x, (s.cell x).shadowCount = (allCranes.filter fun k => (s.crane k).shadow.contains x).length)
    ∧ ∀ k, (s.crane k).shadow.Nodup

/-- The entries a batch holds in each state (R111): a FREE batch is empty, an open one has room, the others may be full. -/
def BatchSound (b : Batch) : Prop :=
  match b.state with
  | .free => b = Batch.emptied
  | .openUrgent => b.urgency = some .urgent ∧ b.stamp = none ∧ 1 ≤ b.entries.length ∧ b.entries.length ≤ 63
  | .openRoutine => b.urgency = some .routine ∧ b.stamp = none ∧ 1 ≤ b.entries.length ∧ b.entries.length ≤ 63
  | .sealed | .inFlight =>
    b.urgency.isSome ∧ b.stamp.isSome ∧ 1 ≤ b.entries.length ∧ b.entries.length ≤ Config.batchEntries

/-- The drain record (R126, R130, R136): at most two bursts, in the order they were started and numbered with the bursts
started, at most one of them being sent, a check timer for exactly those awaiting; the bursts good and in the window within
those started, those within the credit; the pause timer exactly in PAUSED; no burst in CLOSED. -/
structure DrainSound (d : Drain) : Prop where
  size : d.window.length ≤ Config.checkWindow
  order : (d.window.map Burst.index).Pairwise (· < ·)
  numbered : ∀ w ∈ d.window, 1 ≤ w.index ∧ w.index ≤ d.started
  oneSending : (d.window.countP fun w => w.phase == .sending) ≤ 1
  checks : ∀ w ∈ d.window, w.check.isSome ↔ w.phase = .awaiting
  judged : d.good + d.window.length ≤ d.started
  credit : d.state ≠ .closed → ∃ n, d.credit = some n ∧ 1 ≤ n ∧ n ≤ Config.maxCredit ∧ d.started ≤ n
  pause : d.pause.isSome ↔ d.state = .paused
  closed : d.state = .closed → d.window = []

/-- The pool and the drain's check window together (R111, R120, R130): every batch is sound; at most one batch of each
urgency is open; the sealed list holds every SEALED batch once and no other; the window holds every IN-FLIGHT batch once
and no other. -/
structure PoolSound (s : State) : Prop where
  batches : ∀ b, BatchSound (s.batch b)
  oneUrgent : ∀ a b, (s.batch a).state = .openUrgent → (s.batch b).state = .openUrgent → a = b
  oneRoutine : ∀ a b, (s.batch a).state = .openRoutine → (s.batch b).state = .openRoutine → a = b
  listedOnce : s.pool.sealedList.Nodup
  listed : ∀ b, b ∈ s.pool.sealedList ↔ (s.batch b).state = .sealed
  windowOnce : (s.drain.window.map Burst.batch).Nodup
  window : ∀ b, b ∈ s.drain.window.map Burst.batch ↔ (s.batch b).state = .inFlight

/-- A batch goes ahead of another in the sealed list: urgent before routine, then the older stamp across the wrap of the
counter (R120). -/
def GoesAhead (a b : Batch) : Prop :=
  a.urgency = some .urgent ∧ b.urgency = some .routine
    ∨ ¬(a.urgency = some .routine ∧ b.urgency = some .urgent)
      ∧ 1 ≤ (b.stamp.getD 0 - a.stamp.getD 0).toNat ∧ (b.stamp.getD 0 - a.stamp.getD 0).toNat ≤ 2147483647

/-- No routine batch stands before an urgent one in the sealed list (R120). -/
def UrgentFirst (s : State) : Prop :=
  s.pool.sealedList.Pairwise fun x y => ¬((s.batch x).urgency = some .routine ∧ (s.batch y).urgency = some .urgent)

/-- The stamps of SEALED and IN-FLIGHT batches lie behind the seal stamp counter by less than half its range, with room for
the 4096 batches that one report tick may seal: across half of the range R120 orders no two stamps. -/
def StampsNear (s : State) : Prop :=
  ∀ b, (s.batch b).state = .sealed ∨ (s.batch b).state = .inFlight →
    ∃ a, (s.batch b).stamp = some a ∧ 1 ≤ (s.pool.stamp - a).toNat ∧ (s.pool.stamp - a).toNat ≤ 2147479551

/-- The sealed list stands in its order, each batch ahead of those after it, and no two stamps in use are the same (R120).
-/
structure SealedInOrder (s : State) : Prop where
  order : s.pool.sealedList.Pairwise fun x y => GoesAhead (s.batch x) (s.batch y)
  stamps : ∀ a b, (s.batch a).state = .sealed ∨ (s.batch a).state = .inFlight →
    (s.batch b).state = .sealed ∨ (s.batch b).state = .inFlight → (s.batch a).stamp = (s.batch b).stamp → a = b

/-- Batch references and entries agree (R114): every entry of an OPEN or SEALED batch is the one its reefer's reference
names, and every reference names an entry of its reefer in a batch that is not FREE. -/
structure RefsSound (s : State) : Prop where
  entries : ∀ b n e, (s.batch b).state.changeable → (s.batch b).entries[n]? = some e →
    (s.reefer e.reefer).ref = some (b, n)
  refs : ∀ i b n, (s.reefer i).ref = some (b, n) →
    (s.batch b).state ≠ .free ∧ ∃ e, (s.batch b).entries[n]? = some e ∧ e.reefer = i

/-- The reefer and group tables (R94, R95, R99): a reefer is VACANT exactly when it has no definition; its group is
defined; and the summary of its group is set while its excursion flag is. -/
structure ReefersSound (s : State) : Prop where
  defined : ∀ i, (s.reefer i).state = .vacant ↔ (s.reefer i).defn = none
  grouped : ∀ i d, (s.reefer i).defn = some d → (s.group d.group).defn.isSome
  excursion : ∀ i d, (s.reefer i).defn = some d → (s.reefer i).excursion → (s.group d.group).summary

/-- Every group's member count is the number of defined reefers that name it (R92, R96). -/
def MembersSound (s : State) : Prop :=
  ∀ g, (s.group g).members = (s.reeferIds.filter fun i => (s.reefer i).defn.map ReeferDef.group == some g).length

/-! ### What a command may change -/

/-- The port alone changes. -/
def PortOnly (s t : State) : Prop := ∃ p, t = { s with port := p }

/-- The port, the Coverage Unit, the Crane Link Unit and the events between them alone change. -/
def LinkOnly (s t : State) : Prop :=
  ∃ p cov clu ev, t = { s with port := p, cov := cov, clu := clu, events := ev }

/-- The port, the reefers and groups, the pool and the Drain Engine alone change. -/
def PoolOnly (s t : State) : Prop :=
  ∃ p ree pool drain, t = { s with port := p, ree := ree, pool := pool, drain := drain }

/-- The chains with their LED drivers, the cells, the crane links, the port and the open orders alone change. -/
def ChainOnly (s t : State) : Prop :=
  ∃ p leds n k cov clu ev ch,
    t = { s with port := p, leds := leds, chainN := n, chainS := k, cov := cov, clu := clu, events := ev, choices := ch }

/-! ### Notices (R72, R73, R91, R151, R152) -/

/-- A notice as the frame of one copy: the addresses, the quay type and the stamp as they stand (R151). -/
def State.noticeFrame (s : State) (dst : Addr) (n : Notice) : TxFrame :=
  { dst := dst, src := s.mgmtAddress, etherType := s.params.quayType, content := .notice s.time.ms n }

/-- The port once a copy of a notice has been offered on its own: taken and counted as queued, or dropped (R152). -/
def Port.noticed (p : Port) (f : TxFrame) : Port :=
  let o := p.offer .control f
  { o.1 with counters := { o.1.counters with
      noticesQueued := o.1.counters.noticesQueued + (if o.2 then 1 else 0)
      noticesDropped := o.1.counters.noticesDropped + (if o.2 then 0 else 1) } }

/-- The port once a notice has gone to the controller address; with none set it is counted as suppressed (R151). -/
def State.controllerNoticed (s : State) (n : Notice) : Port :=
  match s.params.controller with
  | none => { s.port with counters := { s.port.counters with noticesSuppressed := s.port.counters.noticesSuppressed + 1 } }
  | some a => s.port.noticed (s.noticeFrame a n)

/-- The port once a crane notice has been offered: the controller's copy, then the copy of the crane's station (R73,
R151). -/
def State.craneNoticed (s : State) (k : CraneId) (n : Notice) : Port :=
  match (s.crane k).defn with
  | none => s.controllerNoticed n
  | some d => (s.controllerNoticed n).noticed (s.noticeFrame d.station n)

/-- The port once a DRAIN-END has been offered to a collector address (R140). -/
def State.drainEnded (s : State) (p : Port) (collector : Addr) (d : DrainEnd) : Port × Bool :=
  p.offer .control
    { dst := collector, src := s.mgmtAddress, etherType := s.params.quayType, content := .drainEnd d }

/-! ### A cycle-end event (R35) -/

/-- What a cycle-end event does: the flagged cells of the chain, in ascending number, go to the controller in one
CELL-CHANGE notice, and their flags are cleared when it is taken or when no controller address is set; a refused notice is
counted as deferred, and no notice is dropped (R35, R147, R151, R152). -/
def CellsReported (c : Chain) (cause : CycleEndCause) (s t : State) : Prop :=
  let flagged := (cellsOf c).filter fun x => (s.cell x).changed
  let cleared := ∀ x, t.cell x = { s.cell x with changed := (s.cell x).changed && !flagged.contains x }
  let items := flagged.map fun x =>
    ({ cell := x, unit := (s.cell x).unit, shadowCount := (s.cell x).shadowCount
       usable := decide ((s.cell x).unit = .up ∧ (s.cell x).barred = false ∧ (s.cell x).shadowCount = 0) } : CellItem)
  let n := s.cov.counters
  let k := s.port.counters
  let deferred := fun q : ClassCounters => { s with
    port := { s.port with counters := { k with control := q } }
    cov := { s.cov with counters := { n with changeDeferred := n.changeDeferred + 1 } } }
  (flagged = [] → t = s)
  ∧ (flagged ≠ [] → s.params.controller = none →
    t = { s with cov := { s.cov with cells := t.cov.cells } } ∧ cleared)
  ∧ ∀ a, flagged ≠ [] → s.params.controller = some a →
    (s.port.link = .down → t = deferred { k.control with linkDown := k.control.linkDown + 1 })
    ∧ (s.port.link = .up → 32 ≤ s.port.controlQ.length → t = deferred { k.control with full := k.control.full + 1 })
    ∧ (s.port.link = .up → s.port.controlQ.length < 32 →
      cleared ∧ t = { s with
        port := s.port.noticed (s.noticeFrame a (.cellChange c cause items))
        cov := { s.cov with cells := t.cov.cells, counters := { n with changeQueued := n.changeQueued + 1 } } })

/-! ### Cells a crane may use (R31, R32, R76) -/

/-- A cell is usable for a crane: UP, not barred, and shadowed by no boom but the crane's own (R31). -/
def FitFor (s : State) (k : CraneId) (x : CellId) : Prop :=
  (s.cell x).unit = .up ∧ (s.cell x).barred = false
    ∧ (s.cell x).shadowCount - (if x ∈ (s.crane k).shadow then 1 else 0) = 0

/-- A cell is usable: UP, not barred, and shadowed by no boom (R31). -/
def Fit (s : State) (x : CellId) : Prop :=
  (s.cell x).unit = .up ∧ (s.cell x).barred = false ∧ (s.cell x).shadowCount = 0

/-- Usability of a cell, or its usability for some defined crane, differs between two states (R31). -/
def FitDiffers (s u : State) (x : CellId) : Prop :=
  ¬(Fit s x ↔ Fit u x)
    ∨ ∃ k, ¬((s.crane k).defn ≠ none ∧ FitFor s k x ↔ (u.crane k).defn ≠ none ∧ FitFor u k x)

/-- One event of the Coverage Unit on a cell: `u` is `s` with the change that is the event's own, and `t` the state the event
leaves. The change flag is set by a change of unit state, of the barred flag or of plain usability, and stands otherwise
(R34); a usability change is handed to the Crane Link Unit once when usability for anyone differs, and else none (R31). -/
structure CellEvent (x : CellId) (s u t : State) : Prop where
  frame : t = { u with cov := { u.cov with cells := t.cov.cells }, events := t.events }
  others : ∀ y, y ≠ x → t.cell y = u.cell y
  cell : t.cell x = { u.cell x with changed := (t.cell x).changed }
  flag : (t.cell x).changed = true ↔
    (u.cell x).changed = true ∨ (s.cell x).unit ≠ (u.cell x).unit ∨ (s.cell x).barred ≠ (u.cell x).barred
      ∨ ¬(Fit s x ↔ Fit u x)
  told : FitDiffers s u x → t.events = u.events ++ [.usability x]
  untold : ¬FitDiffers s u x → t.events = u.events

/-- A cell has room for a crane's reservation (R32). -/
def RoomFor (s : State) (k : CraneId) (x : CellId) : Prop :=
  (s.cell x).fitted = true ∧ (s.cell x).reserved + (s.crane k).reservation ≤ (s.cell x).budget

/-- The ranked list of the crane's band, empty when the band is unknown (R76). -/
def State.rankedCells (s : State) (k : CraneId) : List CellId :=
  match (s.crane k).band with
  | none => []
  | some b => (s.bandEntry b).ranked

/-! ### Handovers that fail, and a chain's departure (R57, R68, R81, R85, R89) -/

/-- A crane's handover to a cell has failed, the evaluation that ends the failure still to come (R85, R91). -/
structure HandoverFailed (k : CraneId) (cause : FailCause) (x : CellId) (s v : State) : Prop where
  frame : v = { s with
    port := s.craneNoticed k (.handoverFailed k cause (s.crane k).anchor (some x)
      (if s.params.handoverBar = 0 then none else some s.params.handoverBar))
    cov := { s.cov with cells := v.cov.cells }
    clu := { s.clu with cranes := v.clu.cranes, notices := s.clu.notices.filter fun m => decide (m.crane ≠ k) }
    events := s.events ++ [.room x] }
  cells : ∀ y, v.cell y =
    { s.cell y with reserved := (s.cell y).reserved - (if y = x then (s.crane k).reservation else 0) }
  others : ∀ j, j ≠ k → v.crane j = s.crane j
  crane :
    let c := s.crane k
    let left := (c.queue.map fun e => { e with dests := e.dests.filter fun y => decide (y ≠ x) }).filter fun e =>
      decide (e.dests ≠ [])
    v.crane k =
      { c with
        state := .linked, target := none, countdown := 0
        bar := if s.params.handoverBar = 0 then none else some (x, s.params.handoverBar)
        queue := left, keeps := c.keeps.filter fun e => decide (e.1 ≠ x)
        counters := { c.counters with
          undeliverable := c.counters.undeliverable + BitVec.ofNat 32 (c.queue.length - left.length)
          noticesWithdrawn := c.counters.noticesWithdrawn
            + BitVec.ofNat 32 (s.clu.notices.filter fun m => decide (m.crane = k)).length
          failures := c.counters.failures + 1 } }

/-- A chain that leaves RUNNING has flushed its queue, cleared its turn state and taken its joined cells DOWN; the cells
whose usability for anyone that changes are handed to the Crane Link Unit in ascending number (R5, R6, R29, R31, R34). -/
structure ChainLeft (c : Chain) (s d : State) : Prop where
  frame : d = { s with
    chainN := d.chainN, chainS := d.chainS, cov := { s.cov with cells := d.cov.cells }, events := d.events }
  others : ∀ e, e ≠ c → d.chain e = s.chain e
  chain : d.chain c =
    { s.chain c with
      generalQ := [], missed := 0, awaited := none, stable := none
      counters := { (s.chain c).counters with
        generalFlushed := (s.chain c).counters.generalFlushed + BitVec.ofNat 32 (s.chain c).generalQ.length } }
  cells : ∀ x, d.cell x =
    if chainOf x = c ∧ (s.cell x).unit ≠ .absent ∧ (s.cell x).unit ≠ .down then
      { s.cell x with unit := .down, progress := 0, missCount := 0, changed := true }
    else s.cell x
  told : ∃ l : List CellId, d.events = s.events ++ l.map CluEvent.usability ∧ l.Pairwise (fun x y => x.val < y.val)
    ∧ ∀ x, x ∈ l ↔ chainOf x = c ∧ (s.cell x).unit = .up ∧ (s.cell x).barred = false
      ∧ ((s.cell x).shadowCount = 0 ∨ ∃ k, (s.crane k).defn ≠ none ∧ FitFor s k x)

/-- The Crane Link Unit has withdrawn what was pending for the cells of a chain that left RUNNING: queue destinations and
KEEP blocks, holds and notice blocks, each counted (R57, R68, R81). -/
structure PendingWithdrawn (c : Chain) (s w : State) : Prop where
  frame : w = { s with clu := { s.clu with
    cranes := w.clu.cranes, notices := s.clu.notices.filter fun m => decide (chainOf m.cell ≠ c) } }
  cranes : ∀ k,
    let r := s.crane k
    let left := (r.queue.map fun e => { e with dests := e.dests.filter fun y => decide (chainOf y ≠ c) }).filter fun e =>
      decide (e.dests ≠ [])
    w.crane k =
      { r with
        queue := left, keeps := r.keeps.filter fun e => decide (chainOf e.1 ≠ c)
        holds := r.holds.filter fun e => decide (chainOf e.1 ≠ c)
        counters := { r.counters with
          undeliverable := r.counters.undeliverable + BitVec.ofNat 32 (r.queue.length - left.length)
          holdsWithdrawn := r.counters.holdsWithdrawn
            + BitVec.ofNat 32 (r.holds.filter fun e => decide (chainOf e.1 = c)).length
          noticesWithdrawn := r.counters.noticesWithdrawn
            + BitVec.ofNat 32 (s.clu.notices.filter fun m => decide (m.crane = k ∧ chainOf m.cell = c)).length } }

/-! ### What a block sends for a crane (R56) -/

/-- Of some cells, a chain's block goes first to the anchor, else to the lowest-numbered of the chain's (R56). -/
def FirstOf (c : Chain) (anchor : Option CellId) (cells : List CellId) (x : CellId) : Prop :=
  x ∈ cells ∧ chainOf x = c
    ∧ (anchor = some x
      ∨ (∀ a, anchor = some a → chainOf a = c → a ∉ cells) ∧ ∀ y ∈ cells, chainOf y = c → x.val ≤ y.val)

/-- A crane's place in a pass of the round robin: from the crane after the pointer, or from crane 0 (R13). -/
def turnOf (pointer : Option CraneId) (k : CraneId) : Nat :=
  match pointer with
  | none => k.val
  | some p => (k.val + 11 - p.val) % 12

/-! ### Parameters as octets (R157; 11.2, widths log 18) -/

/-- The parameter set at its reset values (R157); the cycle period of 1 ms counts four steps. -/
def Params.atReset : Params :=
  { quayType := 0x88B6#16, mgmtHead := 0x02415A5124#40, controller := none, collector := none, managers := []
    cyclePeriod := 4, downlinkCapacity := 64, breakLimit := 3, statusMissLimit := 4, fadeLevel := 4, recoverLevel := 6
    urgentSealMs := 100, routineSealS := 30, checkWaitMs := 50, pauseLimitMs := 200, ageOutS := 300, handoverLimit := 16
    handoverBar := 32
    features := { craneLed := true, keepFrames := true, missMasking := true, generalLearning := true } }

/-- The octets of a parameter's value, by its number. -/
def Params.value (p : Params) : Nat → List Byte
  | 1 => octetsOf 2 p.quayType.toNat
  | 2 => octetsOf 5 p.mgmtHead.toNat
  | 3 => octetsOf 6 (p.controller.getD 0).toNat
  | 4 => octetsOf 6 (p.collector.getD 0).toNat
  | 5 => octetsOf 1 p.managers.length ++ p.managers.flatMap fun a => octetsOf 6 a.toNat
  | 6 => octetsOf 1 p.cyclePeriod
  | 7 => octetsOf 1 p.downlinkCapacity
  | 8 => octetsOf 1 p.breakLimit
  | 9 => octetsOf 1 p.statusMissLimit
  | 10 => octetsOf 1 p.fadeLevel
  | 11 => octetsOf 1 p.recoverLevel
  | 12 => octetsOf 2 p.urgentSealMs
  | 13 => octetsOf 2 p.routineSealS
  | 14 => octetsOf 2 p.checkWaitMs
  | 15 => octetsOf 2 p.pauseLimitMs
  | 16 => octetsOf 2 p.ageOutS
  | 17 => octetsOf 1 p.handoverLimit
  | 18 => octetsOf 1 p.handoverBar
  | 19 => octetsOf 1
      ((if p.features.craneLed then 1 else 0) + (if p.features.keepFrames then 2 else 0)
        + (if p.features.missMasking then 4 else 0) + (if p.features.generalLearning then 8 else 0))
  | _ => []

/-- A value of so many octets lies in a range. -/
def ValueIn (width lo hi : Nat) (v : List Byte) : Prop := v.length = width ∧ lo ≤ valueOf v ∧ valueOf v ≤ hi

/-- The item names one of the nineteen parameters with a value in its range (R157). -/
def ParamItem.InRange (i : ParamItem) : Prop :=
  match i.number with
  | 1 => ValueIn 2 0x0600 0xFFFF i.value
  | 2 => i.value.length = 5 ∧ (i.value.headD 0).toNat % 2 = 0
  | 3 | 4 => i.value.length = 6 ∧ (i.value.headD 0).toNat % 2 = 0
  | 5 => ∃ l : List Addr, l.length ≤ 4 ∧ l.Nodup ∧ (∀ a ∈ l, a ≠ 0 ∧ a.toNat / 2 ^ 40 % 2 = 0)
      ∧ i.value = octetsOf 1 l.length ++ l.flatMap fun a => octetsOf 6 a.toNat
  | 6 => ValueIn 1 2 32 i.value
  | 7 => ValueIn 1 16 255 i.value
  | 8 | 9 => ValueIn 1 1 15 i.value
  | 10 => ValueIn 1 1 14 i.value
  | 11 => ValueIn 1 2 15 i.value
  | 12 => ValueIn 2 0 1000 i.value
  | 13 => ValueIn 2 1 600 i.value
  | 14 => ValueIn 2 10 1000 i.value
  | 15 => ValueIn 2 1 1000 i.value
  | 16 => ValueIn 2 30 3600 i.value
  | 17 => ValueIn 1 2 64 i.value
  | 18 => ValueIn 1 0 255 i.value
  | 19 => ValueIn 1 0 15 i.value
  | _ => False

/-- The octets of an item: number, value length, value (11.2). -/
def ParamItem.octets (i : ParamItem) : List Byte := octetsOf 1 i.number ++ octetsOf 1 i.value.length ++ i.value

/-- The value a list gives a parameter, if it lists it. -/
def listedValue (l : List ParamItem) (n : Nat) : Option (List Byte) :=
  (l.find? fun i => i.number == n).map ParamItem.value

/-! ### What is at fault in a load (R25, R37, R39, R46, R93, R95, R163) -/

/-- The number of whole entries of staged content. -/
def entryCount (t : Table) (content : List Byte) : Nat := content.length / entrySize t

/-- A crane definition outside its ranges (R46). -/
def CraneDef.OutOfRange (d : CraneDef) : Prop :=
  ¬(1 ≤ d.reservation ∧ d.reservation ≤ 8 ∧ 10 ≤ d.interval ∧ d.interval ≤ 1000 ∧ d.interval % 10 = 0
    ∧ 1 ≤ d.lossLimit ∧ d.lossLimit ≤ 15 ∧ 1 ≤ d.holdOff ∧ d.holdOff ≤ 8
    ∧ d.station ≠ 0 ∧ d.station.toNat / 2 ^ 40 % 2 = 0 ∧ d.radio ≠ 0)

/-- A list of cells that is too long, names no cell or names one twice (R37). -/
def BadCells (count : Nat) (l : List Nat) : Prop := ¬(count ≤ 4 ∧ (∀ x ∈ l, x ≤ 15) ∧ l.Nodup)

/-- Two of the definitions would hold one address after the load: that of a listed crane definition (R39, R46). -/
def CraneEntry.AddressTaken (l : List CraneEntry) (s : State) (e : CraneEntry) : Prop :=
  e.action = 0
    ∧ ((∃ o ∈ l, o.action = 0 ∧ o.index ≠ e.index ∧ o.defn.radio = e.defn.radio)
      ∨ (∃ (k : CraneId) (d : CraneDef), (∀ o ∈ l, o.index ≠ k.val) ∧ (s.crane k).defn = some d ∧ d.radio = e.defn.radio)
      ∨ ∃ (i : ReeferId) (d : ReeferDef), (s.reefer i).defn = some d ∧ d.unit = e.defn.radio)

/-- Two of the definitions would hold one address after the load: that of a listed reefer definition (R39, R95). -/
def ReeferEntry.AddressTaken (l : List ReeferEntry) (s : State) (e : ReeferEntry) : Prop :=
  e.action ≠ 2
    ∧ ((∃ o ∈ l, o.action ≠ 2 ∧ o.index ≠ e.index ∧ o.unit = e.unit)
      ∨ (∃ (i : ReeferId) (d : ReeferDef), (∀ o ∈ l, o.index ≠ i.val) ∧ (s.reefer i).defn = some d ∧ d.unit = e.unit)
      ∨ ∃ (k : CraneId) (d : CraneDef), (s.crane k).defn = some d ∧ d.radio = e.unit)

/-- A crane entry removes a live crane, or changes its station, radio address or reservation (R46). -/
def CraneEntry.InUse (s : State) (e : CraneEntry) : Prop :=
  ∃ k : CraneId, k.val = e.index
    ∧ ((s.crane k).state = .linked ∨ (s.crane k).state = .handover ∨ (s.crane k).state = .lost)
    ∧ ¬∃ d, (s.crane k).defn = some d ∧ e.action = 0 ∧ d.station = e.defn.station ∧ d.radio = e.defn.radio
        ∧ d.reservation = e.defn.reservation

/-- A cell entry takes slots that are reserved (R25). -/
def CellEntry.InUse (s : State) (e : CellEntry) : Prop :=
  ∃ x : CellId, x.val = e.cell
    ∧ (e.budget < (s.cell x).reserved ∨ (s.cell x).fitted = true ∧ e.fitted = 0 ∧ (s.cell x).reserved ≠ 0)

/-- An entry is at fault with a status, judged with the entries before it and against the table as it would stand. An
index that stands twice is a fault of the later entry, an address that two entries would hold a fault of both (log 20). -/
def EntryAtFault (st : Status) (t : Table) (content : List Byte) (s : State) (n : Nat) : Prop :=
  let cut := entriesOf (entrySize t) content
  match t with
  | .cranes =>
    let l := cut.map craneEntry
    ∃ e, l[n]? = some e
      ∧ match st with
        | .range => 11 < e.index ∨ 1 < e.action ∨ 7 < e.presence ∨ (∃ o ∈ l.take n, o.index = e.index)
            ∨ e.action = 0 ∧ e.defn.OutOfRange
        | .duplicateAddress => e.AddressTaken l s
        | .inUse => e.InUse s
        | _ => False
  | .cells =>
    let l := cut.map cellEntry
    ∃ e, l[n]? = some e
      ∧ match st with
        | .range => 15 < e.cell ∨ 1 < e.fitted ∨ 64 < e.budget ∨ 7 < e.position ∨ ∃ o ∈ l.take n, o.cell = e.cell
        | .inUse => e.InUse s
        | _ => False
  | .coverage =>
    ∃ e, (cut.map bandListing)[n]? = some e ∧ st = .range
      ∧ (BadCells e.rankedCount e.ranked ∨ BadCells e.shadowCount e.shadow)
  | .reefers =>
    let l := cut.map reeferEntry
    ∃ e, l[n]? = some e
      ∧ match st with
        | .range => 4095 < e.index ∨ 2 < e.action ∨ (∃ o ∈ l.take n, o.index = e.index)
            ∨ e.action ≠ 2 ∧ ((∀ g : GroupId, g.val = e.group → (s.group g).defn = none) ∨ e.unit = 0)
            ∨ e.action = 1 ∧ ∀ i : ReeferId, i.val = e.index → (s.reefer i).defn = none
        | .duplicateAddress => e.AddressTaken l s
        | _ => False
  | .groups =>
    let l := cut.map groupEntry
    ∃ e, l[n]? = some e ∧ st = .range
      ∧ (63 < e.index ∨ (∃ o ∈ l.take n, o.index = e.index) ∨ e.defn.interval < 10 ∨ 3600 < e.defn.interval
        ∨ e.defn.silentLimit < 1 ∨ 15 < e.defn.silentLimit ∨ 1 < e.enable)

/-- A fault that lies in no single entry: content that is not a whole number of entries, other than 64 coverage entries, a
chain's positions not all different, its budgets over 128 slots in all (R25, R37, R163). -/
def WholeAtFault (st : Status) (t : Table) (content : List Byte) (s : State) : Prop :=
  let listed := fun x : CellId => ((entriesOf 4 content).map cellEntry).find? fun e => e.cell == x.val
  st = .range ∧ content.length % entrySize t ≠ 0
    ∨ st = .range ∧ t = .coverage ∧ entryCount t content ≠ 64
    ∨ st = .range ∧ t = .cells
      ∧ (∃ c, ¬((cellsOf c).map fun x => ((listed x).map CellEntry.position).getD (s.cell x).position.val).Nodup)
    ∨ st = .inUse ∧ t = .cells
      ∧ ∃ c, 128 < ((cellsOf c).map fun x => ((listed x).map CellEntry.budget).getD (s.cell x).budget).sum

/-- Staged content is at fault with a status. -/
def LoadAtFault (st : Status) (t : Table) (content : List Byte) (s : State) : Prop :=
  WholeAtFault st t content s ∨ ∃ n, n < entryCount t content ∧ EntryAtFault st t content s n

/-! ### What a load does to the directory (R39) -/

/-- What an entry of a load does to the directory: the definition it names, the address that definition had, and the
address it has after the load, none when it is removed. -/
structure AddressMove where
  target : DirTarget
  old : Option Addr
  new : Option Addr
  deriving DecidableEq, Repr

/-- The address moves of a load, entry by entry (R47, R96). -/
def addressMoves (t : Table) (content : List Byte) (s : State) : List AddressMove :=
  match t with
  | .cranes => ((entriesOf 20 content).map craneEntry).filterMap fun e => (below 12 e.index).map fun k =>
      { target := .crane k, old := (s.crane k).defn.map CraneDef.radio
        new := if e.action = 0 then some e.defn.radio else none }
  | .reefers => ((entriesOf 10 content).map reeferEntry).filterMap fun e => (below 4096 e.index).map fun i =>
      { target := .reefer i, old := (s.reefer i).defn.map ReeferDef.unit
        new := if e.action = 2 then none else some e.unit }
  | .cells | .coverage | .groups => []

/-! ### Batches and frames of a drain (R114, R124, R131, R132) -/

/-- The start condition of a drain (R130). -/
def MayStart (s : State) : Prop :=
  s.drain.state = .sending ∧ s.drain.started < s.drain.credit.getD 0 ∧ s.drain.window.length < 2
    ∧ (∀ w ∈ s.drain.window, w.phase ≠ .sending) ∧ s.pool.sealedList ≠ []

/-- The bursts of the check window in phase SENDING: the half-sent burst, if there is one (R139). -/
def Drain.halfSent (d : Drain) : List Burst := d.window.filter fun w => decide (w.phase = .sending)

/-- The port once a half-sent burst has been withdrawn: its frame leaves the drain queue if it still waits there (R139,
R147). -/
def State.withdrawnPort (s : State) : Port :=
  if s.drain.halfSent ≠ [] ∧ s.drain.staging ≠ none ∧ s.port.drainQ ≠ [] then
    { s.port with
      drainQ := []
      counters := { s.port.counters with drainWithdrawn := s.port.counters.drainWithdrawn + 1 } }
  else s.port

/-- The mark that the next send report is to be disregarded, once a half-sent burst has been withdrawn: set when the arbiter
has already chosen its frame (R139, R147; log 13). -/
def State.withdrawnMark (s : State) : Bool :=
  s.drain.disregard || decide (s.drain.halfSent ≠ [] ∧ s.drain.staging ≠ none ∧ s.port.drainQ = [])

/-- A batch has been returned to the pool (R124): the entries that their reefers' references still name stand in their
order, renumbered; without one the batch is FREE, otherwise it is SEALED again at its place in the sealed list. -/
structure BatchReturned (b : BatchId) (s v : State) : Prop where
  frame : v = { s with ree := { s.ree with reefers := v.ree.reefers }, pool := v.pool }
  stamp : v.pool.stamp = s.pool.stamp
  others : ∀ a, a ≠ b → v.batch a = s.batch a
  returned :
    let live := (s.batch b).entries.zipIdx.filter fun p => decide ((s.reefer p.1.reefer).ref = some (b, p.2))
    let k := s.pool.counters
    let pruned := k.pruned + BitVec.ofNat 32 ((s.batch b).entries.length - live.length)
    (∀ i, v.reefer i =
      { s.reefer i with
        ref := match live.findIdx? fun p => decide (p.1.reefer = i) with
          | some n => some (b, n)
          | none => (s.reefer i).ref })
    ∧ (live = [] →
      v.batch b = {} ∧ v.pool.exhausted = false
      ∧ v.pool.sealedList = s.pool.sealedList.filter (fun a => decide (a ≠ b))
      ∧ v.pool.counters = { k with pruned := pruned, freedEmpty := k.freedEmpty + 1 })
    ∧ (live ≠ [] →
      v.batch b = { s.batch b with state := .sealed, entries := live.map Prod.fst }
      ∧ v.pool.exhausted = s.pool.exhausted
      ∧ v.pool.counters = { k with pruned := pruned, returned := k.returned + 1 }
      ∧ ∃ front back, s.pool.sealedList = front ++ back ∧ v.pool.sealedList = front ++ b :: back
        ∧ (∀ x ∈ front, ¬GoesAhead (s.batch b) (s.batch x))
        ∧ ∀ x, back.head? = some x → GoesAhead (s.batch b) (s.batch x))

/-- A drain has terminated on a cause (R139): the half-sent burst is withdrawn and every other burst of the window fails, in
window order; each sets the first failed index if that is none and has its batch returned to the pool (R124); the drain is
CLOSED, and a DRAIN-END tells the collector the figures of the record as it closed, or is counted as dropped (R140). The
mark of a report to be disregarded is the model's own field (log 13). -/
def DrainTerminated (o : DrainOutcome) (s t : State) : Prop :=
  let d := s.drain
  let failing := d.halfSent ++ d.window.filter fun w => decide (w.phase ≠ .sending)
  PoolOnly s t
  ∧ t.drain.state = .closed ∧ t.drain.cause = some o ∧ t.drain.lastOutcome = some o ∧ t.drain.window = []
  ∧ t.drain.pause = none ∧ t.drain.started = d.started ∧ t.drain.good = d.good ∧ t.drain.delivered = d.delivered
  ∧ t.drain.firstFailed = (if d.firstFailed = none then failing.head?.map Burst.index else d.firstFailed)
  ∧ t.drain.counters.failed = d.counters.failed + BitVec.ofNat 32 d.window.length
  ∧ t.drain.staging = (if d.halfSent = [] then d.staging else none) ∧ t.drain.disregard = s.withdrawnMark
  ∧ (let v := failing.foldl (fun v w => batchReturn w.batch v) s
     t.pool = v.pool ∧ t.ree = v.ree)
  ∧ ∀ tag, d.tag = some tag →
    let told := fun a => s.drainEnded s.withdrawnPort a
      { tag := tag, outcome := o, started := d.started, good := d.good, firstFailed := t.drain.firstFailed
        delivered := d.delivered }
    (∀ a, s.params.collector = some a → t.port = (told a).1
      ∧ t.drain.counters.endDropped = d.counters.endDropped + (if (told a).2 then 0 else 1))
    ∧ (s.params.collector = none → t.port = s.withdrawnPort ∧ t.drain.counters.endDropped = d.counters.endDropped + 1)

/-- A frame built of a burst, and the burst after it (R131, R132): it takes the entries next in order until one would bring
it past 1,024 octets, carries the head when it is the burst's first, and the CRC runs on over what it takes. -/
structure FramePacked (tag : U16) (b : Batch) (w : Burst) (f : BurstFrame) (v : Burst) : Prop where
  entries : w.remaining = f.entries ++ v.remaining
  fits : (f.entries.flatMap Entry.octets).length ≤ 1024
  full : ∀ e, v.remaining.head? = some e → 1024 < (f.entries.flatMap Entry.octets).length + e.octets.length
  frame : f =
    { tag := tag, index := w.index, number := w.framesBuilt, last := decide (v.remaining = []), entries := f.entries
      head := if w.framesBuilt = 0 then
          some { stamp := b.stamp.getD 0, urgency := b.urgency.getD .routine, count := w.count }
        else none }
  burst : v =
    { w with
      remaining := v.remaining, framesBuilt := w.framesBuilt + 1
      crc := crcOver w.crc (f.entries.flatMap Entry.octets) }

/-! ### Frames, blocks and requests that reach their block -/

/-- A frame's header passes the receive checks of type and address on an UP link (R145), and RESET_N is not held. -/
structure Reaches (s : State) (h : RxHeader) : Prop where
  awake : s.held = false
  link : s.port.link = .up
  quay : h.etherType = s.params.quayType
  addressed : h.dst = s.mgmtAddress

/-- The state with an arriving quay frame counted (R145). -/
def State.received (s : State) : State := s.countPort fun k => { k with received := k.received + 1 }

/-- A station frame that is accepted: it reaches the Crane Link Unit, names a defined crane and comes from its station
(R54). -/
structure FromStation (s : State) (h : RxHeader) (subject : Byte) (k : CraneId) : Prop extends Reaches s h where
  named : subject.toNat = k.val
  station : (s.crane k).defn.map CraneDef.station = some h.src

/-- The state with an accepted station frame counted and the station heard (R54). -/
def State.stationHeard (s : State) (k : CraneId) : State :=
  s.received.modCrane k fun c =>
    { c with stationHeard := true, counters := { c.counters with stationFrames := c.counters.stationFrames + 1 } }

/-- A frame from the collector reaches the Drain Engine (R128). -/
structure FromCollector (s : State) (h : RxHeader) : Prop extends Reaches s h where
  collector : s.params.collector = some h.src

/-- An uplink block is dispatched: its chain is RUNNING, its cell fitted, and RESET_N is not held (R18a). -/
structure Dispatched (s : State) (x : CellId) : Prop where
  awake : s.held = false
  running : (s.chain (chainOf x)).state = .running
  fitted : (s.cell x).fitted = true

/-- The state with a block taken from the line of a chain: the silence is measured afresh (R21). -/
def State.lineHeard (s : State) (c : Chain) : State := s.modChain c fun r => { r with silence := 0 }

/-- The state with an uplink block dispatched and counted for its cell (R18a). -/
def State.dispatched (s : State) (x : CellId) : State :=
  (s.lineHeard (chainOf x)).modCell x fun r => { r with uplinkBlocks := r.uplinkBlocks + 1 }

/-- A chain has entered BROKEN (R6, R7): the backoff timer runs with the next backoff, which has doubled up to its
ceiling; no turn is awaited; the other chain stands; and a chain that was RUNNING has flushed its queue and taken its
cells DOWN (R29). A CHAIN-STATE notice of the cause, with the aborting cell if there is one, is the last thing it does
(R9); `u` is the state in which the chain broke, before it left RUNNING. -/
structure Broke (c : Chain) (cause : ChainCause) (abortCell : Option CellId) (u s t : State) : Prop where
  state : (t.chain c).state = .broken
  others : ∀ d, d ≠ c → t.chain d = s.chain d
  backoff : (t.chain c).backoff = some ((s.chain c).nextBackoff * 4)
  nextBackoff : (t.chain c).nextBackoff = min (2 * (s.chain c).nextBackoff) 1600
  awaited : (t.chain c).awaited = none
  breaks : (t.chain c).counters.breaks = (s.chain c).counters.breaks + 1
  queue : (s.chain c).state = .running →
    (t.chain c).generalQ = [] ∧ (t.chain c).missed = 0 ∧ (t.chain c).stable = none
      ∧ (t.chain c).counters.generalFlushed =
        (s.chain c).counters.generalFlushed + BitVec.ofNat 32 (s.chain c).generalQ.length
  cells : (s.chain c).state = .running → ∀ x, chainOf x = c →
    (t.cell x).unit = (if (s.cell x).unit = .absent then .absent else .down)
  led : t.leds = match c with
    | .N => { s.leds with chn := false }
    | .S => { s.leds with chs := false }
  notice :
    let v := if (s.chain c).state = .running then leaveRunning c u else u
    t = { v with
      port := v.controllerNoticed (.chainState c cause .broken abortCell), leds := t.leds
      chainN := t.chainN, chainS := t.chainS }

/-- A request of a kind stands at the head of the request queue, and RESET_N is not held (R156). -/
structure HeadIs (s : State) (k : RequestKind) (q : Request) (rest : List Request) : Prop where
  awake : s.held = false
  queue : s.mgmt.queue = q :: rest
  kind : requestKind q.command = some k

/-- The header of a command that is an arriving quay frame of a receive kind (R146). -/
def frameHeader : Instr → Option RxHeader
  | .craneDown h _ _ | .craneResume h _ | .drainOpen h _ _ | .drainCheck h _ _ _ | .drainPause h _ | .drainResume h _
  | .drainStop h _ | .mgmtRequest h _ _ _ | .generalFrame h _ _ => some h
  | .resetNAssert | .resetNRelease _ | .linkUp | .linkLoss | .frameSent | .uplinkFrameDiscarded _ _
  | .cycleTimerExpiry _ | .backoffTimerExpiry _ | .stableTimerExpiry _ | .signalLoss _ | .fillBlock _ | .openerReturned _
  | .undeliveredDownlink _ | .craneUp _ _ _ _ | .reeferReport _ _ | .generalUp _ _ _ | .turnMarker _ _ _
  | .abortMarker _ | .malformedBlock _ _ | .supervisionTimerExpiry _ | .handoverCountdownExpiry _
  | .failedTargetBarExpiry _ | .reportTick | .missCharge _ | .generalAgeOut _ | .sealTimeExpiry _ | .checkTimerExpiry _
  | .pauseTimerExpiry | .transactionTimerExpiry | .identify | .readParams | .setParams | .loadBegin | .loadSegment
  | .loadEnd | .readCrane | .readCell | .readChain | .readReefer | .readGroup | .readBatches | .readDrain | .readCounters
  | .clearExcursion | .clearGroup | .releaseCrane | .barCell | .unbarCell | .chainEnable | .chainDisable
  | .restartTraffic | .restartAll | .unknownRequest | .rollcallLedBlink _ => none

/-! ### What the taking of a request does besides the request's own effect -/

/-- The state in which a request that is no part of a load is executed: it has left the queue and is current, and an open
transaction has been abandoned as INTERLEAVED (R156, R162). -/
def State.taking (s : State) (q : Request) (rest : List Request) : State :=
  { s with mgmt := { s.mgmt with
      queue := rest, current := some q, abandoned := false, load := none
      staging := if s.mgmt.load.isSome then [] else s.mgmt.staging
      timer := if s.mgmt.load.isSome then none else s.mgmt.timer
      counters := { s.mgmt.counters with
        abandonedInterleaved := s.mgmt.counters.abandonedInterleaved + (if s.mgmt.load.isSome then 1 else 0) } } }

/-- The state in which a LOAD-SEGMENT or LOAD-END is executed: the transaction stands (R162). -/
def State.takingLoad (s : State) (q : Request) (rest : List Request) : State :=
  { s with mgmt := { s.mgmt with queue := rest, current := some q, abandoned := false } }

/-- The ABANDONED flag of the response to a request that is no part of a load (R155, R162). -/
def State.abandonedFlag (s : State) : Bool := s.mgmt.abandoned || s.mgmt.load.isSome

/-- The response to a request: a frame to its source with its id and command, a status, the two flags and data (R155). -/
def State.response (u : State) (q : Request) (status : Status) (abandoned changed : Bool) (data : ResponseData) :
    TxFrame :=
  { dst := q.src, src := u.mgmtAddress, etherType := u.params.quayType
    content := .response q.id q.command status abandoned changed data }

/-- The state once a response has been offered to the control queue and its request is no longer current; a response that
the queue refuses is lost and counted (R155, R156). -/
def State.answered (u : State) (q : Request) (status : Status) (abandoned changed : Bool) (data : ResponseData) : State :=
  let o := u.port.offer .control (u.response q status abandoned changed data)
  { u with
    port := o.1
    mgmt := { u.mgmt with
      current := none
      counters := { u.mgmt.counters with
        taken := u.mgmt.counters.taken + 1
        responsesRefused := u.mgmt.counters.responsesRefused + (if o.2 then 0 else 1) } } }

end Machine
end Sys2Proof
end

