-- ==== Sys2Proof/Certificates/Slice0/Obligations.lean ====
section
/-! DEFINITION. The statements about the Q240 for the provers, block by block; OBLIGATIONS.json lists them. -/

open Sys2Proof Sys2Proof.Machine

/-! ### The machine -/

/-- A step takes the command at the front of the queue, and runs it with the queue's rest (the model's form of a step).
-/
def Obligations.StepTakesTheFrontCommand : Prop :=
  ∀ (c : Instr) (rest : List Instr) (s : State), s.pending = c :: rest → step s = exec c { s with pending := rest }

/-- On an empty queue a step lets a quarter of a millisecond go by (DESIGN CHOICE, log 1): the timebase counts it
(R167), every running timer has a quarter less (log 2), the open age of an open batch grows (R111), the time since a
chain's line last carried a block grows in every state but DISABLED (R1, R3; log 17), and nothing else but the LED
drivers changes. -/
def Obligations.EmptyQueueLetsTimePass : Prop :=
  ∀ s : State, s.pending = [] → s.held = false →
    ∃ t, step s = .next t
      ∧ t.time.quarter = s.time.quarter + 1
      ∧ t.time.ms = (if s.time.quarter = 3 then s.time.ms + 1 else s.time.ms)
      ∧ (∀ c, t.chain c =
          { s.chain c with
            backoff := (s.chain c).backoff.map (· - 1)
            stable := (s.chain c).stable.map (· - 1)
            cycleTimer := (s.chain c).cycleTimer - 1
            silence := if (s.chain c).state = .disabled then (s.chain c).silence else (s.chain c).silence + 1 })
      ∧ (∀ k, t.crane k = { s.crane k with supervision := (s.crane k).supervision.map (· - 1) })
      ∧ (∀ b, t.batch b =
          { s.batch b with
            age := if (s.batch b).state = .openUrgent ∨ (s.batch b).state = .openRoutine then (s.batch b).age + 1
              else (s.batch b).age })
      ∧ t.drain =
          { s.drain with
            pause := s.drain.pause.map (· - 1)
            window := s.drain.window.map fun w => { w with check := w.check.map (· - 1) } }
      ∧ t.mgmt = { s.mgmt with timer := s.mgmt.timer.map (· - 1) }
      ∧ t = { s with
          time := t.time, leds := t.leds, chainN := t.chainN, chainS := t.chainS
          clu := { s.clu with cranes := t.clu.cranes }, pool := { s.pool with batches := t.pool.batches }
          drain := t.drain, mgmt := t.mgmt }

/-- What no command, or only its own, changes: no command touches the queue of commands, and the orders left open are
only used up (log 8); the link state changes only at LINK-UP and LINK-LOSS and at a reset (R143, R144), and the
parameter set only at SET-PARAMS, RESTART-ALL and a reset (R158, R167). -/
def Obligations.QueueLinkAndParametersChangeOnlyByTheirCommands : Prop :=
  (∀ (c : Instr) (s t : State), exec c s = .next t → t.pending = s.pending ∧ t.choices <:+ s.choices)
  ∧ (∀ (c : Instr) (s t : State), exec c s = .next t → c ≠ .resetNAssert → (∀ straps, c ≠ .resetNRelease straps) →
       (c ≠ .linkUp → c ≠ .linkLoss → t.port.link = s.port.link)
       ∧ (c ≠ .setParams → c ≠ .restartAll → t.params = s.params))

/-- The crane, cell, coverage, reefer and group definitions change only when a LOAD-END is taken, at RESTART-ALL and at
a reset (R163). -/
def Obligations.DefinitionsChangeOnlyByLoadEnd : Prop :=
  ∀ (c : Instr) (s t : State), TablesSound s → exec c s = .next t →
    c ≠ .loadEnd → c ≠ .restartAll → c ≠ .resetNAssert → (∀ straps, c ≠ .resetNRelease straps) →
      (∀ k, (t.crane k).defn = (s.crane k).defn)
      ∧ (∀ x, (t.cell x).fitted = (s.cell x).fitted ∧ (t.cell x).budget = (s.cell x).budget
          ∧ (t.cell x).position = (s.cell x).position)
      ∧ t.cov.map = s.cov.map
      ∧ (∀ i, (t.reefer i).defn = (s.reefer i).defn)
      ∧ ∀ g, (t.group g).defn = (s.group g).defn

/-- While RESET_N is held, no frame, block, expiry or request is taken and nothing is sent (R168). RESET_N darkens the
LED drivers while it is held, and its release reads the straps and puts every block in its power-on state, whatever the
state before (R168, R172): the tables of R1, R23, R36, R38, R40, R44, R92, R94, R111, R126, R143, R154, and every counter
of every block at 0. -/
def Obligations.ResetHoldsThePartAndClearsIt : Prop :=
  (∀ (c : Instr) (s : State), s.held = true → c ≠ .resetNAssert → (∀ straps, c ≠ .resetNRelease straps) →
     exec c s = .next s)
  ∧ (∀ s : State,
       (∃ t, exec .resetNAssert s = .next t ∧ t.held = true ∧ t.leds = {} ∧ t.port.tx = none)
       ∧ ∀ straps, ∃ t, exec (.resetNRelease straps) s = .next t
         ∧ t.held = false ∧ t.leds = {} ∧ t.time = { ms := 0, quarter := 0 }
         ∧ t.port = { link := .down, tx := none, craneUpQ := [], controlQ := [], drainQ := [], generalUpQ := [], run := 0 }
         ∧ (∀ c, t.chain c =
             { state := .disabled, cycle := 0, awaited := none, missed := 0, nextBackoff := 100, backoff := none
               stable := none, goodTurns := 0, rollcallTurns := 0, heard := [], lastAbort := none, cranePtr := none
               silence := 0, generalQ := [], cycleTimer := 4, line := none })
         ∧ (∀ x, (t.cell x).position.val = x.val % 8
             ∧ t.cell x =
               { position := (t.cell x).position, fitted := false, budget := 0, barred := false, unit := .absent
                 quality := 0, backlog := 0, progress := 0, missCount := 0, shadowCount := 0, reserved := 0
                 changed := false })
         ∧ (∀ b, (t.bandEntry b).ranked = [] ∧ (t.bandEntry b).shadow = [])
         ∧ t.cov.directory = [] ∧ t.cov.general = [] ∧ t.cov.counters = {}
         ∧ (∀ k, t.crane k =
             { defn := none, oldHoldOff := none, state := .vacant, anchor := none, target := none, countdown := 0
               bar := none, deferred := false, progress := 0, band := none, boom := .unknown, shadow := []
               craneHeard := false, stationHeard := false, craneMiss := 0, stationMiss := 0
               lost := { craneSilent := false, stationSilent := false }, downlinkSent := false, holds := [], keeps := []
               window := none, queue := [], supervision := none })
         ∧ t.clu.notices = []
         ∧ t.clu.unknownCrane = 0 ∧ t.clu.unknownSubject = 0
         ∧ (∀ g, t.group g = { defn := none, summary := false, members := 0 }) ∧ t.ree.reefers = [] ∧ t.ree.unknown = 0
         ∧ (∀ b, t.batch b = { state := .free, urgency := none, age := 0, stamp := none, entries := [] })
         ∧ t.pool.sealedList = [] ∧ t.pool.stamp = 0 ∧ t.pool.exhausted = false ∧ t.pool.counters = {}
         ∧ t.drain =
             { state := .closed, tag := none, credit := none, started := 0, good := 0, firstFailed := none, delivered := 0
               cause := none, lastOutcome := none, pause := none, window := [], staging := none, disregard := false }
         ∧ t.mgmt = { queue := [], current := none, load := none, staging := [], timer := none, abandoned := false
                      params := Params.atReset, strap := straps }
         ∧ t.mgmtAddress = 0x02415A5124#40 ++ straps)

/-! ### What always holds -/

/-- The machine right after reset meets every law that the statements below say a step keeps. That the straps read 0x00
there is the model's choice (log 5). -/
def Obligations.ResetStateIsSound : Prop :=
  State.reset = State.powerOn 0 ∧ PortSound State.reset.port ∧ LedsSound State.reset ∧ TablesSound State.reset
    ∧ GeneralSound State.reset ∧ EventsSettled State.reset ∧ ParamsSound State.reset.params
    ∧ MgmtSound State.reset.mgmt ∧ ChainsSound State.reset ∧ CellsSound State.reset ∧ RingSound State.reset
    ∧ CranesSound State.reset ∧ ReservationsSound State.reset ∧ ShadowsSound State.reset
    ∧ DrainSound State.reset.drain ∧ PoolSound State.reset ∧ UrgentFirst State.reset ∧ SealedInOrder State.reset
    ∧ RefsSound State.reset ∧ ReefersSound State.reset ∧ MembersSound State.reset

/-- Every step keeps the port's queues within their capacities, the run count at 8 at most, nothing queued on a DOWN
link and nothing waiting behind an IDLE transmitter (R143, R144, R147-R149), and each LED driver at the light of its
state (R172). -/
def Obligations.StepKeepsThePortAndLedsSound : Prop :=
  (∀ s t : State, PortSound s.port → step s = .next t → PortSound t.port)
  ∧ (∀ s t : State, LedsSound s → step s = .next t → LedsSound t)

/-- Every step keeps the keyed tables in rising order, within their tables and without VACANT records (log 7), and the
law of R40: each general record in use has its GENERAL entry, and each GENERAL entry its record. -/
def Obligations.StepKeepsTheTablesSound : Prop :=
  (∀ s t : State, TablesSound s → step s = .next t → TablesSound t)
  ∧ (∀ s t : State, TablesSound s → GeneralSound s → step s = .next t → GeneralSound t)

/-- Every step keeps the parameter set within the ranges of R157, and the laws of the Management Unit's record (R154,
R155, R160, R161): among them that the running CRC is that of the staged octets. -/
def Obligations.StepKeepsTheManagementSound : Prop :=
  (∀ s t : State, ParamsSound s.params → step s = .next t → ParamsSound t.params)
  ∧ (∀ s t : State, MgmtSound s.mgmt → step s = .next t → MgmtSound t.mgmt)

/-- Every step keeps the laws of both chain records (R1, R3-R8, R22). -/
def Obligations.StepKeepsTheChainsSound : Prop :=
  ∀ s t : State, ChainsSound s → step s = .next t → ChainsSound t

/-- Every step keeps the laws of the cell records (R23, R25-R29), among them that a cell is UP or FADING only while its
chain is RUNNING, and a chain's positions different and its budgets at 128 slots at most in all (R25). -/
def Obligations.StepKeepsTheCellsSound : Prop :=
  (∀ s t : State, CellsSound s → step s = .next t → CellsSound t)
  ∧ (∀ s t : State, RingSound s → step s = .next t → RingSound t)

/-- Every step keeps what R45 says of the crane states: an anchor exactly in LINKED, HANDOVER and LOST, a target exactly
in HANDOVER, and never the anchor; and it takes all that it hands to the Crane Link Unit (R31, R32, R75; the order is
the model's, log 9). -/
def Obligations.StepKeepsTheCranesSound : Prop :=
  (∀ s t : State, CranesSound s → step s = .next t → CranesSound t)
  ∧ (∀ s t : State, EventsSettled s → step s = .next t → EventsSettled t)

/-- Every step keeps the reservation law of R32, a cell's reserved slots being the reservations of the cranes that name
it as anchor or target and never exceeding its budget, and the shadow law of R33, a cell's shadow count being the number
of cranes whose shadow set contains it. -/
def Obligations.StepKeepsTheClaimsSound : Prop :=
  (∀ s t : State, CranesSound s → ReservationsSound s → step s = .next t → ReservationsSound t)
  ∧ (∀ s t : State, CranesSound s → ShadowsSound s → step s = .next t → ShadowsSound t)

/-- Every step keeps the drain record sound (R126, R130, R136): at most two bursts, numbered as they were started, at
most one being sent. And it keeps the pool sound (R111, R120, R130): at most one open batch of each urgency, 1 to 63
entries in an open batch, the sealed list holding every SEALED batch once, the check window every IN-FLIGHT one. And it
keeps the sealed list in its order, urgent batches before routine ones and each in the order of the stamps, while the
stamps in use lie within half the range of the counter, across which R120 orders none (R120). -/
def Obligations.StepKeepsTheDrainAndPoolSound : Prop :=
  (∀ s t : State, DrainSound s.drain → step s = .next t → DrainSound t.drain)
  ∧ (∀ s t : State, DrainSound s.drain → PoolSound s → step s = .next t → PoolSound t)
  ∧ (∀ s t : State, DrainSound s.drain → PoolSound s → UrgentFirst s → step s = .next t → UrgentFirst t)
  ∧ (∀ s t : State, DrainSound s.drain → PoolSound s → StampsNear s → SealedInOrder s → step s = .next t →
      SealedInOrder t)

/-- Every step keeps the last sentence of R114: entries of OPEN and SEALED batches and batch references agree. -/
def Obligations.StepKeepsTheReferencesSound : Prop :=
  ∀ s t : State, DrainSound s.drain → PoolSound s → RefsSound s → step s = .next t → RefsSound t

/-- Every step keeps the reefer and group tables sound (R94, R95, R99): among them, whenever a reefer's excursion flag
is set, the excursion summary of its group is set; and each group's member count is the number of defined reefers that
name it (R92, R96). -/
def Obligations.StepKeepsTheReefersSound : Prop :=
  (∀ s t : State, TablesSound s → ReefersSound s → step s = .next t → ReefersSound t)
  ∧ (∀ s t : State, TablesSound s → ReefersSound s → MembersSound s → step s = .next t → MembersSound t)

/-! ### The uplink port (spec/09) -/

/-- A raw frame is discarded and counted at the first receive check it fails, and nothing else changes (R145, R169); a
frame of a receive kind is judged by its EtherType and destination with the values in force, and none arrives on a DOWN
link (R144, R145). The content length each receive kind allows is that of R169. A raw frame that passes every check does
nothing under this command (log 15). -/
def Obligations.ArrivingFramesAreJudgedByTheChecks : Prop :=
  (∀ (h : RxHeader) (octets : List Byte) (s : State), s.held = false → s.port.link = .up →
     let kind := (octets.getD 1 0).toNat
     let length := valueOf ((octets.drop 6).take 2)
     let counted := fun f : PortCounters → PortCounters =>
       exec (.uplinkFrameDiscarded h octets) s =
         .next { s with port := { s.port with counters := f s.port.counters } }
     if h.etherType ≠ s.params.quayType then counted fun k => { k with otherType := k.otherType + 1 }
     else if h.dst ≠ s.mgmtAddress then counted fun k => { k with notAddressed := k.notAddressed + 1 }
     else if octets.length < 10 ∨ octets.getD 0 0 ≠ 1 then counted fun k => { k with badHeader := k.badHeader + 1 }
     else if ¬(octets.length = 10 + length ∨ octets.length = 46 ∧ 10 + length ≤ 46) ∨ ¬kindLengthOk kind length then
       counted fun k => { k with malformed := k.malformed + 1 }
     else if kind ∉ [0x01, 0x02, 0x04, 0x10, 0x11, 0x12, 0x13, 0x14, 0x20] then
       counted fun k => { k with unknownKind := k.unknownKind + 1 }
     else exec (.uplinkFrameDiscarded h octets) s = .next s)
  ∧ (∀ (c : Instr) (h : RxHeader) (s : State), frameHeader c = some h → s.held = false →
       (s.port.link = .down → exec c s = .next s)
       ∧ (s.port.link = .up → h.etherType ≠ s.params.quayType →
           exec c s = .next { s with port := { s.port with counters :=
             { s.port.counters with otherType := s.port.counters.otherType + 1 } } })
       ∧ (s.port.link = .up → h.etherType = s.params.quayType → h.dst ≠ s.mgmtAddress →
           exec c s = .next { s with port := { s.port with counters :=
             { s.port.counters with notAddressed := s.port.counters.notAddressed + 1 } } }))
  ∧ ∀ kind length : Nat,
      kindLengthOk kind length = true ↔
        (kind = 0x01 → 1 ≤ length) ∧ (kind = 0x04 → 7 ≤ length) ∧ (kind = 0x20 → 2 ≤ length)
        ∧ (kind = 0x10 → length = 1) ∧ (kind = 0x11 → length = 3)
        ∧ (kind = 0x02 ∨ kind = 0x12 ∨ kind = 0x13 ∨ kind = 0x14 → length = 0)

/-- The physical link comes up: the link state and its LED change, and no block is told (R144, R172). A link loss (R144,
R141, R162): the frame in transmission is cut off and counted, the queues are flushed and counted, the run count is 0,
an open drain is closed with LINK-LOSS and the batches of its window are returned to the pool in window order (R124; the
statement on DRAIN-CHECK says what the return of a batch does), an open load transaction is abandoned, and cells, cranes
and chains stand as they were. The disregard mark of the drain record is the model's own field (log 13). -/
def Obligations.LinkUpAndLinkLoss : Prop :=
  (∀ s : State, LedsSound s → s.held = false →
     exec .linkUp s = .next { s with port := { s.port with link := .up }, leds := { s.leds with link := true } })
  ∧ (∀ s : State, s.held = false → s.port.link = .up →
       ∃ t, exec .linkLoss s = .next t
         ∧ t = { s with port := t.port, leds := t.leds, ree := t.ree, pool := t.pool, drain := t.drain, mgmt := t.mgmt }
         ∧ t.leds.link = false
         ∧ t.port.link = .down ∧ t.port.tx = none ∧ t.port.run = 0
         ∧ t.port.craneUpQ = [] ∧ t.port.controlQ = [] ∧ t.port.drainQ = [] ∧ t.port.generalUpQ = []
         ∧ t.port.counters.linkLoss = s.port.counters.linkLoss + 1
         ∧ t.port.counters.craneUp.flushed =
             s.port.counters.craneUp.flushed + BitVec.ofNat 32 s.port.craneUpQ.length
         ∧ t.port.counters.control.flushed =
             s.port.counters.control.flushed + BitVec.ofNat 32 s.port.controlQ.length
         ∧ t.port.counters.drain.flushed = s.port.counters.drain.flushed + BitVec.ofNat 32 s.port.drainQ.length
         ∧ t.port.counters.generalUp.flushed =
             s.port.counters.generalUp.flushed + BitVec.ofNat 32 s.port.generalUpQ.length
         ∧ (∀ f, s.port.tx = some (.craneUp, f) →
             t.port.counters.craneUp.aborted = s.port.counters.craneUp.aborted + 1)
         ∧ (∀ f, s.port.tx = some (.control, f) →
             t.port.counters.control.aborted = s.port.counters.control.aborted + 1)
         ∧ (∀ f, s.port.tx = some (.drain, f) → t.port.counters.drain.aborted = s.port.counters.drain.aborted + 1)
         ∧ (∀ f, s.port.tx = some (.generalUp, f) →
             t.port.counters.generalUp.aborted = s.port.counters.generalUp.aborted + 1)
         ∧ (s.port.tx = none →
             t.port.counters.craneUp.aborted = s.port.counters.craneUp.aborted
             ∧ t.port.counters.control.aborted = s.port.counters.control.aborted
             ∧ t.port.counters.drain.aborted = s.port.counters.drain.aborted
             ∧ t.port.counters.generalUp.aborted = s.port.counters.generalUp.aborted)
         ∧ (if s.drain.state = .closed then t.drain = { s.drain with disregard := false } ∧ t.pool = s.pool
             else t.drain.state = .closed ∧ t.drain.window = [] ∧ t.drain.staging = none ∧ t.drain.pause = none
               ∧ t.drain.lastOutcome = some .linkLoss ∧ t.drain.firstFailed = s.drain.firstFailed
               ∧ t.drain.counters = { s.drain.counters with linkLoss := s.drain.counters.linkLoss + 1 }
               ∧ (let v := s.drain.window.foldl (fun v w => batchReturn w.batch v) s
                  t.pool = v.pool ∧ t.ree = v.ree))
         ∧ (if s.mgmt.load = none then t.mgmt = s.mgmt
             else t.mgmt = { s.mgmt with
               load := none, staging := [], timer := none, abandoned := true
               counters := { s.mgmt.counters with abandonedLinkLoss := s.mgmt.counters.abandonedLinkLoss + 1 } }))

/-- The end of a frame (R150): its class's sent counter advances, and the arbiter grants the lowest-numbered class that
waits, but for a run of eight grants while class 3 or 4 waits, which grants class 3 before class 4; the run count
follows R149 (R148). Stated for a frame whose end is reported to no block. -/
def Obligations.FrameEndGrantsTheNext : Prop :=
  ∀ (c : TxClass) (f : TxFrame) (s : State), s.held = false → s.port.link = .up → s.port.tx = some (c, f) → c ≠ .drain →
    let p := { s.port.countClass c (fun k => { k with sent := k.sent + 1 }) with tx := none }
    let lower := p.drainQ ≠ [] ∨ p.generalUpQ ≠ []
    let granted := fun q : Port => exec .frameSent s = .next { s with port := q }
    (∀ g rest, p.craneUpQ = g :: rest → ¬(8 ≤ p.run ∧ lower) →
      ∃ n, granted { p with craneUpQ := rest, tx := some (.craneUp, g), run := n }
        ∧ (lower → n = p.run + 1) ∧ (¬lower → n = 0))
    ∧ (∀ g rest, p.craneUpQ = [] → p.controlQ = g :: rest → ¬(8 ≤ p.run ∧ lower) →
      ∃ n, granted { p with controlQ := rest, tx := some (.control, g), run := n }
        ∧ (lower → n = p.run + 1) ∧ (¬lower → n = 0))
    ∧ (∀ g rest, p.drainQ = g :: rest → (8 ≤ p.run ∨ p.craneUpQ = [] ∧ p.controlQ = []) →
      granted { p with drainQ := rest, tx := some (.drain, g), run := 0 })
    ∧ (∀ g rest, p.drainQ = [] → p.generalUpQ = g :: rest → (8 ≤ p.run ∨ p.craneUpQ = [] ∧ p.controlQ = []) →
      granted { p with generalUpQ := rest, tx := some (.generalUp, g), run := 0 })
    ∧ (p.craneUpQ = [] → p.controlQ = [] → p.drainQ = [] → p.generalUpQ = [] → granted p)

/-- An offer (R147): refused and counted on a DOWN link and on a full queue; otherwise the frame joins the tail of its
queue, and goes out at once when the transmitter is IDLE and nothing waits. Stated through the command that offers one
frame and nothing else: a GENERAL-UP block of a unit that a definition holds (R41). -/
def Obligations.OfferedFrameJoinsItsQueue : Prop :=
  ∀ (x : CellId) (unit : Addr) (payload : List Byte) (s : State), Dispatched s x → 1 ≤ payload.length →
    payload.length ≤ 1484 → (dirCrane s unit).isSome ∨ (dirReefer s unit).isSome →
    let d := (s.dispatched x).countCov fun k => { k with fromDefined := k.fromDefined + 1 }
    let f : TxFrame :=
      { dst := 0xFFFFFFFFFFFF#48, src := s.mgmtAddress, etherType := s.params.quayType, content := .general unit payload }
    let k := s.port.counters
    let g := k.generalUp
    let after := fun p : Port => exec (.generalUp x unit payload) s = .next { d with port := p }
    (s.port.link = .down →
      after { s.port with counters := { k with generalUp := { g with linkDown := g.linkDown + 1 } } })
    ∧ (s.port.link = .up → 256 ≤ s.port.generalUpQ.length →
      after { s.port with counters := { k with generalUp := { g with full := g.full + 1 } } })
    ∧ (s.port.link = .up → s.port.generalUpQ.length < 256 → s.port.tx ≠ none →
      after { s.port with
        generalUpQ := s.port.generalUpQ ++ [f]
        counters := { k with generalUp := { g with queued := g.queued + 1 } } })
    ∧ (s.port.link = .up → PortSound s.port → s.port.tx = none →
      after { s.port with
        tx := some (.generalUp, f), run := 0
        counters := { k with generalUp := { g with queued := g.queued + 1 } } })

/-! ### Crane links (spec/03, spec/04, spec/05) -/

/-- A station frame is discarded and counted when its subject names no defined crane or its source is not the crane's
station (R54). A collector frame from another source is discarded and counted; a check, pause, resume or stop finds no
drain in CLOSED and is discarded for a tag that differs from the open drain's (R128). -/
def Obligations.StationAndCollectorFramesAreChecked : Prop :=
  (∀ (h : RxHeader) (subject : Byte) (payload : List Byte) (s : State), Reaches s h → 1 ≤ payload.length →
     ((12 ≤ subject.toNat ∨ ∃ k, subject.toNat = k.val ∧ (s.crane k).defn = none) →
       let t := { s.received with clu := { s.clu with unknownSubject := s.clu.unknownSubject + 1 } }
       exec (.craneDown h subject payload) s = .next t ∧ exec (.craneResume h subject) s = .next t)
     ∧ ∀ k d, subject.toNat = k.val → (s.crane k).defn = some d → d.station ≠ h.src →
       let t := s.received.modCrane k fun c =>
         { c with counters := { c.counters with badSource := c.counters.badSource + 1 } }
       exec (.craneDown h subject payload) s = .next t ∧ exec (.craneResume h subject) s = .next t)
  ∧ (∀ (h : RxHeader) (tag : U16) (credit index : Byte) (crc : U16) (s : State), Reaches s h →
       let all := fun (f : DrainCounters → DrainCounters) (c : Instr) => exec c s = .next (s.received.countDrain f)
       (s.params.collector ≠ some h.src →
         ∀ c ∈ [Instr.drainOpen h tag credit, .drainCheck h tag index crc, .drainPause h tag, .drainResume h tag,
             .drainStop h tag], all (fun k => { k with badSource := k.badSource + 1 }) c)
       ∧ (s.params.collector = some h.src →
         ∀ c ∈ [Instr.drainCheck h tag index crc, .drainPause h tag, .drainResume h tag, .drainStop h tag],
           (s.drain.state = .closed → all (fun k => { k with noDrain := k.noDrain + 1 }) c)
           ∧ (s.drain.state ≠ .closed → s.drain.tag ≠ some tag →
             all (fun k => { k with wrongTag := k.wrongTag + 1 }) c)))

/-- An accepted CRANE-DOWN frame sets station-heard, and is discarded for its length, discarded in IDLE and LOST, or
queued for the cells the link runs through that are not DOWN; a full queue gives up its oldest entry (R54, R55). -/
def Obligations.CraneDownIsQueuedForItsCells : Prop :=
  ∀ (h : RxHeader) (subject : Byte) (payload : List Byte) (k : CraneId) (s : State), FromStation s h subject k →
    1 ≤ payload.length →
    let c := s.crane k
    let dests := (c.anchor.toList ++ (if c.state = .handover then c.target.toList else [])).filter fun x =>
      (s.cell x).unit ≠ .down
    let after := fun f : Crane → Crane =>
      exec (.craneDown h subject payload) s = .next ((s.stationHeard k).modCrane k f)
    (1020 < payload.length →
      after fun q => { q with counters := { q.counters with oversize := q.counters.oversize + 1 } })
    ∧ (payload.length ≤ 1020 → c.state = .idle ∨ c.state = .lost →
      after fun q => { q with counters := { q.counters with notLinked := q.counters.notLinked + 1 } })
    ∧ (payload.length ≤ 1020 → c.state = .linked ∨ c.state = .handover →
      (dests = [] →
        after fun q => { q with counters := { q.counters with noDestination := q.counters.noDestination + 1 } })
      ∧ (dests ≠ [] → c.queue.length < 16 →
        after fun q =>
          { q with
            queue := c.queue ++ [{ payload := payload, dests := dests }]
            counters := { q.counters with queued := q.counters.queued + 1 } })
      ∧ (dests ≠ [] → 16 ≤ c.queue.length →
        after fun q =>
          { q with
            queue := c.queue.drop 1 ++ [{ payload := payload, dests := dests }]
            counters := { q.counters with overflow := q.counters.overflow + 1, queued := q.counters.queued + 1 } }))

/-- An accepted CRANE-RESUME resumes a LOST crane whose miss counts are both 0: the lost reasons and pending holds are
emptied, the link stands on its anchor, and a CRANE-RESUMED notice names the anchor; the evaluation that follows may
start a handover (R69, R72). Any other is refused and counted, with a CRANE-RESUME-REFUSED notice of its cause, the state
and the miss counts (R70, R72). Each notice goes to the controller address, or is suppressed, and to the crane's station
(R73, R151, R152). What follows is taken at the end of the step (log 9). -/
def Obligations.CraneResumeNeedsBothSidesHeard : Prop :=
  ∀ (h : RxHeader) (subject : Byte) (k : CraneId) (s : State), FromStation s h subject k → EventsSettled s →
    let c := s.crane k
    ∃ t, exec (.craneResume h subject) s = .next t ∧ LinkOnly s t
      ∧ (∀ j, j ≠ k → t.crane j = s.crane j)
      ∧ (t.crane k).stationHeard = true
      ∧ (t.crane k).counters.stationFrames = c.counters.stationFrames + 1
      ∧ (c.state = .lost → c.craneMiss = 0 → c.stationMiss = 0 →
          ((t.crane k).state = .linked ∨ (t.crane k).state = .handover)
          ∧ (t.crane k).lost = {} ∧ (t.crane k).holds = [] ∧ (t.crane k).anchor = c.anchor
          ∧ (t.crane k).shadow = c.shadow ∧ (t.crane k).window = c.window
          ∧ (t.crane k).supervision = c.supervision
          ∧ (t.crane k).counters.holdsWithdrawn = c.counters.holdsWithdrawn + BitVec.ofNat 32 c.holds.length
          ∧ (t.crane k).counters.resumes = c.counters.resumes + 1
          ∧ ∃ v, t = settle (evaluate k false v) ∧ v.port = s.received.craneNoticed k (.craneResumed k c.anchor)
            ∧ v = { (s.stationHeard k).modCrane k (fun q =>
                { q with
                  state := .linked, lost := {}, holds := []
                  counters := { q.counters with
                    holdsWithdrawn := q.counters.holdsWithdrawn + BitVec.ofNat 32 c.holds.length
                    resumes := q.counters.resumes + 1 } }) with port := v.port })
      ∧ (c.state ≠ .lost ∨ c.craneMiss ≠ 0 ∨ c.stationMiss ≠ 0 →
          t.cov = s.cov
          ∧ t.port = s.received.craneNoticed k
            (.craneResumeRefused k (if c.state = .lost then .stillSilent else .notLost) c.state c.craneMiss c.stationMiss)
          ∧ t.crane k =
            { c with
              stationHeard := true
              counters := { c.counters with
                stationFrames := c.counters.stationFrames + 1, resumeRefused := c.counters.resumeRefused + 1 } })

/-- First contact of an IDLE crane (R49): through a usable cell with room the crane is LINKED on it, both sides heard, its
timer one interval from expiry and its window at the frame's number, its frame is forwarded and its position word taken
(which may start a handover); through any other cell the contact is refused and counted with a CRANE-NOROOM notice, and
the crane stays as it was. A block from a radio address with no CRANE entry is discarded and counted (R48). To forward a
frame is to offer it to the station in the crane-up queue, and to count it when it is taken (R51). To take a position
word is to take its band and boom, to bring the shadow set and the cells' shadow counts to the shadow list of a lowered
boom's band by claims, each of which sets the change flag when plain usability changes and hands on one usability change
when usability for anyone does, the cells that leave before those that enter (R31, R33, R34), and to evaluate a LINKED
crane when the band is known or either has changed (R52, R75); a hold-off that a load has raised is used from this report on
(R47). What follows is taken at the end of the step (log 9). -/
def Obligations.FirstContactLinksTheCrane : Prop :=
  (∀ (x : CellId) (radio : Addr) (seq : U16) (payload : List Byte) (k : CraneId) (d : CraneDef) (s : State),
     Dispatched s x → EventsSettled s → CranesSound s → 2 ≤ payload.length → dirCrane s radio = some k →
     (s.crane k).state = .idle → (s.crane k).defn = some d →
     let room := (s.cell x).reserved + d.reservation ≤ (s.cell x).budget
     ∃ t, exec (.craneUp x radio seq payload) s = .next t ∧ LinkOnly (s.dispatched x) t
       ∧ (usable s x → room →
           ((t.crane k).state = .linked ∨ (t.crane k).state = .handover)
           ∧ (t.crane k).anchor = some x ∧ (t.crane k).window = some { base := seq, marks := 1#64 }
           ∧ (t.crane k).craneHeard = true ∧ (t.crane k).stationHeard = true
           ∧ (t.crane k).craneMiss = 0 ∧ (t.crane k).stationMiss = 0
           ∧ (t.crane k).supervision = some (d.interval * 4)
           ∧ ∃ v, t = settle (takePosition k (positionWord payload) (forwardUp k seq payload v))
             ∧ v = (((s.dispatched x).modCell x fun r => { r with reserved := r.reserved + d.reservation }).modCrane k
               fun c =>
                 { c with
                   state := .linked, anchor := some x, craneHeard := true, stationHeard := true, craneMiss := 0
                   stationMiss := 0, supervision := some (d.interval * 4)
                   window := some { base := seq, marks := 1#64 } }))
       ∧ (¬(usable s x ∧ room) →
           t.crane k =
             { s.crane k with
               counters := { (s.crane k).counters with
                 firstContactRefused := (s.crane k).counters.firstContactRefused + 1 } }
           ∧ (t.cell x).reserved = (s.cell x).reserved
           ∧ t.port = s.craneNoticed k (.craneNoRoom k (if usable s x then .noRoom else .notUsable) x)))
  ∧ (∀ (x : CellId) (radio : Addr) (seq : U16) (payload : List Byte) (s : State), Dispatched s x → 2 ≤ payload.length →
       dirCrane s radio = none →
       exec (.craneUp x radio seq payload) s =
         .next { s.dispatched x with clu := { s.clu with unknownCrane := s.clu.unknownCrane + 1 } })
  ∧ (∀ (k : CraneId) (seq : U16) (payload : List Byte) (d : CraneDef) (s : State), (s.crane k).defn = some d →
       let o := s.port.offer .craneUp
         { dst := d.station, src := s.mgmtAddress, etherType := s.params.quayType, content := .craneUp k seq payload }
       forwardUp k seq payload s = { s.modCrane k (fun c =>
         { c with counters := { c.counters with forwarded := c.counters.forwarded + (if o.2 then 1 else 0) } }) with
           port := o.1 })
  ∧ (∀ (k : CraneId) (word : U16) (s : State),
       let c := s.crane k
       let band := word.toNat / 512
       let boom := word.toNat / 128 % 4
       ∃ u, (u.crane k).band.map Fin.val = (if band < 64 then some band else none)
         ∧ (u.crane k).boom = (if boom = 0 then .raised else if boom = 1 then .lowered else .unknown)
         ∧ takePosition k word s =
           (if band < 64 ∨ (u.crane k).band ≠ c.band ∨ (u.crane k).boom ≠ c.boom then evaluate k (band < 64) u else u)
         ∧ ((u.crane k).band = c.band → (u.crane k).boom = c.boom →
           u = s.modCrane k fun q => { q with oldHoldOff := if q.state = .lost then q.oldHoldOff else none })
         ∧ u = { s with
             cov := { s.cov with cells := u.cov.cells }, clu := { s.clu with cranes := u.clu.cranes }, events := u.events }
         ∧ (∀ y, u.cell y = { s.cell y with shadowCount := (u.cell y).shadowCount, changed := (u.cell y).changed }
           ∧ ((u.cell y).changed = true ↔ (s.cell y).changed = true ∨ ¬(Fit s y ↔ Fit u y)))
         ∧ (let left := allCells.filter fun y => decide (y ∈ c.shadow ∧ y ∉ (u.crane k).shadow)
            let entered := allCells.filter fun y => decide (y ∉ c.shadow ∧ y ∈ (u.crane k).shadow)
            ∃ told : CellId → Bool, (∀ y, told y = true ↔ FitDiffers s u y)
              ∧ u.events = s.events ++ ((left ++ entered).filter told).map CluEvent.usability)
         ∧ (∀ j, j ≠ k → u.crane j = s.crane j)
         ∧ u.crane k =
           { c with
             band := (u.crane k).band, boom := (u.crane k).boom, shadow := (u.crane k).shadow
             oldHoldOff := if c.state = .lost then c.oldHoldOff else none }
         ∧ (¬((u.crane k).band = c.band ∧ (u.crane k).boom = c.boom) → ∀ y : CellId,
             (y ∈ (u.crane k).shadow ↔
               boom = 1 ∧ ∃ b, (u.crane k).band = some b ∧ y ∈ (s.bandEntry b).shadow)
             ∧ (u.cell y).shadowCount =
               (if y ∈ c.shadow ∧ y ∉ (u.crane k).shadow then (s.cell y).shadowCount - 1
                else if y ∉ c.shadow ∧ y ∈ (u.crane k).shadow then (s.cell y).shadowCount + 1
                else (s.cell y).shadowCount)))

/-- A CRANE-UP block of a live crane is heard and counted, and its sequence number is judged against the window of the
64 numbers at and below the base (R48, R50): a newer number moves the base, an unmarked one in the window is marked, a
marked one is a duplicate, an older one is stale. An accepted frame is forwarded and its position word taken, and for
every block the cell of arrival is judged last; no frame whose number is already marked is forwarded: the crane-up queue
and the forwarded counter stand. A block through the target completes a handover: the old anchor is released, the target
is the anchor, pending notice blocks are withdrawn and HANDOVER-DONE tells it (R83); an accepted one of a LINKED crane
through another ranked cell that is usable for it and has room moves the anchor there when the feature is on (R87); any
other accepted one is counted as stray. What follows is taken at the end of the step (log 9). -/
def Obligations.LiveBlockIsJudgedByTheWindow : Prop :=
  (∀ (x : CellId) (radio : Addr) (seq : U16) (payload : List Byte) (k : CraneId) (w : Window) (s : State),
     Dispatched s x → 2 ≤ payload.length → dirCrane s radio = some k → (s.crane k).window = some w →
     (s.crane k).state = .linked ∨ (s.crane k).state = .handover ∨ (s.crane k).state = .lost →
     let newer := (seq - w.base).toNat
     let older := (w.base - seq).toNat
     let isNewer := 1 ≤ newer ∧ newer ≤ 32767
     let n := (s.crane k).counters
     ∃ t v, exec (.craneUp x radio seq payload) s = .next t ∧ LinkOnly (s.dispatched x) t
       ∧ (t.crane k).craneHeard = true ∧ (t.crane k).counters.uplinkBlocks = n.uplinkBlocks + 1
       ∧ (t.crane k).window = some v
       ∧ (isNewer → v.base = seq ∧ (t.crane k).counters.duplicates = n.duplicates ∧ (t.crane k).counters.stale = n.stale
           ∧ ∀ i, i < 64 → v.marks.getLsbD i = (decide (i = 0) || decide (newer ≤ i) && w.marks.getLsbD (i - newer)))
       ∧ (¬isNewer → older < 64 → w.marks.getLsbD older = false →
           v.base = w.base ∧ (t.crane k).counters.duplicates = n.duplicates ∧ (t.crane k).counters.stale = n.stale
           ∧ ∀ i, i < 64 → v.marks.getLsbD i = (decide (i = older) || w.marks.getLsbD i))
       ∧ (¬isNewer → older < 64 → w.marks.getLsbD older = true →
           v = w ∧ (t.crane k).counters.duplicates = n.duplicates + 1 ∧ (t.crane k).counters.stale = n.stale)
       ∧ (¬isNewer → 64 ≤ older →
           v = w ∧ (t.crane k).counters.duplicates = n.duplicates ∧ (t.crane k).counters.stale = n.stale + 1)
       ∧ (let heard := fun f : Crane → Crane => (s.dispatched x).modCrane k fun c =>
            f { c with craneHeard := true, counters := { c.counters with uplinkBlocks := c.counters.uplinkBlocks + 1 } }
          (isNewer ∨ older < 64 ∧ w.marks.getLsbD older = false →
            t = settle (arrival k x true (takePosition k (positionWord payload)
              (forwardUp k seq payload (heard fun c => { c with window := some v })))))
          ∧ (¬isNewer → older < 64 → w.marks.getLsbD older = true →
            t = settle (arrival k x false
              (heard fun c => { c with counters := { c.counters with duplicates := c.counters.duplicates + 1 } })))
          ∧ (¬isNewer → 64 ≤ older →
            t = settle (arrival k x false
              (heard fun c => { c with counters := { c.counters with stale := c.counters.stale + 1 } })))))
  ∧ (∀ (x : CellId) (radio : Addr) (seq : U16) (payload : List Byte) (k : CraneId) (w : Window) (s : State),
       Dispatched s x → PortSound s.port → 2 ≤ payload.length → dirCrane s radio = some k →
       (s.crane k).window = some w →
       (s.crane k).state = .linked ∨ (s.crane k).state = .handover ∨ (s.crane k).state = .lost →
       (w.base - seq).toNat < 64 → w.marks.getLsbD (w.base - seq).toNat = true →
       ∃ t, exec (.craneUp x radio seq payload) s = .next t
         ∧ t.port.craneUpQ = s.port.craneUpQ
         ∧ (∀ f, t.port.tx = some (.craneUp, f) → s.port.tx = some (.craneUp, f))
         ∧ (t.crane k).counters.forwarded = (s.crane k).counters.forwarded)
  ∧ (∀ (k : CraneId) (x a : CellId) (accepted : Bool) (s : State), (s.crane k).anchor = some a →
       let c := s.crane k
       let n := c.counters
       let after := fun t : State => arrival k x accepted s = t
       let stray := if accepted then s.modCrane k fun q => { q with counters := { n with stray := n.stray + 1 } } else s
       let released := fun (v : State) (y : CellId) => v.cell y =
         { s.cell y with reserved :=
             if y = a then (s.cell y).reserved - c.reservation
             else if y = x ∧ c.state = .linked then (s.cell y).reserved + c.reservation else (s.cell y).reserved }
       let moved := fun (v : State) (cause : DoneCause) => after v
         ∧ v = { s with
             port := s.craneNoticed k (.handoverDone k cause (some a) (some x) c.band)
             cov := { s.cov with cells := v.cov.cells }, clu := { s.clu with cranes := v.clu.cranes, notices := v.clu.notices }
             events := s.events ++ [.room a] }
         ∧ (∀ y, released v y) ∧ ∀ j, j ≠ k → v.crane j = s.crane j
       (c.state ≠ .linked → c.state ≠ .handover → after s)
       ∧ (c.state = .handover → ∀ b, c.target = some b →
         (x = b → ∃ v, moved v .planned
           ∧ v.crane k =
             { c with
               anchor := some x, target := none, countdown := 0, state := .linked
               counters := { n with
                 done := n.done + 1
                 noticesWithdrawn := n.noticesWithdrawn
                   + BitVec.ofNat 32 (s.clu.notices.filter fun m => decide (m.crane = k)).length } }
           ∧ v.clu.notices = s.clu.notices.filter fun m => decide (m.crane ≠ k))
         ∧ (x ≠ b → x = a → after s) ∧ (x ≠ b → x ≠ a → after stray))
       ∧ (c.state = .linked → x = a → after s)
       ∧ (c.state = .linked → x ≠ a →
         let leads := accepted = true ∧ s.params.features.craneLed = true ∧ x ∈ s.rankedCells k ∧ FitFor s k x
         (leads → RoomFor s k x → ∃ v, moved v .craneLed
           ∧ v.crane k =
             { c with anchor := some x, deferred := false, progress := 0, counters := { n with craneLed := n.craneLed + 1 } }
           ∧ v.clu.notices = s.clu.notices)
         ∧ (leads → ¬RoomFor s k x → after { stray with cov := { s.cov with counters :=
             { s.cov.counters with reserveRefusals := s.cov.counters.reserveRefusals + 1 } } })
         ∧ (¬leads → after stray)))

/-- A supervision expiry of a LINKED or HANDOVER crane (R63): first the keep decision, which with KEEP-FRAMES enabled, the
station heard and no copy sent since the last expiry makes the pending KEEP set the cells of the link that are not DOWN, and
counts those it replaces (R58); then the heard flags decide the miss counts, with their ceiling of 15, and are cleared.
Below the loss limit the crane stays in its state and nothing else changes, at or above it the crane is LOST for the
silent sides, with its handover abandoned, its downlink flushed and its anchor, window and shadow set kept (R65, R66). It
is then held at its anchor and abandoned target unless DOWN and at the ranked cells usable for it, and a CRANE-LOST
notice names the cause, anchor, band, boom and those cells (R66, R72), after a HANDOVER-FAILED notice of cause LOST and no
bar for an abandoned handover (R65, R91). A
supervision expiry of a LOST crane queues no notice and refills the hold pending set: the anchor unless it is DOWN and
the ranked cells usable for the crane, each with the stamp of the refill (R64, R67). A stopped timer has no expiry
(R61). An expiry command is taken whenever its timer runs (log 2). What a loss hands on is taken at the end of the step,
first in, first out (log 9). -/
def Obligations.SupervisionExpiryCountsMisses : Prop :=
  (∀ (k : CraneId) (d : CraneDef) (s : State), s.held = false → (s.crane k).defn = some d →
     (s.crane k).state = .linked ∨ (s.crane k).state = .handover → CraneSound (s.crane k) → EventsSettled s →
     let c := s.crane k
     let craneMiss := if c.craneHeard then 0 else min (c.craneMiss + 1) 15
     let stationMiss := if c.stationHeard then 0 else min (c.stationMiss + 1) 15
     let decided := s.params.features.keepFrames = true ∧ c.stationHeard = true ∧ c.downlinkSent = false
     let link := (c.anchor.toList ++ (if c.state = .handover then c.target.toList else [])).filter fun x =>
       decide ((s.cell x).unit ≠ .down)
     ∃ t, exec (.supervisionTimerExpiry k) s = .next t ∧ LinkOnly s t
       ∧ (t.crane k).counters.keepReplaced =
           c.counters.keepReplaced + (if decided then BitVec.ofNat 32 c.keeps.length else 0)
       ∧ (t.crane k).craneMiss = craneMiss ∧ (t.crane k).stationMiss = stationMiss
       ∧ (t.crane k).craneHeard = false ∧ (t.crane k).stationHeard = false ∧ (t.crane k).downlinkSent = false
       ∧ (t.crane k).supervision = some (d.interval * 4)
       ∧ (t.crane k).counters.craneMisses = c.counters.craneMisses + (if c.craneHeard then 0 else 1)
       ∧ (t.crane k).counters.stationMisses = c.counters.stationMisses + (if c.stationHeard then 0 else 1)
       ∧ (craneMiss < d.lossLimit → stationMiss < d.lossLimit →
           t = s.modCrane k (fun _ => t.crane k)
           ∧ t.crane k =
             { c with
               craneHeard := false, stationHeard := false, downlinkSent := false
               craneMiss := craneMiss, stationMiss := stationMiss, supervision := some (d.interval * 4)
               keeps := if decided then link.map fun x => (x, s.time.ms) else c.keeps
               counters := (t.crane k).counters })
       ∧ (d.lossLimit ≤ craneMiss ∨ d.lossLimit ≤ stationMiss →
           (t.crane k).state = .lost ∧ (t.crane k).anchor = c.anchor ∧ (t.crane k).target = none
           ∧ (t.crane k).lost =
             { craneSilent := d.lossLimit ≤ craneMiss, stationSilent := d.lossLimit ≤ stationMiss }
           ∧ (t.crane k).queue = [] ∧ (t.crane k).keeps = [] ∧ (t.crane k).window = c.window
           ∧ (t.crane k).shadow = c.shadow ∧ (t.crane k).counters.losses = c.counters.losses + 1
           ∧ ∃ v cells, t = settle v ∧ (v.crane k).holds = cells.map (fun x => (x, s.time.ms))
             ∧ cells.Pairwise (fun x y => x.val < y.val)
             ∧ (∀ x, x ∈ cells ↔
               ((c.anchor = some x ∨ c.target = some x) ∧ (s.cell x).unit ≠ .down
                 ∨ x ∈ s.rankedCells k ∧ FitFor s k x))
             ∧ (let p := match c.target with
                  | none => s.port
                  | some x => s.craneNoticed k (.handoverFailed k .lost c.anchor (some x) none)
                v.port = State.craneNoticed { s with port := p } k (.craneLost k
                  (if craneMiss < d.lossLimit then .stationSilent else if stationMiss < d.lossLimit then .craneSilent
                    else .bothSilent)
                  c.anchor c.band c.boom cells))))
  ∧ (∀ (k : CraneId) (d : CraneDef) (s : State), s.held = false →
       ((s.crane k).state = .vacant ∨ (s.crane k).state = .idle → exec (.supervisionTimerExpiry k) s = .next s)
       ∧ ((s.crane k).state = .lost → (s.crane k).defn = some d →
         let c := s.crane k
         let craneMiss := if c.craneHeard then 0 else min (c.craneMiss + 1) 15
         let stationMiss := if c.stationHeard then 0 else min (c.stationMiss + 1) 15
         ∃ t, exec (.supervisionTimerExpiry k) s = .next t
           ∧ t = s.modCrane k (fun _ => t.crane k)
           ∧ (t.crane k).state = .lost
           ∧ (t.crane k).craneMiss = craneMiss ∧ (t.crane k).stationMiss = stationMiss
           ∧ (t.crane k).lost =
             { craneSilent := c.lost.craneSilent || decide (d.lossLimit ≤ craneMiss)
               stationSilent := c.lost.stationSilent || decide (d.lossLimit ≤ stationMiss) }
           ∧ (∀ x stamp, (x, stamp) ∈ (t.crane k).holds ↔
               stamp = s.time.ms
               ∧ (c.anchor = some x ∧ (s.cell x).unit ≠ .down
                 ∨ (∃ b, c.band = some b ∧ x ∈ (s.bandEntry b).ranked) ∧ usableFor s k x))))

/-- A handover whose countdown stands at 0 fails with TIMEOUT (R82, R85), as one does for any other cause of R84: the
target's reservation is released, the target leaves the pending sets, the crane's pending notice blocks are withdrawn, the
target becomes none and is barred for the handover bar, a HANDOVER-FAILED notice tells it (R91), and the failure is
counted; the evaluation that follows may start another handover. At any other countdown nothing is due (log 11). A
failed-target bar whose countdown stands at 0 becomes none; a bar still running, and none, stand (R86). Evaluation of a
LINKED crane (R76-R78): nothing when the anchor is usable for it and the band unknown; STAY when no candidate stands ahead
of a usable ranked anchor; HOLD-OFF when one does, a start being attempted at the hold-off, which after a raise is the old
one until the next position report (R47); otherwise a start is attempted among all candidates. A start claims room of one
candidate at a time and makes the first that grants it the target, with notice blocks to the anchor unless DOWN and to the
target (R80, R81); when none grants it the crane is deferred, told of once (R79, R91). What is handed to the Crane Link
Unit is taken first in, first out, and then what that caused, until nothing is left (log 9): at a usability change it
visits the cranes in index order, where a HANDOVER crane whose target is not usable for it fails with TARGET-UNUSABLE and
a LINKED one is evaluated; a notice that room has grown evaluates the LINKED cranes that are deferred; a map change brings
the shadow sets of the live cranes to the new map, and then evaluates every LINKED crane (R53, R75, R84). -/
def Obligations.HandoverCountdownAndBarEnd : Prop :=
  (∀ (k : CraneId) (x : CellId) (s : State), s.held = false → EventsSettled s →
     ((s.crane k).state ≠ .handover ∨ (s.crane k).countdown ≠ 0 → exec (.handoverCountdownExpiry k) s = .next s)
     ∧ ((s.crane k).state = .handover → (s.crane k).countdown = 0 → (s.crane k).target = some x →
       ∃ t, exec (.handoverCountdownExpiry k) s = .next t ∧ LinkOnly s t
         ∧ ((t.crane k).state = .linked ∧ (t.crane k).target = none
           ∨ (t.crane k).state = .handover ∧ (t.crane k).target ≠ none
             ∧ (s.params.handoverBar ≠ 0 → (t.crane k).target ≠ some x))
         ∧ (t.crane k).anchor = (s.crane k).anchor
         ∧ (t.crane k).bar = (if s.params.handoverBar = 0 then none else some (x, s.params.handoverBar))
         ∧ (t.crane k).counters.failures = (s.crane k).counters.failures + 1
         ∧ ∃ v, t = settle (evaluate k false v) ∧ HandoverFailed k .timeout x s v))
  ∧ (∀ (k : CraneId) (cause : FailCause) (x : CellId) (s : State), (s.crane k).target = some x →
       ∃ v, failHandover k cause s = evaluate k false v ∧ HandoverFailed k cause x s v)
  ∧ (∀ (k : CraneId) (s : State), s.held = false →
       (∀ x, (s.crane k).bar = some (x, 0) →
         exec (.failedTargetBarExpiry k) s = .next (s.modCrane k fun c => { c with bar := none }))
       ∧ ((s.crane k).bar = none ∨ (∃ x n, (s.crane k).bar = some (x, n + 1)) →
         exec (.failedTargetBarExpiry k) s = .next s))
  ∧ (∀ (k : CraneId) (a : CellId) (d : CraneDef) (report : Bool) (s : State), (s.crane k).anchor = some a →
       (s.crane k).defn = some d →
       let c := s.crane k
       let after := fun t : State => evaluate k report s = t
       let listed := s.rankedCells k
       ∃ open_ : CellId → Bool,
         (∀ x, open_ x = true ↔ FitFor s k x ∧ x ≠ a ∧ ∀ n, c.bar ≠ some (x, n))
         ∧ (c.state ≠ .linked → after s)
         ∧ (c.state = .linked →
           let ahead := (listed.takeWhile fun x => decide (x ≠ a)).filter open_
           let limit := c.oldHoldOff.getD d.holdOff
           let n := if report = true ∧ c.progress < limit then c.progress + 1 else c.progress
           let counted := s.modCrane k fun q => { q with progress := n }
           (FitFor s k a → c.band = none → after s)
           ∧ (FitFor s k a → a ∈ listed → ahead = [] →
             after (s.modCrane k fun q => { q with progress := 0, deferred := false }))
           ∧ (FitFor s k a → a ∈ listed → ahead ≠ [] → n < limit →
             after (counted.modCrane k fun q => { q with deferred := false }))
           ∧ (FitFor s k a → a ∈ listed → ahead ≠ [] → limit ≤ n → after (attemptStart k ahead [] counted))
           ∧ (¬FitFor s k a ∨ c.band ≠ none ∧ a ∉ listed → after (attemptStart k (listed.filter open_) [] s))))
  ∧ (∀ (k : CraneId) (a : CellId) (cells : List CellId) (s : State), (s.crane k).anchor = some a →
       let c := s.crane k
       let refusals := fun n : Nat =>
         { s.cov.counters with reserveRefusals := s.cov.counters.reserveRefusals + BitVec.ofNat 32 n }
       (∀ front x back, cells = front ++ x :: back → (∀ y ∈ front, ¬RoomFor s k y) → RoomFor s k x →
         let block := fun y : CellId =>
           ({ crane := k, cell := y, anchor := a, target := x, stamp := s.time.ms } : PendingNotice)
         ∃ t, attemptStart k cells [] s = t
           ∧ t = { s with
               cov := { s.cov with cells := t.cov.cells, counters := refusals front.length }
               clu := { s.clu with
                 cranes := t.clu.cranes
                 notices := s.clu.notices ++ (if (s.cell a).unit = .down then [] else [block a]) ++ [block x] } }
           ∧ (∀ y, t.cell y =
               { s.cell y with reserved := (s.cell y).reserved + (if y = x then c.reservation else 0) })
           ∧ (∀ j, j ≠ k → t.crane j = s.crane j)
           ∧ t.crane k =
             { c with
               target := some x, countdown := s.params.handoverLimit, deferred := false, progress := 0, state := .handover
               counters := { c.counters with starts := c.counters.starts + 1 } })
       ∧ ((∀ x ∈ cells, ¬RoomFor s k x) →
         let refused := { s with cov := { s.cov with counters := refusals cells.length } }
         (c.deferred = true → attemptStart k cells [] s = refused)
         ∧ (c.deferred = false → ∃ usable : Bool, (usable = true ↔ FitFor s k a)
           ∧ attemptStart k cells [] s =
             { refused.modCrane k (fun q =>
                 { q with deferred := true, counters := { q.counters with deferrals := q.counters.deferrals + 1 } }) with
               port := s.craneNoticed k (.handoverDeferred k (if cells = [] then .noCandidate else .noRoom)
                 (some a) c.band usable cells) })))
  ∧ (∀ s : State,
       (s.events = [] → settle s = s)
       ∧ settle s = settle (s.events.foldl takeCluEvent { s with events := [] })
       ∧ (settle s).events = [])
  ∧ (∀ (x : CellId) (s : State),
       ∃ visit : State → CraneId → State,
         takeCluEvent s (.usability x) = [0, 1, 2, 3, 4, 5, 6, 7, 8, 9, 10, 11].foldl visit s
         ∧ ∀ (t : State) (k : CraneId),
           ((t.crane k).state = .linked → visit t k = evaluate k false t)
           ∧ ((t.crane k).state = .handover → ∀ y, (t.crane k).target = some y →
             (FitFor t k y → visit t k = t) ∧ (¬FitFor t k y → visit t k = failHandover k .targetUnusable t))
           ∧ ((t.crane k).state ≠ .linked → (t.crane k).state ≠ .handover → visit t k = t))
  ∧ (∀ (x : CellId) (s : State),
       takeCluEvent s (.room x) =
         [0, 1, 2, 3, 4, 5, 6, 7, 8, 9, 10, 11].foldl (fun t k =>
           if (t.crane k).state = .linked ∧ (t.crane k).deferred = true then evaluate k false t else t) s)
  ∧ (∀ s : State,
       ∃ u, takeCluEvent s .mapChange =
           [0, 1, 2, 3, 4, 5, 6, 7, 8, 9, 10, 11].foldl (fun t k => evaluate k false t) u
         ∧ ∀ k, (u.crane k).band = (s.crane k).band ∧ (u.crane k).boom = (s.crane k).boom
           ∧ ((s.crane k).state = .linked ∨ (s.crane k).state = .handover ∨ (s.crane k).state = .lost → ∀ y : CellId,
             y ∈ (u.crane k).shadow ↔
               (s.crane k).boom = .lowered ∧ ∃ b, (s.crane k).band = some b ∧ y ∈ (s.bandEntry b).shadow))

/-! ### Chains and cells (spec/01, spec/02) -/

/-- In DISABLED and BROKEN an expiry of the cycle timer hands the Coverage Unit a cycle-end event and sends no opener;
the timer runs on with the cycle period in force (R2, R10, R35): the flagged cells of the chain are reported to the
controller in one CELL-CHANGE notice of cause NO-CYCLE with each cell's number, unit state, usability and shadow count in
ascending number, and their flags are cleared when it is taken or when no controller address is set; a refused notice is
counted as deferred (R35, R152). The same is done at a cycle-end event of any other cause: a turn, a missed turn, a chain's
departure. -/
def Obligations.CycleTimerOfAnIdleChainReportsItsCells : Prop :=
  (∀ (c : Chain) (s : State), s.held = false → (s.chain c).state = .disabled ∨ (s.chain c).state = .broken →
    let s1 := s.modChain c fun r => { r with cycleTimer := s.params.cyclePeriod }
    ∃ t, exec (.cycleTimerExpiry c) s = .next t ∧ CellsReported c .noCycle s1 t
      ∧ t = { s1 with port := t.port, cov := { s.cov with cells := t.cov.cells, counters := t.cov.counters } })
  ∧ ∀ (c : Chain) (cause : CycleEndCause) (s : State), CellsReported c cause s (cycleEnd c cause s)

/-- A cycle is sent at an expiry with no turn awaited, and after a missed turn that breaks nothing (R4, R10, R11, R15):
the cycle number advances by 1 modulo 256 and is awaited; in ROLLCALL the downlink is empty and every grant zero, and a
missed turn is a turn judged, on which no cell was heard (R1, R4; by inference, log 30); in RUNNING the blocks keep within
the effective capacity and the grants are the cells' reserved and unreserved slots. The downlink of RUNNING (R12) is built
of the pending HOLD blocks by crane and cell (R68), the pending HANDOVER-NOTICE blocks oldest first (R81), the crane round
robin (R13) and the general frames whose cell still carries them (R14), ending at the first block that does not fit; what
is taken leaves its set, list or queue and is counted. A turn of the round robin goes to the first crane after the pointer
that offers a block; a crane offers its KEEP block, else a copy of its oldest entry, for the anchor first (R56, R59). The
Crane Link Unit is then told of the opener (R82; log 10): every failed-target bar on a cell of the chain goes down by 1
and ends at 0 (R86), and then, in index order, the countdown of every HANDOVER crane whose target is on the chain goes
down by 1 and its handover fails with TIMEOUT at 0 (R82). The cycle on the line is held in a field of the model's own (log
12); a judged turn is no longer awaited (log 25). What the opener hands on is taken at the end of the step, first in, first
out (log 9). -/
def Obligations.CycleTimerSendsACycle : Prop :=
  (∀ (c : Chain) (s : State), s.held = false →
    let r := s.chain c
    r.state = .rollcall ∧ (r.awaited = none ∨ r.rollcallTurns < 31)
      ∨ r.state = .running ∧ (r.awaited = none ∨ r.missed + 1 < s.params.breakLimit) →
    ∃ t image, exec (.cycleTimerExpiry c) s = .next t ∧ ChainOnly s t ∧ (∀ d, d ≠ c → t.chain d = s.chain d)
      ∧ (t.chain c).state = r.state ∧ (t.chain c).cycle = r.cycle + 1 ∧ (t.chain c).awaited = some (r.cycle + 1)
      ∧ (t.chain c).cycleTimer = s.params.cyclePeriod
      ∧ (t.chain c).counters.openersSent = r.counters.openersSent + 1
      ∧ (t.chain c).counters.missedTurns = r.counters.missedTurns + (if r.awaited = none then 0 else 1)
      ∧ (r.state = .running → (t.chain c).missed = r.missed + (if r.awaited = none then 0 else 1))
      ∧ (r.state = .rollcall → r.awaited ≠ none →
          (t.chain c).rollcallTurns = r.rollcallTurns + 1 ∧ (t.chain c).goodTurns = 0 ∧ (t.chain c).heard = [])
      ∧ (r.state = .running ∨ r.awaited = none →
          (t.chain c).rollcallTurns = r.rollcallTurns ∧ (t.chain c).goodTurns = r.goodTurns ∧ (t.chain c).heard = r.heard)
      ∧ (t.chain c).line = some image ∧ image.cycle = r.cycle + 1 ∧ image.grants.length = 8
      ∧ (r.state = .rollcall →
          image.slots = 0 ∧ image.blocks = [] ∧ ∀ g ∈ image.grants, g = (0, 0))
      ∧ (r.state = .running →
          image.slots = (image.blocks.map DownBlock.slots).sum
          ∧ image.slots ≤ min s.params.downlinkCapacity (32 * s.params.cyclePeriod)
          ∧ ((∀ g ∈ r.generalQ, chainOf g.cell = c) → ∀ b ∈ image.blocks, chainOf b.cell = c)
          ∧ (RingSound s → ∀ x, chainOf x = c →
              image.grants[(s.cell x).position.val]? =
                some (if (s.cell x).fitted then ((s.cell x).reserved, (s.cell x).budget - (s.cell x).reserved)
                  else (0, 0)))
          ∧ (let cap := min s.params.downlinkCapacity (32 * s.params.cyclePeriod)
             let holds := allCranes.flatMap fun k =>
               ((s.crane k).holds.filter fun e => decide (chainOf e.1 = c)).map fun e => (k, e)
             let notices := s.clu.notices.filter fun n => decide (chainOf n.cell = c)
             let ahead := holds.map (fun p => DownBlock.hold p.2.1 (s.crane p.1).radio (s.crane p.1).lost p.2.2)
               ++ notices.map fun n => DownBlock.handoverNotice n.cell (s.crane n.crane).radio n.anchor n.target n.stamp
             let frame := fun g : GeneralDown => DownBlock.generalDown g.cell g.unit g.payload
             let carried := fun g : GeneralDown =>
               decide ((s.cell g.cell).unit = .up ∨ (s.cell g.cell).unit = .fading)
             ∃ (u w : Build) (v : State) (n : Nat), t = settle (openerSent c v)
               ∧ u.blocks = ahead.take cap ∧ u.used = u.blocks.length ∧ u.full = decide (cap < ahead.length)
               ∧ (∀ k, u.st.crane k =
                   let taken := (holds.take cap).filter fun p => decide (p.1 = k)
                   { s.crane k with
                     holds := (s.crane k).holds.filter fun e => !(taken.any fun p => p.2.1 == e.1)
                     counters := { (s.crane k).counters with
                       holdsSent := (s.crane k).counters.holdsSent + BitVec.ofNat 32 taken.length } })
               ∧ u.st.clu.notices = (notices.take (cap - holds.length)).foldl List.erase s.clu.notices
               ∧ (u.st.chain c).cranePtr = r.cranePtr
               ∧ w = buildCranes cap c (cap + 1) u
               ∧ (w.full = false → ∀ k, craneOffer c k w.st = none)
               ∧ image.blocks = w.blocks ++ ((r.generalQ.take n).filter carried).map frame
               ∧ (w.full = true → n = 0)
               ∧ (w.full = false → ∀ g, r.generalQ[n]? = some g → carried g ∧ cap < image.slots + (frame g).slots)
               ∧ (v.chain c).generalQ = r.generalQ.drop n ∧ (v.chain c).line = some image
               ∧ (v.chain c).counters.generalStale =
                   r.counters.generalStale + BitVec.ofNat 32 ((r.generalQ.take n).filter fun g => !carried g).length
               ∧ (v.chain c).cranePtr = (w.st.chain c).cranePtr ∧ v.clu = w.st.clu
               ∧ ∀ x, (v.cell x).downlinkBlocks =
                   (s.cell x).downlinkBlocks + BitVec.ofNat 32 (image.blocks.countP fun b => decide (b.cell = x)))))
  ∧ (∀ (cap n : Nat) (c : Chain) (u : Build),
       let next := buildCranes cap c (n + 1) u
       (u.full = true → next = u)
       ∧ (u.full = false → (∀ k, craneOffer c k u.st = none) → next = u)
       ∧ (u.full = false → ∀ k b f, craneOffer c k u.st = some (b, f) →
         (∀ j, turnOf (u.st.chain c).cranePtr j < turnOf (u.st.chain c).cranePtr k → craneOffer c j u.st = none) →
         (cap < u.used + b.slots → next = { u with full := true })
         ∧ (u.used + b.slots ≤ cap → next = buildCranes cap c n
             { st := ((u.st.modCrane k f).modChain c fun r => { r with cranePtr := some k }).modCell b.cell fun r =>
                 { r with downlinkBlocks := r.downlinkBlocks + 1 }
               used := u.used + b.slots, blocks := u.blocks ++ [b], full := false })))
  ∧ (∀ (c : Chain) (k : CraneId) (x : CellId) (s : State),
       let r := s.crane k
       let off := fun y : CellId => chainOf y ≠ c
       (FirstOf c r.anchor (r.keeps.map Prod.fst) x →
         ∃ stamp f, (x, stamp) ∈ r.keeps ∧ craneOffer c k s = some (.keep x r.radio stamp, f)
           ∧ f r =
             { r with
               keeps := r.keeps.filter fun e => decide (e.1 ≠ x)
               counters := { r.counters with keepSent := r.counters.keepSent + 1 } })
       ∧ ((∀ e ∈ r.keeps, off e.1) → ∀ front e back, r.queue = front ++ e :: back →
         (∀ d ∈ front, ∀ y ∈ d.dests, off y) → FirstOf c r.anchor e.dests x →
         let left := e.dests.filter fun y => decide (y ≠ x)
         ∃ f, craneOffer c k s = some (.craneDown x r.radio e.payload, f)
           ∧ f r =
             { r with
               queue := front ++ (if left = [] then [] else [{ e with dests := left }]) ++ back
               downlinkSent := true, counters := { r.counters with copies := r.counters.copies + 1 } })
       ∧ ((∀ e ∈ r.keeps, off e.1) → (∀ e ∈ r.queue, ∀ y ∈ e.dests, off y) → craneOffer c k s = none))
  ∧ (∀ (c : Chain) (s : State),
       ∃ u, u = { s with clu := { s.clu with cranes := u.clu.cranes } }
         ∧ (∀ k, u.crane k =
             { s.crane k with
               bar := match (s.crane k).bar with
                 | some (x, n) =>
                   if chainOf x ≠ c then some (x, n) else if n ≤ 1 then none else some (x, n - 1)
                 | none => none })
         ∧ ∃ visit : State → CraneId → State,
           openerSent c s = [0, 1, 2, 3, 4, 5, 6, 7, 8, 9, 10, 11].foldl visit u
           ∧ ∀ (t : State) (k : CraneId),
             let n := (t.crane k).countdown - 1
             let counted := t.modCrane k fun r => { r with countdown := n }
             (∀ x, (t.crane k).state = .handover → (t.crane k).target = some x → chainOf x = c →
               (n ≠ 0 → visit t k = counted) ∧ (n = 0 → visit t k = failHandover k .timeout counted))
             ∧ ((t.crane k).state ≠ .handover ∨ (∀ x, (t.crane k).target = some x → chainOf x ≠ c) → visit t k = t))

/-- A missed turn that brings the missed-turn count to the break limit takes a RUNNING chain to BROKEN, and the 32nd turn
judged without roll call complete takes a ROLLCALL chain there, the set of cells heard being empty after a missed one (R1;
by inference, log 30); no opener is sent (R4, R6, R7, R10). Loss of signal breaks a RUNNING chain and is counted; it is no
break cause in any other state (R7, R21). An ABORT marker breaks a RUNNING chain, returns the good-turn count of roll call
to 0, and is only counted in BROKEN; in DISABLED nothing that arrives is taken (R3, R20). Each break is told in a
CHAIN-STATE notice of its cause, with the aborting cell for an ABORT (R9). A chain that leaves RUNNING has flushed its
queue and taken its cells DOWN; the Crane Link Unit then withdraws the pending destinations, KEEP blocks, holds and notice
blocks on the chain and fails, in index order, every handover to it with CHAIN-LEFT (R57, R68, R81, R89), before or after
the usability changes are taken (R84; the order is the next choice, log 8); a cycle-end event of cause CHAIN-LEFT comes
last (R6, R35). The order of what follows inside the step is the model's (log 9). -/
def Obligations.BreakCausesBreakTheChain : Prop :=
  (∀ (c : Chain) (s : State), s.held = false → LedsSound s →
     let r := s.chain c
     r.awaited ≠ none →
     r.state = .running ∧ s.params.breakLimit ≤ r.missed + 1
       ∨ r.state = .rollcall ∧ 31 ≤ r.rollcallTurns →
     let u := cycleEnd c .missedTurn (s.modChain c fun q =>
       { q with
         cycleTimer := s.params.cyclePeriod, awaited := none
         missed := if q.state = .running then q.missed + 1 else q.missed
         goodTurns := if q.state = .rollcall then 0 else q.goodTurns
         rollcallTurns := if q.state = .rollcall then q.rollcallTurns + 1 else q.rollcallTurns
         heard := if q.state = .rollcall then [] else q.heard
         counters := { q.counters with missedTurns := q.counters.missedTurns + 1 } })
     ∃ t, exec (.cycleTimerExpiry c) s = .next t ∧ ChainOnly s t
       ∧ Broke c (if r.state = .running then .missedTurns else .rollcallFailed) none u s t
       ∧ (t.chain c).cycle = r.cycle ∧ (t.chain c).counters.openersSent = r.counters.openersSent
       ∧ (t.chain c).counters.missedTurns = r.counters.missedTurns + 1)
  ∧ (∀ (c : Chain) (s : State), s.held = false → LedsSound s →
       ((s.chain c).state = .running →
         ∃ t, exec (.signalLoss c) s = .next t ∧ ChainOnly s t
           ∧ Broke c .signalLoss none
               (s.countChain c fun k => { k with signalLosses := k.signalLosses + 1 }) s t
           ∧ (t.chain c).counters.signalLosses = (s.chain c).counters.signalLosses + 1)
       ∧ ((s.chain c).state ≠ .running → exec (.signalLoss c) s = .next s))
  ∧ (∀ (x : CellId) (s : State), s.held = false → LedsSound s →
       let c := chainOf x
       let counted := fun r : ChainRec =>
         { r with silence := 0, lastAbort := some x, counters := { r.counters with aborts := r.counters.aborts + 1 } }
       ((s.chain c).state = .running →
         ∃ t, exec (.abortMarker x) s = .next t ∧ ChainOnly s t
           ∧ Broke c .abort (some x) (s.modChain c counted) s t
           ∧ (t.chain c).lastAbort = some x ∧ (t.chain c).counters.aborts = (s.chain c).counters.aborts + 1)
       ∧ ((s.chain c).state = .rollcall →
         exec (.abortMarker x) s = .next (s.modChain c fun r => { counted r with goodTurns := 0 }))
       ∧ ((s.chain c).state = .broken → exec (.abortMarker x) s = .next (s.modChain c counted))
       ∧ ((s.chain c).state = .disabled → exec (.abortMarker x) s = .next s))
  ∧ (∀ (c : Chain) (s : State),
       ∃ d, ChainLeft c s { d with choices := s.choices } ∧ d.choices = s.choices.tail
         ∧ leaveRunning c s = cycleEnd c .chainLeft (settle (chainLeftWord c
             (if s.choices.head? = some true then settle d else d))))
  ∧ (∀ (c : Chain) (s : State),
       ∃ w, PendingWithdrawn c s w
         ∧ ∃ visit : State → CraneId → State,
           chainLeftWord c s = [0, 1, 2, 3, 4, 5, 6, 7, 8, 9, 10, 11].foldl visit w
           ∧ ∀ (t : State) (k : CraneId),
             (∀ x, (t.crane k).state = .handover → (t.crane k).target = some x → chainOf x = c →
               visit t k = failHandover k .chainLeft t)
             ∧ ((t.crane k).state ≠ .handover ∨ (∀ x, (t.crane k).target = some x → chainOf x ≠ c) → visit t k = t))

/-- The backoff timer of a BROKEN chain takes it to ROLLCALL with its counts at 0 and a CHAIN-STATE notice (R4, R8, R9);
in any other state, and with the timer stopped, nothing is due. The stable timer's expiry returns the next backoff to 100
ms (R5). ROLLCALL-LED-BLINK gives a ROLLCALL chain's LED the light of the count: lit in the first 250 ms of each 500
(R172). An expiry command is taken whenever its timer runs (log 2). -/
def Obligations.BackoffStableAndBlinkTimers : Prop :=
  (∀ (c : Chain) (s : State), s.held = false →
     let r := s.chain c
     (r.state = .broken → r.backoff.isSome →
       ∃ t, exec (.backoffTimerExpiry c) s = .next t
         ∧ t = { s with port := t.port, leds := t.leds, chainN := t.chainN, chainS := t.chainS }
         ∧ (∀ d, d ≠ c → t.chain d = s.chain d)
         ∧ t.port = s.controllerNoticed (.chainState c .backoffExpired .rollcall none)
         ∧ t.chain c =
           { r with state := .rollcall, backoff := none, goodTurns := 0, rollcallTurns := 0, heard := [], awaited := none })
     ∧ (r.state ≠ .broken ∨ r.backoff = none → exec (.backoffTimerExpiry c) s = .next s))
  ∧ (∀ (c : Chain) (s : State), s.held = false →
       ((s.chain c).stable.isSome →
         exec (.stableTimerExpiry c) s = .next (s.modChain c fun r => { r with stable := none, nextBackoff := 100 }))
       ∧ ((s.chain c).stable = none → exec (.stableTimerExpiry c) s = .next s))
  ∧ (∀ (c : Chain) (s : State), s.held = false →
       let lit := decide (s.time.ms.toNat % 500 < 250)
       ((s.chain c).state = .rollcall →
         exec (.rollcallLedBlink c) s = .next { s with leds := match c with
           | .N => { s.leds with chn := lit }
           | .S => { s.leds with chs := lit } })
       ∧ ((s.chain c).state ≠ .rollcall → exec (.rollcallLedBlink c) s = .next s))

/-- Fill blocks and returned openers are ignored, a returned downlink block is counted as undelivered, and a malformed
block as malformed; the stream goes on and nothing else changes (R17, R21). An uplink block is discarded and counted as
ungranted in ROLLCALL and BROKEN and from an unfitted cell (R7, R18a). A turn marker that is not in time is stale: it
and its status records are counted (R18). A block is malformed when its kind is none of the table, its length is not what the
kind allows or does not fit its slots, or its cell field, where it is judged, names no cell of the chain (R17, R170). In
DISABLED nothing that arrives is taken (R3). The silence measurement is the
model's reading (log 17), and so are the operands of a malformed block (log 16). -/
def Obligations.BlocksThatAreOnlyCounted : Prop :=
  (∀ (c : Chain) (x : CellId) (b : RawBlock) (s : State), s.held = false → chainOf x = c → blockMalformed c b →
     ((s.chain c).state ≠ .disabled →
       exec (.fillBlock c) s = .next (s.lineHeard c)
       ∧ exec (.openerReturned c) s = .next (s.lineHeard c)
       ∧ exec (.undeliveredDownlink x) s =
         .next ((s.lineHeard c).countChain c fun k => { k with undelivered := k.undelivered + 1 })
       ∧ exec (.malformedBlock c b) s =
         .next ((s.lineHeard c).countChain c fun k => { k with malformed := k.malformed + 1 }))
     ∧ ((s.chain c).state = .disabled →
       exec (.fillBlock c) s = .next s ∧ exec (.openerReturned c) s = .next s
       ∧ exec (.undeliveredDownlink x) s = .next s ∧ exec (.malformedBlock c b) s = .next s))
  ∧ (∀ (x : CellId) (radio : Addr) (seq : U16) (payload : List Byte) (r : Report) (s : State), s.held = false →
       2 ≤ payload.length → r.alarms.length ≤ 4 → (s.chain (chainOf x)).state ≠ .disabled →
       (s.chain (chainOf x)).state ≠ .running ∨ (s.cell x).fitted = false →
       let t := (s.lineHeard (chainOf x)).countChain (chainOf x) fun k => { k with ungranted := k.ungranted + 1 }
       exec (.craneUp x radio seq payload) s = .next t ∧ exec (.reeferReport x r) s = .next t
         ∧ exec (.generalUp x radio payload) s = .next t)
  ∧ (∀ (c : Chain) (cycle : Byte) (records : List StatusRecord) (s : State), s.held = false → records.length ≤ 8 →
       (s.chain c).state ≠ .disabled → (s.chain c).awaited ≠ some cycle →
       exec (.turnMarker c cycle records) s =
         .next ((s.lineHeard c).countChain c fun k =>
           { k with
             staleTurns := k.staleTurns + 1
             staleStatus := k.staleStatus + BitVec.ofNat 32 records.length }))
  ∧ ∀ (c : Chain) (b : RawBlock),
      let kind := b.kind.toNat
      let length := b.length.toNat
      let octet := fun n => (b.content.getD n 0).toNat
      let allowed := kind = 0x00 ∨ kind = 0x01 ∧ length = 2 ∨ kind = 0x02 ∧ octet 17 ≤ 8 ∧ length = 18 + 3 * octet 17
        ∨ kind = 0x03 ∧ length = 0 ∨ kind = 0x10 ∧ length = 11 ∨ kind = 0x11 ∧ length = 12 ∨ kind = 0x12 ∧ length = 10
        ∨ (kind = 0x13 ∨ kind = 0x14 ∨ kind = 0x22) ∧ 7 ≤ length ∨ kind = 0x20 ∧ 10 ≤ length
        ∨ kind = 0x21 ∧ octet 15 ≤ 4 ∧ length = 16 + 2 * octet 15
      let named := kind ≤ 0x02 ∨ ∃ x : CellId, chainOf x = c ∧ x.val = b.cell.toNat
      blockMalformed c b = true ↔ ¬(allowed ∧ 4 + length ≤ 128 * b.slots ∧ named)

/-- A turn in time is no longer awaited and is counted (R18). In RUNNING it clears the missed-turn count; in ROLLCALL
the fourth good turn in a row makes the chain RUNNING, told in a CHAIN-STATE notice, its stable timer at 10 s (R4, R5, R9).
In both, the fitted cells of the chain take their records, and those without one are charged a status miss (R19, R26-R28),
and a cycle-end event of cause TURN follows (R35). In ROLLCALL before the fourth, the turn is counted as good and as judged
and its cells are the set of cells heard, and no record reaches a cell (R4); the 32nd turn judged with fewer than four good
ones takes the chain to BROKEN with ROLLCALL-FAILED (R4, R7). What a record hands to the Crane Link Unit is taken before the
next record (log 9); the misses are taken in ascending cell number (log 33). The cells of the fourth good turn are the set
of cells heard, in ascending number; the records that stand are the first of each cell of the chain, in the order of the
marker (R19); in RUNNING a turn leaves the roll-call progress as it stands, the set of cells heard
among it (R1, R4; by inference, log 30). -/
def Obligations.TurnInTimeReachesTheCells : Prop :=
  (∀ (c : Chain) (cycle : Byte) (records : List StatusRecord) (s : State), s.held = false → records.length ≤ 8 →
    (s.chain c).awaited = some cycle →
    (s.chain c).state = .running ∨ (s.chain c).state = .rollcall ∧ (s.chain c).goodTurns = 3 →
    let standing := standingRecords c records []
    ∃ t, exec (.turnMarker c cycle records) s = .next t ∧ ChainOnly s t ∧ (∀ d, d ≠ c → t.chain d = s.chain d)
      ∧ (t.chain c).state = .running ∧ (t.chain c).awaited = none ∧ (t.chain c).missed = 0
      ∧ (t.chain c).counters.returnedTurns = (s.chain c).counters.returnedTurns + 1
      ∧ (t.chain c).counters.malformed =
          (s.chain c).counters.malformed + BitVec.ofNat 32 (records.length - standing.length)
      ∧ (∀ x q, (x, q) ∈ standing → (s.cell x).fitted →
          (t.cell x).quality = q.quality ∧ (t.cell x).backlog = q.backlog ∧ (t.cell x).missCount = 0
          ∧ (t.cell x).unit = ((s.cell x).takeStatus s.params q).unit
          ∧ (t.cell x).progress = ((s.cell x).takeStatus s.params q).progress)
      ∧ (∀ x, chainOf x = c → (s.cell x).fitted → (∀ q, (x, q) ∉ standing) →
          (t.cell x).unit = ((s.cell x).takeMiss s.params).unit
          ∧ (t.cell x).missCount = ((s.cell x).takeMiss s.params).missCount
          ∧ (t.cell x).progress = ((s.cell x).takeMiss s.params).progress
          ∧ (t.cell x).statusMisses = ((s.cell x).takeMiss s.params).statusMisses
          ∧ ((s.cell x).unit = .absent ∨ (s.cell x).unit = .down →
            (t.cell x).unit = (s.cell x).unit ∧ (t.cell x).missCount = (s.cell x).missCount)
          ∧ ((s.cell x).unit = .joining ∨ (s.cell x).unit = .up ∨ (s.cell x).unit = .fading →
            (t.cell x).statusMisses = (s.cell x).statusMisses + 1 ∧ (t.cell x).progress = 0
            ∧ (if s.params.statusMissLimit ≤ (s.cell x).missCount + 1 then
                (t.cell x).unit = .down ∧ (t.cell x).missCount = 0
              else (t.cell x).unit = (s.cell x).unit ∧ (t.cell x).missCount = (s.cell x).missCount + 1)))
      ∧ (∀ x, chainOf x ≠ c → (t.cell x).unit = (s.cell x).unit)
      ∧ (let turned := s.modChain c fun r =>
           { r with
             silence := 0, awaited := none
             counters := { r.counters with
               returnedTurns := r.counters.returnedTurns + 1
               malformed := r.counters.malformed + BitVec.ofNat 32 (records.length - standing.length) } }
         ∃ v, t = cycleEnd c .turn (((cellsOf c).filter fun x =>
               decide ((s.cell x).fitted = true ∧ ∀ p ∈ standing, p.1 ≠ x)).foldl (fun w x => settle (statusMiss x w))
             (standing.foldl (fun w p => settle (statusRecord p.1 p.2 w)) v))
           ∧ ((s.chain c).state = .running → v = turned.modChain c fun r => { r with missed := 0 })
           ∧ ((s.chain c).state = .rollcall →
             v.chain c =
               { turned.chain c with
                 state := .running, missed := 0, stable := some (10000 * 4), goodTurns := 4
                 rollcallTurns := (s.chain c).rollcallTurns + 1, heard := (v.chain c).heard }
             ∧ (v.chain c).heard.Pairwise (fun x y => x.val < y.val)
             ∧ (∀ x, x ∈ (v.chain c).heard ↔ ∃ q, (x, q) ∈ standing)
             ∧ v = { turned with
                 port := turned.controllerNoticed (.chainState c .rollcallDone .running none), leds := v.leds
                 chainN := v.chainN, chainS := v.chainS })))
  ∧ (∀ (c : Chain) (cycle : Byte) (records : List StatusRecord) (s : State), s.held = false → LedsSound s →
      records.length ≤ 8 → (s.chain c).awaited = some cycle → (s.chain c).state = .rollcall →
      (s.chain c).goodTurns < 3 →
      let standing := standingRecords c records []
      ∃ heard : List CellId, heard.Pairwise (fun x y => x.val < y.val)
        ∧ (∀ x, x ∈ heard ↔ ∃ q, (x, q) ∈ standing)
        ∧ (let u := s.modChain c fun r =>
             { r with
               silence := 0, awaited := none, goodTurns := r.goodTurns + 1, rollcallTurns := r.rollcallTurns + 1
               heard := heard
               counters := { r.counters with
                 returnedTurns := r.counters.returnedTurns + 1
                 malformed := r.counters.malformed + BitVec.ofNat 32 (records.length - standing.length) } }
           ((s.chain c).rollcallTurns < 31 → exec (.turnMarker c cycle records) s = .next u)
           ∧ (31 ≤ (s.chain c).rollcallTurns →
             ∃ t, exec (.turnMarker c cycle records) s = .next t ∧ ChainOnly s t ∧ Broke c .rollcallFailed none u s t)))
  ∧ ∀ (c : Chain) (records : List StatusRecord),
      let standing := standingRecords c records []
      (standing.map Prod.snd).Sublist records ∧ (standing.map Prod.fst).Nodup
      ∧ ∀ x q, (x, q) ∈ standing ↔
        chainOf x = c ∧ x.val = q.cell.toNat
          ∧ ∃ front back, records = front ++ q :: back ∧ ∀ p ∈ front, p.cell ≠ q.cell

/-- A status record of a fitted cell (R26-R28): joining after a join record in ABSENT and after any fault-free record in
DOWN; UP after three fault-free records, FADING after eight below the fade level, UP again after sixteen at the recover
level; DOWN on a fault. A status miss (R28) of a cell in JOINING, UP or FADING advances the miss count and the counter and
sets the progress to 0, or takes the cell DOWN with both counts at 0 when the miss count reaches the limit; a cell in
ABSENT or DOWN is charged none. A record of an unfitted cell is counted as ignored (R26). Any other record, and a miss, is
one event of the cell: its change flag is set when its unit state or plain usability changes (R34), and one usability
change is handed to the Crane Link Unit exactly when its usability for anyone changes (R31). -/
def Obligations.StatusRecordMovesTheCell : Prop :=
  (∀ (p : Params) (q : StatusRecord) (r : Cell), CellSound r →
    let t := r.takeStatus p q
    t.quality = q.quality ∧ t.backlog = q.backlog ∧ t.missCount = 0
    ∧ (t.unit ≠ r.unit → t.progress = 0)
    ∧ (r.unit = .absent → (t.unit = .joining ↔ q.join = true ∧ q.fault = false) ∧ (t.unit = .joining ∨ t.unit = .absent))
    ∧ (r.unit = .down → (t.unit = .joining ↔ q.fault = false) ∧ (t.unit = .joining ∨ t.unit = .down))
    ∧ (r.unit ≠ .absent → r.unit ≠ .down → q.fault = true → t.unit = .down)
    ∧ (r.unit = .joining → q.fault = false →
        if r.progress = 2 then t.unit = .up else t.unit = .joining ∧ t.progress = r.progress + 1)
    ∧ (r.unit = .up → q.fault = false →
        if p.fadeLevel ≤ q.quality.val then t.unit = .up ∧ t.progress = 0
        else if r.progress = 7 then t.unit = .fading else t.unit = .up ∧ t.progress = r.progress + 1)
    ∧ (r.unit = .fading → q.fault = false →
        if q.quality.val < p.recoverLevel then t.unit = .fading ∧ t.progress = 0
        else if r.progress = 15 then t.unit = .up else t.unit = .fading ∧ t.progress = r.progress + 1))
  ∧ (∀ (p : Params) (r : Cell),
      (r.unit = .absent ∨ r.unit = .down → r.takeMiss p = r)
      ∧ (r.unit = .joining ∨ r.unit = .up ∨ r.unit = .fading →
        (r.missCount + 1 < p.statusMissLimit →
          r.takeMiss p =
            { r with progress := 0, missCount := r.missCount + 1, statusMisses := r.statusMisses + 1 })
        ∧ (p.statusMissLimit ≤ r.missCount + 1 →
          r.takeMiss p =
            { r with unit := .down, progress := 0, missCount := 0, statusMisses := r.statusMisses + 1 })))
  ∧ ∀ (x : CellId) (q : StatusRecord) (s : State),
      ((s.cell x).fitted = false → statusRecord x q s =
        { s with cov := { s.cov with counters :=
          { s.cov.counters with ignoredStatus := s.cov.counters.ignoredStatus + 1 } } })
      ∧ ((s.cell x).fitted = true →
        CellEvent x s (s.modCell x fun r => r.takeStatus s.params q) (statusRecord x q s))
      ∧ CellEvent x s (s.modCell x fun r => r.takeMiss s.params) (statusMiss x s)

/-- A downlink GENERAL frame (R22, R43) joins the queue of its unit's cell when that cell is UP or FADING and the
chain's queue has room, and is otherwise dropped and counted by its cause. -/
def Obligations.GeneralFrameFollowsItsUnit : Prop :=
  ∀ (h : RxHeader) (unit : Addr) (payload : List Byte) (s : State), Reaches s h → 1 ≤ payload.length →
    let s1 := s.received
    let after := fun t : State => exec (.generalFrame h unit payload) s = .next t
    (∀ j r, dirFind s unit = some (.general j) → sparseFind s.cov.general j.val = some r →
      let c := chainOf r.cell
      let carried := (s.cell r.cell).unit = .up ∨ (s.cell r.cell).unit = .fading
      let room := (s.chain c).state = .running ∧ (s.chain c).generalQ.length < 128
      (carried → room →
        after (s1.modChain c fun q =>
          { q with generalQ := q.generalQ ++ [{ cell := r.cell, unit := unit, payload := payload }] }))
      ∧ (carried → ¬room → after (s1.countChain c fun k => { k with generalFull := k.generalFull + 1 }))
      ∧ (¬carried → after (s1.countCov fun k => { k with noRoute := k.noRoute + 1 })))
    ∧ (dirFind s unit = none → after (s1.countCov fun k => { k with unknownUnit := k.unknownUnit + 1 }))
    ∧ ((dirCrane s unit).isSome ∨ (dirReefer s unit).isSome →
        after (s1.countCov fun k => { k with toDefined := k.toDefined + 1 }))

/-- A GENERAL-UP block (R40, R41): too long, it is discarded and counted; a unit with an entry is refreshed with the
cell of arrival; an unknown one is learned into the lowest free record when the feature is on and a record is free, and
otherwise counted for the feature off, for the full table, or for both; one that a definition holds is only counted. In
every case but the first its frame is then offered to the general-up queue for the broadcast address. -/
def Obligations.GeneralUnitIsLearnedOrRefreshed : Prop :=
  ∀ (x : CellId) (unit : Addr) (payload : List Byte) (s : State), Dispatched s x → TablesSound s → 1 ≤ payload.length →
    let d := s.dispatched x
    (1484 < payload.length →
      exec (.generalUp x unit payload) s = .next (d.countCov fun k => { k with oversize := k.oversize + 1 }))
    ∧ (payload.length ≤ 1484 → ∃ t, exec (.generalUp x unit payload) s = .next t
        ∧ t = { d with port := t.port, cov := { s.cov with cells := d.cov.cells, directory := t.cov.directory
                                                           general := t.cov.general, counters := t.cov.counters } }
        ∧ (∀ j, dirFind s unit = some (.general j) →
            t.cov.directory = s.cov.directory ∧ t.cov.counters = s.cov.counters
            ∧ sparseFind t.cov.general j.val = some { unit := unit, cell := x, age := 0 }
            ∧ ∀ i, i ≠ j.val → sparseFind t.cov.general i = sparseFind s.cov.general i)
        ∧ (dirFind s unit = none → s.params.features.generalLearning = true →
            ∀ j : GeneralId, sparseFind s.cov.general j.val = none →
            (∀ i, i < j.val → sparseFind s.cov.general i ≠ none) →
              dirFind t unit = some (.general j)
              ∧ sparseFind t.cov.general j.val = some { unit := unit, cell := x, age := 0 }
              ∧ (∀ i, i ≠ j.val → sparseFind t.cov.general i = sparseFind s.cov.general i)
              ∧ t.cov.counters.learned = s.cov.counters.learned + 1)
        ∧ (let full := ∀ j : GeneralId, sparseFind s.cov.general j.val ≠ none
           dirFind s unit = none → s.params.features.generalLearning = false ∨ full →
            t.cov.directory = s.cov.directory ∧ t.cov.general = s.cov.general
            ∧ (s.params.features.generalLearning = true → t.cov.counters.notLearnedOff = s.cov.counters.notLearnedOff)
            ∧ (s.params.features.generalLearning = false →
              t.cov.counters.notLearnedOff = s.cov.counters.notLearnedOff + 1)
            ∧ (¬full → t.cov.counters.notLearnedFull = s.cov.counters.notLearnedFull)
            ∧ (full → t.cov.counters.notLearnedFull = s.cov.counters.notLearnedFull + 1))
        ∧ (∀ i, dirFind s unit = some (.crane i) → t.cov = { d.cov with counters :=
            { s.cov.counters with fromDefined := s.cov.counters.fromDefined + 1 } })
        ∧ (∀ i, dirFind s unit = some (.reefer i) → t.cov = { d.cov with counters :=
            { s.cov.counters with fromDefined := s.cov.counters.fromDefined + 1 } })
        ∧ t.port = (s.port.offer .generalUp
            { dst := 0xFFFFFFFFFFFF#48, src := s.mgmtAddress, etherType := s.params.quayType
              content := .general unit payload }).1)

/-! ### Reefers and the pool (spec/06, spec/07) -/

/-- A report is discarded and counted when its address has no REEFER entry, when a code or a temperature is undefined, and
when it repeats the last report sequence (R97, steps 1 to 3). A report that changes nothing is suppressed while the
countdown, cut to the group's reload, stands above 1 (R102): it places no entry and keeps the last forwarded values. An
entry that is placed (R115-R118) overwrites its reefer's live entry in an OPEN or SEALED batch, keeping or setting the
urgent mark; an urgent one upgrades an unmarked live entry when an urgent batch is open or a batch FREE, and with no
urgent batch open and none FREE it overwrites the unmarked live entry in place with the mark set, which counts as an
overwrite and as an urgent overflow: R115 names the overflow counter there, and 7.9 counts every live entry overwritten in
place (read together by inference, log 14). A reefer without a live entry there gets a new one: at the tail of the open
batch of the urgency, else in the lowest FREE batch when enough are FREE; an urgent one else overflows into the open
routine batch; what finds no place is dropped and counted, and a drop outside an episode begins one, with a POOL-EXHAUSTED
notice. A full batch is sealed, and an urgent one at once with a seal time of 0 (R119), and a batch sealed while no drain
is SENDING starts no burst (R130). -/
def Obligations.ReportsThatPlaceNoEntry : Prop :=
  (∀ (x : CellId) (r : Report) (s : State), Dispatched s x → r.alarms.length ≤ 4 →
     let d := s.dispatched x
     let valid := r.mode.toNat ≤ 3 ∧ r.power.toNat ≤ 2
       ∧ ∀ v ∈ [r.supply, r.ret, r.setpoint], v = 0x8000#16 ∨ -1000 ≤ v.toInt ∧ v.toInt ≤ 1000
     (dirReefer s r.unit = none →
       exec (.reeferReport x r) s = .next { d with ree := { s.ree with unknown := s.ree.unknown + 1 } })
     ∧ ∀ i, dirReefer s r.unit = some i →
       (¬valid → exec (.reeferReport x r) s = .next (d.countReefer i fun k => { k with invalid := k.invalid + 1 }))
       ∧ (valid → (s.reefer i).lastSeq = some r.seq →
         exec (.reeferReport x r) s = .next (d.countReefer i fun k => { k with duplicates := k.duplicates + 1 })))
  ∧ (∀ (x : CellId) (r : Report) (i : ReeferId) (d : ReeferDef) (g : GroupDef) (m : Mode) (p : Power) (l : Forwarded)
         (s : State),
       Dispatched s x → r.alarms.length ≤ 4 → dirReefer s r.unit = some i →
       modeOf r.mode = some m → powerOf r.power = some p →
       (∀ v ∈ [r.supply, r.ret, r.setpoint], temperatureOk v) → (s.reefer i).lastSeq ≠ some r.seq →
       (s.reefer i).defn = some d → (s.group d.group).defn = some g → (s.reefer i).state = .reporting →
       (s.reefer i).owed = false → (s.reefer i).last = some l → l.mode = m → l.power = p →
       (∀ a, a ∈ l.alarms ↔ a ∈ r.alarms) → (s.reefer i).cls = some (classify g m r.supply r.setpoint) →
       classify g m r.supply r.setpoint = .within ∨ classify g m r.supply r.setpoint = .exempt →
       l.supply ≠ 0x8000#16 → r.supply ≠ 0x8000#16 → (r.supply.toInt - l.supply.toInt).natAbs < g.deadband →
       2 ≤ min (s.reefer i).countdown g.reload →
       exec (.reeferReport x r) s =
         .next ((s.dispatched x).modReefer i fun q =>
           { q with
             lastSeq := some r.seq, cell := some x, age := 0, miss := 0, masked := 0
             countdown := min (s.reefer i).countdown g.reload - 1
             counters := { q.counters with taken := q.counters.taken + 1, suppressed := q.counters.suppressed + 1 } }))
  ∧ (∀ (e : Entry) (u : Urgency) (b : BatchId) (n : Nat) (old : Entry) (s : State), PoolSound s →
       (s.reefer e.reefer).ref = some (b, n) → (s.batch b).entries[n]? = some old →
       let m := { e with urgent := decide (u = .urgent) }
       let changeable := (s.batch b).state = .openUrgent ∨ (s.batch b).state = .openRoutine ∨ (s.batch b).state = .sealed
       let written := fun o : Entry => s.modBatch b fun r => { r with entries := r.entries.set n o }
       let noUrgent := ∀ a, (s.batch a).state ≠ .openUrgent ∧ (s.batch a).state ≠ .free
       let left := (s.batch b).entries.eraseIdx n
       ((s.batch b).state = .inFlight → placeInPool e u s = placeNew m u s)
       ∧ (changeable → old.urgent = true ∨ u = .routine →
         placeInPool e u s =
           ((written { m with urgent := old.urgent || m.urgent }).countPool (fun k =>
             { k with overwrites := k.overwrites + 1 }), true))
       ∧ (changeable → old.urgent = false → u = .urgent → noUrgent →
         placeInPool e u s =
           ((written m).countPool (fun k =>
             { k with overwrites := k.overwrites + 1, overflow := k.overflow + 1 }), true))
       ∧ (changeable → old.urgent = false → u = .urgent → ¬noUrgent →
         ∃ v : State, placeInPool e u s =
             ((placeNew m u v).1.countPool (fun k => { k with upgrades := k.upgrades + 1 }), (placeNew m u v).2)
           ∧ (∃ ree pool, v = { s with ree := ree, pool := pool }) ∧ (v.reefer e.reefer).ref = none
           ∧ (∀ a, a ≠ b → v.batch a = s.batch a)
           ∧ v.batch b = (if left = [] then {} else { s.batch b with entries := left })
           ∧ v.pool.sealedList = s.pool.sealedList.filter (fun a => decide (left = [] → a ≠ b))
           ∧ (v.pool.exhausted = true ↔ s.pool.exhausted = true ∧ left ≠ []) ∧ v.pool.counters = s.pool.counters))
  ∧ (∀ (e : Entry) (u : Urgency) (s : State), (s.reefer e.reefer).ref = none →
       placeInPool e u s = placeNew { e with urgent := decide (u = .urgent) } u s)
  ∧ (∀ (m : Entry) (u : Urgency) (s : State), PoolSound s →
       let isOpen := match u with
         | .urgent => BatchState.openUrgent
         | .routine => BatchState.openRoutine
       let need := match u with
         | .urgent => 1
         | .routine => 3
       let number := fun st => (allBatches.filter fun b => decide ((s.batch b).state = st)).length
       let added := fun (b : BatchId) (t : State) =>
         let length := (t.batch b).entries.length
         let v := ((t.modBatch b fun r => { r with entries := r.entries ++ [m] }).setRef m.reefer (some (b, length))).countPool
           fun k => { k with placed := k.placed + 1 }
         if 63 ≤ length then sealBatch b .full v
         else if (t.batch b).state = .openUrgent ∧ s.params.urgentSealMs = 0 then sealBatch b .age v
         else v
       (∀ b, (s.batch b).state = isOpen → placeNew m u s = (added b s, true))
       ∧ ((∀ b, (s.batch b).state ≠ isOpen) → need ≤ number .free →
         ∀ b, (s.batch b).state = .free → (∀ a, (s.batch a).state = .free → b.val ≤ a.val) →
           placeNew m u s =
             (added b ((s.modBatch b fun _ => { state := isOpen, urgency := some u }).countPool fun k => match u with
               | .urgent => { k with openedUrgent := k.openedUrgent + 1 }
               | .routine => { k with openedRoutine := k.openedRoutine + 1 }), true))
       ∧ ((∀ b, (s.batch b).state ≠ isOpen) → number .free < need →
         (u = .urgent → ∀ b, (s.batch b).state = .openRoutine →
           placeNew m u s = ((added b s).countPool (fun k => { k with overflow := k.overflow + 1 }), true))
         ∧ (u = .routine ∨ (∀ b, (s.batch b).state ≠ .openRoutine) →
           let k := s.pool.counters
           let dropped := match u with
             | .urgent => { k with droppedUrgent := k.droppedUrgent + 1 }
             | .routine => { k with droppedRoutine := k.droppedRoutine + 1 }
           placeNew m u s =
             ({ s with
                port := if s.pool.exhausted then s.port
                  else s.controllerNoticed (.poolExhausted u m.reefer m.kind (number .free) (number .sealed)
                    (number .inFlight))
                pool := { s.pool with
                  exhausted := true
                  counters := { dropped with
                    episodes := k.episodes + (if s.pool.exhausted then 0 else 1) } } }, false))))
  ∧ (∀ (b : BatchId) (cause : SealCause) (before s : State),
       let t := sealBatch b cause s
       t = { s with pool := t.pool } ∧ (∀ a, a ≠ b → t.batch a = s.batch a)
       ∧ t.batch b = { s.batch b with state := .sealed, stamp := some s.pool.stamp }
       ∧ t.pool.stamp = s.pool.stamp + 1 ∧ (∀ a, a ∈ t.pool.sealedList ↔ a = b ∨ a ∈ s.pool.sealedList)
       ∧ (s.drain.state ≠ .sending ∨ s.pool.stamp = before.pool.stamp → afterSeal before s = s))

/-- A valid report of a defined reefer (R97-R104): it is heard through its cell, classed against its group's band, its
excursion flag and its group's summary are set outside the band when the group enables it, and a SILENT or EXPECTED
reefer becomes REPORTING. A SILENT reefer's report is placed as an urgent RETURNED entry (R104), a significant one as a
REPORT entry, urgent by R101 (R100), one that is not significant as a routine entry when the suppression lets it through
(R102), and otherwise none is. The entry carries the report, the class, the excursion flag as it then stands, the cell and
the alarm set (R103, R112). When it is placed the last forwarded values become the report's and nothing is owed; when it
is dropped they stand and the reefer is owed (R103). Statement ReportsThatPlaceNoEntry says how the pool places it. -/
def Obligations.ValidReportIsHeardAndClassed : Prop :=
  ∀ (x : CellId) (r : Report) (i : ReeferId) (d : ReeferDef) (g : GroupDef) (m : Mode) (p : Power) (s : State),
    Dispatched s x → r.alarms.length ≤ 4 → dirReefer s r.unit = some i →
    modeOf r.mode = some m → powerOf r.power = some p →
    (∀ v ∈ [r.supply, r.ret, r.setpoint], temperatureOk v) → (s.reefer i).lastSeq ≠ some r.seq →
    (s.reefer i).defn = some d → (s.group d.group).defn = some g → (s.reefer i).state ≠ .vacant →
    let before := s.reefer i
    let measured := (m = .chill ∨ m = .frozen) ∧ r.supply ≠ 0x8000#16 ∧ r.setpoint ≠ 0x8000#16
    ∃ t cls, exec (.reeferReport x r) s = .next t
      ∧ (∃ port ree pool drain, t = { s.dispatched x with port := port, ree := ree, pool := pool, drain := drain })
      ∧ (∀ j, j ≠ i → t.reefer j = { s.reefer j with ref := (t.reefer j).ref })
      ∧ (∀ h, h ≠ d.group → t.group h = s.group h)
      ∧ (t.reefer i).state = .reporting ∧ (t.reefer i).cls = some cls
      ∧ (cls = .exempt ↔ m = .defrost ∨ m = .off)
      ∧ (cls = .below ↔ measured ∧ r.supply.toInt < r.setpoint.toInt - g.bandBelow)
      ∧ (cls = .above ↔ measured ∧ ¬r.supply.toInt < r.setpoint.toInt - g.bandBelow
          ∧ r.setpoint.toInt + g.bandAbove < r.supply.toInt)
      ∧ (t.reefer i).lastSeq = some r.seq ∧ (t.reefer i).cell = some x
      ∧ (t.reefer i).age = 0 ∧ (t.reefer i).miss = 0 ∧ (t.reefer i).masked = 0
      ∧ (t.reefer i).counters.taken = before.counters.taken + 1
      ∧ (let hit := (cls = .below ∨ cls = .above) ∧ g.excursionEnable = true
         ((t.reefer i).excursion = true ↔ before.excursion = true ∨ hit)
         ∧ (hit → before.excursion = false → (t.group d.group).summary = true
             ∧ (t.reefer i).counters.excursions = before.counters.excursions + 1))
      ∧ (before.state = .silent → (t.reefer i).counters.returned = before.counters.returned + 1)
      ∧ (let changed := fun same : Forwarded → Prop => ∀ l, before.last = some l → ¬same l
         let newAlarms := changed fun l => ∀ a, a ∈ l.alarms ↔ a ∈ r.alarms
         let newPower := changed fun l => l.power = p
         let newClass := before.cls ≠ some cls
         let hit := (cls = .below ∨ cls = .above) ∧ g.excursionEnable = true ∧ before.excursion = false
         let reached := changed fun l =>
           l.supply = 0x8000#16 ∧ r.supply = 0x8000#16
             ∨ l.supply ≠ 0x8000#16 ∧ r.supply ≠ 0x8000#16 ∧ (r.supply.toInt - l.supply.toInt).natAbs < g.deadband
         let significant := before.state = .expected ∨ newClass ∨ newAlarms ∨ changed (fun l => l.mode = m) ∨ newPower
           ∨ hit ∨ reached ∨ before.owed = true
         let urgent := newAlarms ∧ r.alarms ≠ [] ∨ hit ∨ newClass ∧ (cls = .below ∨ cls = .above)
           ∨ newPower ∧ p = .none
         let countdown := min before.countdown g.reload - 1
         let due := g.reload = 0 ∨ countdown = 0
         let forwarded := fun (kind : EntryKind) (u : Urgency) =>
           let entry : Entry :=
             { kind := kind, urgent := decide (u = .urgent), reefer := i, unit := d.unit
               report := some { seq := r.seq, mode := m, power := p, supply := r.supply, ret := r.ret
                                setpoint := r.setpoint }
               cls := some cls, excursion := (t.reefer i).excursion, cell := some x, alarms := alarmSet r.alarms }
           ∃ v : State, (∃ ree, v = { s.dispatched x with ree := ree }) ∧ (∀ j, j ≠ i → v.reefer j = s.reefer j)
             ∧ (v.reefer i).ref = before.ref ∧ (v.reefer i).state = .reporting ∧ (v.reefer i).countdown = g.reload
             ∧ (v.reefer i).last = before.last
             ∧ t = (afterSeal v (placeInPool entry u v).1).modReefer i fun q =>
                 if (placeInPool entry u v).2 then
                   { q with
                     owed := false
                     last := some { supply := r.supply, ret := r.ret, setpoint := r.setpoint, mode := m, power := p
                                    alarms := alarmSet r.alarms }
                     counters := { q.counters with forwarded := q.counters.forwarded + 1 } }
                 else { q with owed := true, counters := { q.counters with dropped := q.counters.dropped + 1 } }
         (before.state = .silent → forwarded .returned .urgent)
         ∧ (before.state ≠ .silent → significant → urgent → forwarded .report .urgent)
         ∧ (before.state ≠ .silent → significant → ¬urgent → forwarded .report .routine)
         ∧ (before.state ≠ .silent → ¬significant → due → forwarded .report .routine)
         ∧ (before.state ≠ .silent → ¬significant → ¬due →
           t.pool = s.pool ∧ t.port = s.port ∧ t.drain = s.drain ∧ (t.reefer i).last = before.last
           ∧ (t.reefer i).countdown = countdown ∧ (t.reefer i).owed = before.owed
           ∧ (t.reefer i).counters.suppressed = before.counters.suppressed + 1))

/-- At the report tick (R42, R105) a REPORTING reefer is one second older, and at its group's expected interval its age
returns to 0 and the miss is charged at once, as MISS-CHARGE charges it: masked, counted, or counted up to SILENT (R106,
R107), a REPORTING reefer without a serving cell being behind no usable cell (the model's choice, log 22). The reefers are
visited in index order, which is the model's choice, R105 giving none (log 34); no other reefer ages; a general record is
one second older, and at the general age-out it is removed. The age-out command acts alone only when its condition stands
(R40, R42; log 11). -/
def Obligations.ReportTickAgesTheRecords : Prop :=
  (∀ s : State, s.held = false → TablesSound s →
     ∃ t, exec .reportTick s = .next t
       ∧ (∃ port cov ree pool drain, t = { s with port := port, cov := cov, ree := ree, pool := pool, drain := drain })
       ∧ (∀ i d g, (s.reefer i).defn = some d → (s.group d.group).defn = some g → (s.reefer i).state = .reporting →
           (t.reefer i).age = (if g.interval ≤ (s.reefer i).age + 1 then 0 else (s.reefer i).age + 1)
           ∧ ((s.reefer i).age + 1 < g.interval →
             (t.reefer i).state = .reporting ∧ (t.reefer i).miss = (s.reefer i).miss))
       ∧ (∀ i d g, (s.reefer i).defn = some d → (s.group d.group).defn = some g → (s.reefer i).state = .reporting →
           g.interval ≤ (s.reefer i).age + 1 →
           let q := s.reefer i
           let masked := s.params.features.missMasking = true ∧ ∀ x, q.cell = some x → ¬usable s x
           let miss := min (q.miss + 1) 15
           (masked → t.reefer i =
             { q with
               age := 0, masked := min (q.masked + 1) 255, ref := (t.reefer i).ref
               counters := { q.counters with maskedMisses := q.counters.maskedMisses + 1 } })
           ∧ (¬masked → miss < g.silentLimit → t.reefer i =
             { q with
               age := 0, miss := miss, ref := (t.reefer i).ref
               counters := { q.counters with misses := q.counters.misses + 1 } })
           ∧ (¬masked → g.silentLimit ≤ miss → t.reefer i =
             { q with
               state := .silent, age := 0, miss := miss, ref := (t.reefer i).ref, owed := (t.reefer i).owed
               counters := { q.counters with
                 misses := q.counters.misses + 1, silences := q.counters.silences + 1 } }
             ∧ (q.owed = true → (t.reefer i).owed = true)))
       ∧ (∃ u, t = { u with cov := t.cov } ∧ u = s.reeferIds.foldl (fun v i =>
           if (v.reefer i).state = .reporting then
             match exec (.missCharge i) (v.modReefer i fun r => { r with age := r.age + 1 }) with
             | .next w => w
             | _ => v
           else v) s)
       ∧ (∀ i, (s.reefer i).state ≠ .reporting →
           (t.reefer i).age = (s.reefer i).age ∧ (t.reefer i).state = (s.reefer i).state)
       ∧ (∀ (j : GeneralId) r, sparseFind s.cov.general j.val = some r →
           sparseFind t.cov.general j.val =
             (if s.params.ageOutS ≤ r.age + 1 then none else some { r with age := r.age + 1 })))
  ∧ (∀ (j : GeneralId) (r : GeneralRec) (s : State), s.held = false → sparseFind s.cov.general j.val = some r →
       (s.params.ageOutS ≤ r.age →
         exec (.generalAgeOut j) s = .next { s with cov :=
           { s.cov with
             directory := sparseErase s.cov.directory r.unit.toNat, general := sparseErase s.cov.general j.val
             counters := { s.cov.counters with agedOut := s.cov.counters.agedOut + 1 } } })
       ∧ (r.age < s.params.ageOutS → exec (.generalAgeOut j) s = .next s))

/-- A miss charged to a REPORTING reefer at its group's expected interval (R105-R107) is masked when MISS-MASKING is
enabled and its serving cell is not usable; otherwise it counts, and at the silent limit the reefer enters SILENT and an
urgent SILENT entry is placed for it, with its class, excursion flag, cell and last forwarded alarms (R107, R112); a
dropped one leaves it owed. -/
def Obligations.MissIsMaskedOrCounted : Prop :=
  ∀ (i : ReeferId) (d : ReeferDef) (g : GroupDef) (x : CellId) (s : State), s.held = false →
    (s.reefer i).state = .reporting → (s.reefer i).defn = some d → (s.group d.group).defn = some g →
    (s.reefer i).cell = some x → g.interval ≤ (s.reefer i).age →
    let q := s.reefer i
    let masked := s.params.features.missMasking = true ∧ ¬usable s x
    (masked →
      exec (.missCharge i) s = .next (s.modReefer i fun r =>
        { r with
          age := 0, masked := min (q.masked + 1) 255
          counters := { r.counters with maskedMisses := r.counters.maskedMisses + 1 } }))
    ∧ (¬masked → min (q.miss + 1) 15 < g.silentLimit →
      exec (.missCharge i) s = .next (s.modReefer i fun r =>
        { r with age := 0, miss := min (q.miss + 1) 15, counters := { r.counters with misses := r.counters.misses + 1 } }))
    ∧ (¬masked → g.silentLimit ≤ min (q.miss + 1) 15 →
      ∃ t, exec (.missCharge i) s = .next t ∧ PoolOnly s t ∧ (t.reefer i).state = .silent
        ∧ (∀ j, j ≠ i → t.reefer j = { s.reefer j with ref := (t.reefer j).ref }) ∧ t.ree.groups = s.ree.groups
        ∧ (t.reefer i).age = 0 ∧ (t.reefer i).miss = min (q.miss + 1) 15
        ∧ (t.reefer i).counters.silences = q.counters.silences + 1
        ∧ (let entry : Entry :=
             { kind := .silent, urgent := true, reefer := i, unit := d.unit, report := none, cls := q.cls
               excursion := q.excursion, cell := some x, alarms := (q.last.map Forwarded.alarms).getD [] }
           ∃ v : State, (∃ ree, v = { s with ree := ree }) ∧ (∀ j, j ≠ i → v.reefer j = s.reefer j)
             ∧ v.reefer i =
               { q with
                 state := .silent, age := 0, miss := min (q.miss + 1) 15
                 counters := { q.counters with
                   misses := q.counters.misses + 1, silences := q.counters.silences + 1 } }
             ∧ t = (if (placeInPool entry .urgent v).2 then afterSeal v (placeInPool entry .urgent v).1
               else (afterSeal v (placeInPool entry .urgent v).1).modReefer i fun r => { r with owed := true })))

/-- The expiry of a seal time seals the open batch of its urgency (R113, R119, R120): it takes the stamp of the counter,
which advances, and joins the sealed list behind every batch of its urgency; an urgent one goes ahead of every routine one.
When a batch has joined the sealed list by sealing, here or in the placement of a report's or a miss's entry or at a new
seal time, the start condition is tested, and a burst is started when it holds (R130): `afterSeal` is that test, which finds
the seal by the seal stamp counter. The command is taken whenever the batch is open (log 2). -/
def Obligations.SealTimeSealsTheOpenBatch : Prop :=
  (∀ (u : Urgency) (b : BatchId) (s : State), s.held = false → PoolSound s →
    (∀ x ∈ s.pool.sealedList, ∃ a, (s.batch x).stamp = some a ∧ 1 ≤ (s.pool.stamp - a).toNat
      ∧ (s.pool.stamp - a).toNat ≤ 2147483647) →
    (s.pool.sealedList.Pairwise fun x y => ¬((s.batch x).urgency = some .routine ∧ (s.batch y).urgency = some .urgent)) →
    let isUrgent := fun x => decide ((s.batch x).urgency = some .urgent)
    let stamped := s.modBatch b fun r => { r with state := .sealed, stamp := some s.pool.stamp }
    let done := { stamped with
      pool := { stamped.pool with
        stamp := s.pool.stamp + 1
        sealedList := match u with
          | .urgent => s.pool.sealedList.filter isUrgent ++ b :: s.pool.sealedList.filter fun x => !isUrgent x
          | .routine => s.pool.sealedList ++ [b]
        counters := { s.pool.counters with sealedAge := s.pool.counters.sealedAge + 1 } } }
    ((s.batch b).state = (match u with
        | .urgent => .openUrgent
        | .routine => .openRoutine) →
      (MayStart done → exec (.sealTimeExpiry u) s = .next (startBurst done))
      ∧ (¬MayStart done → exec (.sealTimeExpiry u) s = .next done))
    ∧ ((∀ a, (s.batch a).state ≠ match u with
        | .urgent => .openUrgent
        | .routine => .openRoutine) → exec (.sealTimeExpiry u) s = .next s))
  ∧ ∀ before s : State,
      (s.pool.stamp = before.pool.stamp → afterSeal before s = s)
      ∧ (s.pool.stamp ≠ before.pool.stamp → MayStart s → afterSeal before s = startBurst s)
      ∧ (¬MayStart s → afterSeal before s = s)

/-! ### The drain protocol (spec/08) -/

/-- A DRAIN-OPEN (R129): refused with BUSY while a drain is open and with PROTOCOL for its credit, the record standing;
EMPTY when nothing is sealed, each told to the collector in a DRAIN-END with the frame's tag and zero counts (R140);
otherwise the drain opens and its first burst takes the head of the sealed list, an open urgent batch having been sealed
first. A burst starts with every entry of its batch to send and its CRC at the seed 0xC3A5, and its first frame is built at
once (R130, R131, R132; the statement on burst frames says what a frame takes). -/
def Obligations.DrainOpenStartsTheFirstBurst : Prop :=
  (∀ (h : RxHeader) (tag : U16) (credit : Byte) (s : State), FromCollector s h → PoolSound s → DrainSound s.drain →
    let n := s.drain.counters
    let ranged := 1 ≤ credit.toNat ∧ credit.toNat ≤ 16
    let urgentOpen := ∃ b, (s.batch b).state = .openUrgent
    let told := fun (t : State) (o : DrainOutcome) =>
      let p := s.drainEnded s.received.port h.src
        { tag := tag, outcome := o, started := 0, good := 0, firstFailed := none, delivered := 0 }
      t.port = p.1 ∧ t.drain.counters.endDropped = n.endDropped + (if p.2 then 0 else 1)
    ∃ t, exec (.drainOpen h tag credit) s = .next t
      ∧ (∃ port ree pool drain, t = { s with port := port, ree := ree, pool := pool, drain := drain })
      ∧ (s.drain.state ≠ .closed → t.pool = s.pool ∧ t.drain = { s.drain with counters := t.drain.counters }
          ∧ t.drain.counters.busyRefused = n.busyRefused + 1 ∧ told t .busy)
      ∧ (s.drain.state = .closed → ¬ranged →
          t.pool = s.pool ∧ t.drain = { s.drain with counters := t.drain.counters }
          ∧ t.drain.counters.openRefused = n.openRefused + 1 ∧ told t .protocol)
      ∧ (s.drain.state = .closed → ranged → s.pool.sealedList = [] → ¬urgentOpen →
          t.pool = s.pool
          ∧ t.drain = { s.drain with tag := some tag, lastOutcome := some .empty, counters := t.drain.counters }
          ∧ t.drain.counters.empty = n.empty + 1 ∧ told t .empty)
      ∧ (s.drain.state = .closed → ranged → s.pool.sealedList ≠ [] ∨ urgentOpen →
          t.drain.state = .sending ∧ t.drain.tag = some tag ∧ t.drain.credit = some credit.toNat
          ∧ t.drain.started = 1 ∧ t.drain.good = 0 ∧ t.drain.delivered = 0 ∧ t.drain.firstFailed = none
          ∧ t.drain.cause = none ∧ t.drain.lastOutcome = none ∧ t.drain.counters.opened = n.opened + 1
          ∧ t.drain.counters.started = n.started + 1
          ∧ (∀ b, (t.batch b).state ≠ .openUrgent)
          ∧ ∃ w f, t.drain.window = [w] ∧ w.index = 1 ∧ w.phase = .sending ∧ (t.batch w.batch).state = .inFlight
            ∧ t.drain.staging = some f ∧ f.number = 0 ∧ f.index = 1 ∧ f.tag = tag
            ∧ (¬urgentOpen → s.pool.sealedList = w.batch :: t.pool.sealedList)
            ∧ (let started := fun u : State => t = startBurst (u.modDrain fun d =>
                 { d with
                   state := .sending, tag := some tag, credit := some credit.toNat, started := 0, good := 0
                   firstFailed := none, delivered := 0, cause := none, lastOutcome := none, pause := none, window := []
                   staging := none, counters := { d.counters with opened := d.counters.opened + 1 } })
               (¬urgentOpen → started s.received)
               ∧ ∀ b, (s.batch b).state = .openUrgent → started (sealBatch b .drainOpen s.received))))
  ∧ ∀ (b : BatchId) (rest : List BatchId) (s : State), s.pool.sealedList = b :: rest →
      let w : Burst :=
        { index := s.drain.started + 1, batch := b, count := (s.batch b).entries.length
          remaining := (s.batch b).entries, crc := 0xC3A5#16, phase := .sending, check := none
          framesBuilt := 0, framesSent := 0 }
      let u := s.modBatch b fun r => { r with state := .inFlight }
      startBurst s = buildFrame w { u with
        pool := { u.pool with sealedList := rest }
        drain := { s.drain with
          started := s.drain.started + 1, window := s.drain.window ++ [w]
          counters := { s.drain.counters with started := s.drain.counters.started + 1 } } }

/-- A DRAIN-CHECK of the open drain (R133, R134): one that names the oldest burst, awaiting its check, judges it by the
CRC, good or failed; any other terminates a SENDING or PAUSED drain with PROTOCOL, the batches of its window returned to the
pool, the half-sent one first, and a DRAIN-END sent (R124, R139, R140; log 13), and is a late check in CLOSING.
The batch of a good burst is FREE and the references to it are cleared (R123); that of a failed one is returned, pruned of
the entries that are no longer live, to its place in the sealed list, or FREE when none is left (R124). After the judgement
the next burst starts in SENDING when the start condition holds (R130); a SENDING or PAUSED drain whose window is empty ends
COMPLETE with its credit used up, else SHORT with nothing sealed (R135), and a CLOSING one ends with STOP (R138), each told
to the collector in a DRAIN-END with the figures of the record (R140). -/
def Obligations.DrainCheckJudgesTheOldestBurst : Prop :=
  (∀ (h : RxHeader) (tag : U16) (index : Byte) (crc : U16) (s : State), FromCollector s h → DrainSound s.drain →
    s.drain.state ≠ .closed → s.drain.tag = some tag →
    let n := s.drain.counters
    let named := fun w : Burst => s.drain.window.head? = some w ∧ w.phase = .awaiting ∧ w.index = index.toNat
    ∃ t, exec (.drainCheck h tag index crc) s = .next t
      ∧ (∃ port ree pool drain, t = { s with port := port, ree := ree, pool := pool, drain := drain })
      ∧ (∀ w, named w → crc = w.crc →
          t.drain.good = s.drain.good + 1 ∧ t.drain.delivered = s.drain.delivered + w.count
          ∧ t.drain.firstFailed = s.drain.firstFailed ∧ t.drain.counters.good = n.good + 1
          ∧ (∀ v ∈ t.drain.window, v.index ≠ w.index)
          ∧ (∀ i slot, (s.reefer i).ref = some (w.batch, slot) → (t.reefer i).ref = none)
          ∧ t.batch w.batch = {}
          ∧ ∃ v, t = afterJudgement v ∧ (∀ b, v.batch b = if b = w.batch then {} else s.batch b)
            ∧ (∀ i, v.reefer i =
                { s.reefer i with
                  ref := if (s.reefer i).ref.map Prod.fst = some w.batch then none else (s.reefer i).ref })
            ∧ v = { s.received with
                ree := { s.ree with reefers := v.ree.reefers }
                pool := { s.pool with
                  batches := v.pool.batches, sealedList := s.pool.sealedList.filter fun b => decide (b ≠ w.batch)
                  exhausted := false, counters := { s.pool.counters with good := s.pool.counters.good + 1 } }
                drain := { s.drain with
                  window := s.drain.window.tail, good := s.drain.good + 1, delivered := s.drain.delivered + w.count
                  counters := { n with good := n.good + 1 } } })
      ∧ (∀ w, named w → crc ≠ w.crc →
          t.drain.good = s.drain.good ∧ t.drain.delivered = s.drain.delivered
          ∧ t.drain.firstFailed = (if s.drain.firstFailed = none then some w.index else s.drain.firstFailed)
          ∧ t.drain.counters.failed = n.failed + 1 ∧ (∀ v ∈ t.drain.window, v.index ≠ w.index)
          ∧ ∃ v, t = afterJudgement v
            ∧ BatchReturned w.batch (s.received.modDrain fun d =>
                { d with
                  window := d.window.tail
                  firstFailed := if d.firstFailed = none then some w.index else d.firstFailed
                  counters := { n with failed := n.failed + 1 } }) v)
      ∧ ((∀ w, ¬named w) → s.drain.state = .sending ∨ s.drain.state = .paused →
          DrainTerminated .protocol s.received t ∧ t.drain.counters.protocol = n.protocol + 1)
      ∧ ((∀ w, ¬named w) → s.drain.state = .closing →
          t = s.received.countDrain fun k => { k with lateCheck := k.lateCheck + 1 }))
  ∧ (∀ (b : BatchId) (s : State), BatchReturned b s (batchReturn b s))
  ∧ (∀ s : State, s.params.collector.isSome →
       let d := s.drain
       let ends := d.state = .sending ∧ ¬MayStart s ∨ d.state = .paused
       (MayStart s → afterJudgement s = startBurst s)
       ∧ (ends → d.window ≠ [] → afterJudgement s = s)
       ∧ (ends → d.window = [] → d.credit.getD 0 ≤ d.started → afterJudgement s = closeDrain .complete s)
       ∧ (ends → d.window = [] → d.started < d.credit.getD 0 → s.pool.sealedList = [] →
         afterJudgement s = closeDrain .short s)
       ∧ (ends → d.window = [] → d.started < d.credit.getD 0 → s.pool.sealedList ≠ [] → afterJudgement s = s)
       ∧ (d.state = .closing → d.window = [] → afterJudgement s = closeDrain .stop s)
       ∧ (d.state = .closing → d.window ≠ [] → afterJudgement s = s))
  ∧ ∀ (o : DrainOutcome) (tag : U16) (s : State), s.drain.tag = some tag →
      o ∉ [DrainOutcome.empty, .busy, .linkLoss] →
      let d := s.drain
      let k := d.counters
      let counted := match o with
        | .complete => { k with complete := k.complete + 1 }
        | .short => { k with short := k.short + 1 }
        | .stop => { k with stopped := k.stopped + 1 }
        | .pauseLimit => { k with pauseLimit := k.pauseLimit + 1 }
        | .checkTimeout => { k with checkTimeout := k.checkTimeout + 1 }
        | .protocol => { k with protocol := k.protocol + 1 }
        | .empty | .busy | .linkLoss => k
      let closed := fun (p : Port) (told : Bool) => closeDrain o s = { s with
        port := p
        drain := { d with
          state := .closed, pause := none, lastOutcome := some o
          counters := { counted with endDropped := k.endDropped + (if told then 0 else 1) } } }
      (s.params.collector = none → closed s.port false)
      ∧ ∀ a, s.params.collector = some a →
        let p := s.drainEnded s.port a
          { tag := tag, outcome := o, started := d.started, good := d.good, firstFailed := d.firstFailed
            delivered := d.delivered }
        closed p.1 p.2

/-- A DRAIN-PAUSE in SENDING pauses the drain and starts the pause timer (R136); a DRAIN-RESUME in PAUSED stops it and
makes the drain SENDING; it goes on with a half-sent burst by its next frame, and tests the start condition when there is
none (R137), which ends the drain SHORT with the window and the sealed list empty and credit left (R135). A resume with a
frame still offered waits for its send report (log 13). A DRAIN-STOP in SENDING or PAUSED withdraws a half-sent burst: its
frame leaves the drain queue if it still waits there, or its report is marked to be disregarded (log 13), the burst sets
the first failed index if that is none, and its batch is returned to the pool (R124, R139, R147); it keeps the bursts
awaiting their checks, and closes the drain at once when there are none, telling the collector in a DRAIN-END with the
figures of the record (R138, R140). In any other state of an open drain each is ignored. -/
def Obligations.DrainPauseResumeAndStop : Prop :=
  ∀ (h : RxHeader) (tag : U16) (s : State), FromCollector s h → DrainSound s.drain → s.drain.state ≠ .closed →
    s.drain.tag = some tag →
    let ignored := s.received.countDrain fun k => { k with ignored := k.ignored + 1 }
    (s.drain.state = .sending →
      exec (.drainPause h tag) s = .next (s.received.modDrain fun d =>
        { d with
          state := .paused, pause := some (s.params.pauseLimitMs * 4)
          counters := { d.counters with pauses := d.counters.pauses + 1 } }))
    ∧ (s.drain.state ≠ .sending → exec (.drainPause h tag) s = .next ignored)
    ∧ (s.drain.state = .paused → s.drain.window ≠ [] ∨ s.pool.sealedList ≠ [] →
      ∃ t, exec (.drainResume h tag) s = .next t
        ∧ (∃ port ree pool drain, t = { s with port := port, ree := ree, pool := pool, drain := drain })
        ∧ t.drain.state = .sending ∧ t.drain.pause = none
        ∧ ∀ w ∈ s.drain.window, w.phase = .sending → s.drain.staging = none →
          ∃ f v, t.drain.staging = some f ∧ f.index = w.index ∧ f.number = w.framesBuilt ∧ v ∈ t.drain.window
            ∧ v.index = w.index ∧ v.framesBuilt = w.framesBuilt + 1
            ∧ v.crc = crcOver w.crc (f.entries.flatMap Entry.octets) ∧ w.remaining = f.entries ++ v.remaining)
    ∧ (let resumed := s.received.modDrain fun d => { d with state := .sending, pause := none }
       s.drain.state = .paused →
         (s.drain.halfSent = [] → exec (.drainResume h tag) s = .next (startTest resumed))
         ∧ (∀ w ∈ s.drain.halfSent,
             (s.drain.staging = none → exec (.drainResume h tag) s = .next (buildFrame w resumed))
             ∧ (s.drain.staging ≠ none → exec (.drainResume h tag) s = .next resumed))
         ∧ (s.drain.window = [] → s.pool.sealedList = [] → s.drain.started < s.drain.credit.getD 0 →
           exec (.drainResume h tag) s = .next (closeDrain .short resumed)))
    ∧ (s.drain.state ≠ .paused → exec (.drainResume h tag) s = .next ignored)
    ∧ (s.drain.state = .sending ∨ s.drain.state = .paused →
      ∃ t, exec (.drainStop h tag) s = .next t
        ∧ (∃ port ree pool drain, t = { s with port := port, ree := ree, pool := pool, drain := drain })
        ∧ t.drain.cause = some .stop ∧ t.drain.pause = none
        ∧ t.drain.window = (s.drain.window.filter fun w => w.phase == .awaiting)
        ∧ t.drain =
          { s.drain with
            state := t.drain.state, cause := some .stop, pause := none, window := t.drain.window
            staging := if s.drain.halfSent = [] then s.drain.staging else none
            disregard := s.withdrawnMark
            firstFailed :=
              if s.drain.firstFailed = none then s.drain.halfSent.head?.map Burst.index else s.drain.firstFailed
            lastOutcome := t.drain.lastOutcome
            counters := { s.drain.counters with
              failed := s.drain.counters.failed + BitVec.ofNat 32 s.drain.halfSent.length
              stopped := t.drain.counters.stopped, endDropped := t.drain.counters.endDropped } }
        ∧ (let v := s.drain.halfSent.foldl (fun v w => batchReturn w.batch v) s
           t.pool = v.pool ∧ t.ree = v.ree)
        ∧ (if ∀ w ∈ s.drain.window, w.phase ≠ .awaiting then
            let told := s.drainEnded s.received.withdrawnPort h.src
              { tag := tag, outcome := .stop, started := s.drain.started, good := s.drain.good
                firstFailed := t.drain.firstFailed, delivered := s.drain.delivered }
            t.drain.state = .closed ∧ t.drain.lastOutcome = some .stop
            ∧ t.drain.counters.stopped = s.drain.counters.stopped + 1 ∧ t.port = told.1
            ∧ t.drain.counters.endDropped = s.drain.counters.endDropped + (if told.2 then 0 else 1)
          else
            t.drain.state = .closing ∧ t.drain.lastOutcome = s.drain.lastOutcome
            ∧ t.drain.counters = { s.drain.counters with failed := t.drain.counters.failed }
            ∧ t.port = s.received.withdrawnPort))
    ∧ (s.drain.state = .closing → exec (.drainStop h tag) s = .next ignored)

/-- The check timer of an awaiting burst terminates a SENDING or PAUSED drain with CHECK-TIMEOUT, every burst leaving the
window, and fails the burst in CLOSING, whose batch is returned to the pool (R124); when the window is then empty the drain
ends with STOP, told in a DRAIN-END (R133, R138, R139, R140). The pause timer terminates a PAUSED drain with PAUSE-LIMIT
(R136). A termination empties the staging area of a half-sent burst and withdraws its frame if it still waits, the report of one
already chosen being marked to be disregarded (R139, R147; log 13), returns its batch to the pool and then those of the
other bursts in window order (R124, R139), and tells the collector in a DRAIN-END with the figures of the record as it
closed; without a collector address, or refused, it is counted as dropped (R140). An expiry command is taken whenever its
timer runs (log 2). -/
def Obligations.DrainTimersTerminateTheDrain : Prop :=
  ∀ (index : Nat) (s : State), s.held = false → DrainSound s.drain →
    let awaits := fun w : Burst => w ∈ s.drain.window ∧ w.phase = .awaiting ∧ w.index = index
    let ended := fun (c : Instr) (o : DrainOutcome) => ∃ t, exec c s = .next t ∧ DrainTerminated o s t
    (∀ w, awaits w → s.drain.state = .sending ∨ s.drain.state = .paused → ended (.checkTimerExpiry index) .checkTimeout)
    ∧ (∀ w, awaits w → s.drain.state = .closing →
      ∃ t v, exec (.checkTimerExpiry index) s = .next t ∧ PoolOnly s t
        ∧ BatchReturned w.batch (s.modDrain fun d =>
            { d with
              window := d.window.filter fun x => x.index != index
              firstFailed := if d.firstFailed = none then some index else d.firstFailed
              counters := { d.counters with failed := d.counters.failed + 1 } }) v
        ∧ (v.drain.window ≠ [] → t = v)
        ∧ (v.drain.window = [] → t.drain.state = .closed ∧ ∀ tag, s.drain.tag = some tag →
          let told := fun a => s.drainEnded s.port a
            { tag := tag, outcome := .stop, started := s.drain.started, good := s.drain.good
              firstFailed := v.drain.firstFailed, delivered := s.drain.delivered }
          let closed := fun (p : Port) (taken : Bool) => t = { v with
            port := p
            drain := { v.drain with
              state := .closed, pause := none, lastOutcome := some .stop
              counters := { v.drain.counters with
                stopped := v.drain.counters.stopped + 1
                endDropped := v.drain.counters.endDropped + (if taken then 0 else 1) } } }
          (s.params.collector = none → closed s.port false)
          ∧ ∀ a, s.params.collector = some a → closed (told a).1 (told a).2))
    ∧ ((∀ w, ¬awaits w) → exec (.checkTimerExpiry index) s = .next s)
    ∧ (s.drain.state = .paused → ended .pauseTimerExpiry .pauseLimit)
    ∧ (s.drain.state ≠ .paused → exec .pauseTimerExpiry s = .next s)

/-- A DRAIN-BURST frame reported sent (R131, R150): the burst's LAST frame puts the burst in AWAITING with its check timer
at the check wait, and the start condition is tested (R130), which in SENDING ends the drain when the sealed list and the
window are empty (R135); another frame is followed at once by the next one in SENDING, and by none in PAUSED. The report
of a frame withdrawn after the arbiter had chosen it is disregarded: the frame is counted as sent, the mark is cleared,
the arbiter chooses, and the drain goes on as it was (R139, R147; log 13). A frame takes the entries of its burst in order
until one would bring it past 1,024 octets, carries the seal stamp, urgency and entry count when it is the first and the
LAST mark when none is left, the CRC running on over what it takes (R131, R132), and is offered to the drain queue for the
collector's address (R131, R147). With the collector address cleared the drain terminates with PROTOCOL instead, and its
DRAIN-END is counted as dropped (R131, R139, R140). -/
def Obligations.SentBurstFrameIsFollowedUp : Prop :=
  (∀ (f : TxFrame) (b : BurstFrame) (w : Burst) (s : State), s.held = false → s.port.tx = some (.drain, f) →
    s.params.collector.isSome → s.drain.disregard = false → s.drain.staging = some b → DrainSound s.drain →
    w ∈ s.drain.window → w.phase = .sending →
    ∃ t, exec .frameSent s = .next t ∧ PoolOnly s t
      ∧ t.port.counters.drain.sent = s.port.counters.drain.sent + 1
      ∧ t.drain.counters.framesSent = s.drain.counters.framesSent + 1
      ∧ (b.last = true →
          { w with framesSent := w.framesSent + 1, phase := .awaiting, check := some (s.params.checkWaitMs * 4) }
            ∈ t.drain.window)
      ∧ (b.last = false → s.drain.state = .sending →
          ∃ g, t.drain.staging = some g ∧ g.index = w.index ∧ g.number = w.framesBuilt ∧ g.head.isSome = (w.framesBuilt == 0))
      ∧ (b.last = false → s.drain.state = .paused →
          t.drain.staging = none ∧ { w with framesSent := w.framesSent + 1 } ∈ t.drain.window))
  ∧ (∀ (f : TxFrame) (b : BurstFrame) (w : Burst) (s : State), s.held = false → s.port.tx = some (.drain, f) →
       s.drain.disregard = false → s.drain.staging = some b → DrainSound s.drain →
       w ∈ s.drain.window → w.phase = .sending →
       let after := fun v : Burst => { s with
         port := s.port.countClass .drain fun k => { k with sent := k.sent + 1 }
         drain := { s.drain with
           window := s.drain.window.map fun x => if x.index = w.index then v else x, staging := none
           counters := { s.drain.counters with framesSent := s.drain.counters.framesSent + 1 } } }
       let sent := { w with framesSent := w.framesSent + 1 }
       let granted := fun v : State => exec .frameSent s =
         .next { v with port := Port.choose { v.port with tx := none } }
       (b.last = true →
         granted (startTest (after { sent with phase := .awaiting, check := some (s.params.checkWaitMs * 4) })))
       ∧ (b.last = false → s.drain.state = .sending → granted (buildFrame sent (after sent)))
       ∧ (b.last = false → s.drain.state ≠ .sending → granted (after sent)))
  ∧ (∀ (f : TxFrame) (s : State), s.held = false → s.port.tx = some (.drain, f) → s.drain.disregard = true →
       let counted := s.port.countClass .drain fun k => { k with sent := k.sent + 1 }
       exec .frameSent s =
         .next { s with port := Port.choose { counted with tx := none }, drain := { s.drain with disregard := false } })
  ∧ (∀ s : State, s.drain.state = .sending →
       let d := s.drain
       (MayStart s → startTest s = startBurst s)
       ∧ (¬MayStart s → d.window ≠ [] ∨ s.pool.sealedList ≠ [] → startTest s = s)
       ∧ (d.window = [] → s.pool.sealedList = [] →
         (d.credit.getD 0 ≤ d.started → startTest s = closeDrain .complete s)
         ∧ (d.started < d.credit.getD 0 → startTest s = closeDrain .short s)))
  ∧ (∀ (w : Burst) (a : Addr) (tag : U16) (s : State), s.params.collector = some a → s.drain.tag = some tag →
       ∃ f v, FramePacked tag (s.batch w.batch) w f v
         ∧ buildFrame w s = { s with
             port := (s.port.offer .drain
               { dst := a, src := s.mgmtAddress, etherType := s.params.quayType, content := .drainBurst f }).1
             drain := { s.drain with
               window := s.drain.window.map fun x => if x.index = w.index then v else x, staging := some f } })
  ∧ ∀ (w : Burst) (s : State), s.params.collector = none → DrainSound s.drain → s.drain.state ≠ .closed →
      let t := buildFrame w s
      DrainTerminated .protocol s t
      ∧ t.drain.counters.protocol = s.drain.counters.protocol + 1
      ∧ t.drain.counters.endDropped = s.drain.counters.endDropped + 1

/-! ### Management (spec/10) -/

/-- A MGMT-REQUEST from a source the manager list allows joins the request queue, or is answered BUSY when eight wait;
from any other source it is discarded and counted (R146, R155), and as a frame that has passed R145 it is counted as
received too (by inference, log 15). A request whose command the part does not know is answered UNKNOWN-REQUEST, and one
whose data does not fit its command or names a value the command does not allow is answered RANGE (R156, R166); each has
left the queue and is counted, and nothing else changes but an interleaved transaction. The answer to a load request
carries the transaction (R154), which a LOAD-SEGMENT or LOAD-END whose data does not fit leaves as it stands. The RANGE
answers to SET-PARAMS, and those to a run of reefers, a scope or a table that is none, are told with those requests. -/
def Obligations.RequestsAreQueuedOrRefused : Prop :=
  (∀ (h : RxHeader) (id command : U16) (data : List Byte) (s : State), Reaches s h →
     let q : Request := { src := h.src, id := id, command := command, data := data }
     let allowed := s.params.managers = [] ∨ h.src ∈ s.params.managers
     let o := s.received.port.offer .control (s.response q .busy false false .none)
     let n := s.mgmt.counters
     (allowed → s.mgmt.queue.length < 8 →
       exec (.mgmtRequest h id command data) s = .next (s.received.modMgmt fun m => { m with queue := m.queue ++ [q] }))
     ∧ (allowed → 8 ≤ s.mgmt.queue.length →
       exec (.mgmtRequest h id command data) s = .next { s with
         port := o.1
         mgmt := { s.mgmt with counters :=
           { n with busy := n.busy + 1, responsesRefused := n.responsesRefused + (if o.2 then 0 else 1) } } })
     ∧ (¬allowed →
       exec (.mgmtRequest h id command data) s =
         .next (s.received.countPort fun k => { k with managerRefused := k.managerRefused + 1 })))
  ∧ (∀ (q : Request) (rest : List Request) (s : State), s.held = false → s.mgmt.queue = q :: rest →
       let refused := fun (c : Instr) (status : Status) =>
         exec c s = .next ((s.taking q rest).answered q status s.abandonedFlag false .none)
       let kind := requestKind q.command
       (kind = none → refused .unknownRequest .unknownRequest)
       ∧ (q.data ≠ [] →
           (kind = some .identify → refused .identify .range) ∧ (kind = some .readParams → refused .readParams .range)
           ∧ (kind = some .readBatches → refused .readBatches .range) ∧ (kind = some .readDrain → refused .readDrain .range)
           ∧ (kind = some .restartTraffic → refused .restartTraffic .range)
           ∧ (kind = some .restartAll → refused .restartAll .range))
       ∧ ((∀ o, q.data = [o] → 12 ≤ o.toNat) →
           (kind = some .readCrane → refused .readCrane .range) ∧ (kind = some .releaseCrane → refused .releaseCrane .range))
       ∧ ((∀ o, q.data = [o] → 16 ≤ o.toNat) →
           (kind = some .readCell → refused .readCell .range) ∧ (kind = some .barCell → refused .barCell .range)
           ∧ (kind = some .unbarCell → refused .unbarCell .range))
       ∧ ((∀ o, q.data = [o] → 2 ≤ o.toNat) →
           (kind = some .readChain → refused .readChain .range) ∧ (kind = some .chainEnable → refused .chainEnable .range)
           ∧ (kind = some .chainDisable → refused .chainDisable .range))
       ∧ ((∀ o, q.data = [o] → 64 ≤ o.toNat) →
           (kind = some .readGroup → refused .readGroup .range) ∧ (kind = some .clearGroup → refused .clearGroup .range))
       ∧ ((∀ a b, q.data = [a, b] → 4096 ≤ a.toNat * 256 + b.toNat) →
           kind = some .clearExcursion → refused .clearExcursion .range)
       ∧ (q.data.length ≠ 3 → kind = some .readReefer → refused .readReefer .range)
       ∧ ((∀ code arg flag, q.data = code :: arg ++ [flag] →
             arg.length ≠ (if code.toNat = 1 ∨ code.toNat = 3 then 1 else if code.toNat = 4 then 3 else 0)) →
           kind = some .readCounters → refused .readCounters .range)
       ∧ (q.data.length ≠ 6 → kind = some .loadBegin →
           let u := s.taking q rest
           exec .loadBegin s =
             .next (u.answered q .range s.abandonedFlag false (.load none u.mgmt.staging.length)))
       ∧ (let toldLoad := fun c : Instr =>
            exec c s = .next ((s.takingLoad q rest).answered q .range s.mgmt.abandoned false
              (.load s.mgmt.load s.mgmt.staging.length))
          (q.data = [] → kind = some .loadSegment → toldLoad .loadSegment)
          ∧ (q.data.length ≠ 2 → kind = some .loadEnd → toldLoad .loadEnd)))

/-- IDENTIFY is answered OK with the identification record, and READ-PARAMS with every parameter, the manager list and
the strap octet; neither changes any state, but that each may abandon an open transaction (R159). -/
def Obligations.IdentifyAndReadParamsAnswer : Prop :=
  ∀ (q : Request) (rest : List Request) (s : State), q.data = [] →
    (HeadIs s .identify q rest →
      exec .identify s = .next ((s.taking q rest).answered q .ok s.abandonedFlag false
        (.identification 0x0240 1 [12, 16, 4096, 64, 32, 64, 1024]
          { craneLed := true, keepFrames := true, missMasking := true, generalLearning := true } s.params.features
          (s.params.mgmtHead ++ s.mgmt.strap))))
    ∧ (HeadIs s .readParams q rest →
      exec .readParams s = .next ((s.taking q rest).answered q .ok s.abandonedFlag false
        (.params s.params s.mgmt.strap)))

/-- READ-CRANE reports the state alone for a VACANT crane; for any other the record, with the queue as its pending sets
and the window as its base and count of marks (R60). READ-CELL, READ-CHAIN and READ-GROUP report the record as it stands
(R1, R23, R110, R166): every field of the cell; every field of the chain but the contents of its queue, for which the
depth stands (the image of the last cycle and the cycle timer are no fields of R1's table and left out, log 12); a
group's record, or that it is not defined. READ-REEFER reports a run of 1 to 16 reefers within the table, and answers
RANGE for any other run (R110). No read changes a record. The fields are told typed, and times in ms: what remains of a
timer rounded up, what has gone by rounded down (log 23), a next expiry as what remains to it (log 19). -/
def Obligations.ReadsReportTheRecords : Prop :=
  (∀ (q : Request) (rest : List Request) (k : CraneId) (s : State), HeadIs s .readCrane q rest →
     q.data = [BitVec.ofNat 8 k.val] →
     let c := s.crane k
     let reading : CraneReading :=
       { record := { c with queue := [], window := none, oldHoldOff := none, supervision := none }
         supervision := c.supervision.map fun n => (n + 3) / 4
         queueDests := c.queue.map DownEntry.dests
         window := c.window.map fun w => (w.base, ((List.range 64).filter fun i => w.marks.getLsbD i).length) }
     exec .readCrane s = .next ((s.taking q rest).answered q .ok s.abandonedFlag false
       (if c.state = .vacant then .vacantCrane else .crane reading)))
  ∧ (∀ (q : Request) (rest : List Request) (s : State),
       let told := fun (c : Instr) (d : ResponseData) =>
         exec c s = .next ((s.taking q rest).answered q .ok s.abandonedFlag false d)
       (∀ x : CellId, HeadIs s .readCell q rest → q.data = [BitVec.ofNat 8 x.val] →
         told .readCell (.cell x (if x.val < 8 then .N else .S) (s.cell x)))
       ∧ (∀ c : Chain, HeadIs s .readChain q rest → q.data = [match c with
           | .N => 0
           | .S => 1] →
         told .readChain
           (.chain
             { record := { s.chain c with
                 generalQ := [], cycleTimer := 0, line := none, backoff := none, stable := none, silence := 0 }
               backoff := (s.chain c).backoff.map fun n => (n + 3) / 4
               stable := (s.chain c).stable.map fun n => (n + 3) / 4
               silence := (s.chain c).silence / 4, depth := (s.chain c).generalQ.length }))
       ∧ ∀ g : GroupId, HeadIs s .readGroup q rest → q.data = [BitVec.ofNat 8 g.val] →
         told .readGroup (if (s.group g).defn = none then .undefinedGroup else .group (s.group g)))
  ∧ (∀ (q : Request) (rest : List Request) (a b n : Byte) (s : State), HeadIs s .readReefer q rest → q.data = [a, b, n] →
       let first := a.toNat * 256 + b.toNat
       let told := fun (status : Status) (d : ResponseData) =>
         exec .readReefer s = .next ((s.taking q rest).answered q status s.abandonedFlag false d)
       (first ≤ 4095 ∧ 1 ≤ n.toNat ∧ n.toNat ≤ 16 ∧ first + n.toNat ≤ 4096 →
         ∃ rs : List Reefer, told .ok (.reefers first rs) ∧ rs.length = n.toNat
           ∧ ∀ i : ReeferId, first ≤ i.val → i.val < first + n.toNat → rs[i.val - first]? = some (s.reefer i))
       ∧ (¬(first ≤ 4095 ∧ 1 ≤ n.toNat ∧ n.toNat ≤ 16 ∧ first + n.toNat ≤ 4096) → told .range .none))

/-- READ-BATCHES reports each batch by number with its count of marked entries, the sealed list, the number of FREE
batches, the stamp counter and the exhaustion flag (R125), the open age in whole ms of the count the model keeps (log 23);
READ-DRAIN the drain record, the bursts of the window without their CRCs, a check timer only in AWAITING, and the counters
(R142), the times remaining in ms, rounded up (log 23). Neither changes anything. -/
def Obligations.ReadsOfPoolAndDrainReport : Prop :=
  ∀ (q : Request) (rest : List Request) (s : State), q.data = [] →
    (HeadIs s .readBatches q rest →
      ∃ bs : List BatchReading,
        exec .readBatches s = .next ((s.taking q rest).answered q .ok s.abandonedFlag false
          (.batches bs s.pool.sealedList
            (allBatches.filter fun b => decide ((s.batch b).state = .free)).length s.pool.stamp s.pool.exhausted))
        ∧ bs.length = 32
        ∧ ∀ b : BatchId, bs[b.val]? = some
          { state := (s.batch b).state, urgency := (s.batch b).urgency, entries := (s.batch b).entries.length
            marked := ((s.batch b).entries.filter Entry.urgent).length, age := (s.batch b).age / 4
            stamp := (s.batch b).stamp })
    ∧ (HeadIs s .readDrain q rest →
      let d := s.drain
      exec .readDrain s = .next ((s.taking q rest).answered q .ok s.abandonedFlag false
        (.drain
          { state := d.state, tag := d.tag, credit := d.credit, started := d.started, good := d.good
            firstFailed := d.firstFailed, delivered := d.delivered, cause := d.cause, lastOutcome := d.lastOutcome
            pause := d.pause.map fun n => (n + 3) / 4, counters := d.counters
            window := d.window.map fun w =>
              { index := w.index, batch := w.batch, count := w.count, phase := w.phase, framesSent := w.framesSent
                check := if w.phase = .awaiting then w.check.map fun n => (n + 3) / 4 else none } })))

/-- READ-COUNTERS (R165): the counters of the scope as they stand; with the clear flag each counter returned is set to
0, and counters outside the scope are kept; the read itself is counted after the clear of the MANAGEMENT scope. -/
def Obligations.ReadCountersReportsAndClears : Prop :=
  ∀ (q : Request) (rest : List Request) (clear : Bool) (s : State), HeadIs s .readCounters q rest →
    let flag : Byte := if clear then 1 else 0
    let u := s.taking q rest
    let told := fun (t : State) (d : ResponseData) =>
      exec .readCounters s = .next (t.answered q .ok s.abandonedFlag false d)
    (q.data = [0, flag] →
      told (if clear then u.countPort fun _ => {} else u) (.portCounters s.port.counters))
    ∧ (∀ c : Chain, q.data = [1, match c with
        | .N => 0
        | .S => 1, flag] →
      told (if clear then u.countChain c fun _ => {} else u) (.chainCounters (s.chain c).counters))
    ∧ (q.data = [2, flag] → ∃ t,
        told t (.coverageCounters s.cov.counters (allCells.map fun x =>
          ((s.cell x).uplinkBlocks, (s.cell x).downlinkBlocks, (s.cell x).statusMisses)))
        ∧ t = { u with cov := { s.cov with counters := t.cov.counters, cells := t.cov.cells } }
        ∧ t.cov.counters = (if clear then {} else s.cov.counters)
        ∧ ∀ x, t.cell x = (if clear then
            { s.cell x with uplinkBlocks := 0, downlinkBlocks := 0, statusMisses := 0 } else s.cell x))
    ∧ (∀ k : CraneId, q.data = [3, BitVec.ofNat 8 k.val, flag] →
      told (if clear then { u.modCrane k (fun c => { c with counters := {} }) with
              clu := { (u.modCrane k (fun c => { c with counters := {} })).clu with unknownCrane := 0, unknownSubject := 0 } }
            else u)
        (.craneCounters s.clu.unknownCrane s.clu.unknownSubject (s.crane k).counters))
    ∧ (∀ (a b n : Byte), q.data = [4, a, b, n, flag] → 1 ≤ n.toNat → n.toNat ≤ 16 →
        a.toNat * 256 + b.toNat + n.toNat ≤ 4096 → ∃ t cs,
        told t (.reeferCounters s.ree.unknown cs) ∧ cs.length = n.toNat
        ∧ t = { u with ree := { s.ree with unknown := t.ree.unknown, reefers := t.ree.reefers } }
        ∧ t.ree.unknown = (if clear then 0 else s.ree.unknown)
        ∧ ∀ i : ReeferId, if a.toNat * 256 + b.toNat ≤ i.val ∧ i.val < a.toNat * 256 + b.toNat + n.toNat then
            cs[i.val - (a.toNat * 256 + b.toNat)]? = some (s.reefer i).counters
            ∧ t.reefer i = { s.reefer i with counters := if clear then {} else (s.reefer i).counters }
          else t.reefer i = s.reefer i)
    ∧ (q.data = [5, flag] → told (if clear then u.countPool fun _ => {} else u) (.poolCounters s.pool.counters))
    ∧ (q.data = [6, flag] → told (if clear then u.countDrain fun _ => {} else u) (.drainCounters s.drain.counters))
    ∧ (q.data = [7, flag] →
        told (if clear then u.countMgmt fun _ => {} else u) (.mgmtCounters u.mgmt.counters))
    ∧ ((∀ code arg flagOctet, q.data = code :: arg ++ [flagOctet] → 8 ≤ code.toNat ∨ 2 ≤ flagOctet.toNat)
        ∨ (∃ o f, q.data = [1, o, f] ∧ 2 ≤ o.toNat) ∨ (∃ o f, q.data = [3, o, f] ∧ 12 ≤ o.toNat)
        ∨ (∃ a b n f, q.data = [4, a, b, n, f]
            ∧ ¬(1 ≤ n.toNat ∧ n.toNat ≤ 16 ∧ a.toNat * 256 + b.toNat + n.toNat ≤ 4096)) →
        exec .readCounters s = .next (u.answered q .range s.abandonedFlag false .none))

/-- SET-PARAMS (R157, R158): a list refused changes nothing and is answered RANGE with its first item at fault; an
accepted list is answered with the address and quay type before it, CHANGED when a value differs, and then takes effect
together. A list of 1 to 19 items is accepted exactly when no two name the same parameter, each names one of the nineteen
with a value in its range, and the recover level then exceeds the fade level; each listed value is taken and every other
kept. The first item at fault is the first that repeats a parameter or is out of range (that it is the later of two that
name one parameter is the model's choice, and so is that the levels are judged only when no item is at fault by itself,
log 18). A list that is empty, has a count of 0 or above 19 or does not divide into its items is refused and names no item:
that it names none is the model's choice (log 18). The octet widths of the values and the position of a fault of the levels
are read from the spec by inference (log 18). A new seal time seals the open batch of its urgency by age when that batch's
open age already stands at or above it, and the start condition is tested (R113, R130); the order of two such seals is the
next choice (log 8), the test following each (log 29). -/
def Obligations.SetParamsTakesTheWholeListOrNone : Prop :=
  (∀ (q : Request) (rest : List Request) (s : State), HeadIs s .setParams q rest →
    (∀ n, judgeParams s.params q.data = .atFault n →
      exec .setParams s = .next ((s.taking q rest).answered q .range s.abandonedFlag false (.itemAtFault n)))
    ∧ ∀ new, judgeParams s.params q.data = .accepted new →
      let told := (s.taking q rest).answered q .ok s.abandonedFlag (new != s.params) .none
      ∃ t, exec .setParams s = .next t ∧ t.params = new
        ∧ (∃ port ree pool drain choices,
            t = { told with port := port, ree := ree, pool := pool, drain := drain, choices := choices
                            mgmt := { told.mgmt with params := new } })
        ∧ (new.urgentSealMs = s.params.urgentSealMs → new.routineSealS = s.params.routineSealS →
            t = { told with mgmt := { told.mgmt with params := new } })
        ∧ (let w := { told with mgmt := { told.mgmt with params := new } }
           let urgentDue := fun a => (s.batch a).state = .openUrgent ∧ new.urgentSealMs ≠ s.params.urgentSealMs
             ∧ new.urgentSealMs * 4 ≤ (s.batch a).age
           let routineDue := fun b => (s.batch b).state = .openRoutine ∧ new.routineSealS ≠ s.params.routineSealS
             ∧ new.routineSealS * 4000 ≤ (s.batch b).age
           let aged := fun (b : BatchId) (v : State) => afterSeal v (sealBatch b .age v)
           PoolSound s →
             ((∀ a, ¬urgentDue a) → (∀ b, ¬routineDue b) → t = w)
             ∧ (∀ a, urgentDue a → (∀ b, ¬routineDue b) → t = aged a w)
             ∧ (∀ b, routineDue b → (∀ a, ¬urgentDue a) → t = aged b w)
             ∧ ∀ a b, urgentDue a → routineDue b →
               let v := { w with choices := s.choices.tail }
               t = if s.choices.headD false then aged a (aged b v) else aged b (aged a v)))
  ∧ (∀ (p : Params) (l : List ParamItem), 1 ≤ l.length → l.length ≤ 19 →
       (∀ i ∈ l, i.number ≤ 255 ∧ i.value.length ≤ 255) →
       let data := octetsOf 1 l.length ++ l.flatMap ParamItem.octets
       let good := (l.map ParamItem.number).Nodup ∧ ∀ i ∈ l, i.InRange
       let fade := ((listedValue l 10).map valueOf).getD p.fadeLevel
       let recover := ((listedValue l 11).map valueOf).getD p.recoverLevel
       (good → fade < recover → ∃ new, judgeParams p data = .accepted new
         ∧ ∀ n, 1 ≤ n → n ≤ 19 → new.value n = (listedValue l n).getD (p.value n))
       ∧ (good → recover ≤ fade → ∃ n, judgeParams p data = .atFault n)
       ∧ ∀ n i, l[n]? = some i → ((l.take n).map ParamItem.number).Nodup →
         (∀ j ∈ l.take n, j.InRange) →
         ¬i.InRange ∨ (∃ j ∈ l.take n, j.number = i.number) → judgeParams p data = .atFault (some n))
  ∧ (∀ (p : Params) (count : Byte) (octets : List Byte),
       count = 0 ∨ 19 < count.toNat
         ∨ (∀ l : List ParamItem, l.length = count.toNat → (∀ i ∈ l, i.number ≤ 255 ∧ i.value.length ≤ 255) →
           octets ≠ l.flatMap ParamItem.octets) →
       judgeParams p [] = .atFault none ∧ judgeParams p (count :: octets) = .atFault none)

/-- LOAD-BEGIN (R160): an open transaction is first abandoned; RANGE for a table that is none of the five, a segment
count outside 1-64 or a total length of 0; TOO-LARGE past 65,536 octets or 1,024 octets for each segment; otherwise a
transaction opens with an empty staging memory, its index at 0, its CRC at the seed 0xFFFF and its timer at 2 s. -/
def Obligations.LoadBeginOpensATransaction : Prop :=
  ∀ (q : Request) (rest : List Request) (table n a b c d : Byte) (s : State), HeadIs s .loadBegin q rest →
    q.data = [table, n, a, b, c, d] →
    let total := ((a.toNat * 256 + b.toNat) * 256 + c.toNat) * 256 + d.toNat
    let ranged := table.toNat ≤ 4 ∧ 1 ≤ n.toNat ∧ n.toNat ≤ 64 ∧ total ≠ 0
    let u := s.taking q rest
    let refused := fun status : Status =>
      exec .loadBegin s = .next (u.answered q status s.abandonedFlag false (.load none u.mgmt.staging.length))
    (¬ranged → refused .range)
    ∧ (ranged → 65536 < total ∨ 1024 * n.toNat < total → refused .tooLarge)
    ∧ (ranged → total ≤ 65536 → total ≤ 1024 * n.toNat →
      let opened : Transaction :=
        { table := (match table.toNat with
            | 0 => .cranes
            | 1 => .cells
            | 2 => .coverage
            | 3 => .reefers
            | _ => .groups)
          segments := n.toNat, total := total, next := 0, crc := 0xFFFF#16 }
      exec .loadBegin s = .next
        ((u.modMgmt fun m =>
          { m with
            load := some opened, staging := [], timer := some (2000 * 4)
            counters := { m.counters with opened := m.counters.opened + 1 } }).answered
          q .ok s.abandonedFlag false (.load (some opened) 0)))

/-- LOAD-SEGMENT (R161): NO-LOAD without a transaction; SEQUENCE for an index other than the next; TOO-LARGE for more
than 1,024 octets or past the total length; both refusals abandon the transaction; a segment that passes is appended,
with the running CRC carried on, the index advanced and the timer at 2 s again. The expiry of the transaction timer
abandons the open transaction with TIMEOUT and sets the abandoned-pending flag, for the next response to report (R162);
with no transaction open nothing is due. That the expiry is taken whatever the timer reads is the model's choice (log 2).
-/
def Obligations.LoadSegmentIsAppendedInOrder : Prop :=
  (∀ (q : Request) (rest : List Request) (index : Byte) (payload : List Byte) (s : State),
     HeadIs s .loadSegment q rest → q.data = index :: payload →
     let u := s.takingLoad q rest
     let told := fun (v : State) (status : Status) =>
       exec .loadSegment s =
         .next (v.answered q status s.mgmt.abandoned false (.load v.mgmt.load v.mgmt.staging.length))
     (s.mgmt.load = none → told u .noLoad)
     ∧ ∀ t, s.mgmt.load = some t →
       let dropped := u.modMgmt fun m =>
         { m with
           load := none, staging := [], timer := none
           counters := { m.counters with abandonedRefused := m.counters.abandonedRefused + 1 } }
       let tooLarge := 1024 < payload.length ∨ t.total < s.mgmt.staging.length + payload.length
       (index.toNat ≠ t.next ∨ t.segments ≤ index.toNat → told dropped .sequence)
       ∧ (index.toNat = t.next → index.toNat < t.segments → tooLarge → told dropped .tooLarge)
       ∧ (index.toNat = t.next → index.toNat < t.segments → ¬tooLarge →
         told (u.modMgmt fun m =>
           { m with
             load := some { t with next := t.next + 1, crc := crcOver t.crc payload }
             staging := m.staging ++ payload, timer := some (2000 * 4) }) .ok))
  ∧ (∀ s : State, s.held = false →
       (s.mgmt.load ≠ none →
         exec .transactionTimerExpiry s = .next (s.modMgmt fun m =>
           { m with
             load := none, staging := [], timer := none, abandoned := true
             counters := { m.counters with abandonedTimeout := m.counters.abandonedTimeout + 1 } }))
       ∧ (s.mgmt.load = none → exec .transactionTimerExpiry s = .next s))

/-- LOAD-END (R163): NO-LOAD without a transaction; SEQUENCE with a segment missing, RANGE for the staged count and
CRC-MISMATCH for the CRC, each abandoning the transaction; content its owner refuses changes no record; content that
passes is applied, answered OK with the number of entries, and the transaction is closed. Content is refused exactly when
something is at fault by the owner's rule (R25, R37, R39, R46, R93, R95), with RANGE before DUPLICATE-ADDRESS before
IN-USE. An apply stores the listed definitions: of cranes (R47), a live crane's raised hold-off being used from its next
position report on and a lowered one at once (R47, R78; several loads before that report: log 31), of cells, each one event
that sets its change flag and hands on its usability change, in the order of the entries (R25, R31, R34), of the
whole map, to which the shadow sets of the live cranes are then brought, crane by crane, by claims that set change flags
and hand on usability changes as each does (R31, R33, R34, R37, R53), of reefers, which become EXPECTED or
VACANT or keep their fields by the action (R96), and of groups (R93); the rest of each table stands. The directory makes,
moves and removes the entries of the definitions and evicts the general units in their way (R39). The position of the
first fault, and what lies in no single entry, is the model's reading (log 20); what follows the apply is taken after the
response (log 9). -/
def Obligations.LoadEndRefusesOrApplies : Prop :=
  (∀ (q : Request) (rest : List Request) (a b : Byte) (s : State), HeadIs s .loadEnd q rest → q.data = [a, b] →
    let u := s.takingLoad q rest
    let told := fun (v : State) (status : Status) (d : ResponseData) =>
      exec .loadEnd s = .next (v.answered q status s.mgmt.abandoned false d)
    (s.mgmt.load = none → told u .noLoad (.load none s.mgmt.staging.length))
    ∧ ∀ t, s.mgmt.load = some t →
      let closed := fun f : MgmtCounters → MgmtCounters => u.modMgmt fun m =>
        { m with load := none, staging := [], timer := none, counters := f m.counters }
      let refused := fun status : Status =>
        told (closed fun k => { k with abandonedRefused := k.abandonedRefused + 1 }) status (.load none 0)
      let complete := t.segments ≤ t.next
      let counted := s.mgmt.staging.length = t.total
      let agrees := a.toNat * 256 + b.toNat = t.crc.toNat
      (¬complete → refused .sequence)
      ∧ (complete → ¬counted → refused .range)
      ∧ (complete → counted → ¬agrees → refused .crcMismatch)
      ∧ (complete → counted → agrees →
        (∀ f, loadFault t.table s.mgmt.staging s = some f →
          told (closed fun k => { k with refused := k.refused + 1 }) f.status (.loadRefused f.position none 0))
        ∧ (loadFault t.table s.mgmt.staging s = none →
          ∃ v, exec .loadEnd s = .next v
            ∧ (∃ p cov clu ree pool drain ev, v = { s with
                port := p, cov := cov, clu := clu, ree := ree, pool := pool, drain := drain, events := ev, mgmt := v.mgmt })
            ∧ v.mgmt.load = none ∧ v.mgmt.staging = [] ∧ v.mgmt.timer = none ∧ v.mgmt.queue = rest
            ∧ v.mgmt.params = s.mgmt.params ∧ v.mgmt.counters.applied = s.mgmt.counters.applied + 1
            ∧ v = settle (((applyLoad t.table s.mgmt.staging u).modMgmt fun m =>
                { m with
                  load := none, staging := [], timer := none
                  counters := { m.counters with applied := m.counters.applied + 1 } }).answered q .ok s.mgmt.abandoned false
                  (.loadApplied (s.mgmt.staging.length / (match t.table with
                    | .cranes => 20
                    | .cells => 4
                    | .coverage => 10
                    | .reefers => 10
                    | .groups => 9)) none 0))
            ∧ (t.table = .coverage → EventsSettled s → ∀ k : CraneId,
                (s.crane k).state = .linked ∨ (s.crane k).state = .handover ∨ (s.crane k).state = .lost →
                  ∀ x, x ∈ (v.crane k).shadow ↔
                    (v.crane k).boom = .lowered ∧ ∃ b, (v.crane k).band = some b ∧ x ∈ (v.bandEntry b).shadow)
            ∧ (t.table = .groups → ∀ g : GroupId,
                (v.group g).summary = (s.group g).summary ∧ (v.group g).members = (s.group g).members
                ∧ (v.group g).defn =
                  ((((entriesOf 9 s.mgmt.staging).map groupEntry).find? fun e => e.index == g.val).map GroupEntry.defn).or
                    (s.group g).defn)
            ∧ (t.table = .cells → ∀ x : CellId,
                let listed := ((entriesOf 4 s.mgmt.staging).map cellEntry).find? fun e => e.cell == x.val
                (∀ e, listed = some e →
                  (v.cell x).budget = e.budget ∧ (v.cell x).position.val = e.position
                  ∧ ((v.cell x).fitted = true ↔ e.fitted = 1)
                  ∧ ((s.cell x).fitted = true → e.fitted = 0 → (v.cell x).unit = .absent))
                ∧ (listed = none →
                  (v.cell x).budget = (s.cell x).budget ∧ (v.cell x).position = (s.cell x).position
                  ∧ (v.cell x).fitted = (s.cell x).fitted ∧ (v.cell x).unit = (s.cell x).unit)))))
  ∧ (∀ (t : Table) (content : List Byte) (s : State), TablesSound s →
       (loadFault t content s = none ↔ ∀ st, ¬LoadAtFault st t content s)
       ∧ ∀ f, loadFault t content s = some f →
         LoadAtFault f.status t content s
         ∧ (f.status = .range ∨ f.status = .duplicateAddress ∧ ¬LoadAtFault .range t content s
           ∨ f.status = .inUse ∧ ¬LoadAtFault .range t content s ∧ ¬LoadAtFault .duplicateAddress t content s)
         ∧ (f.position = none → WholeAtFault f.status t content s)
         ∧ ∀ n, f.position = some n → EntryAtFault f.status t content s n
           ∧ ∀ m, m < n → ¬EntryAtFault f.status t content s m)
  ∧ (∀ (content : List Byte) (s : State), loadFault .cranes content s = none →
       let l := (entriesOf 20 content).map craneEntry
       let v := applyLoad .cranes content s
       (∃ cov, v = { s with cov := cov, clu := { s.clu with cranes := v.clu.cranes } })
       ∧ (∀ k, (∀ e ∈ l, e.index ≠ k.val) → v.crane k = s.crane k)
       ∧ ∀ e ∈ l, ∀ k : CraneId, e.index = k.val →
         (e.action = 0 → (s.crane k).state = .vacant → v.crane k = { defn := some e.defn, state := .idle })
         ∧ (e.action = 0 → (s.crane k).state = .idle → v.crane k = { s.crane k with defn := some e.defn })
         ∧ (e.action = 0 → (s.crane k).state ≠ .vacant → (s.crane k).state ≠ .idle → ∀ d, (s.crane k).defn = some d →
           let used := (s.crane k).oldHoldOff.getD d.holdOff
           v.crane k =
             { s.crane k with
               defn := some e.defn, oldHoldOff := if used < e.defn.holdOff then some used else none })
         ∧ (e.action = 1 → (s.crane k).state = .idle → v.crane k = {})
         ∧ (e.action = 1 → (s.crane k).state = .vacant → v.crane k = s.crane k))
  ∧ (∀ (content : List Byte) (s : State), loadFault .coverage content s = none →
       let v := applyLoad .coverage content s
       v = { s with cov := { s.cov with map := v.cov.map }, events := s.events ++ [.mapChange] }
       ∧ ∀ b e, ((entriesOf 10 content).map bandListing)[b.val]? = some e →
         (v.bandEntry b).ranked.map Fin.val = e.ranked ∧ (v.bandEntry b).shadow.map Fin.val = e.shadow)
  ∧ (∀ (k : CraneId) (x : CellId) (s : State),
       let claimed := fun (count : Nat) (set : List CellId) =>
         (s.modCell x fun r => { r with shadowCount := count }).modCrane k fun c => { c with shadow := set }
       let shadow := (s.crane k).shadow
       CellEvent x s (claimed ((s.cell x).shadowCount + 1) (allCells.filter fun y => decide (y = x ∨ y ∈ shadow)))
         (shadowAdd k x s)
       ∧ CellEvent x s (claimed ((s.cell x).shadowCount - 1) (shadow.filter fun y => decide (y ≠ x))) (shadowRemove k x s))
  ∧ (∀ s : State,
       let cranes : List CraneId := [0, 1, 2, 3, 4, 5, 6, 7, 8, 9, 10, 11]
       ∃ visit : State → CraneId → State,
         takeCluEvent s .mapChange = cranes.foldl (fun t k => evaluate k false t) (cranes.foldl visit s)
         ∧ ∀ (t : State) (k : CraneId),
           let c := t.crane k
           let shadowed := fun y => c.boom = .lowered ∧ ∃ b, c.band = some b ∧ y ∈ (t.bandEntry b).shadow
           (c.state = .vacant ∨ c.state = .idle → visit t k = t)
           ∧ (c.state ≠ .vacant → c.state ≠ .idle → CluEvent.mapChange ∉ t.events →
             ∃ left entered : List CellId, left.Pairwise (fun x y => x.val < y.val)
               ∧ entered.Pairwise (fun x y => x.val < y.val)
               ∧ (∀ y, y ∈ left ↔ y ∈ c.shadow ∧ ¬shadowed y) ∧ (∀ y, y ∈ entered ↔ shadowed y ∧ y ∉ c.shadow)
               ∧ visit t k = entered.foldl (fun v y => settle (shadowAdd k y v))
                   (left.foldl (fun v y => settle (shadowRemove k y v)) t)))
  ∧ (∀ (content : List Byte) (s : State), loadFault .cells content s = none →
       let l := (entriesOf 4 content).map cellEntry
       let v := applyLoad .cells content s
       v = { s with cov := { s.cov with cells := v.cov.cells }, events := v.events }
       ∧ (∀ x : CellId, (∀ e ∈ l, e.cell ≠ x.val) → v.cell x = s.cell x)
       ∧ (∀ e ∈ l, ∀ x : CellId, e.cell = x.val →
         let leaves := (s.cell x).fitted = true ∧ e.fitted = 0
         let defined := { s.cell x with
           fitted := decide (e.fitted = 1), budget := e.budget, position := (v.cell x).position
           changed := (v.cell x).changed }
         (v.cell x).position.val = e.position
         ∧ (¬leaves → v.cell x = defined)
         ∧ (leaves → v.cell x = { defined with unit := .absent, progress := 0, missCount := 0, quality := 0, backlog := 0 })
         ∧ ((v.cell x).changed = true ↔
           (s.cell x).changed = true ∨ (s.cell x).unit ≠ (v.cell x).unit ∨ ¬(Fit s x ↔ Fit v x)))
       ∧ ∃ told : CellId → Bool, (∀ x, told x = true ↔ FitDiffers s v x)
         ∧ v.events = s.events
           ++ ((l.filterMap fun e => allCells.find? fun x => x.val == e.cell).filter told).map CluEvent.usability)
  ∧ (∀ (content : List Byte) (s : State), loadFault .reefers content s = none →
       let l := (entriesOf 10 content).map reeferEntry
       let v := applyLoad .reefers content s
       let kept := fun i => { s.reefer i with ref := (v.reefer i).ref }
       (∃ cov ree pool, v = { s with cov := cov, ree := ree, pool := pool }) ∧ v.ree.unknown = s.ree.unknown
       ∧ (∀ i, (∀ e ∈ l, e.index ≠ i.val) → v.reefer i = kept i)
       ∧ (∀ e ∈ l, ∀ i : ReeferId, e.index = i.val →
         (e.action = 2 → (s.reefer i).defn ≠ none → v.reefer i = {})
         ∧ (e.action = 2 → (s.reefer i).defn = none → v.reefer i = kept i)
         ∧ (∀ g : GroupId, g.val = e.group →
           let same := e.action = 1 ∧ (s.reefer i).defn.map ReeferDef.unit = some e.unit
           let d : ReeferDef := { unit := e.unit, group := g }
           (same → v.reefer i = { kept i with defn := some d })
           ∧ (e.action ≠ 2 → ¬same → v.reefer i =
             { defn := some d, state := .expected, countdown := ((s.group g).defn.map GroupDef.reload).getD 0 })))
       ∧ ∀ g, (v.group g).defn = (s.group g).defn
         ∧ ((v.group g).summary = true ↔ (s.group g).summary = true
           ∨ ∃ e ∈ l, ∃ i : ReeferId, e.index = i.val ∧ e.action = 1 ∧ e.group = g.val
             ∧ (s.reefer i).defn.map ReeferDef.unit = some e.unit ∧ (s.reefer i).excursion = true))
  ∧ (∀ (t : Table) (content : List Byte) (s : State), loadFault t content s = none → TablesSound s → GeneralSound s →
       let l := addressMoves t content s
       let v := applyLoad t content s
       let taken := l.filter fun m => decide (m.new ≠ none ∧ m.new ≠ m.old)
       let evicts := fun m : AddressMove => (m.new.bind (dirFind s)).any fun d => match d with
         | .general _ => true
         | .crane _ | .reefer _ => false
       (∀ m ∈ taken, ∀ a, m.new = some a → dirFind v a = some m.target)
       ∧ (∀ m ∈ l, ∀ a, m.old = some a → m.new = some a → dirFind s a = some m.target → dirFind v a = some m.target)
       ∧ (∀ m ∈ l, ∀ a, m.old = some a → m.new ≠ some a → dirFind s a = some m.target →
         (∀ o ∈ l, o.new ≠ some a) → (∀ k, m.target = .crane k → m.new = none → (s.crane k).state = .idle) →
         dirFind v a = none)
       ∧ (∀ a, (∀ m ∈ l, m.new ≠ some a ∧ m.old ≠ some a) → dirFind v a = dirFind s a)
       ∧ (∀ j : GeneralId, sparseFind v.cov.general j.val =
           if ∃ m ∈ taken, m.new.bind (dirFind s) = some (.general j) then none
           else sparseFind s.cov.general j.val)
       ∧ v.cov.counters = { s.cov.counters with
           evicted := s.cov.counters.evicted + BitVec.ofNat 32 (taken.countP evicts) })

/-- CLEAR-EXCURSION (R108): NOT-FOUND for a VACANT reefer; otherwise the flag is cleared and answered as it stood, and
neither the group's summary nor any entry changes. CLEAR-GROUP (R109): NOT-FOUND for an undefined group; otherwise its
summary and the flag of every defined reefer that names it are cleared, and the number of flags that were set is
answered. -/
def Obligations.ClearExcursionAndClearGroup : Prop :=
  (∀ (q : Request) (rest : List Request) (a b : Byte) (i : ReeferId) (s : State), HeadIs s .clearExcursion q rest →
     q.data = [a, b] → a.toNat * 256 + b.toNat = i.val →
     let u := s.taking q rest
     ((s.reefer i).state = .vacant →
       exec .clearExcursion s = .next (u.answered q .notFound s.abandonedFlag false .none))
     ∧ ((s.reefer i).state ≠ .vacant →
       exec .clearExcursion s = .next ((u.modReefer i fun r => { r with excursion := false }).answered q .ok
         s.abandonedFlag false (.flagBefore (s.reefer i).excursion))))
  ∧ (∀ (q : Request) (rest : List Request) (g : GroupId) (s : State), HeadIs s .clearGroup q rest →
       q.data = [BitVec.ofNat 8 g.val] → TablesSound s →
       let u := s.taking q rest
       ((s.group g).defn = none →
         exec .clearGroup s = .next (u.answered q .notFound s.abandonedFlag false .none))
       ∧ ((s.group g).defn ≠ none →
         ∃ (v : State) (n : Nat), exec .clearGroup s = .next (v.answered q .ok s.abandonedFlag false (.membersCleared n))
           ∧ v = { u with ree := { s.ree with groups := v.ree.groups, reefers := v.ree.reefers } }
           ∧ (∀ j, v.group j = if j = g then { s.group g with summary := false } else s.group j)
           ∧ (∀ i, v.reefer i = if (s.reefer i).defn.map ReeferDef.group = some g then
               { s.reefer i with excursion := false } else s.reefer i)
           ∧ n = (s.reeferIds.filter fun i =>
               (s.reefer i).excursion && (s.reefer i).defn.map ReeferDef.group == some g).length))

/-- RELEASE-CRANE (R71): STATE in VACANT and IDLE; otherwise the crane is IDLE with every dynamic field at its initial
value, its definition and counters kept, the flushed entries and withdrawn holds counted, its reservations and shadow
claims given up, its pending notice blocks withdrawn; the answer is OK with the state held before, and no failure is
reported. What follows is taken after the response (log 9). -/
def Obligations.ReleaseReturnsTheCraneToIdle : Prop :=
  ∀ (q : Request) (rest : List Request) (k : CraneId) (s : State), HeadIs s .releaseCrane q rest →
    q.data = [BitVec.ofNat 8 k.val] → EventsSettled s →
    let u := s.taking q rest
    let c := s.crane k
    (c.state = .vacant ∨ c.state = .idle →
      exec .releaseCrane s = .next (u.answered q .state s.abandonedFlag false .none))
    ∧ (c.state = .linked ∨ c.state = .handover ∨ c.state = .lost →
      ∃ t, exec .releaseCrane s = .next t
        ∧ (∃ p cov clu ev, t = { s with port := p, cov := cov, clu := clu, events := ev, mgmt := t.mgmt })
        ∧ t.crane k = { defn := c.defn, state := .idle, counters := (t.crane k).counters }
        ∧ (t.crane k).counters.releases = c.counters.releases + 1
        ∧ (t.crane k).counters.failures = c.counters.failures
        ∧ (t.crane k).counters.flushed = c.counters.flushed + BitVec.ofNat 32 c.queue.length
        ∧ (t.crane k).counters.holdsWithdrawn = c.counters.holdsWithdrawn + BitVec.ofNat 32 c.holds.length
        ∧ t.mgmt.counters.taken = s.mgmt.counters.taken + 1 ∧ t.mgmt.queue = rest
        ∧ ∃ v : State, t = settle (v.answered q .ok s.abandonedFlag false (.stateBefore c.state))
          ∧ v = { u with cov := { s.cov with cells := v.cov.cells }, events := v.events
                         clu := { s.clu with cranes := v.clu.cranes, notices := v.clu.notices } }
          ∧ (∀ j, j ≠ k → v.crane j = s.crane j) ∧ v.crane k = t.crane k
          ∧ (c.state = .handover → c.target ≠ none →
            v.clu.notices = s.clu.notices.filter fun m => decide (m.crane ≠ k))
          ∧ ∀ y, (v.cell y).reserved =
              (s.cell y).reserved - (if c.state = .handover ∧ c.target = some y then c.reservation else 0)
                - (if c.anchor = some y then c.reservation else 0)
            ∧ (v.cell y).shadowCount = (s.cell y).shadowCount - (if y ∈ c.shadow then 1 else 0))

/-- BAR-CELL sets a cell's barred flag and UNBAR-CELL clears it, in every unit state, fitted or not (R30): a change
raises the change flag (R34), and hands on one usability change when usability for anyone changes (R31); by the bar itself
nothing else of the cell changes: unit state, counts, reserved slots, shadow count and definition stand. The answer is OK,
and what follows is taken after the response (log 9). -/
def Obligations.BarAndUnbarSetTheFlag : Prop :=
  ∀ (q : Request) (rest : List Request) (x : CellId) (barred : Bool) (s : State),
    HeadIs s (if barred then .barCell else .unbarCell) q rest → q.data = [BitVec.ofNat 8 x.val] → EventsSettled s →
    let row : Instr := if barred then .barCell else .unbarCell
    let u := s.taking q rest
    ∃ t, exec row s = .next t
      ∧ (∃ p cov clu ev, t = { s with port := p, cov := cov, clu := clu, events := ev, mgmt := t.mgmt })
      ∧ (t.cell x).barred = barred ∧ (t.cell x).unit = (s.cell x).unit
      ∧ (t.cell x).budget = (s.cell x).budget ∧ (t.cell x).fitted = (s.cell x).fitted
      ∧ (∀ y, y ≠ x → (t.cell y).barred = (s.cell y).barred)
      ∧ ((s.cell x).barred ≠ barred → (t.cell x).changed = true)
      ∧ ((s.cell x).barred = barred → t = u.answered q .ok s.abandonedFlag false .none)
      ∧ ∃ v, CellEvent x u (u.modCell x fun r => { r with barred := barred }) v
        ∧ t = settle (v.answered q .ok s.abandonedFlag false .none)

/-- CHAIN-ENABLE takes a DISABLED chain to ROLLCALL and is answered STATE in any other state; CHAIN-DISABLE takes a
chain to DISABLED, a RUNNING one through what leaving RUNNING requires, and has no effect in DISABLED (R3, R4, R6). Each
change is told in a CHAIN-STATE notice of cause ENABLED or DISABLED before the response is offered (R9); the statement on
the causes of a break says what leaving RUNNING does. The order of what follows inside the step is the model's (log 8,
log 9). -/
def Obligations.ChainEnableAndDisable : Prop :=
  ∀ (q : Request) (rest : List Request) (c : Chain) (s : State), q.data = [match c with
      | .N => 0
      | .S => 1] →
    let u := s.taking q rest
    let r := s.chain c
    (HeadIs s .chainEnable q rest →
      (r.state ≠ .disabled → exec .chainEnable s = .next (u.answered q .state s.abandonedFlag false .none))
      ∧ (r.state = .disabled →
        ∃ t, exec .chainEnable s = .next t
          ∧ t = { s with port := t.port, leds := t.leds, chainN := t.chainN, chainS := t.chainS, mgmt := t.mgmt }
          ∧ (∀ d, d ≠ c → t.chain d = s.chain d)
          ∧ t.chain c =
            { r with state := .rollcall, goodTurns := 0, rollcallTurns := 0, heard := [], awaited := none }
          ∧ t = State.answered { u with
              port := u.controllerNoticed (.chainState c .enabled .rollcall none), leds := t.leds
              chainN := t.chainN, chainS := t.chainS } q .ok s.abandonedFlag false .none))
    ∧ (HeadIs s .chainDisable q rest →
      (r.state = .disabled → exec .chainDisable s = .next (u.answered q .ok s.abandonedFlag false .none))
      ∧ (r.state ≠ .disabled →
        ∃ t, exec .chainDisable s = .next t
          ∧ (∃ p leds n k cov clu ev ch, t = { s with
              port := p, leds := leds, chainN := n, chainS := k, cov := cov, clu := clu, events := ev, choices := ch
              mgmt := t.mgmt })
          ∧ (∀ d, d ≠ c → t.chain d = s.chain d)
          ∧ (t.chain c).state = .disabled ∧ (t.chain c).awaited = none ∧ (t.chain c).backoff = none
          ∧ (t.chain c).stable = none ∧ (t.chain c).nextBackoff = 100 ∧ (t.chain c).goodTurns = 0
          ∧ (t.chain c).rollcallTurns = 0 ∧ (t.chain c).heard = [] ∧ (t.chain c).cycle = r.cycle
          ∧ (r.state = .running → (t.chain c).generalQ = [] ∧ (t.chain c).missed = 0
            ∧ ∀ x, chainOf x = c → (t.cell x).unit = (if (s.cell x).unit = .absent then .absent else .down))
          ∧ (let v := if r.state = .running then leaveRunning c u else u
             t = State.answered { v with
               port := v.controllerNoticed (.chainState c .disabled .disabled none), leds := t.leds
               chainN := t.chainN, chainS := t.chainS } q .ok s.abandonedFlag false .none)))

/-- Both restarts (R167, R153): the request queue is emptied, every counter shown here becomes 0, the link state and the
frame in transmission are kept, and the control queue keeps the restart's own response alone. RESTART-TRAFFIC keeps the
definitions, the map, the barred flags, the parameters and the time, and enabled chains enter ROLLCALL; RESTART-ALL
returns all of it to its reset value, but for the straps. After RESTART-TRAFFIC a defined reefer is EXPECTED with its
group's suppression reload as its countdown and all else at rest (R94), and the directory keeps its CRANE and REEFER
entries alone (R38). The response is found at the tail of the control queue (log 26), or is the frame in transmission when
the transmitter was IDLE, and is nowhere when the full queue or a DOWN link refused it; a burst frame on the line is sent
whole, and its report is marked to be disregarded, as no other frame's is (log 13); the field for the cycle on the line is
empty (log 12), and the time since the line last carried a block is 0 (R1; log 17). -/
def Obligations.RestartsReturnTheTraffic : Prop :=
  ∀ (q : Request) (rest : List Request) (s : State), q.data = [] → PortSound s.port →
    let response := (s.taking q rest).response q .ok s.abandonedFlag false .none
    let common := fun t : State =>
      t.mgmt.queue = [] ∧ t.mgmt.current = none ∧ t.mgmt.load = none ∧ t.mgmt.staging = [] ∧ t.mgmt.timer = none
      ∧ t.mgmt.abandoned = false ∧ t.mgmt.counters = {} ∧ t.mgmt.strap = s.mgmt.strap
      ∧ t.port.link = s.port.link ∧ t.port.counters = {} ∧ t.port.run = 0
      ∧ t.port.craneUpQ = [] ∧ t.port.drainQ = [] ∧ t.port.generalUpQ = [] ∧ t.port.controlQ.length ≤ 1
      ∧ (s.port.tx ≠ none → t.port.tx = s.port.tx)
      ∧ (s.port.tx ≠ none → s.port.controlQ.length < 32 → t.port.controlQ = [response])
      ∧ (s.port.tx ≠ none → 32 ≤ s.port.controlQ.length → t.port.controlQ = [])
      ∧ (s.port.tx = none → s.port.link = .up → t.port.tx = some (.control, response) ∧ t.port.controlQ = [])
      ∧ (s.port.tx = none → s.port.link = .down → t.port.tx = none ∧ t.port.controlQ = [])
      ∧ t.drain = { disregard := s.port.tx.map Prod.fst == some .drain } ∧ t.pool = Pool.reset ∧ t.clu.notices = []
      ∧ t.cov.general = [] ∧ t.cov.counters = {} ∧ t.events = [] ∧ t.pending = s.pending
      ∧ t.clu.unknownCrane = 0 ∧ t.clu.unknownSubject = 0 ∧ t.ree.unknown = 0
    (HeadIs s .restartTraffic q rest →
      ∃ t, exec .restartTraffic s = .next t ∧ common t ∧ t.time = s.time ∧ t.params = s.params
        ∧ t.cov.map = s.cov.map
        ∧ (∀ c, t.chain c =
            { state := if (s.chain c).state = .disabled then .disabled else .rollcall
              cycle := (s.chain c).cycle, cycleTimer := (s.chain c).cycleTimer })
        ∧ (∀ x, t.cell x =
            { position := (s.cell x).position, fitted := (s.cell x).fitted, budget := (s.cell x).budget
              barred := (s.cell x).barred })
        ∧ (∀ k, t.crane k =
            { defn := (s.crane k).defn, state := if (s.crane k).defn = none then .vacant else .idle })
        ∧ (∀ g, t.group g = { defn := (s.group g).defn, members := (s.group g).members })
        ∧ (TablesSound s → ∀ i, t.reefer i = match (s.reefer i).defn with
            | none => {}
            | some d =>
              { defn := some d, state := .expected
                countdown := ((s.group d.group).defn.map GroupDef.reload).getD 0 })
        ∧ (TablesSound s → ∀ a, dirFind t a = match dirFind s a with
            | some (.crane k) => some (.crane k)
            | some (.reefer i) => some (.reefer i)
            | some (.general _) | none => none))
    ∧ (HeadIs s .restartAll q rest →
      ∃ t, exec .restartAll s = .next t ∧ common t ∧ t.time = { ms := 0, quarter := 0 } ∧ t.params = Params.atReset
        ∧ (∀ c, t.chain c = { cycleTimer := (s.chain c).cycleTimer })
        ∧ t.cov = Coverage.reset ∧ t.clu = CraneLink.reset ∧ t.ree = ReeferUnit.reset)
end

