-- ==== Sys2Proof/Laws/Drains.lean ====
section
/-! SUPPORT. What the tests and reports of a drain come to in the terms of Safety.lean: the start condition, the test after a
seal, the withdrawal of no half-sent burst, and a send report that is disregarded. -/

namespace Sys2Proof
namespace Machine

/-- The start condition is R130's. -/
theorem startCondition_iff (s : State) : startCondition s = true ↔ MayStart s := by
  simp [startCondition, MayStart, Config.checkWindow, and_assoc]

/-- A batch that has joined the sealed list starts a burst when the start condition holds (R130). -/
theorem afterSeal_starts {before s : State} (joined : s.pool.stamp ≠ before.pool.stamp) (h : MayStart s) :
    afterSeal before s = startBurst s := by
  simp [afterSeal, joined, (startCondition_iff s).mpr h]

/-- Without the start condition nothing follows a seal. -/
theorem afterSeal_waits {before s : State} (h : ¬MayStart s) : afterSeal before s = s := by
  have none : startCondition s = false := by rw [Bool.eq_false_iff, ne_eq, startCondition_iff]; exact h
  simp [afterSeal, none]

/-- Where nothing was sealed nothing follows. -/
theorem afterSeal_unsealed {before s : State} (h : s.pool.stamp = before.pool.stamp) : afterSeal before s = s := by
  simp [afterSeal, h]

/-- Without a half-sent burst nothing is withdrawn. -/
theorem withdrawHalfSent_none {s : State} (h : s.drain.halfSent = []) : withdrawHalfSent s = s := by
  have none : (s.drain.window.find? fun w => w.phase == .sending) = none := by
    simpa [Drain.halfSent, List.filter_eq_nil_iff] using h
  simp [withdrawHalfSent, none]

/-- A disregarded report clears its mark and does nothing else (R139). -/
theorem drainReport_disregarded {s : State} (h : s.drain.disregard = true) :
    drainReport s = s.modDrain fun d => { d with disregard := false } := by
  simp [drainReport, h]

end Machine
end Sys2Proof
end

