-- ==== Sys2Proof/Laws/State.lean ====
section
/-! SUPPORT. One lemma per field per update of the state, and one per record accessor per update: what an update writes, and
that it leaves every other field as it stood. -/

namespace Sys2Proof
namespace Machine

section Fields

variable (s : State)

@[simp] theorem State.modPort_time (f : Port → Port) : (s.modPort f).time = s.time := rfl
@[simp] theorem State.modPort_held (f : Port → Port) : (s.modPort f).held = s.held := rfl
@[simp] theorem State.modPort_leds (f : Port → Port) : (s.modPort f).leds = s.leds := rfl
@[simp] theorem State.modPort_port (f : Port → Port) : (s.modPort f).port = f s.port := rfl
@[simp] theorem State.modPort_chainN (f : Port → Port) : (s.modPort f).chainN = s.chainN := rfl
@[simp] theorem State.modPort_chainS (f : Port → Port) : (s.modPort f).chainS = s.chainS := rfl
@[simp] theorem State.modPort_cov (f : Port → Port) : (s.modPort f).cov = s.cov := rfl
@[simp] theorem State.modPort_clu (f : Port → Port) : (s.modPort f).clu = s.clu := rfl
@[simp] theorem State.modPort_ree (f : Port → Port) : (s.modPort f).ree = s.ree := rfl
@[simp] theorem State.modPort_pool (f : Port → Port) : (s.modPort f).pool = s.pool := rfl
@[simp] theorem State.modPort_drain (f : Port → Port) : (s.modPort f).drain = s.drain := rfl
@[simp] theorem State.modPort_mgmt (f : Port → Port) : (s.modPort f).mgmt = s.mgmt := rfl
@[simp] theorem State.modPort_events (f : Port → Port) : (s.modPort f).events = s.events := rfl
@[simp] theorem State.modPort_choices (f : Port → Port) : (s.modPort f).choices = s.choices := rfl
@[simp] theorem State.modPort_pending (f : Port → Port) : (s.modPort f).pending = s.pending := rfl

@[simp] theorem State.modDrain_time (f : Drain → Drain) : (s.modDrain f).time = s.time := rfl
@[simp] theorem State.modDrain_held (f : Drain → Drain) : (s.modDrain f).held = s.held := rfl
@[simp] theorem State.modDrain_leds (f : Drain → Drain) : (s.modDrain f).leds = s.leds := rfl
@[simp] theorem State.modDrain_port (f : Drain → Drain) : (s.modDrain f).port = s.port := rfl
@[simp] theorem State.modDrain_chainN (f : Drain → Drain) : (s.modDrain f).chainN = s.chainN := rfl
@[simp] theorem State.modDrain_chainS (f : Drain → Drain) : (s.modDrain f).chainS = s.chainS := rfl
@[simp] theorem State.modDrain_cov (f : Drain → Drain) : (s.modDrain f).cov = s.cov := rfl
@[simp] theorem State.modDrain_clu (f : Drain → Drain) : (s.modDrain f).clu = s.clu := rfl
@[simp] theorem State.modDrain_ree (f : Drain → Drain) : (s.modDrain f).ree = s.ree := rfl
@[simp] theorem State.modDrain_pool (f : Drain → Drain) : (s.modDrain f).pool = s.pool := rfl
@[simp] theorem State.modDrain_drain (f : Drain → Drain) : (s.modDrain f).drain = f s.drain := rfl
@[simp] theorem State.modDrain_mgmt (f : Drain → Drain) : (s.modDrain f).mgmt = s.mgmt := rfl
@[simp] theorem State.modDrain_events (f : Drain → Drain) : (s.modDrain f).events = s.events := rfl
@[simp] theorem State.modDrain_choices (f : Drain → Drain) : (s.modDrain f).choices = s.choices := rfl
@[simp] theorem State.modDrain_pending (f : Drain → Drain) : (s.modDrain f).pending = s.pending := rfl

@[simp] theorem State.modMgmt_time (f : Mgmt → Mgmt) : (s.modMgmt f).time = s.time := rfl
@[simp] theorem State.modMgmt_held (f : Mgmt → Mgmt) : (s.modMgmt f).held = s.held := rfl
@[simp] theorem State.modMgmt_leds (f : Mgmt → Mgmt) : (s.modMgmt f).leds = s.leds := rfl
@[simp] theorem State.modMgmt_port (f : Mgmt → Mgmt) : (s.modMgmt f).port = s.port := rfl
@[simp] theorem State.modMgmt_chainN (f : Mgmt → Mgmt) : (s.modMgmt f).chainN = s.chainN := rfl
@[simp] theorem State.modMgmt_chainS (f : Mgmt → Mgmt) : (s.modMgmt f).chainS = s.chainS := rfl
@[simp] theorem State.modMgmt_cov (f : Mgmt → Mgmt) : (s.modMgmt f).cov = s.cov := rfl
@[simp] theorem State.modMgmt_clu (f : Mgmt → Mgmt) : (s.modMgmt f).clu = s.clu := rfl
@[simp] theorem State.modMgmt_ree (f : Mgmt → Mgmt) : (s.modMgmt f).ree = s.ree := rfl
@[simp] theorem State.modMgmt_pool (f : Mgmt → Mgmt) : (s.modMgmt f).pool = s.pool := rfl
@[simp] theorem State.modMgmt_drain (f : Mgmt → Mgmt) : (s.modMgmt f).drain = s.drain := rfl
@[simp] theorem State.modMgmt_mgmt (f : Mgmt → Mgmt) : (s.modMgmt f).mgmt = f s.mgmt := rfl
@[simp] theorem State.modMgmt_events (f : Mgmt → Mgmt) : (s.modMgmt f).events = s.events := rfl
@[simp] theorem State.modMgmt_choices (f : Mgmt → Mgmt) : (s.modMgmt f).choices = s.choices := rfl
@[simp] theorem State.modMgmt_pending (f : Mgmt → Mgmt) : (s.modMgmt f).pending = s.pending := rfl

@[simp] theorem State.push_time (e : CluEvent) : (s.push e).time = s.time := rfl
@[simp] theorem State.push_held (e : CluEvent) : (s.push e).held = s.held := rfl
@[simp] theorem State.push_leds (e : CluEvent) : (s.push e).leds = s.leds := rfl
@[simp] theorem State.push_port (e : CluEvent) : (s.push e).port = s.port := rfl
@[simp] theorem State.push_chainN (e : CluEvent) : (s.push e).chainN = s.chainN := rfl
@[simp] theorem State.push_chainS (e : CluEvent) : (s.push e).chainS = s.chainS := rfl
@[simp] theorem State.push_cov (e : CluEvent) : (s.push e).cov = s.cov := rfl
@[simp] theorem State.push_clu (e : CluEvent) : (s.push e).clu = s.clu := rfl
@[simp] theorem State.push_ree (e : CluEvent) : (s.push e).ree = s.ree := rfl
@[simp] theorem State.push_pool (e : CluEvent) : (s.push e).pool = s.pool := rfl
@[simp] theorem State.push_drain (e : CluEvent) : (s.push e).drain = s.drain := rfl
@[simp] theorem State.push_mgmt (e : CluEvent) : (s.push e).mgmt = s.mgmt := rfl
@[simp] theorem State.push_events (e : CluEvent) : (s.push e).events = s.events ++ [e] := rfl
@[simp] theorem State.push_choices (e : CluEvent) : (s.push e).choices = s.choices := rfl
@[simp] theorem State.push_pending (e : CluEvent) : (s.push e).pending = s.pending := rfl

@[simp] theorem State.setGeneral_time (l : List (Nat × GeneralRec)) : (s.setGeneral l).time = s.time := rfl
@[simp] theorem State.setGeneral_held (l : List (Nat × GeneralRec)) : (s.setGeneral l).held = s.held := rfl
@[simp] theorem State.setGeneral_leds (l : List (Nat × GeneralRec)) : (s.setGeneral l).leds = s.leds := rfl
@[simp] theorem State.setGeneral_port (l : List (Nat × GeneralRec)) : (s.setGeneral l).port = s.port := rfl
@[simp] theorem State.setGeneral_chainN (l : List (Nat × GeneralRec)) : (s.setGeneral l).chainN = s.chainN := rfl
@[simp] theorem State.setGeneral_chainS (l : List (Nat × GeneralRec)) : (s.setGeneral l).chainS = s.chainS := rfl
@[simp] theorem State.setGeneral_cov (l : List (Nat × GeneralRec)) : (s.setGeneral l).cov = { s.cov with general := l } := rfl
@[simp] theorem State.setGeneral_clu (l : List (Nat × GeneralRec)) : (s.setGeneral l).clu = s.clu := rfl
@[simp] theorem State.setGeneral_ree (l : List (Nat × GeneralRec)) : (s.setGeneral l).ree = s.ree := rfl
@[simp] theorem State.setGeneral_pool (l : List (Nat × GeneralRec)) : (s.setGeneral l).pool = s.pool := rfl
@[simp] theorem State.setGeneral_drain (l : List (Nat × GeneralRec)) : (s.setGeneral l).drain = s.drain := rfl
@[simp] theorem State.setGeneral_mgmt (l : List (Nat × GeneralRec)) : (s.setGeneral l).mgmt = s.mgmt := rfl
@[simp] theorem State.setGeneral_events (l : List (Nat × GeneralRec)) : (s.setGeneral l).events = s.events := rfl
@[simp] theorem State.setGeneral_choices (l : List (Nat × GeneralRec)) : (s.setGeneral l).choices = s.choices := rfl
@[simp] theorem State.setGeneral_pending (l : List (Nat × GeneralRec)) : (s.setGeneral l).pending = s.pending := rfl

@[simp] theorem State.countCov_time (f : CoverageCounters → CoverageCounters) : (s.countCov f).time = s.time := rfl
@[simp] theorem State.countCov_held (f : CoverageCounters → CoverageCounters) : (s.countCov f).held = s.held := rfl
@[simp] theorem State.countCov_leds (f : CoverageCounters → CoverageCounters) : (s.countCov f).leds = s.leds := rfl
@[simp] theorem State.countCov_port (f : CoverageCounters → CoverageCounters) : (s.countCov f).port = s.port := rfl
@[simp] theorem State.countCov_chainN (f : CoverageCounters → CoverageCounters) : (s.countCov f).chainN = s.chainN := rfl
@[simp] theorem State.countCov_chainS (f : CoverageCounters → CoverageCounters) : (s.countCov f).chainS = s.chainS := rfl
@[simp] theorem State.countCov_cov (f : CoverageCounters → CoverageCounters) : (s.countCov f).cov = { s.cov with counters := f s.cov.counters } := rfl
@[simp] theorem State.countCov_clu (f : CoverageCounters → CoverageCounters) : (s.countCov f).clu = s.clu := rfl
@[simp] theorem State.countCov_ree (f : CoverageCounters → CoverageCounters) : (s.countCov f).ree = s.ree := rfl
@[simp] theorem State.countCov_pool (f : CoverageCounters → CoverageCounters) : (s.countCov f).pool = s.pool := rfl
@[simp] theorem State.countCov_drain (f : CoverageCounters → CoverageCounters) : (s.countCov f).drain = s.drain := rfl
@[simp] theorem State.countCov_mgmt (f : CoverageCounters → CoverageCounters) : (s.countCov f).mgmt = s.mgmt := rfl
@[simp] theorem State.countCov_events (f : CoverageCounters → CoverageCounters) : (s.countCov f).events = s.events := rfl
@[simp] theorem State.countCov_choices (f : CoverageCounters → CoverageCounters) : (s.countCov f).choices = s.choices := rfl
@[simp] theorem State.countCov_pending (f : CoverageCounters → CoverageCounters) : (s.countCov f).pending = s.pending := rfl

@[simp] theorem State.countPool_time (f : PoolCounters → PoolCounters) : (s.countPool f).time = s.time := rfl
@[simp] theorem State.countPool_held (f : PoolCounters → PoolCounters) : (s.countPool f).held = s.held := rfl
@[simp] theorem State.countPool_leds (f : PoolCounters → PoolCounters) : (s.countPool f).leds = s.leds := rfl
@[simp] theorem State.countPool_port (f : PoolCounters → PoolCounters) : (s.countPool f).port = s.port := rfl
@[simp] theorem State.countPool_chainN (f : PoolCounters → PoolCounters) : (s.countPool f).chainN = s.chainN := rfl
@[simp] theorem State.countPool_chainS (f : PoolCounters → PoolCounters) : (s.countPool f).chainS = s.chainS := rfl
@[simp] theorem State.countPool_cov (f : PoolCounters → PoolCounters) : (s.countPool f).cov = s.cov := rfl
@[simp] theorem State.countPool_clu (f : PoolCounters → PoolCounters) : (s.countPool f).clu = s.clu := rfl
@[simp] theorem State.countPool_ree (f : PoolCounters → PoolCounters) : (s.countPool f).ree = s.ree := rfl
@[simp] theorem State.countPool_pool (f : PoolCounters → PoolCounters) : (s.countPool f).pool = { s.pool with counters := f s.pool.counters } := rfl
@[simp] theorem State.countPool_drain (f : PoolCounters → PoolCounters) : (s.countPool f).drain = s.drain := rfl
@[simp] theorem State.countPool_mgmt (f : PoolCounters → PoolCounters) : (s.countPool f).mgmt = s.mgmt := rfl
@[simp] theorem State.countPool_events (f : PoolCounters → PoolCounters) : (s.countPool f).events = s.events := rfl
@[simp] theorem State.countPool_choices (f : PoolCounters → PoolCounters) : (s.countPool f).choices = s.choices := rfl
@[simp] theorem State.countPool_pending (f : PoolCounters → PoolCounters) : (s.countPool f).pending = s.pending := rfl

@[simp] theorem State.modCell_time (x : CellId) (f : Cell → Cell) : (s.modCell x f).time = s.time := rfl
@[simp] theorem State.modCell_held (x : CellId) (f : Cell → Cell) : (s.modCell x f).held = s.held := rfl
@[simp] theorem State.modCell_leds (x : CellId) (f : Cell → Cell) : (s.modCell x f).leds = s.leds := rfl
@[simp] theorem State.modCell_port (x : CellId) (f : Cell → Cell) : (s.modCell x f).port = s.port := rfl
@[simp] theorem State.modCell_chainN (x : CellId) (f : Cell → Cell) : (s.modCell x f).chainN = s.chainN := rfl
@[simp] theorem State.modCell_chainS (x : CellId) (f : Cell → Cell) : (s.modCell x f).chainS = s.chainS := rfl
@[simp] theorem State.modCell_cov (x : CellId) (f : Cell → Cell) : (s.modCell x f).cov = { s.cov with cells := s.cov.cells.set x (f s.cov.cells[x]) } := rfl
@[simp] theorem State.modCell_clu (x : CellId) (f : Cell → Cell) : (s.modCell x f).clu = s.clu := rfl
@[simp] theorem State.modCell_ree (x : CellId) (f : Cell → Cell) : (s.modCell x f).ree = s.ree := rfl
@[simp] theorem State.modCell_pool (x : CellId) (f : Cell → Cell) : (s.modCell x f).pool = s.pool := rfl
@[simp] theorem State.modCell_drain (x : CellId) (f : Cell → Cell) : (s.modCell x f).drain = s.drain := rfl
@[simp] theorem State.modCell_mgmt (x : CellId) (f : Cell → Cell) : (s.modCell x f).mgmt = s.mgmt := rfl
@[simp] theorem State.modCell_events (x : CellId) (f : Cell → Cell) : (s.modCell x f).events = s.events := rfl
@[simp] theorem State.modCell_choices (x : CellId) (f : Cell → Cell) : (s.modCell x f).choices = s.choices := rfl
@[simp] theorem State.modCell_pending (x : CellId) (f : Cell → Cell) : (s.modCell x f).pending = s.pending := rfl

@[simp] theorem State.modCrane_time (k : CraneId) (f : Crane → Crane) : (s.modCrane k f).time = s.time := rfl
@[simp] theorem State.modCrane_held (k : CraneId) (f : Crane → Crane) : (s.modCrane k f).held = s.held := rfl
@[simp] theorem State.modCrane_leds (k : CraneId) (f : Crane → Crane) : (s.modCrane k f).leds = s.leds := rfl
@[simp] theorem State.modCrane_port (k : CraneId) (f : Crane → Crane) : (s.modCrane k f).port = s.port := rfl
@[simp] theorem State.modCrane_chainN (k : CraneId) (f : Crane → Crane) : (s.modCrane k f).chainN = s.chainN := rfl
@[simp] theorem State.modCrane_chainS (k : CraneId) (f : Crane → Crane) : (s.modCrane k f).chainS = s.chainS := rfl
@[simp] theorem State.modCrane_cov (k : CraneId) (f : Crane → Crane) : (s.modCrane k f).cov = s.cov := rfl
@[simp] theorem State.modCrane_clu (k : CraneId) (f : Crane → Crane) : (s.modCrane k f).clu = { s.clu with cranes := s.clu.cranes.set k (f s.clu.cranes[k]) } := rfl
@[simp] theorem State.modCrane_ree (k : CraneId) (f : Crane → Crane) : (s.modCrane k f).ree = s.ree := rfl
@[simp] theorem State.modCrane_pool (k : CraneId) (f : Crane → Crane) : (s.modCrane k f).pool = s.pool := rfl
@[simp] theorem State.modCrane_drain (k : CraneId) (f : Crane → Crane) : (s.modCrane k f).drain = s.drain := rfl
@[simp] theorem State.modCrane_mgmt (k : CraneId) (f : Crane → Crane) : (s.modCrane k f).mgmt = s.mgmt := rfl
@[simp] theorem State.modCrane_events (k : CraneId) (f : Crane → Crane) : (s.modCrane k f).events = s.events := rfl
@[simp] theorem State.modCrane_choices (k : CraneId) (f : Crane → Crane) : (s.modCrane k f).choices = s.choices := rfl
@[simp] theorem State.modCrane_pending (k : CraneId) (f : Crane → Crane) : (s.modCrane k f).pending = s.pending := rfl

@[simp] theorem State.modGroup_time (g : GroupId) (f : Group → Group) : (s.modGroup g f).time = s.time := rfl
@[simp] theorem State.modGroup_held (g : GroupId) (f : Group → Group) : (s.modGroup g f).held = s.held := rfl
@[simp] theorem State.modGroup_leds (g : GroupId) (f : Group → Group) : (s.modGroup g f).leds = s.leds := rfl
@[simp] theorem State.modGroup_port (g : GroupId) (f : Group → Group) : (s.modGroup g f).port = s.port := rfl
@[simp] theorem State.modGroup_chainN (g : GroupId) (f : Group → Group) : (s.modGroup g f).chainN = s.chainN := rfl
@[simp] theorem State.modGroup_chainS (g : GroupId) (f : Group → Group) : (s.modGroup g f).chainS = s.chainS := rfl
@[simp] theorem State.modGroup_cov (g : GroupId) (f : Group → Group) : (s.modGroup g f).cov = s.cov := rfl
@[simp] theorem State.modGroup_clu (g : GroupId) (f : Group → Group) : (s.modGroup g f).clu = s.clu := rfl
@[simp] theorem State.modGroup_ree (g : GroupId) (f : Group → Group) : (s.modGroup g f).ree = { s.ree with groups := s.ree.groups.set g (f s.ree.groups[g]) } := rfl
@[simp] theorem State.modGroup_pool (g : GroupId) (f : Group → Group) : (s.modGroup g f).pool = s.pool := rfl
@[simp] theorem State.modGroup_drain (g : GroupId) (f : Group → Group) : (s.modGroup g f).drain = s.drain := rfl
@[simp] theorem State.modGroup_mgmt (g : GroupId) (f : Group → Group) : (s.modGroup g f).mgmt = s.mgmt := rfl
@[simp] theorem State.modGroup_events (g : GroupId) (f : Group → Group) : (s.modGroup g f).events = s.events := rfl
@[simp] theorem State.modGroup_choices (g : GroupId) (f : Group → Group) : (s.modGroup g f).choices = s.choices := rfl
@[simp] theorem State.modGroup_pending (g : GroupId) (f : Group → Group) : (s.modGroup g f).pending = s.pending := rfl

@[simp] theorem State.setReefer_time (i : ReeferId) (r : Reefer) : (s.setReefer i r).time = s.time := rfl
@[simp] theorem State.setReefer_held (i : ReeferId) (r : Reefer) : (s.setReefer i r).held = s.held := rfl
@[simp] theorem State.setReefer_leds (i : ReeferId) (r : Reefer) : (s.setReefer i r).leds = s.leds := rfl
@[simp] theorem State.setReefer_port (i : ReeferId) (r : Reefer) : (s.setReefer i r).port = s.port := rfl
@[simp] theorem State.setReefer_chainN (i : ReeferId) (r : Reefer) : (s.setReefer i r).chainN = s.chainN := rfl
@[simp] theorem State.setReefer_chainS (i : ReeferId) (r : Reefer) : (s.setReefer i r).chainS = s.chainS := rfl
@[simp] theorem State.setReefer_cov (i : ReeferId) (r : Reefer) : (s.setReefer i r).cov = s.cov := rfl
@[simp] theorem State.setReefer_clu (i : ReeferId) (r : Reefer) : (s.setReefer i r).clu = s.clu := rfl
@[simp] theorem State.setReefer_pool (i : ReeferId) (r : Reefer) : (s.setReefer i r).pool = s.pool := rfl
@[simp] theorem State.setReefer_drain (i : ReeferId) (r : Reefer) : (s.setReefer i r).drain = s.drain := rfl
@[simp] theorem State.setReefer_mgmt (i : ReeferId) (r : Reefer) : (s.setReefer i r).mgmt = s.mgmt := rfl
@[simp] theorem State.setReefer_events (i : ReeferId) (r : Reefer) : (s.setReefer i r).events = s.events := rfl
@[simp] theorem State.setReefer_choices (i : ReeferId) (r : Reefer) : (s.setReefer i r).choices = s.choices := rfl
@[simp] theorem State.setReefer_pending (i : ReeferId) (r : Reefer) : (s.setReefer i r).pending = s.pending := rfl

@[simp] theorem State.modReefer_time (i : ReeferId) (f : Reefer → Reefer) : (s.modReefer i f).time = s.time := rfl
@[simp] theorem State.modReefer_held (i : ReeferId) (f : Reefer → Reefer) : (s.modReefer i f).held = s.held := rfl
@[simp] theorem State.modReefer_leds (i : ReeferId) (f : Reefer → Reefer) : (s.modReefer i f).leds = s.leds := rfl
@[simp] theorem State.modReefer_port (i : ReeferId) (f : Reefer → Reefer) : (s.modReefer i f).port = s.port := rfl
@[simp] theorem State.modReefer_chainN (i : ReeferId) (f : Reefer → Reefer) : (s.modReefer i f).chainN = s.chainN := rfl
@[simp] theorem State.modReefer_chainS (i : ReeferId) (f : Reefer → Reefer) : (s.modReefer i f).chainS = s.chainS := rfl
@[simp] theorem State.modReefer_cov (i : ReeferId) (f : Reefer → Reefer) : (s.modReefer i f).cov = s.cov := rfl
@[simp] theorem State.modReefer_clu (i : ReeferId) (f : Reefer → Reefer) : (s.modReefer i f).clu = s.clu := rfl
@[simp] theorem State.modReefer_pool (i : ReeferId) (f : Reefer → Reefer) : (s.modReefer i f).pool = s.pool := rfl
@[simp] theorem State.modReefer_drain (i : ReeferId) (f : Reefer → Reefer) : (s.modReefer i f).drain = s.drain := rfl
@[simp] theorem State.modReefer_mgmt (i : ReeferId) (f : Reefer → Reefer) : (s.modReefer i f).mgmt = s.mgmt := rfl
@[simp] theorem State.modReefer_events (i : ReeferId) (f : Reefer → Reefer) : (s.modReefer i f).events = s.events := rfl
@[simp] theorem State.modReefer_choices (i : ReeferId) (f : Reefer → Reefer) : (s.modReefer i f).choices = s.choices := rfl
@[simp] theorem State.modReefer_pending (i : ReeferId) (f : Reefer → Reefer) : (s.modReefer i f).pending = s.pending := rfl

@[simp] theorem State.modBatch_time (b : BatchId) (f : Batch → Batch) : (s.modBatch b f).time = s.time := rfl
@[simp] theorem State.modBatch_held (b : BatchId) (f : Batch → Batch) : (s.modBatch b f).held = s.held := rfl
@[simp] theorem State.modBatch_leds (b : BatchId) (f : Batch → Batch) : (s.modBatch b f).leds = s.leds := rfl
@[simp] theorem State.modBatch_port (b : BatchId) (f : Batch → Batch) : (s.modBatch b f).port = s.port := rfl
@[simp] theorem State.modBatch_chainN (b : BatchId) (f : Batch → Batch) : (s.modBatch b f).chainN = s.chainN := rfl
@[simp] theorem State.modBatch_chainS (b : BatchId) (f : Batch → Batch) : (s.modBatch b f).chainS = s.chainS := rfl
@[simp] theorem State.modBatch_cov (b : BatchId) (f : Batch → Batch) : (s.modBatch b f).cov = s.cov := rfl
@[simp] theorem State.modBatch_clu (b : BatchId) (f : Batch → Batch) : (s.modBatch b f).clu = s.clu := rfl
@[simp] theorem State.modBatch_ree (b : BatchId) (f : Batch → Batch) : (s.modBatch b f).ree = s.ree := rfl
@[simp] theorem State.modBatch_pool (b : BatchId) (f : Batch → Batch) : (s.modBatch b f).pool = { s.pool with batches := s.pool.batches.set b (f s.pool.batches[b]) } := rfl
@[simp] theorem State.modBatch_drain (b : BatchId) (f : Batch → Batch) : (s.modBatch b f).drain = s.drain := rfl
@[simp] theorem State.modBatch_mgmt (b : BatchId) (f : Batch → Batch) : (s.modBatch b f).mgmt = s.mgmt := rfl
@[simp] theorem State.modBatch_events (b : BatchId) (f : Batch → Batch) : (s.modBatch b f).events = s.events := rfl
@[simp] theorem State.modBatch_choices (b : BatchId) (f : Batch → Batch) : (s.modBatch b f).choices = s.choices := rfl
@[simp] theorem State.modBatch_pending (b : BatchId) (f : Batch → Batch) : (s.modBatch b f).pending = s.pending := rfl

@[simp] theorem State.refreshLeds_time : (s.refreshLeds).time = s.time := rfl
@[simp] theorem State.refreshLeds_held : (s.refreshLeds).held = s.held := rfl
@[simp] theorem State.refreshLeds_port : (s.refreshLeds).port = s.port := rfl
@[simp] theorem State.refreshLeds_chainN : (s.refreshLeds).chainN = s.chainN := rfl
@[simp] theorem State.refreshLeds_chainS : (s.refreshLeds).chainS = s.chainS := rfl
@[simp] theorem State.refreshLeds_cov : (s.refreshLeds).cov = s.cov := rfl
@[simp] theorem State.refreshLeds_clu : (s.refreshLeds).clu = s.clu := rfl
@[simp] theorem State.refreshLeds_ree : (s.refreshLeds).ree = s.ree := rfl
@[simp] theorem State.refreshLeds_pool : (s.refreshLeds).pool = s.pool := rfl
@[simp] theorem State.refreshLeds_drain : (s.refreshLeds).drain = s.drain := rfl
@[simp] theorem State.refreshLeds_mgmt : (s.refreshLeds).mgmt = s.mgmt := rfl
@[simp] theorem State.refreshLeds_events : (s.refreshLeds).events = s.events := rfl
@[simp] theorem State.refreshLeds_choices : (s.refreshLeds).choices = s.choices := rfl
@[simp] theorem State.refreshLeds_pending : (s.refreshLeds).pending = s.pending := rfl

@[simp] theorem State.modChain_time (c : Chain) (f : ChainRec → ChainRec) : (s.modChain c f).time = s.time := by cases c <;> rfl
@[simp] theorem State.modChain_held (c : Chain) (f : ChainRec → ChainRec) : (s.modChain c f).held = s.held := by cases c <;> rfl
@[simp] theorem State.modChain_leds (c : Chain) (f : ChainRec → ChainRec) : (s.modChain c f).leds = s.leds := by cases c <;> rfl
@[simp] theorem State.modChain_port (c : Chain) (f : ChainRec → ChainRec) : (s.modChain c f).port = s.port := by cases c <;> rfl
@[simp] theorem State.modChain_cov (c : Chain) (f : ChainRec → ChainRec) : (s.modChain c f).cov = s.cov := by cases c <;> rfl
@[simp] theorem State.modChain_clu (c : Chain) (f : ChainRec → ChainRec) : (s.modChain c f).clu = s.clu := by cases c <;> rfl
@[simp] theorem State.modChain_ree (c : Chain) (f : ChainRec → ChainRec) : (s.modChain c f).ree = s.ree := by cases c <;> rfl
@[simp] theorem State.modChain_pool (c : Chain) (f : ChainRec → ChainRec) : (s.modChain c f).pool = s.pool := by cases c <;> rfl
@[simp] theorem State.modChain_drain (c : Chain) (f : ChainRec → ChainRec) : (s.modChain c f).drain = s.drain := by cases c <;> rfl
@[simp] theorem State.modChain_mgmt (c : Chain) (f : ChainRec → ChainRec) : (s.modChain c f).mgmt = s.mgmt := by cases c <;> rfl
@[simp] theorem State.modChain_events (c : Chain) (f : ChainRec → ChainRec) : (s.modChain c f).events = s.events := by cases c <;> rfl
@[simp] theorem State.modChain_choices (c : Chain) (f : ChainRec → ChainRec) : (s.modChain c f).choices = s.choices := by cases c <;> rfl
@[simp] theorem State.modChain_pending (c : Chain) (f : ChainRec → ChainRec) : (s.modChain c f).pending = s.pending := by cases c <;> rfl

@[simp] theorem dirSet_time (a : Addr) (t : DirTarget) : (dirSet a t s).time = s.time := rfl
@[simp] theorem dirSet_held (a : Addr) (t : DirTarget) : (dirSet a t s).held = s.held := rfl
@[simp] theorem dirSet_leds (a : Addr) (t : DirTarget) : (dirSet a t s).leds = s.leds := rfl
@[simp] theorem dirSet_port (a : Addr) (t : DirTarget) : (dirSet a t s).port = s.port := rfl
@[simp] theorem dirSet_chainN (a : Addr) (t : DirTarget) : (dirSet a t s).chainN = s.chainN := rfl
@[simp] theorem dirSet_chainS (a : Addr) (t : DirTarget) : (dirSet a t s).chainS = s.chainS := rfl
@[simp] theorem dirSet_clu (a : Addr) (t : DirTarget) : (dirSet a t s).clu = s.clu := rfl
@[simp] theorem dirSet_ree (a : Addr) (t : DirTarget) : (dirSet a t s).ree = s.ree := rfl
@[simp] theorem dirSet_pool (a : Addr) (t : DirTarget) : (dirSet a t s).pool = s.pool := rfl
@[simp] theorem dirSet_drain (a : Addr) (t : DirTarget) : (dirSet a t s).drain = s.drain := rfl
@[simp] theorem dirSet_mgmt (a : Addr) (t : DirTarget) : (dirSet a t s).mgmt = s.mgmt := rfl
@[simp] theorem dirSet_events (a : Addr) (t : DirTarget) : (dirSet a t s).events = s.events := rfl
@[simp] theorem dirSet_choices (a : Addr) (t : DirTarget) : (dirSet a t s).choices = s.choices := rfl
@[simp] theorem dirSet_pending (a : Addr) (t : DirTarget) : (dirSet a t s).pending = s.pending := rfl
@[simp] theorem dirErase_time (a : Addr) : (dirErase a s).time = s.time := rfl
@[simp] theorem dirErase_held (a : Addr) : (dirErase a s).held = s.held := rfl
@[simp] theorem dirErase_leds (a : Addr) : (dirErase a s).leds = s.leds := rfl
@[simp] theorem dirErase_port (a : Addr) : (dirErase a s).port = s.port := rfl
@[simp] theorem dirErase_chainN (a : Addr) : (dirErase a s).chainN = s.chainN := rfl
@[simp] theorem dirErase_chainS (a : Addr) : (dirErase a s).chainS = s.chainS := rfl
@[simp] theorem dirErase_clu (a : Addr) : (dirErase a s).clu = s.clu := rfl
@[simp] theorem dirErase_ree (a : Addr) : (dirErase a s).ree = s.ree := rfl
@[simp] theorem dirErase_pool (a : Addr) : (dirErase a s).pool = s.pool := rfl
@[simp] theorem dirErase_drain (a : Addr) : (dirErase a s).drain = s.drain := rfl
@[simp] theorem dirErase_mgmt (a : Addr) : (dirErase a s).mgmt = s.mgmt := rfl
@[simp] theorem dirErase_events (a : Addr) : (dirErase a s).events = s.events := rfl
@[simp] theorem dirErase_choices (a : Addr) : (dirErase a s).choices = s.choices := rfl
@[simp] theorem dirErase_pending (a : Addr) : (dirErase a s).pending = s.pending := rfl

end Fields

/-! ### Counters are updates of their records -/

section Counters

variable (s : State)

@[simp] theorem State.countPort_eq (f : PortCounters → PortCounters) :
    s.countPort f = s.modPort fun p => { p with counters := f p.counters } := rfl
@[simp] theorem State.countDrain_eq (f : DrainCounters → DrainCounters) :
    s.countDrain f = s.modDrain fun d => { d with counters := f d.counters } := rfl
@[simp] theorem State.countMgmt_eq (f : MgmtCounters → MgmtCounters) :
    s.countMgmt f = s.modMgmt fun m => { m with counters := f m.counters } := rfl
@[simp] theorem State.countCrane_eq (k : CraneId) (f : CraneCounters → CraneCounters) :
    s.countCrane k f = s.modCrane k fun c => { c with counters := f c.counters } := rfl
@[simp] theorem State.countReefer_eq (i : ReeferId) (f : ReeferCounters → ReeferCounters) :
    s.countReefer i f = s.modReefer i fun r => { r with counters := f r.counters } := rfl
@[simp] theorem State.countChain_eq (c : Chain) (f : ChainCounters → ChainCounters) :
    s.countChain c f = s.modChain c fun r => { r with counters := f r.counters } := rfl

end Counters

/-! ### Records read after an update -/

section Records

variable (s : State)

@[simp] theorem State.chain_modChain (c : Chain) (f : ChainRec → ChainRec) : (s.modChain c f).chain c = f (s.chain c) := by
  cases c <;> rfl

theorem State.chain_modChain_ne {c d : Chain} (h : d ≠ c) (f : ChainRec → ChainRec) :
    (s.modChain c f).chain d = s.chain d := by
  cases c <;> cases d <;> first | rfl | exact absurd rfl h

@[simp] theorem State.cell_modCell (x : CellId) (f : Cell → Cell) : (s.modCell x f).cell x = f (s.cell x) := by
  simp [State.cell]

@[simp] theorem State.cell_push (e : CluEvent) (x : CellId) : (s.push e).cell x = s.cell x := rfl

theorem State.cell_modCell_ne {x y : CellId} (h : y ≠ x) (f : Cell → Cell) : (s.modCell x f).cell y = s.cell y := by
  have : x.val ≠ y.val := fun e => h (Fin.ext e.symm)
  simp [State.cell, Vector.getElem_set_ne, this]

@[simp] theorem State.crane_modCrane (k : CraneId) (f : Crane → Crane) : (s.modCrane k f).crane k = f (s.crane k) := by
  simp [State.crane]

theorem State.crane_modCrane_ne {k j : CraneId} (h : j ≠ k) (f : Crane → Crane) :
    (s.modCrane k f).crane j = s.crane j := by
  have : k.val ≠ j.val := fun e => h (Fin.ext e.symm)
  simp [State.crane, Vector.getElem_set_ne, this]

@[simp] theorem State.group_modGroup (g : GroupId) (f : Group → Group) : (s.modGroup g f).group g = f (s.group g) := by
  simp [State.group]

theorem State.group_modGroup_ne {g h : GroupId} (hne : h ≠ g) (f : Group → Group) :
    (s.modGroup g f).group h = s.group h := by
  have : g.val ≠ h.val := fun e => hne (Fin.ext e.symm)
  simp [State.group, Vector.getElem_set_ne, this]

@[simp] theorem State.batch_modBatch (b : BatchId) (f : Batch → Batch) : (s.modBatch b f).batch b = f (s.batch b) := by
  simp [State.batch]

theorem State.batch_modBatch_ne {b d : BatchId} (h : d ≠ b) (f : Batch → Batch) :
    (s.modBatch b f).batch d = s.batch d := by
  have : b.val ≠ d.val := fun e => h (Fin.ext e.symm)
  simp [State.batch, Vector.getElem_set_ne, this]

/-- The records depend on their block alone. -/
theorem State.cell_congr {s t : State} (h : s.cov = t.cov) (x : CellId) : s.cell x = t.cell x := by
  simp [State.cell, h]

theorem State.crane_congr {s t : State} (h : s.clu = t.clu) (k : CraneId) : s.crane k = t.crane k := by
  simp [State.crane, h]

theorem State.reefer_congr {s t : State} (h : s.ree = t.ree) (i : ReeferId) : s.reefer i = t.reefer i := by
  simp [State.reefer, h]

theorem State.batch_congr {s t : State} (h : s.pool = t.pool) (b : BatchId) : s.batch b = t.batch b := by
  simp [State.batch, h]

end Records

end Machine
end Sys2Proof
end

