-- ==== Sys2Proof/Laws/Tables.lean ====
section
/-! SUPPORT. The keyed lists (log 7) and the tables: what a number reads as after a set or an erase, and that every operation
keeps the canonical form. -/

namespace Sys2Proof
namespace Machine

/-! ### Reading after writing -/

section Sparse

variable {α : Type}

theorem sparseFind_insert_same (l : List (Nat × α)) (i : Nat) (v : α) : sparseFind (sparseInsert l i v) i = some v := by
  induction l with
  | nil => simp [sparseInsert, sparseFind]
  | cons e t ih =>
    obtain ⟨j, w⟩ := e
    rcases lt_trichotomy i j with h | h | h
    · simp [sparseInsert, sparseFind, h]
    · simp [sparseInsert, sparseFind, h]
    · have h1 : ¬ i < j := by omega
      have h2 : i ≠ j := by omega
      simp [sparseInsert, sparseFind, h1, h2, Ne.symm h2, ih]

theorem sparseFind_insert_ne (l : List (Nat × α)) {i k : Nat} (hk : k ≠ i) (v : α) :
    sparseFind (sparseInsert l i v) k = sparseFind l k := by
  induction l with
  | nil => simp [sparseInsert, sparseFind, Ne.symm hk]
  | cons e t ih =>
    obtain ⟨j, w⟩ := e
    rcases lt_trichotomy i j with h | h | h
    · simp [sparseInsert, sparseFind, h, Ne.symm hk]
    · subst h
      simp [sparseInsert, sparseFind, Ne.symm hk]
    · have h1 : ¬ i < j := by omega
      have h2 : i ≠ j := by omega
      simp [sparseInsert, sparseFind, h1, h2, ih]

theorem sparseFind_insert (l : List (Nat × α)) (i k : Nat) (v : α) :
    sparseFind (sparseInsert l i v) k = if k = i then some v else sparseFind l k := by
  by_cases h : k = i
  · subst h
    simp [sparseFind_insert_same]
  · simp [h, sparseFind_insert_ne l h]

theorem sparseFind_erase (l : List (Nat × α)) (i k : Nat) :
    sparseFind (sparseErase l i) k = if k = i then none else sparseFind l k := by
  induction l with
  | nil => simp [sparseErase, sparseFind]
  | cons e t ih =>
    obtain ⟨j, w⟩ := e
    by_cases hj : j = i
    · subst hj
      have : sparseErase ((j, w) :: t) j = sparseErase t j := by simp [sparseErase]
      rw [this, ih]
      by_cases hk : k = j
      · simp [hk]
      · simp [sparseFind, hk, Ne.symm hk]
    · have : sparseErase ((j, w) :: t) i = (j, w) :: sparseErase t i := by simp [sparseErase, hj]
      rw [this]
      by_cases hk : j = k
      · subst hk
        simp [sparseFind, hj]
      · simp [sparseFind, hk, ih]

theorem sparseFind_filter (p : Nat × α → Bool) {l : List (Nat × α)} (hs : sparseSorted l) (k : Nat) :
    sparseFind (l.filter p) k = (sparseFind l k).filter fun v => p (k, v) := by
  induction l with
  | nil => rfl
  | cons e t ih =>
    obtain ⟨j, w⟩ := e
    obtain ⟨hlt, ht⟩ := List.pairwise_cons.1 hs
    have none_of : j = k → sparseFind (t.filter p) k = none := by
      rintro rfl
      rw [ih ht]
      have : sparseFind t j = none := by
        clear ih ht hs
        induction t with
        | nil => rfl
        | cons e t ih =>
          have h1 := hlt e (by simp)
          simp only [sparseFind]
          rw [if_neg (by omega)]
          exact ih fun a ha => hlt a (by simp [ha])
      simp [this]
    by_cases hj : j = k
    · subst hj
      by_cases hp : p (j, w) <;> simp [sparseFind, hp, none_of rfl, Option.filter]
    · by_cases hp : p (j, w) <;> simp [sparseFind, hp, hj, ih ht]

/-! ### The canonical form -/

theorem mem_sparseInsert {l : List (Nat × α)} {i : Nat} {v : α} {e : Nat × α} (h : e ∈ sparseInsert l i v) :
    e = (i, v) ∨ e ∈ l := by
  induction l with
  | nil => simpa [sparseInsert] using h
  | cons d t ih =>
    obtain ⟨j, w⟩ := d
    simp only [sparseInsert] at h
    split at h
    · simpa using h
    · split at h
      · rcases List.mem_cons.1 h with h | h
        · exact .inl h
        · exact .inr (List.mem_cons_of_mem _ h)
      · rcases List.mem_cons.1 h with h | h
        · exact .inr (by simp [h])
        · rcases ih h with h | h
          · exact .inl h
          · exact .inr (List.mem_cons_of_mem _ h)

theorem sparseSorted_insert {l : List (Nat × α)} (h : sparseSorted l) (i : Nat) (v : α) :
    sparseSorted (sparseInsert l i v) := by
  induction l with
  | nil => simp [sparseInsert]
  | cons d t ih =>
    obtain ⟨j, w⟩ := d
    obtain ⟨hlt, ht⟩ := List.pairwise_cons.1 h
    simp only [sparseInsert]
    split
    · rename_i hij
      refine List.pairwise_cons.2 ⟨fun a ha => ?_, h⟩
      rcases List.mem_cons.1 ha with rfl | ha
      · exact hij
      · exact lt_trans hij (hlt a ha)
    · split
      · rename_i hij
        subst hij
        exact List.pairwise_cons.2 ⟨hlt, ht⟩
      · rename_i h1 h2
        refine List.pairwise_cons.2 ⟨fun a ha => ?_, ih ht⟩
        rcases mem_sparseInsert ha with rfl | ha
        · simp only
          omega
        · exact hlt a ha

theorem sparseSorted_erase {l : List (Nat × α)} (h : sparseSorted l) (i : Nat) : sparseSorted (sparseErase l i) :=
  List.Pairwise.filter _ h

theorem mem_sparseErase {l : List (Nat × α)} {i : Nat} {e : Nat × α} (h : e ∈ sparseErase l i) : e ∈ l :=
  (List.mem_filter.1 h).1

theorem mem_of_sparseFind {l : List (Nat × α)} {i : Nat} {v : α} (h : sparseFind l i = some v) : (i, v) ∈ l := by
  induction l with
  | nil => simp [sparseFind] at h
  | cons d t ih =>
    obtain ⟨j, w⟩ := d
    simp only [sparseFind] at h
    split at h
    · rename_i hj
      subst hj
      simp_all
    · exact List.mem_cons_of_mem _ (ih h)

/-- The lowest number not used is not used (R40). -/
theorem sparseFind_firstFree {l : List (Nat × α)} (h : sparseSorted l) (n : Nat) (hn : ∀ e ∈ l, n ≤ e.1) :
    sparseFind l (firstFree l n) = none ∧ n ≤ firstFree l n := by
  induction l generalizing n with
  | nil => simp [sparseFind, firstFree]
  | cons d t ih =>
    obtain ⟨j, w⟩ := d
    obtain ⟨hlt, ht⟩ := List.pairwise_cons.1 h
    have hj : n ≤ j := hn (j, w) (by simp)
    simp only [firstFree]
    split
    · rename_i hjn
      subst hjn
      obtain ⟨h1, h2⟩ := ih ht (j + 1) fun e he => hlt e he
      refine ⟨?_, by omega⟩
      simp only [sparseFind]
      rw [if_neg (by omega)]
      exact h1
    · rename_i hjn
      refine ⟨?_, le_refl n⟩
      have : ∀ t : List (Nat × α), (∀ e ∈ t, n < e.1) → sparseFind t n = none := by
        intro t
        induction t with
        | nil => intro _; rfl
        | cons e t ih =>
          intro ht
          have := ht e (by simp)
          simp only [sparseFind]
          rw [if_neg (by omega)]
          exact ih fun a ha => ht a (by simp [ha])
      simp only [sparseFind]
      rw [if_neg hjn]
      exact this t fun e he => lt_of_le_of_lt hj (hlt e he)

end Sparse

/-! ### Tables -/

@[simp] theorem tabMap_getElem {α β : Type} {n : Nat} (f : α → β) (v : Vector α n) (i : Nat) (h : i < n) :
    (tabMap f v)[i] = f v[i] := by
  simp [tabMap]

theorem mem_allCells (x : CellId) : x ∈ allCells := by
  revert x
  decide

theorem mem_allCranes (k : CraneId) : k ∈ allCranes := by
  revert k
  decide

theorem mem_allBatches (b : BatchId) : b ∈ allBatches := by
  revert b
  decide

@[simp] theorem mem_sortCells {l : List CellId} {x : CellId} : x ∈ sortCells l ↔ x ∈ l := by
  simp [sortCells, mem_allCells]

theorem sortCells_nodup (l : List CellId) : (sortCells l).Nodup :=
  List.Nodup.filter _ (by decide)

/-! ### Reefers -/

/-- A reefer reads as it was set, VACANT included. -/
@[simp] theorem State.reefer_setReefer (s : State) (i : ReeferId) (r : Reefer) : (s.setReefer i r).reefer i = r := by
  by_cases h : r = Reefer.vacant
  · simp [State.setReefer, State.reefer, h, sparseFind_erase]
  · simp [State.setReefer, State.reefer, h, sparseFind_insert_same]

theorem State.reefer_setReefer_ne (s : State) {i j : ReeferId} (h : j ≠ i) (r : Reefer) :
    (s.setReefer i r).reefer j = s.reefer j := by
  have hv : j.val ≠ i.val := fun e => h (Fin.ext e)
  by_cases hr : r = Reefer.vacant
  · simp [State.setReefer, State.reefer, hr, sparseFind_erase, hv]
  · simp [State.setReefer, State.reefer, hr, sparseFind_insert, hv]

@[simp] theorem State.reefer_modReefer (s : State) (i : ReeferId) (f : Reefer → Reefer) :
    (s.modReefer i f).reefer i = f (s.reefer i) := by
  simp [State.modReefer]

theorem State.reefer_modReefer_ne (s : State) {i j : ReeferId} (h : j ≠ i) (f : Reefer → Reefer) :
    (s.modReefer i f).reefer j = s.reefer j :=
  State.reefer_setReefer_ne s h _

/-- Setting a reefer keeps the canonical form of the table. -/
theorem setReefer_sorted {s : State} (h : sparseSorted s.ree.reefers) (i : ReeferId) (r : Reefer) :
    sparseSorted (s.setReefer i r).ree.reefers := by
  unfold State.setReefer
  by_cases hr : r = Reefer.vacant
  · simp only [hr, if_true]
    exact sparseSorted_erase h _
  · simp only [hr, if_false]
    exact sparseSorted_insert h _ _

theorem setReefer_listed {s : State} (h : ∀ e ∈ s.ree.reefers, e.2 ≠ Reefer.vacant) (i : ReeferId) (r : Reefer) :
    ∀ e ∈ (s.setReefer i r).ree.reefers, e.2 ≠ Reefer.vacant := by
  unfold State.setReefer
  by_cases hr : r = Reefer.vacant
  · simp only [hr, if_true]
    exact fun e he => h e (mem_sparseErase he)
  · simp only [hr, if_false]
    intro e he
    rcases mem_sparseInsert he with rfl | he
    · exact hr
    · exact h e he

end Machine
end Sys2Proof
end

