-- ==== Sys2Proof/Laws/Frames.lean ====
section
/-! SUPPORT. What each shared operation can change: the port alone (offers and notices), the crane links with the cells and
the port (handover and what it causes), or the pool with the reefers, the drain and the port. -/

namespace Sys2Proof
namespace Machine

theorem PortOnly.refl (s : State) : PortOnly s s := ⟨_, rfl⟩

theorem PortOnly.trans {s t u : State} (h : PortOnly s t) (g : PortOnly t u) : PortOnly s u := by
  obtain ⟨p, rfl⟩ := h
  obtain ⟨q, rfl⟩ := g
  exact ⟨q, rfl⟩

theorem LinkOnly.refl (s : State) : LinkOnly s s := ⟨_, _, _, _, rfl⟩

theorem LinkOnly.trans {s t u : State} (h : LinkOnly s t) (g : LinkOnly t u) : LinkOnly s u := by
  obtain ⟨_, _, _, _, rfl⟩ := h
  obtain ⟨_, _, _, _, rfl⟩ := g
  exact ⟨_, _, _, _, rfl⟩

theorem PoolOnly.refl (s : State) : PoolOnly s s := ⟨_, _, _, _, rfl⟩

theorem PoolOnly.trans {s t u : State} (h : PoolOnly s t) (g : PoolOnly t u) : PoolOnly s u := by
  obtain ⟨_, _, _, _, rfl⟩ := h
  obtain ⟨_, _, _, _, rfl⟩ := g
  exact ⟨_, _, _, _, rfl⟩

theorem PortOnly.link {s t : State} (h : PortOnly s t) : LinkOnly s t := by
  obtain ⟨p, rfl⟩ := h
  exact ⟨_, _, _, _, rfl⟩

theorem PortOnly.pool {s t : State} (h : PortOnly s t) : PoolOnly s t := by
  obtain ⟨p, rfl⟩ := h
  exact ⟨_, _, _, _, rfl⟩

/-- A frame as an equation: everything but the port stands. -/
theorem PortOnly.eq {s t : State} (h : PortOnly s t) : t = { s with port := t.port } := by
  obtain ⟨p, rfl⟩ := h
  rfl

theorem LinkOnly.eq {s t : State} (h : LinkOnly s t) :
    t = { s with port := t.port, cov := t.cov, clu := t.clu, events := t.events } := by
  obtain ⟨_, _, _, _, rfl⟩ := h
  rfl

theorem PoolOnly.eq {s t : State} (h : PoolOnly s t) :
    t = { s with port := t.port, ree := t.ree, pool := t.pool, drain := t.drain } := by
  obtain ⟨_, _, _, _, rfl⟩ := h
  rfl

/-- A fold of steps that each keep a frame keeps it. -/
theorem LinkOnly.foldl {α : Type} {f : State → α → State} (h : ∀ s a, LinkOnly s (f s a)) (l : List α) (s : State) :
    LinkOnly s (l.foldl f s) := by
  induction l generalizing s with
  | nil => exact .refl s
  | cons a l ih => exact (h s a).trans (ih _)

theorem PoolOnly.foldl {α : Type} {f : State → α → State} (h : ∀ s a, PoolOnly s (f s a)) (l : List α) (s : State) :
    PoolOnly s (l.foldl f s) := by
  induction l generalizing s with
  | nil => exact .refl s
  | cons a l ih => exact (h s a).trans (ih _)

/-! ### Offers and notices (R147, R151, R152) -/

theorem modPort_portOnly (f : Port → Port) (s : State) : PortOnly s (s.modPort f) := ⟨_, rfl⟩

theorem offer_portOnly (s : State) (c : TxClass) (f : TxFrame) : PortOnly s (s.offer c f).1 := ⟨_, rfl⟩

theorem noticeTo_portOnly (s : State) (a : Addr) (n : Notice) : PortOnly s (s.noticeTo a n) := by
  unfold State.noticeTo
  generalize ho : s.offer .control (s.frame a (.notice s.now n)) = o
  have h : PortOnly s o.1 := ho ▸ offer_portOnly s _ _
  dsimp only
  split <;> exact h.trans (modPort_portOnly _ _)

theorem noticeController_portOnly (s : State) (n : Notice) : PortOnly s (s.noticeController n) := by
  unfold State.noticeController
  split
  · exact ⟨_, rfl⟩
  · exact noticeTo_portOnly _ _ _

theorem noticeCrane_portOnly (s : State) (k : CraneId) (n : Notice) : PortOnly s (s.noticeCrane k n) := by
  unfold State.noticeCrane
  split
  · exact noticeController_portOnly _ _
  · exact (noticeController_portOnly _ _).trans (noticeTo_portOnly _ _ _)

/-! ### Cells, cranes and claims (R31-R33) -/

theorem modCell_linkOnly (x : CellId) (f : Cell → Cell) (s : State) : LinkOnly s (s.modCell x f) := ⟨_, _, _, _, rfl⟩

theorem countCov_linkOnly (f : CoverageCounters → CoverageCounters) (s : State) : LinkOnly s (s.countCov f) :=
  ⟨_, _, _, _, rfl⟩

theorem modCrane_linkOnly (k : CraneId) (f : Crane → Crane) (s : State) : LinkOnly s (s.modCrane k f) :=
  ⟨_, _, _, _, rfl⟩

theorem countCrane_linkOnly (k : CraneId) (f : CraneCounters → CraneCounters) (s : State) :
    LinkOnly s (s.countCrane k f) := ⟨_, _, _, _, rfl⟩

theorem push_linkOnly (e : CluEvent) (s : State) : LinkOnly s (s.push e) := ⟨_, _, _, _, rfl⟩

theorem coverageEvent_linkOnly {f : State → State} (h : ∀ s, LinkOnly s (f s)) (x : CellId) (s : State) :
    LinkOnly s (coverageEvent x f s) := by
  unfold coverageEvent
  simp only
  split <;> split <;>
    first
      | exact ((h s).trans (modCell_linkOnly _ _ _)).trans (push_linkOnly _ _)
      | exact (h s).trans (modCell_linkOnly _ _ _)
      | exact (h s).trans (push_linkOnly _ _)
      | exact h s

theorem reserveClaim_linkOnly (x : CellId) (n : Nat) (s : State) : LinkOnly s (reserveClaim x n s).1 := by
  unfold reserveClaim
  split <;> dsimp only
  · exact modCell_linkOnly _ _ _
  · exact countCov_linkOnly _ _

theorem releaseClaim_linkOnly (x : CellId) (n : Nat) (s : State) : LinkOnly s (releaseClaim x n s) :=
  (modCell_linkOnly _ _ _).trans (push_linkOnly _ _)

theorem shadowAdd_linkOnly (k : CraneId) (x : CellId) (s : State) : LinkOnly s (shadowAdd k x s) :=
  coverageEvent_linkOnly (fun _ => (modCell_linkOnly _ _ _).trans (modCrane_linkOnly _ _ _)) x s

theorem shadowRemove_linkOnly (k : CraneId) (x : CellId) (s : State) : LinkOnly s (shadowRemove k x s) :=
  coverageEvent_linkOnly (fun _ => (modCell_linkOnly _ _ _).trans (modCrane_linkOnly _ _ _)) x s

theorem statusRecord_linkOnly (x : CellId) (q : StatusRecord) (s : State) : LinkOnly s (statusRecord x q s) := by
  unfold statusRecord
  split
  · exact coverageEvent_linkOnly (fun _ => modCell_linkOnly _ _ _) x s
  · exact countCov_linkOnly _ _

theorem statusMiss_linkOnly (x : CellId) (s : State) : LinkOnly s (statusMiss x s) :=
  coverageEvent_linkOnly (fun _ => modCell_linkOnly _ _ _) x s

theorem setBarred_linkOnly (x : CellId) (b : Bool) (s : State) : LinkOnly s (setBarred x b s) :=
  coverageEvent_linkOnly (fun _ => modCell_linkOnly _ _ _) x s

theorem departure_linkOnly (c : Chain) (s : State) : LinkOnly s (departure c s) :=
  LinkOnly.foldl (fun s x => coverageEvent_linkOnly (fun _ => modCell_linkOnly _ _ _) x s) _ s

theorem clearFlags_linkOnly (l : List CellId) (s : State) : LinkOnly s (clearFlags l s) :=
  LinkOnly.foldl (fun _ _ => modCell_linkOnly _ _ _) l s

theorem cycleEnd_linkOnly (c : Chain) (cause : CycleEndCause) (s : State) : LinkOnly s (cycleEnd c cause s) := by
  unfold cycleEnd
  split
  · exact .refl s
  · split
    · exact clearFlags_linkOnly _ _
    · simp only
      split
      · exact ((((offer_portOnly _ _ _).link).trans (clearFlags_linkOnly _ _)).trans (countCov_linkOnly _ _)).trans
          (modPort_portOnly _ _).link
      · exact ((offer_portOnly _ _ _).link).trans (countCov_linkOnly _ _)

/-! ### Handover (R77-R90) -/

theorem withdrawNotices_linkOnly (p : PendingNotice → Bool) (s : State) : LinkOnly s (withdrawNotices p s) :=
  LinkOnly.trans ⟨_, _, _, _, rfl⟩ (LinkOnly.foldl (fun _ _ => countCrane_linkOnly _ _ _) _ _)

theorem withdrawCraneNotices_linkOnly (k : CraneId) (s : State) : LinkOnly s (withdrawCraneNotices k s) :=
  withdrawNotices_linkOnly _ s

theorem startHandover_linkOnly (k : CraneId) (t : CellId) (s : State) : LinkOnly s (startHandover k t s) := by
  unfold startHandover
  dsimp only
  refine LinkOnly.trans ?_ (countCrane_linkOnly _ _ _)
  split
  · exact modCrane_linkOnly _ _ _
  · exact (modCrane_linkOnly _ _ _).trans ⟨_, _, _, _, rfl⟩

theorem deferHandover_linkOnly (k : CraneId) (l : List CellId) (s : State) : LinkOnly s (deferHandover k l s) := by
  unfold deferHandover
  simp only
  split
  · exact .refl s
  · exact ((modCrane_linkOnly _ _ _).trans (noticeCrane_portOnly _ _ _).link).trans (modCrane_linkOnly _ _ _)

theorem attemptStart_linkOnly (k : CraneId) (l tried : List CellId) (s : State) :
    LinkOnly s (attemptStart k l tried s) := by
  induction l generalizing tried s with
  | nil => exact deferHandover_linkOnly k tried s
  | cons x l ih =>
    unfold attemptStart
    simp only
    split
    · exact (reserveClaim_linkOnly _ _ _).trans (startHandover_linkOnly _ _ _)
    · exact (reserveClaim_linkOnly _ _ _).trans (ih _ _)

theorem evaluate_linkOnly (k : CraneId) (b : Bool) (s : State) : LinkOnly s (evaluate k b s) := by
  unfold evaluate
  simp only
  split
  · split
    · split
      · exact .refl s
      · split
        · split
          · exact modCrane_linkOnly _ _ _
          · unfold holdOff
            simp only
            split
            · exact (modCrane_linkOnly _ _ _).trans (attemptStart_linkOnly _ _ _ _)
            · exact (modCrane_linkOnly _ _ _).trans (modCrane_linkOnly _ _ _)
        · exact attemptStart_linkOnly _ _ _ _
    · exact attemptStart_linkOnly _ _ _ _
  · exact .refl s

theorem failHandover_linkOnly (k : CraneId) (cause : FailCause) (s : State) : LinkOnly s (failHandover k cause s) := by
  unfold failHandover
  split
  · exact .refl s
  · exact ((((((releaseClaim_linkOnly _ _ _).trans (modCrane_linkOnly _ _ _)).trans
      (withdrawCraneNotices_linkOnly _ _)).trans (modCrane_linkOnly _ _ _)).trans
      (noticeCrane_portOnly _ _ _).link).trans (modCrane_linkOnly _ _ _)).trans (evaluate_linkOnly _ _ _)

theorem timeoutIfDue_linkOnly (k : CraneId) (s : State) : LinkOnly s (timeoutIfDue k s) := by
  unfold timeoutIfDue
  split
  · exact failHandover_linkOnly _ _ _
  · exact .refl s

theorem barEndIfDue_linkOnly (k : CraneId) (s : State) : LinkOnly s (barEndIfDue k s) := by
  unfold barEndIfDue
  split
  · exact modCrane_linkOnly _ _ _
  · exact .refl s
  · exact .refl s

theorem barStep_linkOnly (c : Chain) (k : CraneId) (s : State) : LinkOnly s (barStep c k s) := by
  unfold barStep
  split
  · split
    · exact (modCrane_linkOnly _ _ _).trans (barEndIfDue_linkOnly _ _)
    · exact .refl s
  · exact .refl s

theorem countdownStep_linkOnly (c : Chain) (k : CraneId) (s : State) : LinkOnly s (countdownStep c k s) := by
  unfold countdownStep
  split
  · split
    · exact (modCrane_linkOnly _ _ _).trans (timeoutIfDue_linkOnly _ _)
    · exact .refl s
  · exact .refl s

theorem openerSent_linkOnly (c : Chain) (s : State) : LinkOnly s (openerSent c s) :=
  (LinkOnly.foldl (fun _ _ => barStep_linkOnly _ _ _) _ s).trans
    (LinkOnly.foldl (fun _ _ => countdownStep_linkOnly _ _ _) _ _)

theorem usabilitySweep_linkOnly (s : State) : LinkOnly s (usabilitySweep s) := by
  refine LinkOnly.foldl (fun s k => ?_) _ s
  unfold sweepVisit
  split
  · split
    · exact .refl s
    · exact failHandover_linkOnly _ _ _
  · exact evaluate_linkOnly _ _ _
  · exact .refl s

theorem roomNotice_linkOnly (s : State) : LinkOnly s (roomNotice s) := by
  refine LinkOnly.foldl (fun s k => ?_) _ s
  split
  · exact evaluate_linkOnly _ _ _
  · exact .refl s

theorem takeLinkEvent_linkOnly (s : State) (e : CluEvent) : LinkOnly s (takeLinkEvent s e) := by
  cases e
  · exact usabilitySweep_linkOnly s
  · exact roomNotice_linkOnly s
  · exact .refl s

theorem settleLink_linkOnly (n : Nat) (s : State) : LinkOnly s (settleLink n s) := by
  induction n generalizing s with
  | zero => exact .refl s
  | succ n ih =>
    unfold settleLink
    split
    · exact .refl s
    · exact (LinkOnly.trans ⟨_, _, _, _, rfl⟩ (LinkOnly.foldl takeLinkEvent_linkOnly _ _)).trans (ih _)

theorem moveShadow_linkOnly (k : CraneId) (new : List CellId) {after : State → State} (h : ∀ s, LinkOnly s (after s))
    (s : State) : LinkOnly s (moveShadow k new after s) :=
  (LinkOnly.foldl (fun _ _ => (shadowRemove_linkOnly _ _ _).trans (h _)) _ s).trans
    (LinkOnly.foldl (fun _ _ => (shadowAdd_linkOnly _ _ _).trans (h _)) _ _)

theorem mapChanged_linkOnly (s : State) : LinkOnly s (mapChanged s) := by
  refine LinkOnly.trans (LinkOnly.foldl (fun s k => ?_) _ s) (LinkOnly.foldl (fun _ _ => evaluate_linkOnly _ _ _) _ _)
  unfold mapVisit
  split <;> first | exact moveShadow_linkOnly _ _ (settleLink_linkOnly _) _ | exact .refl s

theorem takeCluEvent_linkOnly (s : State) (e : CluEvent) : LinkOnly s (takeCluEvent s e) := by
  cases e
  · exact usabilitySweep_linkOnly s
  · exact roomNotice_linkOnly s
  · exact mapChanged_linkOnly s

/-- The events handed on are set aside. -/
theorem setEvents_linkOnly (ev : List CluEvent) (s : State) : LinkOnly s { s with events := ev } := ⟨_, _, _, _, rfl⟩

theorem settleN_linkOnly (n : Nat) (s : State) : LinkOnly s (settleN n s) := by
  induction n generalizing s with
  | zero => exact .refl s
  | succ n ih =>
    unfold settleN
    split
    · exact .refl s
    · exact ((setEvents_linkOnly [] s).trans (LinkOnly.foldl takeCluEvent_linkOnly _ _)).trans (ih _)

/-- The events that follow an event reach the cells, the cranes and the port alone. -/
theorem settle_linkOnly (s : State) : LinkOnly s (settle s) := settleN_linkOnly _ s

/-- With nothing handed on, nothing follows. -/
theorem settle_of_no_events {s : State} (h : s.events = []) : settle s = s := by
  simp [settle, settleRounds, settleN, h]

theorem completeHandover_linkOnly (k : CraneId) (a t : CellId) (s : State) : LinkOnly s (completeHandover k a t s) := by
  unfold completeHandover
  dsimp only
  exact (((((releaseClaim_linkOnly _ _ _).trans (modCrane_linkOnly _ _ _)).trans (withdrawCraneNotices_linkOnly _ _)).trans
    (modCrane_linkOnly _ _ _)).trans (noticeCrane_portOnly _ _ _).link).trans (countCrane_linkOnly _ _ _)

theorem strayArrival_linkOnly (k : CraneId) (b : Bool) (s : State) : LinkOnly s (strayArrival k b s) := by
  unfold strayArrival
  split
  · exact modCrane_linkOnly _ _ _
  · exact .refl s

theorem craneLedMove_linkOnly (k : CraneId) (a x : CellId) (s : State) : LinkOnly s (craneLedMove k a x s) := by
  unfold craneLedMove
  dsimp only
  exact ((((modCrane_linkOnly _ _ _).trans (releaseClaim_linkOnly _ _ _)).trans (modCrane_linkOnly _ _ _)).trans
    (noticeCrane_portOnly _ _ _).link).trans (countCrane_linkOnly _ _ _)

theorem arrival_linkOnly (k : CraneId) (x : CellId) (b : Bool) (s : State) : LinkOnly s (arrival k x b s) := by
  unfold arrival
  split
  · split
    · exact completeHandover_linkOnly _ _ _ _
    · split
      · exact .refl s
      · exact strayArrival_linkOnly _ _ _
  · split
    · exact .refl s
    · unfold otherArrival
      split
      · simp only
        split
        · exact (reserveClaim_linkOnly _ _ _).trans (craneLedMove_linkOnly _ _ _ _)
        · exact (reserveClaim_linkOnly _ _ _).trans (strayArrival_linkOnly _ _ _)
      · exact strayArrival_linkOnly _ _ _
  · exact .refl s

theorem chainLeftWord_linkOnly (c : Chain) (s : State) : LinkOnly s (chainLeftWord c s) := by
  refine (((LinkOnly.foldl (fun _ _ => modCrane_linkOnly _ _ _) _ s).trans
    (LinkOnly.foldl (fun _ _ => modCrane_linkOnly _ _ _) _ _)).trans (withdrawNotices_linkOnly _ _)).trans
    (LinkOnly.foldl (fun s k => ?_) _ _)
  unfold chainLeftVisit
  split
  · split
    · exact failHandover_linkOnly _ _ _
    · exact .refl s
  · exact .refl s

/-! ### Crane links (R48-R71) -/

theorem forwardUp_portOnly (k : CraneId) (seq : U16) (payload : List Byte) (s : State) :
    LinkOnly s (forwardUp k seq payload s) := by
  unfold forwardUp
  split
  · exact .refl s
  · simp only
    split
    · exact (offer_portOnly _ _ _).link.trans (modCrane_linkOnly _ _ _)
    · exact (offer_portOnly _ _ _).link

theorem takePosition_linkOnly (k : CraneId) (w : U16) (s : State) : LinkOnly s (takePosition k w s) := by
  unfold takePosition
  simp only
  refine (modCrane_linkOnly k Crane.reported s).trans ?_
  generalize s.modCrane k Crane.reported = s0
  have moved : ∀ b : Bool, LinkOnly s0
      (if b = true then
        moveShadow k (shadowSet s0 (positionBand w) (positionBoom w)) id
          (s0.modCrane k fun c => { c with band := positionBand w, boom := positionBoom w })
      else s0) := by
    intro b
    split
    · exact (modCrane_linkOnly _ _ _).trans (moveShadow_linkOnly _ _ (fun s => .refl s) _)
    · exact .refl s0
  split
  · exact (moved _).trans (evaluate_linkOnly _ _ _)
  · exact moved _

theorem takeCraneUp_linkOnly (x : CellId) (radio : Addr) (seq : U16) (payload : List Byte) (s : State) :
    LinkOnly s (takeCraneUp x radio seq payload s) := by
  have live : ∀ k, LinkOnly s (settle (liveBlock k x seq payload s)) := by
    intro k
    refine LinkOnly.trans ?_ (settle_linkOnly _)
    unfold liveBlock
    simp only
    split
    · exact ((((modCrane_linkOnly _ _ _).trans (modCrane_linkOnly _ _ _)).trans (forwardUp_portOnly _ _ _ _)).trans
        (takePosition_linkOnly _ _ _)).trans (arrival_linkOnly _ _ _ _)
    · exact ((modCrane_linkOnly _ _ _).trans (modCrane_linkOnly _ _ _)).trans (arrival_linkOnly _ _ _ _)
    · exact ((modCrane_linkOnly _ _ _).trans (modCrane_linkOnly _ _ _)).trans (arrival_linkOnly _ _ _ _)
  unfold takeCraneUp
  split
  · exact ⟨_, _, _, _, rfl⟩
  · split
    · exact ⟨_, _, _, _, rfl⟩
    · refine LinkOnly.trans ?_ (settle_linkOnly _)
      unfold firstContact
      split
      · simp only
        split
        · exact (((reserveClaim_linkOnly _ _ _).trans (modCrane_linkOnly _ _ _)).trans (forwardUp_portOnly _ _ _ _)).trans
            (takePosition_linkOnly _ _ _)
        · exact ((reserveClaim_linkOnly _ _ _).trans (modCrane_linkOnly _ _ _)).trans (noticeCrane_portOnly _ _ _).link
      · exact (modCrane_linkOnly _ _ _).trans (noticeCrane_portOnly _ _ _).link
    · exact live _
    · exact live _
    · exact live _

theorem superviseExpiry_linkOnly (k : CraneId) (s : State) : LinkOnly s (superviseExpiry k s) := by
  have live : ∀ s, LinkOnly s (superviseLive k s) := by
    intro s
    unfold superviseLive
    simp only
    have h1 : LinkOnly s ((keepDecision k s).modCrane k Crane.countMisses) := by
      refine LinkOnly.trans ?_ (modCrane_linkOnly _ _ _)
      unfold keepDecision
      simp only
      split
      · exact modCrane_linkOnly _ _ _
      · exact .refl s
    have lost : ∀ r a t, LinkOnly t (enterLost k r a t) := by
      intro r a t
      unfold enterLost
      dsimp only
      exact ((((((modCrane_linkOnly _ _ _).trans (modCrane_linkOnly _ _ _)).trans (withdrawCraneNotices_linkOnly _ _)).trans
        (modCrane_linkOnly _ _ _)).trans (modCrane_linkOnly _ _ _)).trans (noticeCrane_portOnly _ _ _).link).trans
        (countCrane_linkOnly _ _ _)
    split
    · split
      · refine (h1.trans ?_).trans (lost _ _ _)
        unfold abandonHandover
        dsimp only
        exact (((((releaseClaim_linkOnly _ _ _).trans (modCrane_linkOnly _ _ _)).trans
          (withdrawCraneNotices_linkOnly _ _)).trans (modCrane_linkOnly _ _ _)).trans
          (noticeCrane_portOnly _ _ _).link).trans (countCrane_linkOnly _ _ _)
      · exact h1.trans (lost _ _ _)
    · exact h1
  unfold superviseExpiry
  split
  · exact ((modCrane_linkOnly _ _ _).trans (live _)).trans (settle_linkOnly _)
  · exact ((modCrane_linkOnly _ _ _).trans (live _)).trans (settle_linkOnly _)
  · unfold superviseLost
    dsimp only
    exact (modCrane_linkOnly _ _ _).trans ((modCrane_linkOnly _ _ _).trans (modCrane_linkOnly _ _ _))
  · exact .refl s
  · exact .refl s

theorem releaseCrane_linkOnly (k : CraneId) (s : State) : LinkOnly s (releaseCrane k s) := by
  unfold releaseCrane
  simp only
  refine LinkOnly.trans ?_ (modCrane_linkOnly _ _ _)
  refine LinkOnly.trans ?_ (LinkOnly.foldl (fun _ _ => shadowRemove_linkOnly _ _ _) _ _)
  have h1 : LinkOnly s
      (match (s.crane k).state, (s.crane k).target with
      | .handover, some t => withdrawCraneNotices k (releaseClaim t (s.crane k).reservation s)
      | _, _ => s) := by
    split
    · exact (releaseClaim_linkOnly _ _ _).trans (withdrawCraneNotices_linkOnly _ _)
    · exact .refl s
  split
  · exact h1.trans (releaseClaim_linkOnly _ _ _)
  · exact h1

/-! ### The pool and the Drain Engine (R114-R141) -/

theorem modBatch_poolOnly (b : BatchId) (f : Batch → Batch) (s : State) : PoolOnly s (s.modBatch b f) :=
  ⟨_, _, _, _, rfl⟩

theorem countPool_poolOnly (f : PoolCounters → PoolCounters) (s : State) : PoolOnly s (s.countPool f) :=
  ⟨_, _, _, _, rfl⟩

theorem setReefer_poolOnly (i : ReeferId) (r : Reefer) (s : State) : PoolOnly s (s.setReefer i r) := ⟨_, _, _, _, rfl⟩

theorem modReefer_poolOnly (i : ReeferId) (f : Reefer → Reefer) (s : State) : PoolOnly s (s.modReefer i f) :=
  ⟨_, _, _, _, rfl⟩

theorem modGroup_poolOnly (g : GroupId) (f : Group → Group) (s : State) : PoolOnly s (s.modGroup g f) :=
  ⟨_, _, _, _, rfl⟩

theorem modDrain_poolOnly (f : Drain → Drain) (s : State) : PoolOnly s (s.modDrain f) := ⟨_, _, _, _, rfl⟩

theorem freeBatch_poolOnly (b : BatchId) (s : State) : PoolOnly s (freeBatch b s) := ⟨_, _, _, _, rfl⟩

theorem sealBatch_poolOnly (b : BatchId) (c : SealCause) (s : State) : PoolOnly s (sealBatch b c s) :=
  ⟨_, _, _, _, rfl⟩

theorem sealOpen_poolOnly (u : Urgency) (c : SealCause) (s : State) : PoolOnly s (sealOpen u c s) := by
  unfold sealOpen
  split
  · exact sealBatch_poolOnly _ _ _
  · exact .refl s

theorem moveRefs_poolOnly (b : BatchId) (l : List Entry) (o n : Nat) (s : State) : PoolOnly s (moveRefs b l o n s) := by
  induction l generalizing o n s with
  | nil => exact .refl s
  | cons e l ih =>
    unfold moveRefs
    simp only
    refine PoolOnly.trans ?_ (ih _ _ _)
    split
    · exact modReefer_poolOnly _ _ _
    · exact .refl s

theorem removeEntry_poolOnly (b : BatchId) (n : Nat) (s : State) : PoolOnly s (removeEntry b n s) := by
  have h1 := (modBatch_poolOnly b (fun r => { r with entries := (s.batch b).entries.eraseIdx n }) s).trans
    (moveRefs_poolOnly b ((s.batch b).entries.drop (n + 1)) (n + 1) n _)
  unfold removeEntry
  simp only
  split
  · exact h1.trans (freeBatch_poolOnly _ _)
  · exact h1

theorem dropEntry_poolOnly (e : Entry) (u : Urgency) (s : State) : PoolOnly s (dropEntry e u s) := by
  have h : ∀ f : PoolCounters → PoolCounters, PoolOnly s
      (({ s.countPool f with pool := { (s.countPool f).pool with exhausted := true } }).countPool fun k =>
        { k with episodes := k.episodes + 1 }) := fun f => ⟨_, _, _, _, rfl⟩
  unfold dropEntry
  generalize hf : (fun k : PoolCounters => match u with
    | .routine => { k with droppedRoutine := k.droppedRoutine + 1 }
    | .urgent => { k with droppedUrgent := k.droppedUrgent + 1 }) = f
  extract_lets s1 s2
  split
  · exact countPool_poolOnly _ _
  · exact (h f).trans (noticeController_portOnly _ _).pool

theorem appendEntry_poolOnly (b : BatchId) (e : Entry) (s : State) : PoolOnly s (appendEntry b e s) := by
  have h := ((modBatch_poolOnly b (fun r => { r with entries := r.entries ++ [e] }) s).trans
    (modReefer_poolOnly e.reefer (fun q => { q with ref := some (b, (s.batch b).entries.length) }) _)).trans
    (countPool_poolOnly (fun k => { k with placed := k.placed + 1 }) _)
  unfold appendEntry
  simp only
  split
  · exact h.trans (sealBatch_poolOnly _ _ _)
  · split
    · exact h.trans (sealBatch_poolOnly _ _ _)
    · exact h

theorem placeNew_poolOnly (e : Entry) (u : Urgency) (s : State) : PoolOnly s (placeNew e u s).1 := by
  have spill : PoolOnly s (placeNew.overflow e u s).1 := by
    unfold placeNew.overflow
    split <;> dsimp only
    · exact (appendEntry_poolOnly _ _ _).trans (countPool_poolOnly _ _)
    · exact dropEntry_poolOnly _ _ _
  unfold placeNew
  split
  · exact appendEntry_poolOnly _ _ _
  · split
    · split
      · exact ((modBatch_poolOnly _ _ _).trans (countPool_poolOnly _ _)).trans (appendEntry_poolOnly _ _ _)
      · exact spill
    · exact spill

theorem overwriteEntry_poolOnly (b : BatchId) (slot : Nat) (e : Entry) (s : State) :
    PoolOnly s (overwriteEntry b slot e s) :=
  (modBatch_poolOnly _ _ _).trans (countPool_poolOnly _ _)

theorem setRef_poolOnly (i : ReeferId) (r : Option (BatchId × Nat)) (s : State) : PoolOnly s (s.setRef i r) :=
  modReefer_poolOnly _ _ _

theorem placeInPool_poolOnly (e : Entry) (u : Urgency) (s : State) : PoolOnly s (placeInPool e u s).1 := by
  have written : ∀ b slot e f, PoolOnly s ((overwriteEntry b slot e s).countPool f) := fun b slot e f =>
    (overwriteEntry_poolOnly b slot e s).trans (countPool_poolOnly f _)
  have upgraded : ∀ b slot e f,
      PoolOnly s ((placeNew e .urgent ((removeEntry b slot s).setRef e.reefer none)).1.countPool f) := fun b slot e f =>
    (((removeEntry_poolOnly b slot s).trans (setRef_poolOnly e.reefer none _)).trans (placeNew_poolOnly e .urgent _)).trans
      (countPool_poolOnly f _)
  unfold placeInPool
  simp only
  split
  · exact placeNew_poolOnly _ _ _
  · split
    · exact placeNew_poolOnly _ _ _
    · split
      · dsimp only
        exact overwriteEntry_poolOnly _ _ _ _
      · split
        · dsimp only
          exact upgraded _ _ _ _
        · dsimp only
          exact written _ _ _ _

theorem removeLive_poolOnly (i : ReeferId) (s : State) : PoolOnly s (removeLive i s) := by
  unfold removeLive
  split
  · exact .refl s
  · split
    · exact ((removeEntry_poolOnly _ _ _).trans (modReefer_poolOnly _ _ _)).trans (countPool_poolOnly _ _)
    · exact modReefer_poolOnly _ _ _

theorem takeHead_poolOnly (s : State) : PoolOnly s (takeHead s).1 := by
  unfold takeHead
  split <;> exact ⟨_, _, _, _, rfl⟩

theorem batchGood_poolOnly (b : BatchId) (s : State) : PoolOnly s (batchGood b s) := by
  unfold batchGood
  dsimp only
  refine ((PoolOnly.foldl (fun s i => ?_) _ s).trans (freeBatch_poolOnly _ _)).trans (countPool_poolOnly _ _)
  split
  · exact modReefer_poolOnly _ _ _
  · exact .refl s

theorem renumber_poolOnly (b : BatchId) (l : List (Entry × Nat)) (n : Nat) (s : State) :
    PoolOnly s (renumber b l n s) := by
  induction l generalizing n s with
  | nil => exact .refl s
  | cons e l ih => exact (modReefer_poolOnly _ _ _).trans (ih _ _)

theorem joinSealed_poolOnly (b : BatchId) (s : State) : PoolOnly s (joinSealed b s) := ⟨_, _, _, _, rfl⟩

theorem batchReturn_poolOnly (b : BatchId) (s : State) : PoolOnly s (batchReturn b s) := by
  unfold batchReturn
  simp only
  have h := ((modBatch_poolOnly b (fun r => { r with entries := (liveEntries s b).map Prod.fst }) s).trans
    (renumber_poolOnly b (liveEntries s b) 0 _)).trans (countPool_poolOnly (fun k =>
      { k with pruned := k.pruned + BitVec.ofNat 32 ((s.batch b).entries.length - (liveEntries s b).length) }) _)
  split
  · exact (h.trans (freeBatch_poolOnly _ _)).trans (countPool_poolOnly _ _)
  · exact ((h.trans (modBatch_poolOnly _ _ _)).trans (joinSealed_poolOnly _ _)).trans (countPool_poolOnly _ _)

theorem sendDrainEnd_poolOnly (d : DrainEnd) (s : State) : PoolOnly s (sendDrainEnd d s) := by
  unfold sendDrainEnd
  simp only
  split
  · exact modDrain_poolOnly _ _
  · split
    · exact (offer_portOnly _ _ _).pool
    · exact (offer_portOnly _ _ _).pool.trans (modDrain_poolOnly _ _)

theorem closeDrain_poolOnly (o : DrainOutcome) (s : State) : PoolOnly s (closeDrain o s) :=
  (modDrain_poolOnly _ _).trans (sendDrainEnd_poolOnly _ _)

theorem withdrawStaged_poolOnly (s : State) : PoolOnly s (withdrawStaged s) := by
  unfold withdrawStaged
  split
  · exact .refl s
  · simp only
    split
    · exact (modDrain_poolOnly _ _).trans (modDrain_poolOnly _ _)
    · exact (modDrain_poolOnly _ _).trans (modPort_portOnly _ _).pool

theorem failBurst_poolOnly (w : Burst) (s : State) : PoolOnly s (failBurst w s) :=
  (modDrain_poolOnly _ _).trans (batchReturn_poolOnly _ _)

theorem withdrawHalfSent_poolOnly (s : State) : PoolOnly s (withdrawHalfSent s) := by
  unfold withdrawHalfSent
  split
  · exact .refl s
  · exact (withdrawStaged_poolOnly _).trans (failBurst_poolOnly _ _)

theorem terminate_poolOnly (o : DrainOutcome) (s : State) : PoolOnly s (terminate o s) :=
  (((modDrain_poolOnly _ _).trans (withdrawHalfSent_poolOnly _)).trans
    (PoolOnly.foldl (fun _ _ => failBurst_poolOnly _ _) _ _)).trans (closeDrain_poolOnly _ _)

theorem buildFrame_poolOnly (w : Burst) (s : State) : PoolOnly s (buildFrame w s) := by
  unfold buildFrame
  split
  · exact terminate_poolOnly _ _
  · exact (modDrain_poolOnly _ _).trans (offer_portOnly _ _ _).pool

theorem startBurst_poolOnly (s : State) : PoolOnly s (startBurst s) := by
  unfold startBurst
  simp only
  split
  · exact .refl s
  · exact ((takeHead_poolOnly _).trans (modDrain_poolOnly _ _)).trans (buildFrame_poolOnly _ _)

theorem endTest_poolOnly (s : State) : PoolOnly s (endTest s) := by
  unfold endTest
  split
  any_goals exact .refl s
  all_goals
    split
    · split
      · exact closeDrain_poolOnly _ _
      · split
        · exact closeDrain_poolOnly _ _
        · exact .refl s
    · exact .refl s

theorem startTest_poolOnly (s : State) : PoolOnly s (startTest s) := by
  unfold startTest
  split
  · exact startBurst_poolOnly _
  · split
    · exact endTest_poolOnly _
    · exact .refl s

theorem afterSeal_poolOnly (b s : State) : PoolOnly s (afterSeal b s) := by
  unfold afterSeal
  split
  · exact .refl s
  · split
    · exact startBurst_poolOnly _
    · exact .refl s

theorem placeEntry_poolOnly (e : Entry) (u : Urgency) (s : State) : PoolOnly s (placeEntry e u s).1 :=
  (placeInPool_poolOnly _ _ _).trans (afterSeal_poolOnly _ _)

theorem drainReport_poolOnly (s : State) : PoolOnly s (drainReport s) := by
  unfold drainReport
  split
  · exact modDrain_poolOnly _ _
  · unfold burstFrameSent
    split
    · simp only
      split
      · exact ((modDrain_poolOnly _ _).trans (modDrain_poolOnly _ _)).trans (startTest_poolOnly _)
      · split
        · exact (modDrain_poolOnly _ _).trans (buildFrame_poolOnly _ _)
        · exact modDrain_poolOnly _ _
    · exact .refl s

theorem drainLinkLoss_poolOnly (s : State) : PoolOnly s (drainLinkLoss s) := by
  unfold drainLinkLoss
  simp only
  split
  · exact modDrain_poolOnly _ _
  · exact ((modDrain_poolOnly _ _).trans (modDrain_poolOnly _ _)).trans
      (PoolOnly.foldl (fun _ _ => batchReturn_poolOnly _ _) _ _)

/-! ### The Reefer Unit (R97-R109) -/

theorem forwardReport_poolOnly (kind : EntryKind) (u : Urgency) (i : ReeferId) (d : ReeferDef) (g : GroupDef) (seq : Byte)
    (f : Forwarded) (s : State) : PoolOnly s (forwardReport kind u i d g seq f s) := by
  unfold forwardReport
  simp only
  split <;>
    exact ((modReefer_poolOnly _ _ _).trans (placeEntry_poolOnly _ _ _)).trans (modReefer_poolOnly _ _ _)

theorem takeReport_poolOnly (x : CellId) (r : Report) (s : State) : PoolOnly s (takeReport x r s) := by
  have hear : ∀ seq cls hit newly i gid s, PoolOnly s (hearReport x seq cls hit newly i gid s) := by
    intro seq cls hit newly i gid s
    unfold hearReport
    simp only
    split
    · exact (modReefer_poolOnly _ _ _).trans (modGroup_poolOnly _ _ _)
    · exact modReefer_poolOnly _ _ _
  have suppress : ∀ i d g seq f s, PoolOnly s (suppressReport i d g seq f s) := by
    intro i d g seq f s
    unfold suppressReport
    dsimp only
    split
    · exact forwardReport_poolOnly _ _ _ _ _ _ _ _
    · exact modReefer_poolOnly _ _ _
  have valid : ∀ seq f i d g s, PoolOnly s (takeValid x seq f i d g s) := by
    intro seq f i d g s
    unfold takeValid
    simp only
    split
    · exact hear _ _ _ _ _ _ _
    · exact ((hear _ _ _ _ _ _ _).trans (modReefer_poolOnly _ _ _)).trans (forwardReport_poolOnly _ _ _ _ _ _ _ _)
    all_goals
      split
      · exact (hear _ _ _ _ _ _ _).trans (forwardReport_poolOnly _ _ _ _ _ _ _ _)
      · exact (hear _ _ _ _ _ _ _).trans (suppress _ _ _ _ _ _)
  unfold takeReport
  split
  · exact ⟨_, _, _, _, rfl⟩
  · split
    · split
      · split
        · exact modReefer_poolOnly _ _ _
        · split
          · exact .refl s
          · split
            · exact .refl s
            · exact valid _ _ _ _ _ _
      · exact modReefer_poolOnly _ _ _
    · exact modReefer_poolOnly _ _ _

theorem missIfDue_poolOnly (i : ReeferId) (s : State) : PoolOnly s (missIfDue i s) := by
  have silent : ∀ d s, PoolOnly s (enterSilent i d s) := by
    intro d s
    unfold enterSilent
    simp only
    split
    · exact (modReefer_poolOnly _ _ _).trans (placeEntry_poolOnly _ _ _)
    · exact ((modReefer_poolOnly _ _ _).trans (placeEntry_poolOnly _ _ _)).trans (modReefer_poolOnly _ _ _)
  have charge : ∀ d g s, PoolOnly s (chargeMiss i d g s) := by
    intro d g s
    unfold chargeMiss
    split
    · exact modReefer_poolOnly _ _ _
    · simp only
      split
      · exact (modReefer_poolOnly _ _ _).trans (silent _ _)
      · exact modReefer_poolOnly _ _ _
  unfold missIfDue
  split
  · split
    · exact .refl s
    · split
      · exact (modReefer_poolOnly _ _ _).trans (charge _ _ _)
      · exact .refl s
  · exact .refl s

end Machine
end Sys2Proof
end

