-- ==== Sys2Proof/Laws/Links.lean ====
section
/-! SUPPORT. What the tests and claims of handover come to in the terms of Safety.lean: usability, room, reserve claims, the
candidates, one candidate of a start, and the hold-off in use. -/

namespace Sys2Proof
namespace Machine

/-- Usability for a crane is R31's. -/
theorem usableFor_iff (s : State) (k : CraneId) (x : CellId) : usableFor s k x = true ↔ FitFor s k x := by
  simp [usableFor, FitFor, contribution, and_assoc]

/-- Usability is R31's. -/
theorem usable_iff (s : State) (x : CellId) : usable s x = true ↔ Fit s x := by
  simp [usable, Fit, and_assoc]

/-- Two states agree on usability as R31 has it. -/
theorem usable_eq (s u : State) (x : CellId) : usable s x = usable u x ↔ (Fit s x ↔ Fit u x) := by
  rw [Bool.eq_iff_iff, usable_iff, usable_iff]

/-- What the Crane Link Unit is told of differs exactly when usability for someone does (R31). -/
theorem usabilityView_ne (s u : State) (x : CellId) : usabilityView s x ≠ usabilityView u x ↔ FitDiffers s u x := by
  have view : ∀ k, ((s.crane k).defn.isSome && usableFor s k x) = ((u.crane k).defn.isSome && usableFor u k x) ↔
      ((s.crane k).defn ≠ none ∧ FitFor s k x ↔ (u.crane k).defn ≠ none ∧ FitFor u k x) := by
    intro k
    rw [Bool.eq_iff_iff]
    simp [usableFor_iff, Option.isSome_iff_ne_none]
  have all : ∀ k : CraneId, k ∈ allCranes := by decide
  unfold usabilityView FitDiffers
  rw [ne_eq, Prod.mk.injEq, usable_eq, List.map_inj_left]
  simp only [view, all, forall_true_left, not_and_or, not_forall]

/-- The change flag is raised by a change of unit state, of the barred flag or of plain usability (R34). -/
theorem flagRaised_iff (s u : State) (x : CellId) :
    flagRaised s u x = true ↔
      (s.cell x).unit ≠ (u.cell x).unit ∨ (s.cell x).barred ≠ (u.cell x).barred ∨ ¬(Fit s x ↔ Fit u x) := by
  simp [flagRaised, usable_eq, or_assoc]

/-- Everything an event of the Coverage Unit on one cell does (R31, R34): cited in place of unfolding it. -/
theorem coverageEvent_cellEvent (x : CellId) (f : State → State) (s : State) :
    CellEvent x s (f s) (coverageEvent x f s) := by
  unfold coverageEvent
  dsimp only
  constructor
  · split <;> split <;> rfl
  · intro y h
    split <;> split <;> simp [State.cell_modCell_ne _ h]
  · split <;> split <;> simp
  · rw [← flagRaised_iff]
    split <;> split <;> simp [*]
  · intro h
    rw [if_pos ((usabilityView_ne ..).mpr h)]
    split <;> rfl
  · intro h
    rw [if_neg (mt (usabilityView_ne ..).mp h)]
    split <;> rfl

/-- Room is R32's. -/
theorem hasRoom_iff (s : State) (k : CraneId) (x : CellId) :
    hasRoom s x (s.crane k).reservation = true ↔ RoomFor s k x := by
  simp [hasRoom, RoomFor, Nat.add_comm]

/-- A reserve claim on a cell with room is granted. -/
theorem reserveClaim_granted {s : State} {k : CraneId} {x : CellId} (h : RoomFor s k x) :
    reserveClaim x (s.crane k).reservation s =
      (s.modCell x fun r => { r with reserved := r.reserved + (s.crane k).reservation }, true) := by
  simp [reserveClaim, (hasRoom_iff s k x).mpr h]

/-- A reserve claim on a cell without room is refused and counted. -/
theorem reserveClaim_refused {s : State} {k : CraneId} {x : CellId} (h : ¬RoomFor s k x) :
    reserveClaim x (s.crane k).reservation s =
      (s.countCov fun c => { c with reserveRefusals := c.reserveRefusals + 1 }, false) := by
  have none : hasRoom s x (s.crane k).reservation = false := by
    rw [Bool.eq_false_iff, ne_eq, hasRoom_iff]; exact h
  simp [reserveClaim, none]

/-- The list of a crane's band is the one of Safety.lean. -/
theorem ranked_eq (s : State) (k : CraneId) : ranked s k = s.rankedCells k := by
  unfold ranked State.rankedCells; cases (s.crane k).band <;> rfl

/-- A start whose first candidate has room takes it. -/
theorem attemptStart_granted {s : State} {k : CraneId} {x : CellId} (h : RoomFor s k x) (rest tried : List CellId) :
    attemptStart k (x :: rest) tried s =
      startHandover k x (s.modCell x fun r => { r with reserved := r.reserved + (s.crane k).reservation }) := by
  simp [attemptStart, reserveClaim_granted h]

/-- A start whose first candidate has no room goes on to the next. -/
theorem attemptStart_refused {s : State} {k : CraneId} {x : CellId} (h : ¬RoomFor s k x) (rest tried : List CellId) :
    attemptStart k (x :: rest) tried s =
      attemptStart k rest (tried ++ [x]) (s.countCov fun c => { c with reserveRefusals := c.reserveRefusals + 1 }) := by
  simp [attemptStart, reserveClaim_refused h]

/-- A load leaves the lower of the hold-off in use and the new one in use (R47, R78). -/
theorem holdOffInUse_redefine (d : CraneDef) (c : Crane) :
    (c.redefine d).holdOffInUse = min c.holdOffInUse d.holdOff := by
  unfold Crane.redefine
  generalize c.holdOffInUse = n
  by_cases h : n < d.holdOff
  · simp [Crane.holdOffInUse, h, Nat.min_eq_left (Nat.le_of_lt h)]
  · simp [Crane.holdOffInUse, h, Nat.min_eq_right (Nat.le_of_not_lt h)]

/-- A position report brings the defined hold-off into use (R47). -/
theorem holdOffInUse_reported {c : Crane} {d : CraneDef} (live : c.state ≠ .lost) (h : c.defn = some d) :
    c.reported.holdOffInUse = d.holdOff := by
  simp [Crane.reported, Crane.holdOffInUse, if_neg live, h]

end Machine
end Sys2Proof
end

