-- ==== Sys2Proof/Laws/Loads.lean ====
section
/-! SUPPORT. What the validation of a load finds: the first fault of a list of entries, or none; and octets read back as the
value they carry. -/

namespace Sys2Proof
namespace Machine

/-- No fault is found exactly when no entry is at fault against those before it. -/
theorem firstFault_none {α : Type} (bad : List α → α → Bool) (before l : List α) (n : Nat) :
    firstFault bad before l n = none ↔
      ∀ i e, l[i]? = some e → bad ((l.take i).reverse ++ before) e = false := by
  induction l generalizing before n with
  | nil => simp [firstFault]
  | cons a rest ih =>
    rw [firstFault]
    split
    · refine iff_of_false (by simp) fun h => ?_
      have := h 0 a rfl
      simp_all
    · rw [ih]
      constructor
      · intro h i e he
        cases i with
        | zero => simp_all
        | succ i => simpa using h i e (by simpa using he)
      · intro h i e he
        simpa using h (i + 1) e (by simpa using he)

/-- The fault found is the first: its entry is at fault and none before it. -/
theorem firstFault_some {α : Type} {bad : List α → α → Bool} {before l : List α} {n m : Nat}
    (h : firstFault bad before l n = some m) :
    ∃ i e, m = n + i ∧ l[i]? = some e ∧ bad ((l.take i).reverse ++ before) e = true
      ∧ ∀ j d, j < i → l[j]? = some d → bad ((l.take j).reverse ++ before) d = false := by
  induction l generalizing before n with
  | nil => simp [firstFault] at h
  | cons a rest ih =>
    rw [firstFault] at h
    split at h
    · exact ⟨0, a, by simp_all, rfl, by simpa, by simp⟩
    · obtain ⟨i, e, hm, he, hb, hf⟩ := ih h
      refine ⟨i + 1, e, by omega, by simpa using he, by simpa using hb, fun j d hj hd => ?_⟩
      cases j with
      | zero => simp_all
      | succ j => simpa using hf j d (by omega) (by simpa using hd)

/-- One more octet at the end of a value. -/
theorem valueOf_append (l : List Byte) (o : Byte) : valueOf (l ++ [o]) = valueOf l * 256 + o.toNat := by
  simp [valueOf]

/-- So many octets of a value carry it modulo their range. -/
theorem valueOf_octetsOf (n v : Nat) : valueOf (octetsOf n v) = v % 256 ^ n := by
  suffices h : ∀ acc, (octetsOf n v).foldl (fun a o => a * 256 + o.toNat) acc = acc * 256 ^ n + v % 256 ^ n by
    simpa [valueOf] using h 0
  induction n with
  | zero => intro acc; simp [octetsOf, Nat.mod_one]
  | succ n ih =>
    intro acc
    rw [octetsOf, List.foldl_cons, ih, BitVec.toNat_ofNat]
    have split : v % 256 ^ (n + 1) = v / 256 ^ n % 256 * 256 ^ n + v % 256 ^ n := by
      rw [pow_succ, Nat.mod_mul, Nat.mul_comm, Nat.add_comm]
    have octet : (2 : Nat) ^ 8 = 256 := rfl
    rw [split, octet, pow_succ]
    ring

end Machine
end Sys2Proof
end

