-- ==== Sys2Proof/Laws/Port.lean ====
section
/-! SUPPORT. What an offer and the arbiter's choice can do to the port (R147, R148). -/

namespace Sys2Proof
namespace Machine

/-- An offer on a DOWN link is refused and counted. -/
theorem offer_down {p : Port} (h : p.link = .down) (c : TxClass) (f : TxFrame) :
    p.offer c f = (p.countClass c fun k => { k with linkDown := k.linkDown + 1 }, false) := by
  simp [Port.offer, h]

/-- An offer to a full queue is refused and counted. -/
theorem offer_full {p : Port} {c : TxClass} (h : p.link = .up) (full : capacityOf c ≤ (p.queue c).length) (f : TxFrame) :
    p.offer c f = (p.countClass c fun k => { k with full := k.full + 1 }, false) := by
  simp [Port.offer, h, full]

/-- An offer to a queue with room is taken. -/
theorem offer_taken {p : Port} {c : TxClass} (h : p.link = .up) (room : (p.queue c).length < capacityOf c) (f : TxFrame) :
    p.offer c f =
      (Port.choose ((p.setQueue c (p.queue c ++ [f])).countClass c fun k => { k with queued := k.queued + 1 }), true) := by
  simp [Port.offer, h, Nat.not_le.mpr room]

/-- The arbiter chooses nothing while a frame is on the line. -/
theorem choose_busy {p : Port} (h : p.tx ≠ none) : p.choose = p := by simp [Port.choose, h]

/-- The arbiter chooses nothing on a DOWN link. -/
theorem choose_down {p : Port} (h : p.link = .down) : p.choose = p := by simp [Port.choose, h]

/-- A choice moves a frame of the picked class to the transmitter, or nothing. -/
theorem choose_cases (p : Port) :
    p.choose = p ∨ ∃ c f rest, p.pick = some c ∧ p.queue c = f :: rest
      ∧ p.choose = { p.setQueue c rest with tx := some (c, f), run := p.runAfter c } := by
  unfold Port.choose
  split
  · cases hp : p.pick with
    | none => exact .inl rfl
    | some c =>
      cases hq : p.queue c with
      | nil => exact .inl (by simp [hq])
      | cons f rest => exact .inr ⟨c, f, rest, rfl, hq, by simp [hq]⟩
  · exact .inl rfl

/-- A choice keeps the link state and the counters. -/
theorem choose_link (p : Port) : p.choose.link = p.link ∧ p.choose.counters = p.counters := by
  rcases choose_cases p with h | ⟨c, f, rest, -, -, h⟩
  · rw [h]; exact ⟨rfl, rfl⟩
  · rw [h]; cases c <;> exact ⟨rfl, rfl⟩

/-- An offer keeps the link state. -/
theorem offer_link (p : Port) (c : TxClass) (f : TxFrame) : (p.offer c f).1.link = p.link := by
  unfold Port.offer
  split
  · cases c <;> rfl
  · split
    · cases c <;> rfl
    · rw [(choose_link _).1]; cases c <;> rfl

/-- A notice sent on its own, in the terms of Safety.lean. -/
theorem noticeTo_noticed (s : State) (a : Addr) (n : Notice) :
    s.noticeTo a n = { s with port := s.port.noticed (s.noticeFrame a n) } := by
  cases h : (s.port.offer .control (s.noticeFrame a n)).2 <;>
    simp [State.noticeTo, Port.noticed, State.offer, State.frame, State.noticeFrame, State.countPort,
      State.modPort, State.now] at h ⊢ <;>
    simp [h]

/-- A controller notice, in the terms of Safety.lean. -/
theorem noticeController_noticed (s : State) (n : Notice) :
    s.noticeController n = { s with port := s.controllerNoticed n } := by
  cases h : s.params.controller with
  | none => simp [State.noticeController, State.controllerNoticed, h, State.countPort, State.modPort]
  | some a => simp [State.noticeController, State.controllerNoticed, h, noticeTo_noticed]

/-- A crane notice, in the terms of Safety.lean. -/
theorem noticeCrane_noticed (s : State) (k : CraneId) (n : Notice) :
    s.noticeCrane k n = { s with port := s.craneNoticed k n } := by
  cases h : (s.crane k).defn with
  | none => simp [State.noticeCrane, State.craneNoticed, h, noticeController_noticed]
  | some d =>
    simp only [State.noticeCrane, State.craneNoticed, h, noticeController_noticed, noticeTo_noticed]
    rfl

end Machine
end Sys2Proof
end

