-- ==== Sys2Proof/Laws/Requests.lean ====
section
/-! SUPPORT. What the shared operations of requests, events and received frames come to: the taking of a request in the terms
of Safety.lean, an event of the part that is not held, and a frame that reaches its block. -/

namespace Sys2Proof
namespace Machine

/-- An event is taken as its effect while RESET_N is not held. -/
theorem State.take_awake {s : State} (h : s.held = false) (f : State → State) : s.take f = .next (f s) := by
  simp [State.take, h]

/-- While RESET_N is held an event changes nothing. -/
theorem State.take_held {s : State} (h : s.held = true) (f : State → State) : s.take f = .next s := by
  simp [State.take, h]

/-- A well-formed frame that reaches its block is counted and handed on. -/
theorem receive_reaches {s : State} {h : RxHeader} (r : Reaches s h) (f : State → State) :
    State.receive h true f s = f s.received := by
  simp [State.receive, r.link, r.quay, r.addressed, State.received]

/-- No frame arrives on a DOWN link. -/
theorem receive_down {s : State} (h : s.port.link = .down) (g : RxHeader) (ok : Bool) (f : State → State) :
    State.receive g ok f s = s := by
  simp [State.receive, h]

/-- What a request that is no part of a load finds when it is executed. -/
theorem taking_eq (q : Request) (rest : List Request) (s : State) :
    (abandonLoad .interleaved (s.modMgmt fun m => { m with queue := rest, current := some q })).modMgmt
        (fun m => { m with abandoned := false }) = s.taking q rest := by
  cases h : s.mgmt.load <;>
    simp [abandonLoad, State.modMgmt, State.taking, Mgmt.closeLoad, MgmtCounters.countAbandoned, h]

/-- A response offered and its request no longer current, in the terms of Safety.lean. -/
theorem offerResponse_answered (q : Request) (status : Status) (abandoned changed : Bool) (data : ResponseData)
    (u : State) :
    (offerResponse q status abandoned changed data u).1.modMgmt
        (fun m => { m with current := none, counters := { m.counters with taken := m.counters.taken + 1 } })
      = u.answered q status abandoned changed data := by
  cases h : (u.port.offer .control (u.response q status abandoned changed data)).2 <;>
    simp [offerResponse, State.answered, State.response, State.offer, State.frame, State.modMgmt, State.countMgmt] at h ⊢ <;>
    simp [h]

/-- The execution of a request that is no part of a load. -/
theorem executeHead_interleaves (q : Request) (rest : List Request) (body : Request → State → Reply) (s : State) :
    ∃ taken, executeHead true q rest body s =
      (body q (s.taking q rest)).after taken
        ((body q (s.taking q rest)).st.answered q (body q (s.taking q rest)).status s.abandonedFlag
          (body q (s.taking q rest)).changed (body q (s.taking q rest)).data) := by
  let r := body q (s.taking q rest)
  refine ⟨(offerResponse q r.status s.abandonedFlag r.changed r.data r.st).2, ?_⟩
  simp only [executeHead, if_true, Bool.true_and, taking_eq, offerResponse_answered]
  rfl

/-- The execution of a LOAD-SEGMENT or LOAD-END, which finds the transaction as it stands. -/
theorem executeHead_continues (q : Request) (rest : List Request) (body : Request → State → Reply) (s : State) :
    ∃ taken, executeHead false q rest body s =
      (body q (s.takingLoad q rest)).after taken
        ((body q (s.takingLoad q rest)).st.answered q (body q (s.takingLoad q rest)).status s.mgmt.abandoned
          (body q (s.takingLoad q rest)).changed (body q (s.takingLoad q rest)).data) := by
  let r := body q (s.takingLoad q rest)
  refine ⟨(offerResponse q r.status s.mgmt.abandoned r.changed r.data r.st).2, ?_⟩
  simp only [executeHead, Bool.false_and, Bool.or_false, Bool.false_eq_true, if_false, offerResponse_answered]
  rfl

/-- A request at the head of the queue is served by its own row. -/
theorem serve_head {s : State} {k : RequestKind} {q : Request} {rest : List Request} (h : HeadIs s k q rest)
    (body : Request → State → Reply) : serve k body s = executeHead (!k.continuesLoad) q rest body s := by
  simp [serve, h.queue, h.kind]

/-- A row whose request is not at the head of the queue does nothing (log 6). -/
theorem serve_other {s : State} {k : RequestKind} {q : Request} {rest : List Request} (h : s.mgmt.queue = q :: rest)
    (hk : requestKind q.command ≠ some k) (body : Request → State → Reply) : serve k body s = s := by
  simp [serve, h, hk]

/-- A row taken on an empty request queue does nothing (log 6). -/
theorem serve_empty {s : State} (h : s.mgmt.queue = []) (k : RequestKind) (body : Request → State → Reply) :
    serve k body s = s := by
  simp [serve, h]

/-- The block of a dispatched uplink frame is handed on with the cell counted (R18a). -/
theorem uplinkBlock_dispatched {s : State} {x : CellId} (d : Dispatched s x) (f : State → State) :
    uplinkBlock x true f s = f (s.dispatched x) := by
  have hr := d.running
  have hf := d.fitted
  unfold State.chain at hr
  simp only [uplinkBlock, onBlock, State.dispatched, State.lineHeard]
  cases hc : chainOf x <;> simp_all [State.modChain, State.chain, State.cell, State.modCell]

end Machine
end Sys2Proof
end

