-- ==== Sys2Proof/Machine/Encodings.lean ====
section
/-! DEFINITION. How one value is sent (11.1): the codes of names, the fields with a stated width, and those whose width or
absent form no table gives, which are free values (log 19). -/

namespace Sys2Proof

/-- The fields whose width, or whose form when absent, the spec does not give (log 19). -/
inductive OpenField
  | partCode | revision | capacity | itemAtFault | noTransaction
  | countdown | bar | holdOffProgress | missCount | markCount | noWindow | timer | entryDepth
  | quality | backlog | progress | statusMissCount | shadowCount | reservedSlots
  | awaitedTurn | missedTurns | backoff | turnCount | silence
  | reportSequence | lastForwarded | reportClass | suppression | age | maskedCount | memberCount
  | batchNumber | entryCount | openAge | noUrgency | noStamp | batchCount
  | noTag | noCredit | terminationCause | lastOutcome | frameCount
  deriving DecidableEq, Repr

/-- Free value: the octets of a field whose width, or whose form when absent (none), the spec does not give (log 19). -/
opaque Config.openOctets : OpenField → Option Nat → List Byte

namespace Machine

/-! ### Codes of names (11.1) -/

/-- Code of a chain. -/
def Chain.code : Chain → Nat
  | .N => 0
  | .S => 1

/-- Code of a chain state (R1). -/
def ChainState.code : ChainState → Nat
  | .disabled => 0
  | .rollcall => 1
  | .running => 2
  | .broken => 3

/-- Code of a unit state (R23). -/
def UnitState.code : UnitState → Nat
  | .absent => 0
  | .joining => 1
  | .up => 2
  | .fading => 3
  | .down => 4

/-- Code of a crane state (R44). -/
def CraneState.code : CraneState → Nat
  | .vacant => 0
  | .idle => 1
  | .linked => 2
  | .handover => 3
  | .lost => 4

/-- Code of a boom position: that of the position word (11.3), which is also R44's order (log 19). -/
def Boom.code : Boom → Nat
  | .raised => 0
  | .lowered => 1
  | .unknown => 2

/-- Code of a status (10.1, 11.1). -/
def Status.code : Status → Nat
  | .ok => 0
  | .busy => 1
  | .unknownRequest => 2
  | .range => 3
  | .state => 4
  | .inUse => 5
  | .duplicateAddress => 6
  | .noLoad => 7
  | .sequence => 8
  | .tooLarge => 9
  | .crcMismatch => 10
  | .notFound => 11

/-- Code of an outcome (11.2); LINK-LOSS, which no DRAIN-END carries, follows them (log 19). -/
def DrainOutcome.code : DrainOutcome → Nat
  | .complete => 0
  | .short => 1
  | .stop => 2
  | .pauseLimit => 3
  | .checkTimeout => 4
  | .protocol => 5
  | .empty => 6
  | .busy => 7
  | .linkLoss => 8

/-- Code of a chain-state cause, from 1 (R9). -/
def ChainCause.code : ChainCause → Nat
  | .enabled => 1
  | .rollcallDone => 2
  | .rollcallFailed => 3
  | .missedTurns => 4
  | .abort => 5
  | .signalLoss => 6
  | .backoffExpired => 7
  | .disabled => 8

/-- Code of a cell-change cause, from 1 (R35). -/
def CycleEndCause.code : CycleEndCause → Nat
  | .turn => 1
  | .missedTurn => 2
  | .noCycle => 3
  | .chainLeft => 4

/-- Code of a loss cause, from 1 (R72). -/
def LostCause.code : LostCause → Nat
  | .craneSilent => 1
  | .stationSilent => 2
  | .bothSilent => 3

/-- Code of a refused resume's cause, from 1 (R72). -/
def ResumeRefusal.code : ResumeRefusal → Nat
  | .notLost => 1
  | .stillSilent => 2

/-- Code of a refused contact's cause, from 1 (R72). -/
def NoRoomCause.code : NoRoomCause → Nat
  | .notUsable => 1
  | .noRoom => 2

/-- Code of a completed handover's cause, from 1 (R91). -/
def DoneCause.code : DoneCause → Nat
  | .planned => 1
  | .craneLed => 2

/-- Code of a failed handover's cause, from 1 (R91). -/
def FailCause.code : FailCause → Nat
  | .timeout => 1
  | .targetUnusable => 2
  | .chainLeft => 3
  | .lost => 4

/-- Code of a deferral's cause, from 1 (R91). -/
def DeferCause.code : DeferCause → Nat
  | .noCandidate => 1
  | .noRoom => 2

/-- Code of a drop's cause, from 1 (R118). -/
def dropCode : Urgency → Nat
  | .routine => 1
  | .urgent => 2

/-- Code of a reefer state (6.1). -/
def ReeferState.code : ReeferState → Nat
  | .vacant => 0
  | .expected => 1
  | .reporting => 2
  | .silent => 3

/-- Code of a batch state (R111). -/
def BatchState.code : BatchState → Nat
  | .free => 0
  | .openUrgent => 1
  | .openRoutine => 2
  | .sealed => 3
  | .inFlight => 4

/-- Code of a drain state (R126). -/
def DrainState.code : DrainState → Nat
  | .closed => 0
  | .sending => 1
  | .paused => 2
  | .closing => 3

/-- Code of a burst phase (R126). DESIGN CHOICE: a phase is sent in one octet, numbered from 0 in the order R126 names the
phases; 11.1's row of names sent in one octet does not list it (R142; log 19). -/
def BurstPhase.code : BurstPhase → Nat
  | .sending => 0
  | .awaiting => 1

/-- Code of a table (R160). -/
def Table.code : Table → Nat
  | .cranes => 0
  | .cells => 1
  | .coverage => 2
  | .reefers => 3
  | .groups => 4

/-- The octet of a set of lost reasons (11.3). -/
def LostReasons.code (r : LostReasons) : Nat := (if r.craneSilent then 1 else 0) + (if r.stationSilent then 2 else 0)

/-- The octet of a set of features (11.2). -/
def Features.code (f : Features) : Nat :=
  (if f.craneLed then 1 else 0) + (if f.keepFrames then 2 else 0) + (if f.missMasking then 4 else 0)
    + (if f.generalLearning then 8 else 0)

/-! ### Fields -/

/-- A yes/no flag. -/
def flagOctet (b : Bool) : List Byte := octetsOf 1 (if b then 1 else 0)

/-- A band, 0xFF for unknown. -/
def bandOctet (b : Option BandId) : List Byte := octetsOf 1 ((b.map Fin.val).getD 255)

/-- A cell, 0xFF for none. -/
def cellField (x : Option CellId) : List Byte := octetsOf 1 (cellOctet x)

/-- A list of cells: a count, then the cells. -/
def cellsField (l : List CellId) : List Byte := octetsOf 1 l.length ++ l.flatMap fun x => octetsOf 1 x.val

/-- An address, all zero for none. -/
def addrField (a : Option Addr) : List Byte := octetsOf 6 ((a.map fun x => x.toNat).getD 0)

/-- A number whose width no table gives. -/
def openField (f : OpenField) (n : Nat) : List Byte := Config.openOctets f (some n)

/-- A value of a stated width, or its absent form, which no table gives. -/
def optField (width : Nat) (f : OpenField) : Option Nat → List Byte
  | some n => octetsOf width n
  | none => Config.openOctets f none

/-- A timer: stopped, or the ms remaining (Conventions). DESIGN CHOICE: a next expiry (R44) is reported as the ms that
remain to it (log 19). -/
def timerField (ms : Option Nat) : List Byte := Config.openOctets .timer ms

/-- A counter. -/
def counterField (c : Counter) : List Byte := octetsOf 4 c.toNat

/-- Counters in the order of their table. -/
def countersField (l : List Counter) : List Byte := l.flatMap counterField

end Machine
end Sys2Proof
end

