-- ==== Sys2Proof/Machine/Replies.lean ====
section
/-! DEFINITION. The octets of a response's data (11.1, 11.2): the fields of the request's rule, and records field by field in
the order of their tables. Definition fields take the widths of the staged tables (11.4), parameters those of SET-PARAMS
(log 18), the figures of a drain those of DRAIN-END (11.2); the rest as log 19 says. -/

namespace Sys2Proof
namespace Machine

/-! ### Counters, in the order of their tables -/

/-- The chain counters (1.7). -/
def ChainCounters.octets (k : ChainCounters) : List Byte :=
  countersField
    [k.openersSent, k.returnedTurns, k.missedTurns, k.staleTurns, k.staleStatus, k.breaks, k.aborts, k.signalLosses,
     k.malformed, k.ungranted, k.undelivered, k.generalFull, k.generalStale, k.generalFlushed]

/-- The Coverage Unit counters (2.9). -/
def CoverageCounters.octets (k : CoverageCounters) : List Byte :=
  countersField
    [k.ignoredStatus, k.reserveRefusals, k.changeQueued, k.changeDeferred, k.learned, k.notLearnedOff, k.notLearnedFull,
     k.fromDefined, k.oversize, k.agedOut, k.evicted, k.noRoute, k.unknownUnit, k.toDefined]

/-- The counters of a crane (3.8, 4.9, 5.10). -/
def CraneCounters.octets (k : CraneCounters) : List Byte :=
  countersField
    ([k.uplinkBlocks, k.firstContactRefused, k.duplicates, k.stale, k.forwarded, k.stationFrames, k.badSource,
      k.notLinked, k.oversize, k.noDestination, k.queued, k.overflow, k.copies, k.undeliverable, k.keepSent,
      k.keepReplaced]
      ++ [k.craneMisses, k.stationMisses, k.losses, k.flushed, k.holdsSent, k.holdsWithdrawn, k.resumes,
        k.resumeRefused, k.releases]
      ++ [k.starts, k.done, k.craneLed, k.failures, k.deferrals, k.stray, k.noticesWithdrawn])

/-- The counters of a reefer (6.10). -/
def ReeferCounters.octets (k : ReeferCounters) : List Byte :=
  countersField
    [k.invalid, k.duplicates, k.taken, k.excursions, k.suppressed, k.forwarded, k.dropped, k.returned, k.misses,
     k.maskedMisses, k.silences]

/-- The pool counters (7.9). -/
def PoolCounters.octets (k : PoolCounters) : List Byte :=
  countersField
    [k.placed, k.overwrites, k.upgrades, k.overflow, k.droppedRoutine, k.droppedUrgent, k.episodes, k.openedUrgent,
     k.openedRoutine, k.sealedFull, k.sealedAge, k.sealedDrainOpen, k.removed, k.good, k.pruned, k.returned,
     k.freedEmpty]

/-- The drain counters (8.13). -/
def DrainCounters.octets (k : DrainCounters) : List Byte :=
  countersField
    [k.badSource, k.noDrain, k.wrongTag, k.busyRefused, k.openRefused, k.empty, k.opened, k.started, k.framesSent,
     k.good, k.failed, k.pauses, k.ignored, k.lateCheck, k.complete, k.short, k.stopped, k.pauseLimit, k.checkTimeout,
     k.protocol, k.linkLoss, k.endDropped]

/-- One counter of the port that is kept per class, for the four classes (9.9). -/
def perClass (k : PortCounters) (f : ClassCounters → Counter) : List Counter :=
  [f k.craneUp, f k.control, f k.drain, f k.generalUp]

/-- The port counters (9.9). -/
def PortCounters.octets (k : PortCounters) : List Byte :=
  countersField
    ([k.linkLoss, k.otherType, k.notAddressed, k.badHeader, k.malformed, k.unknownKind, k.received, k.managerRefused]
      ++ perClass k ClassCounters.queued ++ perClass k ClassCounters.full ++ perClass k ClassCounters.linkDown
      ++ [k.drainWithdrawn] ++ perClass k ClassCounters.sent ++ perClass k ClassCounters.aborted
      ++ perClass k ClassCounters.flushed ++ [k.noticesQueued, k.noticesDropped, k.noticesSuppressed])

/-- The management counters (10.7). -/
def MgmtCounters.octets (k : MgmtCounters) : List Byte :=
  countersField
    [k.taken, k.busy, k.responsesRefused, k.opened, k.applied, k.refused, k.abandonedInterleaved, k.abandonedRefused,
     k.abandonedTimeout, k.abandonedLinkLoss]

/-! ### Records -/

/-- The parameter set, in the order of its table (R157). DESIGN CHOICE: the manager list, which R159 names beside the
parameters and R157's table holds among them, is sent once, at its place in the table (log 19). -/
def Params.octets (p : Params) : List Byte :=
  octetsOf 2 p.quayType.toNat ++ octetsOf 5 p.mgmtHead.toNat ++ addrField p.controller ++ addrField p.collector
    ++ octetsOf 1 p.managers.length ++ p.managers.flatMap (fun a => octetsOf 6 a.toNat)
    ++ octetsOf 1 p.cyclePeriod ++ octetsOf 1 p.downlinkCapacity ++ octetsOf 1 p.breakLimit
    ++ octetsOf 1 p.statusMissLimit ++ octetsOf 1 p.fadeLevel ++ octetsOf 1 p.recoverLevel
    ++ octetsOf 2 p.urgentSealMs ++ octetsOf 2 p.routineSealS ++ octetsOf 2 p.checkWaitMs ++ octetsOf 2 p.pauseLimitMs
    ++ octetsOf 2 p.ageOutS ++ octetsOf 1 p.handoverLimit ++ octetsOf 1 p.handoverBar ++ octetsOf 1 p.features.code

/-- The transaction fields (R154). -/
def transactionOctets (t : Option Transaction) (staged : Nat) : List Byte :=
  match t with
  | none => Config.openOctets .noTransaction none
  | some t =>
    octetsOf 1 t.table.code ++ octetsOf 1 t.segments ++ octetsOf 4 t.total ++ octetsOf 1 t.next ++ octetsOf 4 staged
      ++ octetsOf 2 t.crc.toNat

/-- A crane definition (R44; 11.4). -/
def CraneDef.octets (d : CraneDef) : List Byte :=
  octetsOf 6 d.station.toNat ++ octetsOf 6 d.radio.toNat ++ octetsOf 1 d.reservation ++ octetsOf 2 d.interval
    ++ octetsOf 1 d.lossLimit ++ octetsOf 1 d.holdOff

/-- A failed-target bar (R44). -/
def barField : Option (CellId × Nat) → List Byte
  | some (x, n) => cellField (some x) ++ openField .countdown n
  | none => Config.openOctets .bar none

/-- A duplicate window as it is read: base and count of marked numbers, or empty (R60). -/
def windowField : Option (U16 × Nat) → List Byte
  | some (base, n) => octetsOf 2 base.toNat ++ openField .markCount n
  | none => Config.openOctets .noWindow none

/-- A crane that is not VACANT (R44, R60). DESIGN CHOICE: a set of cells is listed in the order the record keeps it, the
KEEP set and each pending set anchor first and then target, the holds and the shadow set in ascending number (log 19). -/
def CraneReading.octets (r : CraneReading) : List Byte :=
  let c := r.record
  ((c.defn.map CraneDef.octets).getD [])
    ++ octetsOf 1 c.state.code ++ cellField c.anchor ++ cellField c.target ++ openField .countdown c.countdown
    ++ barField c.bar ++ flagOctet c.deferred ++ openField .holdOffProgress c.progress ++ bandOctet c.band
    ++ octetsOf 1 c.boom.code ++ cellsField c.shadow ++ flagOctet c.craneHeard ++ flagOctet c.stationHeard
    ++ openField .missCount c.craneMiss ++ openField .missCount c.stationMiss ++ octetsOf 1 c.lost.code
    ++ flagOctet c.downlinkSent ++ cellsField (c.holds.map Prod.fst) ++ cellsField (c.keeps.map Prod.fst)
    ++ windowField r.window ++ octetsOf 1 r.queueDests.length ++ r.queueDests.flatMap cellsField
    ++ timerField r.supervision ++ c.counters.octets

/-- A cell (R23). -/
def cellOctets (x : CellId) (c : Chain) (r : Cell) : List Byte :=
  cellField (some x) ++ octetsOf 1 (Chain.code c) ++ octetsOf 1 r.position.val ++ flagOctet r.fitted
    ++ octetsOf 1 r.budget ++ flagOctet r.barred ++ octetsOf 1 r.unit.code ++ openField .quality r.quality.val
    ++ openField .backlog r.backlog.toNat ++ openField .progress r.progress ++ openField .statusMissCount r.missCount
    ++ openField .shadowCount r.shadowCount ++ openField .reservedSlots r.reserved ++ flagOctet r.changed
    ++ countersField [r.uplinkBlocks, r.downlinkBlocks, r.statusMisses]

/-- A chain (R1). -/
def ChainReading.octets (r : ChainReading) : List Byte :=
  let c := r.record
  octetsOf 1 c.state.code ++ octetsOf 1 c.cycle.toNat ++ optField 1 .awaitedTurn (c.awaited.map fun n => n.toNat)
    ++ openField .missedTurns c.missed ++ openField .backoff c.nextBackoff ++ timerField r.backoff
    ++ timerField r.stable ++ openField .turnCount c.goodTurns ++ openField .turnCount c.rollcallTurns
    ++ cellsField c.heard ++ cellField c.lastAbort ++ octetsOf 1 ((c.cranePtr.map Fin.val).getD 255)
    ++ openField .silence r.silence ++ openField .entryDepth r.depth ++ c.counters.octets

/-- The last forwarded values (R94). DESIGN CHOICE: the alarm set is sent in the order in which its codes first stood in
the report last placed (log 35). -/
def forwardedField : Option Forwarded → List Byte
  | some f =>
    octetsOf 2 f.supply.toNat ++ octetsOf 2 f.ret.toNat ++ octetsOf 2 f.setpoint.toNat ++ octetsOf 1 f.mode.code
      ++ octetsOf 1 f.power.code ++ octetsOf 1 f.alarms.length ++ f.alarms.flatMap fun a => octetsOf 2 a.toNat
  | none => Config.openOctets .lastForwarded none

/-- A batch reference: batch then slot, 0xFFFF for none (11.1). -/
def refField : Option (BatchId × Nat) → List Byte
  | some (b, slot) => octetsOf 1 b.val ++ octetsOf 1 slot
  | none => octetsOf 2 0xFFFF

/-- A reefer: its state, and for a defined one the record and its counters (R94, R110). DESIGN CHOICE: the age is no time
of 11.2's "Times are given in the unit of their range in 2 octets", which stands with the items of SET-PARAMS; its octets
are a free value (log 19). -/
def Reefer.octets (r : Reefer) : List Byte :=
  octetsOf 1 r.state.code
    ++ match r.defn with
      | none => []
      | some d =>
        octetsOf 6 d.unit.toNat ++ octetsOf 1 d.group.val ++ cellField r.cell
          ++ optField 1 .reportSequence (r.lastSeq.map fun n => n.toNat) ++ forwardedField r.last
          ++ optField 1 .reportClass (r.cls.map ReportClass.code) ++ flagOctet r.excursion
          ++ openField .suppression r.countdown ++ flagOctet r.owed ++ openField .age r.age
          ++ openField .missCount r.miss ++ openField .maskedCount r.masked ++ refField r.ref ++ r.counters.octets

/-- A group: whether it is defined, and for a defined one the definition, summary and member count (R92, R110). -/
def Group.octets (g : Group) : List Byte :=
  match g.defn with
  | none => flagOctet false
  | some d =>
    flagOctet true ++ octetsOf 2 d.interval ++ octetsOf 1 d.silentLimit ++ octetsOf 1 d.bandBelow
      ++ octetsOf 1 d.bandAbove ++ octetsOf 1 d.deadband ++ octetsOf 1 d.reload ++ flagOctet d.excursionEnable
      ++ flagOctet g.summary ++ openField .memberCount g.members

/-- A batch of READ-BATCHES (R125). -/
def BatchReading.octets (b : BatchReading) : List Byte :=
  octetsOf 1 b.state.code ++ optField 1 .noUrgency (b.urgency.map Urgency.code) ++ openField .entryCount b.entries
    ++ openField .entryCount b.marked ++ openField .openAge b.age ++ optField 4 .noStamp (b.stamp.map fun n => n.toNat)

/-- A burst of READ-DRAIN (R142). DESIGN CHOICE: its phase is one octet, SENDING 0 and AWAITING 1 (log 19). -/
def BurstReading.octets (w : BurstReading) : List Byte :=
  octetsOf 1 w.index ++ openField .batchNumber w.batch.val ++ openField .entryCount w.count
    ++ octetsOf 1 w.phase.code ++ openField .frameCount w.framesSent
    ++ (if w.phase = .awaiting then timerField w.check else [])

/-- The last outcome (R126): the outcomes of 11.2, with no code given for LINK-LOSS or none. -/
def lastOutcomeField : Option DrainOutcome → List Byte
  | some .linkLoss => openField .lastOutcome DrainOutcome.linkLoss.code
  | some o => octetsOf 1 o.code
  | none => Config.openOctets .lastOutcome none

/-- The termination cause (R126): numbered in the order of its table, STOP, PAUSE-LIMIT, CHECK-TIMEOUT, PROTOCOL (11.1).
With no cause the octets are a free value (log 19), as for an outcome that ends no opening early, which the record never
holds there. -/
def terminationCauseField : Option DrainOutcome → List Byte
  | some .stop => octetsOf 1 0
  | some .pauseLimit => octetsOf 1 1
  | some .checkTimeout => octetsOf 1 2
  | some .protocol => octetsOf 1 3
  | o => Config.openOctets .terminationCause (o.map DrainOutcome.code)

/-- The drain (R126, R142). -/
def DrainReading.octets (d : DrainReading) : List Byte :=
  octetsOf 1 d.state.code ++ optField 2 .noTag (d.tag.map fun n => n.toNat) ++ optField 1 .noCredit d.credit
    ++ octetsOf 1 d.started ++ octetsOf 1 d.good ++ octetsOf 1 (d.firstFailed.getD 255) ++ octetsOf 2 d.delivered
    ++ terminationCauseField d.cause ++ lastOutcomeField d.lastOutcome
    ++ flagOctet d.pause.isSome ++ timerField d.pause ++ octetsOf 1 d.window.length
    ++ d.window.flatMap BurstReading.octets ++ d.counters.octets

/-! ### Response data (11.2) -/

/-- The octets of a response's data. DESIGN CHOICE: the staged octet count of an OK LOAD-SEGMENT (R161) is sent once, within
the transaction fields, and no count octet stands before the run of counters of the REEFER scope (R165; log 19). -/
def ResponseData.octets : ResponseData → List Byte
  | .none => []
  | .identification part revision capacities supported enabled mgmt =>
    openField .partCode part ++ openField .revision revision ++ capacities.flatMap (openField .capacity)
      ++ octetsOf 1 supported.code ++ octetsOf 1 enabled.code ++ octetsOf 6 mgmt.toNat
  | .params p strap => p.octets ++ octetsOf 1 strap.toNat
  | .itemAtFault n => Config.openOctets .itemAtFault n
  | .load t staged => transactionOctets t staged
  | .loadApplied n t staged => octetsOf 4 n ++ transactionOctets t staged
  | .loadRefused n t staged => octetsOf 2 (n.getD 0xFFFF) ++ transactionOctets t staged
  | .vacantCrane => octetsOf 1 CraneState.vacant.code
  | .crane r => r.octets
  | .cell x c r => cellOctets x c r
  | .chain r => r.octets
  | .reefers _ rs => octetsOf 1 rs.length ++ rs.flatMap Reefer.octets
  | .undefinedGroup => flagOctet false
  | .group g => g.octets
  | .batches bs sealedList free stamp exhausted =>
    bs.flatMap BatchReading.octets ++ octetsOf 1 sealedList.length
      ++ sealedList.flatMap (fun b => openField .batchNumber b.val) ++ openField .batchCount free
      ++ octetsOf 4 stamp.toNat ++ flagOctet exhausted
  | .drain r => r.octets
  | .portCounters k => k.octets
  | .chainCounters k => k.octets
  | .coverageCounters k cells => k.octets ++ cells.flatMap fun c => countersField [c.1, c.2.1, c.2.2]
  | .craneCounters unknownCrane unknownSubject k => countersField [unknownCrane, unknownSubject] ++ k.octets
  | .reeferCounters unknown ks => counterField unknown ++ ks.flatMap ReeferCounters.octets
  | .poolCounters k => k.octets
  | .drainCounters k => k.octets
  | .mgmtCounters k => k.octets
  | .flagBefore b => flagOctet b
  | .membersCleared n => openField .memberCount n
  | .stateBefore st => octetsOf 1 st.code

end Machine
end Sys2Proof
end

