-- ==== Sys2Proof/Machine/Wire.lean ====
section
/-! DEFINITION. The octets of what the part sends: quay frames behind their EtherType (11.2, R169) and the blocks of a cycle
(11.3, R10, R15, R170). -/

namespace Sys2Proof

/-- Free value: the octets between the end of a block and its next slot, by the block and their place (R170; log 32). -/
opaque Config.slotFill : List Byte → Nat → Byte

namespace Machine

/-! ### Notices (R151, and the tables of their kinds) -/

/-- Kind, cause, subject and further fields of a notice (R9, R35, R72, R91, R118, R151). -/
structure NoticeWire where
  kind : Nat
  cause : Nat
  subject : Nat
  fields : List Byte
  deriving DecidableEq, Repr

/-- An item of a CELL-CHANGE notice (R35). -/
def CellItem.octets (i : CellItem) : List Byte :=
  octetsOf 1 i.cell.val ++ octetsOf 1 i.unit.code ++ flagOctet i.usable ++ openField .shadowCount i.shadowCount

/-- A notice on the wire. -/
def Notice.wire : Notice → NoticeWire
  | .craneLost k cause anchor band boom held =>
    { kind := 1, cause := cause.code, subject := k.val
      fields := cellField anchor ++ bandOctet band ++ octetsOf 1 boom.code ++ cellsField held }
  | .craneResumed k anchor => { kind := 2, cause := 1, subject := k.val, fields := cellField anchor }
  | .craneResumeRefused k cause st craneMiss stationMiss =>
    { kind := 3, cause := cause.code, subject := k.val
      fields := octetsOf 1 st.code ++ openField .missCount craneMiss ++ openField .missCount stationMiss }
  | .craneNoRoom k cause x => { kind := 4, cause := cause.code, subject := k.val, fields := cellField (some x) }
  | .handoverDone k cause old new band =>
    { kind := 5, cause := cause.code, subject := k.val, fields := cellField old ++ cellField new ++ bandOctet band }
  | .handoverFailed k cause anchor target bar =>
    { kind := 6, cause := cause.code, subject := k.val
      fields := cellField anchor ++ cellField target ++ Config.openOctets .bar bar }
  | .handoverDeferred k cause anchor band anchorUsable tried =>
    { kind := 7, cause := cause.code, subject := k.val
      fields := cellField anchor ++ bandOctet band ++ flagOctet anchorUsable ++ cellsField tried }
  | .cellChange c cause items =>
    { kind := 8, cause := cause.code, subject := Chain.code c
      fields := octetsOf 1 items.length ++ items.flatMap CellItem.octets }
  | .chainState c cause new abortCell =>
    { kind := 9, cause := cause.code, subject := Chain.code c
      fields := octetsOf 1 new.code ++ (if cause = .abort then cellField abortCell else []) }
  | .poolExhausted cause i kind free sealed inFlight =>
    { kind := 10, cause := dropCode cause, subject := 0
      fields := octetsOf 2 i.val ++ octetsOf 1 kind.code ++ openField .batchCount free ++ openField .batchCount sealed
        ++ openField .batchCount inFlight }

/-! ### Quay frames (11.2) -/

/-- The quay header's fields but version and length, and the content (11.2). -/
structure FrameWire where
  kind : Nat
  flags : Nat := 0
  subject : Nat := 0
  sequence : Nat := 0
  tag : Nat := 0
  content : List Byte
  deriving DecidableEq, Repr

/-- The head and entries of a DRAIN-BURST frame (11.2). -/
def BurstFrame.content (b : BurstFrame) : List Byte :=
  octetsOf 1 b.index
    ++ (match b.head with
      | none => []
      | some h => octetsOf 4 h.stamp.toNat ++ octetsOf 1 (Urgency.code h.urgency) ++ octetsOf 1 h.count)
    ++ b.entries.flatMap Entry.octets

/-- What a frame carries, on the wire (11.2). -/
def TxContent.wire : TxContent → FrameWire
  | .craneUp k seq payload => { kind := 0x03, subject := k.val, sequence := seq.toNat, content := payload }
  | .general unit payload => { kind := 0x04, content := octetsOf 6 unit.toNat ++ payload }
  | .drainBurst b =>
    { kind := 0x15, flags := (if b.head.isSome then 2 else 0) + (if b.last then 1 else 0), sequence := b.number
      tag := b.tag.toNat, content := b.content }
  | .drainEnd d =>
    { kind := 0x16, tag := d.tag.toNat
      content := octetsOf 1 d.outcome.code ++ octetsOf 1 d.started ++ octetsOf 1 d.good
        ++ octetsOf 1 (d.firstFailed.getD 255) ++ octetsOf 2 d.delivered }
  | .response id command status abandoned changed data =>
    { kind := 0x21, tag := id.toNat
      content := octetsOf 2 command.toNat ++ octetsOf 1 status.code
        ++ octetsOf 1 ((if abandoned then 1 else 0) + (if changed then 2 else 0)) ++ data.octets }
  | .notice stamp n =>
    { kind := 0x30, subject := n.wire.subject
      content := octetsOf 1 n.wire.kind ++ octetsOf 1 n.wire.cause ++ octetsOf 4 stamp.toNat ++ n.wire.fields }

/-- A quay header and its content: version 1, the length that of the content (11.2, R169). -/
def FrameWire.octets (w : FrameWire) : List Byte :=
  octetsOf 1 1 ++ octetsOf 1 w.kind ++ octetsOf 1 w.flags ++ octetsOf 1 w.subject ++ octetsOf 2 w.sequence
    ++ octetsOf 2 w.content.length ++ octetsOf 2 w.tag ++ w.content

/-- Zero octets up to the Ethernet minimum (R169). -/
def padded (l : List Byte) : List Byte := l ++ List.replicate (46 - l.length) 0

/-- A frame the part sends, from its destination address on (11.2, R169). -/
def TxFrame.octets (f : TxFrame) : List Byte :=
  octetsOf 6 f.dst.toNat ++ octetsOf 6 f.src.toNat ++ octetsOf 2 f.etherType.toNat ++ padded f.content.wire.octets

/-! ### Cycles (11.3) -/

/-- A block: cell, kind, length, content (11.3). -/
def blockOctets (cell kind : Nat) (content : List Byte) : List Byte :=
  octetsOf 1 cell ++ octetsOf 1 kind ++ octetsOf 2 content.length ++ content

/-- A downlink block (11.3). -/
def DownBlock.octets : DownBlock → List Byte
  | .hold x radio reasons stamp =>
    blockOctets x.val 0x10 (octetsOf 6 radio.toNat ++ octetsOf 1 reasons.code ++ octetsOf 4 stamp.toNat)
  | .handoverNotice x radio anchor target stamp =>
    blockOctets x.val 0x11
      (octetsOf 6 radio.toNat ++ octetsOf 1 anchor.val ++ octetsOf 1 target.val ++ octetsOf 4 stamp.toNat)
  | .keep x radio stamp => blockOctets x.val 0x12 (octetsOf 6 radio.toNat ++ octetsOf 4 stamp.toNat)
  | .craneDown x radio payload => blockOctets x.val 0x13 (octetsOf 6 radio.toNat ++ payload)
  | .generalDown x unit payload => blockOctets x.val 0x14 (octetsOf 6 unit.toNat ++ payload)

/-- The opener of a cycle (11.3, R10). -/
def LineCycle.opener (c : LineCycle) : List Byte := blockOctets 0xFF 0x01 (octetsOf 1 c.cycle.toNat ++ octetsOf 1 c.slots)

/-- The turn marker of a cycle as it is sent, without records (11.3, R15). -/
def LineCycle.turn (c : LineCycle) : List Byte :=
  blockOctets 0xFF 0x02
    (octetsOf 1 c.cycle.toNat ++ (c.grants.flatMap fun g => octetsOf 1 g.1 ++ octetsOf 1 g.2) ++ octetsOf 1 0)

/-- A block with the octets that fill its last slot, so that the next one starts on a fresh slot (R170). -/
def inSlots (block : List Byte) : List Byte :=
  let fill := (Config.slotOctets - block.length % Config.slotOctets) % Config.slotOctets
  block ++ (List.range fill).map (Config.slotFill block)

/-- A cycle on the line: the opener, the downlink blocks, the turn marker (R10), each from a fresh slot (R170). -/
def LineCycle.octets (c : LineCycle) : List Byte :=
  inSlots c.opener ++ (c.blocks.flatMap fun b => inSlots b.octets) ++ inSlots c.turn

end Machine
end Sys2Proof
end

