-- ==== Sys2Proof/Tests/Slice0.lean ====
section
/-! SUPPORT. The model's own tests: what the well-formedness checks refuse, the CRC's check value, and, for every statement
with hypotheses, a small state and operands that meet them, with the clauses at the edges of their ranges. -/

namespace Sys2Proof
namespace Tests

open Sys2Proof.Machine

/-! ### Well-formed commands -/

/-- A header for the part's address as it stands after reset. -/
def hdr (src : Addr) : RxHeader := { dst := 0x02415A512400#48, src := src, etherType := 0x88B6#16 }

/-- A report with its alarms. -/
def report (alarms : List U16) : Report :=
  { unit := 7, seq := 1, supply := 0, ret := 0, setpoint := 0, mode := 0, power := 0, alarms := alarms }

theorem test_wf_discarded_frame_short : (Instr.uplinkFrameDiscarded (hdr 1) (List.replicate 45 0)).wf = false := by decide
theorem test_wf_discarded_frame_least : (Instr.uplinkFrameDiscarded (hdr 1) (List.replicate 46 0)).wf = true := by decide
theorem test_wf_crane_down_empty : (Instr.craneDown (hdr 1) 0 []).wf = false := by decide
theorem test_wf_crane_down_one : (Instr.craneDown (hdr 1) 0 [1]).wf = true := by decide
theorem test_wf_request_long : (Instr.mgmtRequest (hdr 1) 0 1 (List.replicate 1489 0)).wf = false := by decide +kernel
theorem test_wf_general_frame_empty : (Instr.generalFrame (hdr 1) 7 []).wf = false := by decide
theorem test_wf_crane_up_short : (Instr.craneUp 0 7 0 [1]).wf = false := by decide
theorem test_wf_report_alarms : (Instr.reeferReport 0 (report [1, 2, 3, 4, 5])).wf = false := by decide
theorem test_wf_general_up_empty : (Instr.generalUp 0 7 []).wf = false := by decide
theorem test_wf_turn_marker_records :
    (Instr.turnMarker .N 0 (List.replicate 9 { cell := 0, quality := 0, fault := false, join := false, backlog := 0 })).wf
      = false := by decide
theorem test_wf_check_timer_zero : (Instr.checkTimerExpiry 0).wf = false := by decide
theorem test_wf_check_timer_seventeen : (Instr.checkTimerExpiry 17).wf = false := by decide

/-! ### Formats -/

/-- The check value of R171: the octets of "123456789" from the seed 0xFFFF. -/
theorem test_crc_check_value :
    crcOver 0xFFFF#16 [0x31, 0x32, 0x33, 0x34, 0x35, 0x36, 0x37, 0x38, 0x39] = 0x29B1#16 := by decide +kernel

theorem test_no_word_spells_a_command : decodeTableWord 8 1 = none := rfl

/-! ### Small states -/

/-- The reset state with the link UP. -/
def up : State := { State.reset with port := { link := .up }, leds := { link := true } }

/-- The collector's address. -/
def collector : Addr := 0x020000000002#48

/-- The link UP with the collector's address set. -/
def drained : State := up.modMgmt fun m => { m with params := { m.params with collector := some collector } }

/-- A crane definition. -/
def craneDef : CraneDef :=
  { station := 0x02000000000A#48, radio := 0x02000000000B#48, reservation := 2, interval := 100, lossLimit := 3, holdOff := 2 }

/-- An IDLE, a LINKED, a HANDOVER and a LOST crane. -/
def idle : Crane := { defn := some craneDef, state := .idle }
def linked : Crane :=
  { idle with state := .linked, anchor := some 5, supervision := some 400, window := some { base := 10, marks := 1 } }
def handed : Crane := { linked with state := .handover, target := some 6 }
def lost : Crane := { linked with state := .lost, craneMiss := 3, lost := { craneSilent := true } }

/-- The link UP with crane 3 at a record, its directory entry set. -/
def withCrane (c : Crane) : State := dirSet craneDef.radio (.crane 3) (up.modCrane 3 fun _ => c)

/-- Chain N RUNNING with cell 5 fitted. -/
def running (s : State) : State :=
  (s.modChain .N fun r => { r with state := .running }).modCell 5 fun r =>
    { r with fitted := true, budget := 8, unit := .up, barred := false }

/-- A definition of group 0, and of reefer 9 in it. -/
def groupDef : GroupDef :=
  { interval := 10, silentLimit := 2, bandBelow := 5, bandAbove := 5, deadband := 3, reload := 3, excursionEnable := true }
def reeferDef : ReeferDef := { unit := 7, group := 0 }

/-- A REPORTING reefer. -/
def reporting : Reefer := { defn := some reeferDef, state := .reporting, cell := some 5, cls := some .within, age := 9 }

/-- The link UP with group 0 defined and reefer 9 at a record, its directory entry set. -/
def withReefer (r : Reefer) : State :=
  dirSet 7 (.reefer 9) ((up.modGroup 0 fun g => { g with defn := some groupDef, members := 1 }).setReefer 9 r)

/-- The link UP with one request waiting. -/
def withRequest (command : U16) (data : List Byte) (s : State) : State :=
  s.modMgmt fun m => { m with queue := [{ src := 1, id := 1, command := command, data := data }] }

/-- The request of `withRequest`. -/
def request (command : U16) (data : List Byte) : Request := { src := 1, id := 1, command := command, data := data }

theorem reset_cells (x : CellId) : State.reset.cell x = { position := ⟨x.val % 8, Nat.mod_lt _ (by decide)⟩ } := by
  revert x; decide

theorem reset_crane (k : CraneId) : State.reset.crane k = {} := by revert k; decide

theorem reset_batch (b : BatchId) : State.reset.batch b = Batch.emptied := by revert b; decide

theorem reset_group (g : GroupId) : State.reset.group g = {} := by revert g; decide

/-! ### The machine -/

theorem test_witness_StepTakesTheFrontCommand :
    step { up with pending := [.linkLoss, .linkUp] } = exec .linkLoss { up with pending := [.linkUp] } := rfl

theorem test_witness_EmptyQueueLetsTimePass :
    up.pending = [] ∧ up.held = false
      ∧ ({ up with time := { ms := 0xFFFFFFFF#32, quarter := 3 } } : State).time.tick = { ms := 0, quarter := 0 } := by
  decide

theorem test_witness_QueueLinkAndParameters : exec (.fillBlock .N) up = .next up := rfl

/-- The tables of the small state are sound. -/
theorem up_tables : TablesSound up := by constructor <;> simp [up, State.reset, State.powerOn, Coverage.reset, ReeferUnit.reset]

theorem test_witness_DefinitionsChangeOnlyByLoadEnd :
    TablesSound up ∧ exec (.fillBlock .N) up = .next up ∧ Instr.fillBlock .N ≠ .loadEnd ∧ Instr.fillBlock .N ≠ .restartAll :=
  ⟨up_tables, rfl, by decide, by decide⟩

theorem test_witness_ResetHoldsThePart : exec .linkUp { up with held := true } = .next { up with held := true } := rfl

/-! ### What always holds -/

theorem up_steps : step up = .next up.tick := rfl

theorem test_witness_PortAndLedsSound : PortSound up.port ∧ LedsSound up := by
  refine ⟨?_, by unfold LedsSound; decide⟩
  constructor <;> decide

theorem test_witness_TablesSound : TablesSound up ∧ GeneralSound up :=
  ⟨up_tables, fun a j => by simp [up, State.reset, State.powerOn, Coverage.reset, sparseFind]⟩

theorem test_witness_ManagementSound : ParamsSound up.params ∧ MgmtSound up.mgmt := by
  refine ⟨?_, ?_⟩ <;> constructor <;> simp [up, State.reset, State.powerOn, State.params, stationAddress, Config.requestCapacity]

/-- An open transaction with two octets staged is sound. -/
theorem test_witness_OpenLoadSound :
    MgmtSound { load := some { table := .cells, segments := 64, total := 65536, next := 1, crc := crcOver 0xFFFF#16 [1, 2] }
                staging := [1, 2], timer := some 8000 } := by
  constructor <;> simp [Config.requestCapacity, Config.maxSegments, Config.stagingOctets, Config.segmentOctets, Config.loadSeed]

theorem test_witness_ChainsSound : ChainsSound up := by
  refine ⟨?_, ?_⟩ <;> constructor <;> simp [up, State.reset, State.powerOn, Config.firstBackoff, Config.generalDownCapacity]

theorem up_cell (x : CellId) : up.cell x = { position := ⟨x.val % 8, Nat.mod_lt _ (by decide)⟩ } := by
  revert x; decide

theorem test_witness_CellsSound : CellsSound up ∧ RingSound up := by
  refine ⟨fun x => ?_, fun c => by cases c <;> decide⟩
  rw [up_cell]
  refine ⟨?_, by simp⟩
  constructor <;> simp

theorem up_crane (k : CraneId) : up.crane k = {} := by revert k; decide

theorem test_witness_CranesSound : CranesSound up ∧ EventsSettled up := by
  refine ⟨fun k => ?_, rfl⟩
  rw [up_crane]
  constructor <;> simp

theorem test_witness_LiveCranesSound : CraneSound linked ∧ CraneSound handed ∧ CraneSound lost := by
  refine ⟨?_, ?_, ?_⟩ <;> constructor <;> decide

theorem test_witness_ClaimsSound : ReservationsSound up ∧ ShadowsSound up := by
  unfold ReservationsSound ShadowsSound; decide

theorem up_batch (b : BatchId) : up.batch b = Batch.emptied := by revert b; decide

theorem test_witness_DrainAndPoolSound : DrainSound up.drain ∧ PoolSound up := by
  constructor
  · constructor <;> simp [up, State.reset, State.powerOn, Config.checkWindow]
  · have listed : up.pool.sealedList = [] := rfl
    have window : up.drain.window = [] := rfl
    constructor <;> simp only [up_batch, listed, window] <;> simp [Batch.emptied, BatchSound]

theorem test_witness_ReferencesSound : RefsSound up := by
  constructor
  · intro b n e h; rw [up_batch] at h; simp [Batch.emptied, BatchState.changeable] at h
  · intro i b n h; simp [up, State.reset, State.powerOn, State.reefer, ReeferUnit.reset, sparseFind, Reefer.vacant] at h

theorem test_witness_ReefersSound : ReefersSound up ∧ MembersSound up := by
  refine ⟨?_, by unfold MembersSound; decide⟩
  constructor <;> simp [up, State.reset, State.powerOn, State.reefer, ReeferUnit.reset, sparseFind, Reefer.vacant]

/-! ### The uplink port -/

/-- The header of a raw frame: version, kind, and the length field. -/
def raw (version kind length : Nat) (rest : List Byte) : List Byte :=
  [BitVec.ofNat 8 version, BitVec.ofNat 8 kind, 0, 0, 0, 0] ++ octetsOf 2 length ++ [0, 0] ++ rest

/-- Each clause of the receive checks at the edge of its range: nine octets and ten, a length field one short, a kind outside
the table. -/
theorem test_witness_ArrivingFramesAreJudgedByTheChecks :
    up.held = false ∧ up.port.link = .up ∧ (hdr 1).dst = up.mgmtAddress ∧ (hdr 1).etherType = up.params.quayType
      ∧ ((raw 1 1 0 []).drop 1).length = 9 ∧ (raw 1 1 0 []).length = 10
      ∧ kindLengthOk 1 0 = false ∧ kindLengthOk 1 1 = true ∧ lengthAgrees (raw 1 1 2 [5]) 2 = false
      ∧ isReceiveKind 3 = false ∧ frameHeader (.craneDown (hdr 1) 0 [1]) = some (hdr 1)
      ∧ State.reset.port.link = .down := by
  decide

theorem test_raw_frame_of_an_unknown_kind :
    exec (.uplinkFrameDiscarded (hdr 1) (raw 1 0x30 1 [5])) up =
      .next (up.countPort fun k => { k with unknownKind := k.unknownKind + 1 }) := by
  rfl

theorem test_witness_LinkUpAndLinkLoss :
    LedsSound State.reset ∧ State.reset.held = false ∧ up.held = false ∧ up.port.link = .up := by
  unfold LedsSound; decide

/-- A frame of general traffic. -/
def frame : TxFrame := { dst := 1, src := 2, etherType := 0x88B6#16, content := .general 7 [1] }

/-- The port sending a control frame, with frames waiting and a run count. -/
def busy (run : Nat) (craneUp control drain general : List TxFrame) : State :=
  { up with port := { link := .up, tx := some (.control, frame), craneUpQ := craneUp, controlQ := control
                      drainQ := drain, generalUpQ := general, run := run } }

/-- The clauses of the arbiter at run counts 7 and 8, and with nothing waiting. -/
theorem test_witness_FrameEndGrantsTheNext :
    (busy 7 [frame] [] [] [frame]).port.tx = some (.control, frame)
      ∧ (busy 7 [frame] [] [] [frame]).port.pick = some .craneUp
      ∧ (busy 8 [frame] [] [] [frame]).port.pick = some .generalUp
      ∧ (busy 8 [frame] [] [frame] [frame]).port.pick = some .drain
      ∧ (busy 8 [] [frame] [] []).port.pick = some .control
      ∧ (busy 0 [] [] [] []).port.pick = none := by
  decide

/-- A block of a defined reefer's unit is dispatched, on an UP link whose transmitter is IDLE, on a DOWN one, and with the
queue one short of full and full. -/
theorem test_witness_OfferedFrameJoinsItsQueue :
    Dispatched (running (withReefer reporting)) 5 ∧ (dirReefer (running (withReefer reporting)) 7).isSome
      ∧ (running (withReefer reporting)).port.tx = none ∧ PortSound (running (withReefer reporting)).port
      ∧ (List.replicate 255 frame).length < 256 ∧ 256 ≤ (List.replicate 256 frame).length := by
  refine ⟨⟨rfl, rfl, by decide⟩, by decide, rfl, ?_, by rw [List.length_replicate]; norm_num, by rw [List.length_replicate]⟩
  constructor <;> decide

/-! ### Crane links -/

/-- A header from the station of crane 3. -/
def fromStation : RxHeader := hdr 0x02000000000A#48

theorem test_witness_StationFramesAreChecked :
    Reaches (withCrane idle) (hdr 1) ∧ (12 : Byte).toNat = 12 ∧ ((withCrane idle).crane 11).defn = none
      ∧ ((withCrane idle).crane 3).defn = some craneDef ∧ craneDef.station ≠ (hdr 1).src :=
  ⟨⟨rfl, rfl, rfl, by decide⟩, by decide, by decide, by decide, by decide⟩

theorem test_witness_CollectorFramesAreChecked :
    Reaches drained (hdr collector) ∧ drained.params.collector = some (hdr collector).src
      ∧ drained.params.collector ≠ some (hdr 1).src ∧ drained.drain.state = .closed
      ∧ ({ drained with drain := { state := .closing, tag := some 1, credit := some 1 } } : State).drain.tag ≠ some 2 :=
  ⟨⟨rfl, rfl, rfl, by decide⟩, rfl, by decide, rfl, by decide⟩

/-- The clauses of CRANE-DOWN: 1,020 and 1,021 octets; IDLE; LINKED with its anchor UP and DOWN; a queue of 15 and 16. -/
theorem test_witness_CraneDownIsQueuedForItsCells :
    FromStation (withCrane linked) fromStation 3 3 ∧ FromStation (withCrane idle) fromStation 3 3
      ∧ 1020 < (List.replicate 1021 (0 : Byte)).length ∧ (List.replicate 1020 (0 : Byte)).length ≤ 1020
      ∧ linkCells (withCrane linked) 3 = [5]
      ∧ linkCells ((withCrane linked).modCell 5 fun r => { r with unit := .down }) 3 = []
      ∧ (List.replicate 15 ({ payload := [], dests := [5] } : DownEntry)).length < 16
      ∧ 16 ≤ (List.replicate 16 ({ payload := [], dests := [5] } : DownEntry)).length :=
  ⟨⟨⟨rfl, rfl, rfl, by decide⟩, rfl, by decide⟩, ⟨⟨rfl, rfl, rfl, by decide⟩, rfl, by decide⟩, by decide +kernel,
    by decide +kernel, by decide, by decide, by decide, by decide⟩

theorem test_witness_CraneResumeNeedsBothSidesHeard :
    FromStation (withCrane lost) fromStation 3 3 ∧ EventsSettled (withCrane lost)
      ∧ ((withCrane lost).crane 3).craneMiss ≠ 0
      ∧ FromStation (withCrane { lost with craneMiss := 0 }) fromStation 3 3
      ∧ ((withCrane { lost with craneMiss := 0 }).crane 3).craneMiss = 0 :=
  ⟨⟨⟨rfl, rfl, rfl, by decide⟩, rfl, by decide⟩, rfl, by decide, ⟨⟨rfl, rfl, rfl, by decide⟩, rfl, by decide⟩, by decide⟩

theorem withCrane_sound {c : Crane} (h : CraneSound c) : CranesSound (running (withCrane c)) := by
  intro k
  have step : (running (withCrane c)).crane k = if k = 3 then c else {} := by
    revert k; simp only [running, withCrane]; intro k; fin_cases k <;> rfl
  rw [step]
  split
  · exact h
  · constructor <;> simp

theorem idle_sound : CraneSound idle := by constructor <;> decide

/-- First contact through a usable cell with room for the reservation to the slot, and with one slot too few. -/
theorem test_witness_FirstContactLinksTheCrane :
    Dispatched (running (withCrane idle)) 5 ∧ EventsSettled (running (withCrane idle))
      ∧ CranesSound (running (withCrane idle)) ∧ dirCrane (running (withCrane idle)) craneDef.radio = some 3
      ∧ ((running (withCrane idle)).crane 3).state = .idle ∧ usable (running (withCrane idle)) 5
      ∧ 6 + craneDef.reservation ≤ ((running (withCrane idle)).cell 5).budget
      ∧ ¬7 + craneDef.reservation ≤ ((running (withCrane idle)).cell 5).budget
      ∧ dirCrane (running (withCrane idle)) 1 = none :=
  ⟨⟨rfl, rfl, by decide⟩, rfl, withCrane_sound idle_sound, by decide, by decide, by decide, by decide, by decide, by decide⟩

/-- The clauses of the duplicate window around its base 10: newer by 1 and by 32767, unmarked 1 below, marked, stale 64
below. -/
theorem test_witness_LiveBlockIsJudgedByTheWindow :
    Dispatched (running (withCrane linked)) 5 ∧ dirCrane (running (withCrane linked)) craneDef.radio = some 3
      ∧ ((running (withCrane linked)).crane 3).window = some { base := 10, marks := 1 }
      ∧ ((11 : U16) - 10).toNat = 1 ∧ ((32777 : U16) - 10).toNat = 32767 ∧ ((32778 : U16) - 10).toNat = 32768
      ∧ ((10 : U16) - 9).toNat = 1 ∧ (1 : BitVec 64).getLsbD 1 = false ∧ (1 : BitVec 64).getLsbD 0 = true
      ∧ ((10 : U16) - 65483).toNat = 63 ∧ ((10 : U16) - 65482).toNat = 64 :=
  ⟨⟨rfl, rfl, by decide⟩, by decide, by decide, by decide, by decide, by decide, by decide, by decide, by decide, by decide,
    by decide⟩

theorem test_witness_NoMarkedNumberIsForwarded :
    PortSound (running (withCrane linked)).port ∧ ((10 : U16) - 10).toNat < 64 := by
  refine ⟨?_, by decide⟩
  constructor <;> decide

/-- Crane 3 on cell 5 with cells 5 and 6 UP, and a ranked list for band 0. -/
def banded (ranked : List CellId) (c : Crane) : State :=
  let s := (running (withCrane c)).modCell 6 fun r => { r with fitted := true, budget := 2, unit := .up, barred := false }
  { s with cov := { s.cov with map := s.cov.map.set 0 { ranked := ranked, shadow := [9] } } }

/-- A position word: band 0 with the boom lowered, and a band past the map; the cells of band 0's shadow list are claimed. -/
theorem test_witness_PositionWordIsTaken :
    (positionWord [0, 0x80]).toNat / 512 < 64 ∧ (positionWord [0, 0x80]).toNat / 128 % 4 = 1
      ∧ ¬(positionWord [0x80, 0]).toNat / 512 < 64 ∧ ((banded [5] linked).crane 3).defn = some craneDef
      ∧ ((takePosition 3 (positionWord [0, 0x80]) (banded [5] linked)).crane 3).shadow = [9]
      ∧ ((takePosition 3 (positionWord [0, 0x80]) (banded [5] linked)).cell 9).shadowCount = 1 := by
  decide

/-- Arrivals: through the target of a HANDOVER, and through a ranked cell with room, one too full, and one that is not UP. -/
theorem test_witness_ArrivalIsJudged :
    ((banded [6, 5] handed).crane 3).anchor = some 5 ∧ ((banded [6, 5] handed).crane 3).target = some 6
      ∧ (let s := banded [6, 5] { linked with band := some 0 }
         6 ∈ s.rankedCells 3 ∧ FitFor s 3 6 ∧ RoomFor s 3 6 ∧ s.params.features.craneLed = true
         ∧ ¬RoomFor (s.modCell 6 fun r => { r with reserved := 1 }) 3 6 ∧ ¬FitFor s 3 7) := by
  unfold FitFor RoomFor; decide

theorem test_witness_HandoverIsCompleted :
    ((arrival 3 6 true (banded [6, 5] handed)).crane 3).anchor = some 6
      ∧ ((arrival 3 6 true (banded [6, 5] { linked with band := some 0 })).crane 3).anchor = some 6
      ∧ ((arrival 3 7 true (banded [6, 5] linked)).crane 3).counters.stray = 1 := by
  decide

/-- Evaluation with the anchor ranked first, behind a candidate below its hold-off and at it, and not ranked. -/
theorem test_witness_EvaluationCases :
    (evaluate 3 true (banded [5, 6] { linked with band := some 0, progress := 1 })).crane 3 = { linked with band := some 0 }
      ∧ ((evaluate 3 true (banded [6, 5] { linked with band := some 0 })).crane 3).progress = 1
      ∧ ((evaluate 3 true (banded [6, 5] { linked with band := some 0, progress := 1 })).crane 3).target = some 6
      ∧ ((evaluate 3 false (banded [6] { linked with band := some 0 })).crane 3).target = some 6
      ∧ ((evaluate 3 false (banded [7] { linked with band := some 0 })).crane 3).deferred = true := by
  decide

/-- A start whose first candidate is refused and whose second is granted, and one granted by none. -/
theorem test_witness_StartIsGrantedOrDeferred :
    (let s := banded [] linked
     ¬RoomFor s 3 7 ∧ RoomFor s 3 6 ∧ (s.crane 3).anchor = some 5 ∧ (s.crane 3).deferred = false)
      ∧ ((attemptStart 3 [7, 6] [] (banded [] linked)).crane 3).target = some 6
      ∧ (attemptStart 3 [7, 6] [] (banded [] linked)).cov.counters.reserveRefusals = 1
      ∧ ((attemptStart 3 [7] [] (banded [] linked)).crane 3).counters.deferrals = 1 := by
  unfold RoomFor; decide

/-- A LINKED crane whose progress stands at its hold-off of 2, after a load of another hold-off. -/
def reloaded (holdOff : Nat) : Crane :=
  Crane.redefine { craneDef with holdOff := holdOff } { linked with band := some 0, progress := 2 }

/-- A load raises the hold-off of 2 to 5: an evaluation still starts a handover at 2, until the next position report; a
second load keeps the lowest in use; a load that lowers it is used at once; a LOST crane reports nothing. -/
theorem test_witness_RaisedHoldOffWaitsForAReport :
    (reloaded 5).oldHoldOff = some 2 ∧ ((evaluate 3 false (banded [6, 5] (reloaded 5))).crane 3).target = some 6
      ∧ ((takePosition 3 (positionWord [0, 0]) (banded [6, 5] (reloaded 5))).crane 3).target = none
      ∧ ((takePosition 3 (positionWord [0, 0]) (banded [6, 5] (reloaded 5))).crane 3).progress = 3
      ∧ ((reloaded 5).redefine { craneDef with holdOff := 3 }).oldHoldOff = some 2 ∧ (reloaded 1).oldHoldOff = none
      ∧ ((Crane.redefine { craneDef with holdOff := 5 } lost).reported).oldHoldOff = some 2 := by
  decide

theorem test_witness_RaisedHoldOffIsSound : CraneSound (reloaded 5) := by constructor <;> decide

/-- A usability change visits a HANDOVER crane whose target is not usable and one whose target is, and a LINKED one; a room
notice evaluates the deferred one alone. -/
theorem test_witness_SweepAndRoomNotice :
    (let s := banded [6, 5] { handed with band := some 0 }
     ((takeCluEvent s (.usability 6)).crane 3).target = some 6 ∧ FitFor s 3 6
       ∧ ¬FitFor (s.modCell 6 fun r => { r with unit := .down }) 3 6
       ∧ ((takeCluEvent (s.modCell 6 fun r => { r with unit := .down }) (.usability 6)).crane 3).state = .linked)
      ∧ ((takeCluEvent (banded [6] { linked with band := some 0 }) (.usability 5)).crane 3).target = some 6
      ∧ ((takeCluEvent (banded [6] { linked with band := some 0 }) (.room 6)).crane 3).target = none
      ∧ ((takeCluEvent (banded [6] { linked with band := some 0, deferred := true }) (.room 6)).crane 3).target = some 6
      ∧ ((takeCluEvent (banded [6] { linked with band := some 0, boom := .lowered }) .mapChange).crane 3).shadow = [9] := by
  unfold FitFor; decide +kernel

/-- A supervision expiry one miss below the loss limit and at it, and the ceiling of a miss count. -/
theorem test_witness_SupervisionExpiryCountsMisses :
    (withCrane linked).held = false ∧ ((withCrane linked).crane 3).defn = some craneDef
      ∧ CraneSound linked ∧ EventsSettled (withCrane linked)
      ∧ min (1 + 1) 15 < craneDef.lossLimit ∧ craneDef.lossLimit ≤ min (2 + 1) 15 ∧ min (15 + 1) 15 = 15
      ∧ ((withCrane lost).crane 3).state = .lost ∧ ((withCrane idle).crane 3).state = .idle :=
  ⟨rfl, by decide, test_witness_LiveCranesSound.1, rfl, by decide, by decide, by decide, by decide, by decide⟩

/-- The keep decision below the loss limit: owed to the cells of the link, and not owed once a copy was sent. -/
theorem test_witness_KeepDecision :
    ((superviseLive 3 (banded [] { handed with stationHeard := true })).crane 3).keeps = [(5, 0), (6, 0)]
      ∧ ((superviseLive 3 (banded [] { linked with stationHeard := true, keeps := [(6, 9)] })).crane 3).keeps = [(5, 0)]
      ∧ ((superviseLive 3 (banded [] { linked with stationHeard := true, keeps := [(6, 9)] })).crane 3).counters.keepReplaced = 1
      ∧ ((superviseLive 3 (banded [] { linked with
          stationHeard := true, downlinkSent := true, keeps := [(6, 9)] })).crane 3).keeps = [(6, 9)] := by
  decide

/-- A countdown at 0 and at 1; a bar at 0, at 1, and none. -/
theorem test_witness_HandoverCountdownAndBarEnd :
    ((withCrane handed).crane 3).countdown = 0 ∧ ((withCrane handed).crane 3).target = some 6
      ∧ ((withCrane { handed with countdown := 1 }).crane 3).countdown ≠ 0
      ∧ ((withCrane { idle with bar := some (5, 0) }).crane 3).bar = some (5, 0)
      ∧ ((withCrane { idle with bar := some (5, 1) }).crane 3).bar = some (5, 0 + 1)
      ∧ ((withCrane idle).crane 3).bar = none ∧ EventsSettled (withCrane handed) := by
  unfold EventsSettled; decide

/-- An opener moves a bar and a countdown of its chain at 2 and at 1, and none of the other chain's. -/
theorem test_witness_OpenerMovesBarsAndCountdowns :
    ((openerSent .N (withCrane { linked with bar := some (6, 2) })).crane 3).bar = some (6, 1)
      ∧ ((openerSent .N (withCrane { linked with bar := some (6, 1) })).crane 3).bar = none
      ∧ ((openerSent .N (withCrane { linked with bar := some (8, 1) })).crane 3).bar = some (8, 1)
      ∧ ((openerSent .N (withCrane { handed with countdown := 2 })).crane 3).countdown = 1
      ∧ ((openerSent .N (withCrane { handed with countdown := 1 })).crane 3).target = none
      ∧ ((openerSent .S (withCrane { handed with countdown := 1 })).crane 3).countdown = 1 := by
  decide +kernel

/-! ### Chains and cells -/

/-- A chain of the small state at a record. -/
def withChain (r : ChainRec) : State := up.modChain .N fun _ => r

/-- A DISABLED chain with a flagged cell and no controller; the same with a controller. -/
theorem test_witness_CycleTimerOfAnIdleChain :
    (up.chain .N).state = .disabled ∧ up.params.controller = none
      ∧ ((up.modCell 5 fun r => { r with changed := true }).cell 5).changed = true
      ∧ (up.modMgmt fun m => { m with params := { m.params with controller := some 2 } }).params.controller = some 2 := by
  decide

/-- Cell 5 flagged, a controller set, and the control queue of a length. -/
def flagged (link : LinkState) (n : Nat) : State :=
  let s := (up.modCell 5 fun r => { r with changed := true }).modMgmt fun m =>
    { m with params := { m.params with controller := some 2 } }
  { s with port := { s.port with link := link, tx := some (.control, frame), controlQ := List.replicate n frame } }

/-- The CELL-CHANGE notice is offered with 31 frames waiting, and refused with 32 and on a DOWN link. -/
theorem test_witness_CellChangeNoticeIsOfferedOrDeferred :
    (let s := flagged .up 31
     (cycleEnd .N .noCycle s).port.controlQ.getLast? = some (s.noticeFrame 2 (.cellChange .N .noCycle
         [{ cell := 5, unit := .absent, usable := false, shadowCount := 0 }]))
       ∧ ((cycleEnd .N .noCycle s).cell 5).changed = false)
      ∧ (cycleEnd .N .noCycle (flagged .up 32)).cov.counters.changeDeferred = 1
      ∧ (cycleEnd .N .noCycle (flagged .up 32)).port.counters.control.full = 1
      ∧ ((cycleEnd .N .noCycle (flagged .up 32)).cell 5).changed = true
      ∧ (cycleEnd .N .noCycle (flagged .down 0)).port.counters.control.linkDown = 1
      ∧ (flagged .up 31).held = false ∧ ((flagged .up 31).chain .N).state = .disabled := by
  decide +kernel

/-- The edges of the two premises: 30 and 31 turns judged, one missed turn below the break limit and at it. -/
theorem test_witness_CycleTimerSendsACycle :
    ((withChain { state := .rollcall, awaited := some 1, rollcallTurns := 30 }).chain .N).rollcallTurns < 31
      ∧ 31 ≤ ((withChain { state := .rollcall, awaited := some 1, rollcallTurns := 31 }).chain .N).rollcallTurns
      ∧ ((withChain { state := .running, awaited := some 1, missed := 1 }).chain .N).missed + 1 < up.params.breakLimit
      ∧ up.params.breakLimit ≤ ((withChain { state := .running, awaited := some 1, missed := 2 }).chain .N).missed + 1
      ∧ RingSound up :=
  ⟨by decide, by decide, by decide, by decide, test_witness_CellsSound.2⟩

/-- A missed turn of roll call empties the set of cells heard; an expiry with no turn awaited keeps it. -/
theorem test_witness_MissedTurnOfRollCall :
    (let heard := fun awaited => match exec (.cycleTimerExpiry .N)
         (withChain { state := .rollcall, awaited := awaited, goodTurns := 2, rollcallTurns := 30, heard := [5] }) with
       | .next t => ((t.chain .N).heard, (t.chain .N).goodTurns, (t.chain .N).rollcallTurns)
       | _ => ([], 9, 9)
     heard (some 1) = ([], 0, 31) ∧ heard none = ([5], 2, 30)) := by
  decide +kernel

/-- A crane offers its KEEP block first, then a copy for its anchor; it offers nothing to the other chain. -/
theorem test_witness_CraneOffersKeepThenCopy :
    FirstOf .N (some 5) [6, 5] 5 ∧ FirstOf .N (some 9) [6, 5] 5
      ∧ (let c := { linked with queue := [{ payload := [1], dests := [5, 6] }] }
         (craneOffer .N 3 (withCrane { c with keeps := [(5, 8)] })).map Prod.fst = some (.keep 5 craneDef.radio 8)
         ∧ (craneOffer .N 3 (withCrane c)).map Prod.fst = some (.craneDown 5 craneDef.radio [1])
         ∧ craneOffer .S 0 (withCrane c) = none)
      ∧ turnOf (some 3) 4 = 0 ∧ turnOf (some 3) 3 = 11 ∧ turnOf none 0 = 0 := by
  unfold FirstOf
  refine ⟨by decide, by decide, ⟨rfl, rfl, rfl⟩, by decide⟩

/-- A RUNNING cycle takes the copy of the round robin and the general frame behind it, and drops a frame of no route. -/
theorem test_witness_DownlinkIsBuilt :
    (let s := (banded [] { linked with queue := [{ payload := [1], dests := [5] }] }).modChain .N fun r =>
       { r with generalQ := [{ cell := 7, unit := 7, payload := [2] }, { cell := 6, unit := 8, payload := [3] }] }
     let u := buildDownlink .N s
     (s.chain .N).state = .running ∧ u.blocks = [.craneDown 5 craneDef.radio [1], .generalDown 6 8 [3]]
       ∧ (u.st.chain .N).generalQ = [] ∧ (u.st.chain .N).counters.generalStale = 1
       ∧ (u.st.chain .N).cranePtr = some 3) := by
  decide

theorem test_witness_BreakCausesBreakTheChain :
    (withChain { state := .running, awaited := some 1 }).held = false
      ∧ LedsSound (withChain { state := .broken }) ∧ ((withChain { state := .broken }).chain .N).state = .broken
      ∧ chainOf 7 = .N ∧ chainOf 8 = .S := by
  unfold LedsSound; decide

theorem test_witness_LitChain :
    LedsSound { withChain { state := .running, awaited := some 1 } with leds := { link := true, chn := true } } := by
  unfold LedsSound; decide

/-- A departure withdraws what is pending on the chain and fails the handover to it. -/
theorem test_witness_DepartureReachesTheCranes :
    (let s := running (withCrane { handed with queue := [{ payload := [1], dests := [6, 8] }, { payload := [2], dests := [6] }] })
     (chainOf 6 = .N ∧ chainOf 8 = .S) ∧ ((leaveRunning .N s).crane 3).state = .linked
       ∧ ((leaveRunning .N s).crane 3).queue = [{ payload := [1], dests := [8] }]
       ∧ ((leaveRunning .N s).crane 3).counters.undeliverable = 1 ∧ ((leaveRunning .N s).cell 5).unit = .down) := by
  decide +kernel

theorem test_witness_BackoffStableAndBlinkTimers :
    ((withChain { state := .broken, backoff := some 0 }).chain .N).backoff.isSome
      ∧ ((withChain { state := .running, stable := some 0 }).chain .N).stable.isSome
      ∧ chainLed .rollcall 249 = true ∧ chainLed .rollcall 250 = false ∧ chainLed .rollcall 500 = true := by
  decide

/-- A block shorter than its kind allows is malformed, and one that fits is not; cell 8 is on chain S. -/
theorem test_witness_BlocksThatAreOnlyCounted :
    blockMalformed .N { cell := 5, kind := 0x22, length := 6, content := [], slots := 1 } = true
      ∧ blockMalformed .N { cell := 5, kind := 0x22, length := 7, content := [], slots := 1 } = false
      ∧ blockMalformed .N { cell := 8, kind := 0x22, length := 7, content := [], slots := 1 } = true
      ∧ ((withChain { state := .rollcall }).chain .N).state ≠ .running
      ∧ ((withChain { state := .rollcall, awaited := some 4 }).chain .N).awaited ≠ some 5 := by
  decide

/-- A status record of a cell. -/
def status (cell : Byte) : StatusRecord := { cell := cell, quality := 15, fault := false, join := true, backlog := 0 }

theorem test_witness_TurnInTimeReachesTheCells :
    ((withChain { state := .running, awaited := some 4 }).chain .N).awaited = some 4
      ∧ ((withChain { state := .rollcall, awaited := some 4, goodTurns := 3 }).chain .N).goodTurns = 3
      ∧ (List.replicate 8 (status 5)).length ≤ 8 ∧ standingRecords .N [status 5, status 5, status 8] [] = [(5, status 5)] := by
  decide

/-- A good turn of roll call before the fourth: the 31st turn judged, and the 32nd. -/
theorem test_witness_GoodTurnBeforeTheFourth :
    (let s := fun n => withChain { state := .rollcall, awaited := some 4, goodTurns := 2, rollcallTurns := n }
     (s 30).held = false ∧ ((s 30).chain .N).rollcallTurns < 31 ∧ 31 ≤ ((s 31).chain .N).rollcallTurns)
      ∧ ([5, 6] : List CellId).Pairwise (fun x y => x.val < y.val)
      ∧ (standingRecords .N [status 6, status 5] []).map Prod.fst = [6, 5] := by
  decide

theorem test_witness_RollCallLeds :
    LedsSound { withChain { state := .rollcall, awaited := some 4, rollcallTurns := 31 } with leds := { link := true, chn := true } } := by
  unfold LedsSound; decide

theorem test_witness_StatusRecordMovesTheCell :
    CellSound { fitted := true, unit := .joining, progress := 2 } ∧ CellSound { fitted := true, unit := .up, progress := 7 }
      ∧ CellSound { fitted := true, unit := .fading, progress := 15 } ∧ CellSound { fitted := true, unit := .down } := by
  refine ⟨?_, ?_, ?_, ?_⟩ <;> constructor <;> decide

/-- A status miss below the limit of 4, at it, and of a cell that is charged none. -/
theorem test_witness_StatusMissIsCharged :
    2 + 1 < up.params.statusMissLimit ∧ up.params.statusMissLimit ≤ 3 + 1
      ∧ (Cell.takeMiss up.params { fitted := true, position := 0, unit := .up, missCount := 2, progress := 7 }) =
        { fitted := true, position := 0, unit := .up, missCount := 3, statusMisses := 1 }
      ∧ (Cell.takeMiss up.params { fitted := true, position := 0, unit := .up, missCount := 3 }).unit = .down
      ∧ Cell.takeMiss up.params { position := 0 } = { position := 0 } := by
  decide

/-- A fault in UP takes the cell DOWN, with its change flag and one usability event; a fade count has neither, a fault in
DOWN changes nothing, and a record of an unfitted cell is counted alone. -/
theorem test_witness_StatusRecordIsOneEvent :
    (let record := fun (x : CellId) (quality : Fin 16) (fault : Bool) (s : State) =>
       statusRecord x { cell := BitVec.ofNat 8 x.val, quality := quality, fault := fault, join := false, backlog := 0 } s
     let seen := fun (x : CellId) (t : State) => ((t.cell x).unit, (t.cell x).changed, t.events)
     seen 5 (record 5 9 true (running up)) = (.down, true, [.usability 5])
       ∧ seen 5 (record 5 0 false (running up)) = (.up, false, [])
       ∧ seen 5 (record 5 9 true (record 5 9 true (running up))) = (.down, true, [.usability 5])
       ∧ seen 6 (record 6 9 true (running up)) = (.absent, false, [])
       ∧ (record 6 9 true (running up)).cov.counters.ignoredStatus = 1) := by
  decide +kernel

/-- The link UP with general unit 7 in record 0, last heard through cell 5. -/
def withGeneral (s : State) : State :=
  dirSet 7 (.general 0) (s.setGeneral [(0, { unit := 7, cell := 5, age := 299 })])

theorem test_witness_GeneralFrameFollowsItsUnit :
    Reaches (withGeneral up) (hdr 1) ∧ dirFind (withGeneral up) 7 = some (.general 0)
      ∧ sparseFind (withGeneral up).cov.general 0 = some { unit := 7, cell := 5, age := 299 }
      ∧ dirFind up 7 = none ∧ (dirReefer (withReefer reporting) 7).isSome
      ∧ ((running (withGeneral up)).cell 5).unit = .up ∧ ((withGeneral up).cell 5).unit = .absent :=
  ⟨⟨rfl, rfl, rfl, by decide⟩, by decide, by decide, by decide, by decide, by decide, by decide⟩

theorem running_tables (s : State) (h : TablesSound s) : TablesSound (running s) :=
  ⟨h.directory, h.general, h.generalIndex, h.reefers, h.reeferIndex, h.reeferListed⟩

theorem test_witness_GeneralUnitIsLearnedOrRefreshed :
    Dispatched (running up) 5 ∧ TablesSound (running up) ∧ 1484 < (List.replicate 1485 (0 : Byte)).length
      ∧ dirFind (running up) 7 = none ∧ (running up).params.features.generalLearning = true
      ∧ sparseFind (running up).cov.general 0 = none ∧ dirFind (withGeneral up) 7 = some (.general 0) :=
  ⟨⟨rfl, rfl, by decide⟩, running_tables up up_tables, by decide +kernel, by decide, rfl, rfl, by decide⟩

/-- An unknown sender is counted for the feature that is off; off and full count both. -/
theorem test_witness_UnknownSenderIsCounted :
    ({} : CoverageCounters).notLearned true true = { notLearnedOff := 1, notLearnedFull := 1 }
      ∧ ({} : CoverageCounters).notLearned true false = { notLearnedOff := 1 }
      ∧ ((learnGeneral 5 7 (up.modMgmt fun m =>
          { m with params := { m.params with features := { generalLearning := false } } })).cov.counters).notLearnedOff = 1 := by
  decide

/-! ### Reefers and the pool -/

/-- The codes and temperatures at the edges of their ranges. -/
theorem test_witness_ReportsAreDiscarded :
    Dispatched (running (withReefer reporting)) 5 ∧ dirReefer (running (withReefer reporting)) 7 = some 9
      ∧ dirReefer (running (withReefer reporting)) 8 = none ∧ (modeOf 3).isSome ∧ modeOf 4 = none ∧ (powerOf 2).isSome
      ∧ powerOf 3 = none ∧ temperatureOk 1000 = true ∧ temperatureOk 1001 = false ∧ temperatureOk 0xFC18 = true
      ∧ temperatureOk 0xFC17 = false ∧ temperatureOk 0x8000 = true
      ∧ ((running (withReefer { reporting with lastSeq := some 1 })).reefer 9).lastSeq = some 1 :=
  ⟨⟨rfl, rfl, by decide⟩, by decide, by decide, by decide, by decide, by decide, by decide, by decide, by decide, by decide,
    by decide, by decide, by decide⟩

/-- A reefer whose last forwarded values a report may repeat, with its countdown at 2. -/
def repeated : Reefer :=
  { reporting with
    countdown := 2
    last := some { supply := 2, ret := 0, setpoint := 0, mode := .chill, power := .mains, alarms := [] } }

theorem test_witness_UnchangedReportIsSuppressed :
    Dispatched (running (withReefer repeated)) 5 ∧ dirReefer (running (withReefer repeated)) 7 = some 9
      ∧ ((running (withReefer repeated)).reefer 9).cls = some (classify groupDef .chill 0 0)
      ∧ ((0 : U16).toInt - (2 : U16).toInt).natAbs < groupDef.deadband
      ∧ ¬((0 : U16).toInt - (3 : U16).toInt).natAbs < groupDef.deadband
      ∧ 2 ≤ min ((running (withReefer repeated)).reefer 9).countdown groupDef.reload :=
  ⟨⟨rfl, rfl, by decide⟩, by decide, by decide, by decide, by decide, by decide⟩

/-- Each class at the edge of its band of 0.5 degrees about the setpoint. -/
theorem test_witness_ValidReportIsHeardAndClassed :
    ((running (withReefer reporting)).reefer 9).defn = some reeferDef
      ∧ ((running (withReefer reporting)).group 0).defn = some groupDef
      ∧ classify groupDef .chill 0xFFFB 0 = .within ∧ classify groupDef .chill 0xFFFA 0 = .below
      ∧ classify groupDef .frozen 5 0 = .within ∧ classify groupDef .frozen 6 0 = .above
      ∧ classify groupDef .defrost 6 0 = .exempt ∧ classify groupDef .chill 0x8000 0 = .within := by
  decide

/-- The reports that are forwarded: of a SILENT reefer, urgent and not urgent by their class, due by the countdown. -/
theorem test_witness_ReportIsForwarded :
    (let at_ := fun r : Reefer => changesOf groupDef r .within { supply := 0, ret := 0, setpoint := 0, mode := .chill,
                                                                 power := .mains, alarms := [] }
     significant { reporting with state := .expected } (at_ reporting) false = true
       ∧ significant repeated (at_ repeated) false = false ∧ significant { repeated with owed := true } (at_ repeated) false
       ∧ (at_ { repeated with cls := some .below }).cls = true ∧ (at_ repeated).alarms = false)
      ∧ min 1 groupDef.reload - 1 = 0 ∧ ({ reporting with state := .silent } : Reefer).state = .silent := by
  decide

theorem withReefer_tables : TablesSound (withReefer reporting) := by
  constructor <;> decide

theorem test_witness_ReportTickAgesTheRecords :
    TablesSound (withReefer reporting) ∧ groupDef.interval ≤ ((withReefer reporting).reefer 9).age + 1
      ∧ ((withReefer { reporting with age := 8 }).reefer 9).age + 1 < groupDef.interval
      ∧ (withGeneral up).params.ageOutS ≤ 299 + 1 ∧ 299 < (withGeneral up).params.ageOutS
      ∧ ((withReefer { reporting with state := .silent }).reefer 9).state ≠ .reporting :=
  ⟨withReefer_tables, by decide, by decide, by decide, by decide, by decide⟩

/-- A miss at the expected interval: behind an unusable cell, below the silent limit and at it. -/
theorem test_witness_MissIsMaskedOrCounted :
    groupDef.interval ≤ ((withReefer { reporting with age := 10 }).reefer 9).age
      ∧ usable (withReefer reporting) 5 = false ∧ usable (running (withReefer reporting)) 5 = true
      ∧ min (0 + 1) 15 < groupDef.silentLimit ∧ groupDef.silentLimit ≤ min (1 + 1) 15 := by
  decide

/-- An entry of reefer 9. -/
def entry : Entry :=
  { kind := .report, urgent := true, reefer := 9, unit := 7, report := none, cls := none, excursion := false, cell := none
    alarms := [] }

/-- The link UP with batch 0 at a record. -/
def withBatch (b : Batch) (s : State) : State := s.modBatch 0 fun _ => b

/-- An open urgent batch. -/
def openUrgent : Batch := { state := .openUrgent, urgency := some .urgent, entries := [entry] }

theorem openUrgent_sound : BatchSound openUrgent := by simp [BatchSound, openUrgent]

theorem withBatch_sound {b : Batch} (h : b.state = .openUrgent) (hb : BatchSound b) : PoolSound (withBatch b drained) := by
  have batch : ∀ x, (withBatch b drained).batch x = if x = 0 then b else Batch.emptied := by
    intro x; simp only [withBatch]; revert x; intro x; fin_cases x <;> rfl
  have listed : (withBatch b drained).pool.sealedList = [] := rfl
  have window : (withBatch b drained).drain.window = [] := rfl
  constructor
  · intro x; rw [batch]; split
    · exact hb
    · simp [BatchSound, Batch.emptied]
  · intro x y hx hy
    rw [batch] at hx hy
    split at hx <;> split at hy <;> simp_all [Batch.emptied]
  · intro x y hx hy
    rw [batch] at hx hy
    split at hx <;> split at hy <;> simp_all [Batch.emptied]
  · simp [listed]
  · intro x; rw [batch, listed]; split <;> simp_all [Batch.emptied]
  · simp [window]
  · intro x; rw [batch, window]; split <;> simp_all [Batch.emptied]

/-- Nothing placed: the new entry opens batch 0, the second of its reefer overwrites it, an urgent one upgrades it. -/
theorem test_witness_EntryIsPlaced :
    (let s := (placeInPool entry .routine (withReefer reporting)).1
     (s.reefer 9).ref = some (0, 0) ∧ (s.batch 0).state = .openRoutine
       ∧ (placeInPool entry .routine s).1.pool.counters.overwrites = 1
       ∧ ((placeInPool entry .urgent s).1.batch 0).state = .openUrgent
       ∧ (placeInPool entry .urgent s).1.pool.counters.upgrades = 1)
      ∧ ((withReefer reporting).reefer 9).ref = none
      ∧ 3 ≤ (allBatches.filter fun b => decide (((withReefer reporting).batch b).state = .free)).length := by
  decide

/-- A pool with the open batches given and no FREE one. -/
def crowded (open_ : Batch) : State :=
  { up with pool := { up.pool with
      batches := Vector.ofFn fun b : Fin 32 => if b = 0 then open_ else { state := .inFlight, entries := [entry] } } }

/-- An urgent entry overflows into the open routine batch; with none, or for a routine one, it is dropped. -/
theorem test_witness_EntryOverflowsOrDrops :
    (placeNew entry .urgent (crowded { openUrgent with state := .openRoutine, urgency := some .routine })).2 = true
      ∧ (placeNew entry .urgent (crowded { openUrgent with state := .openRoutine, urgency := some .routine })).1.pool.counters.overflow
        = 1
      ∧ (placeNew entry .routine (crowded { state := .inFlight })).2 = false
      ∧ (placeNew entry .routine (crowded { state := .inFlight })).1.pool.counters.episodes = 1 := by
  decide

/-- An urgent entry on an unmarked live one, with no urgent batch open and none FREE, is both an overwrite and an overflow. -/
theorem test_witness_UrgentOverwriteInPlace :
    (let s := crowded { openUrgent with state := .openRoutine, urgency := some .routine, entries := [{ entry with urgent := false }] }
     let t := (placeInPool entry .urgent (s.setReefer 9 { reporting with ref := some (0, 0) })).1
     t.pool.counters.overwrites = 1 ∧ t.pool.counters.overflow = 1 ∧ (t.batch 0).entries = [entry]) := by
  decide

theorem test_witness_SealTimeSealsTheOpenBatch :
    PoolSound (withBatch openUrgent drained) ∧ (withBatch openUrgent drained).drain.state ≠ .sending
      ∧ ((withBatch openUrgent drained).batch 0).state = .openUrgent
      ∧ (∀ a, ((withBatch openUrgent drained).batch a).state ≠ .openRoutine) :=
  ⟨withBatch_sound rfl openUrgent_sound, by decide, by decide, by decide⟩

/-- A burst of batch 0 with one entry. -/
def burst (phase : BurstPhase) : Burst :=
  { index := 1, batch := 0, count := 1, remaining := [], crc := 0, phase := phase
    check := if phase = .awaiting then some 4 else none, framesBuilt := 1, framesSent := 0 }

/-- The open urgent batch beside a drain in SENDING with a credit, one burst of it started and judged. -/
def sealing (credit : Nat) : State :=
  { withBatch openUrgent drained with
    drain := { state := .sending, tag := some 1, credit := some credit, started := 1, good := 1 } }

theorem sealing_sound (credit : Nat) : PoolSound (sealing credit) := by
  have h : PoolSound (withBatch openUrgent drained) := withBatch_sound rfl openUrgent_sound
  exact ⟨h.batches, h.oneUrgent, h.oneRoutine, h.listedOnce, h.listed, h.windowOnce, h.window⟩

/-- A seal in SENDING starts a burst with one credit more, and none with the credit used up. -/
theorem test_witness_SealStartsABurst :
    (let after := fun credit => match exec (.sealTimeExpiry .urgent) (sealing credit) with
       | .next t => (t.drain.started, t.pool.sealedList)
       | _ => (0, [])
     after 2 = (2, []) ∧ after 1 = (1, [0]))
      ∧ (sealing 2).held = false ∧ (sealing 2).pool.sealedList = [] ∧ ((sealing 2).batch 0).state = .openUrgent := by
  decide

/-- A seal is seen by the stamp, and the start condition at its edges: the credit, and a burst in phase SENDING. -/
theorem test_witness_StartConditionAfterASeal :
    (let s := fun credit window => ({ sealing credit with
       pool := { (sealing credit).pool with stamp := 1, sealedList := [0] }
       drain := { (sealing credit).drain with window := window } } : State)
     MayStart (s 2 []) ∧ ¬MayStart (s 1 []) ∧ ¬MayStart (s 2 [burst .sending]) ∧ MayStart (s 2 [burst .awaiting])
       ∧ (s 2 []).pool.stamp ≠ (sealing 2).pool.stamp)
      ∧ (sealing 2).pool.stamp = up.pool.stamp ∧ ¬MayStart (sealing 2) := by
  unfold MayStart; decide

/-- Reefer 9 with its live entry in the open urgent batch. -/
def withLive : State := (withBatch openUrgent drained).setReefer 9 { reporting with ref := some (0, 0) }

theorem test_witness_LiveEntryIsOverwritten :
    PoolSound withLive ∧ (withLive.reefer entry.reefer).ref = some (0, 0) ∧ (withLive.batch 0).entries[0]? = some entry
      ∧ (withLive.batch 0).state = .openUrgent ∧ entry.urgent = true := by
  have h : PoolSound (withBatch openUrgent drained) := withBatch_sound rfl openUrgent_sound
  exact ⟨⟨h.batches, h.oneUrgent, h.oneRoutine, h.listedOnce, h.listed, h.windowOnce, h.window⟩, by decide⟩

/-- Two sealed batches in the list, at the stamps given, the counter at 0. -/
def sealed (first second : Batch) : State :=
  (up.modBatch 0 fun _ => first).modBatch 1 fun _ => second

/-- The order of two sealed batches: urgent first, else the older stamp, at a distance of 1 and across the wrap; the
furthest a stamp in use may lie behind the counter. -/
theorem test_witness_SealedListIsOrdered :
    (let b := fun u n => ({ state := .sealed, urgency := some u, stamp := some n, entries := [entry] } : Batch)
     let listed := fun p q : Batch => ({ sealed p q with pool := { (sealed p q).pool with sealedList := [0, 1] } } : State)
     UrgentFirst (listed (b .urgent 0xFFFFFFFF) (b .routine 0xFFFFFFFE))
       ∧ GoesAhead (b .urgent 0xFFFFFFFF) (b .routine 0xFFFFFFFE) ∧ GoesAhead (b .routine 0xFFFFFFFE) (b .routine 0xFFFFFFFF)
       ∧ GoesAhead (b .routine 0xFFFFFFFF) (b .routine 0) ∧ ¬GoesAhead (b .routine 1) (b .routine 1)
       ∧ ¬GoesAhead (b .routine 0) (b .urgent 1))
      ∧ (0 - 0xFFFFFFFF : BitVec 32).toNat = 1 ∧ (0 - 0x80001001 : BitVec 32).toNat = 2147479551 := by
  unfold UrgentFirst GoesAhead; decide

theorem test_witness_StampsNear : StampsNear up ∧ SealedInOrder up := by
  refine ⟨fun b h => ?_, List.Pairwise.nil, fun a b h => ?_⟩ <;> simp [up_batch, Batch.emptied] at h

/-! ### The drain protocol -/

/-- An open drain with one burst. -/
def opened (state : DrainState) (phase : BurstPhase) : Drain :=
  { state := state, tag := some 1, credit := some 1, started := 1, window := [burst phase]
    pause := if state = .paused then some 4 else none }

/-- The small state with that drain. -/
def draining (state : DrainState) (phase : BurstPhase) : State := { drained with drain := opened state phase }

theorem opened_sound (state : DrainState) (phase : BurstPhase) (h : state ≠ .closed) : DrainSound (opened state phase) := by
  constructor <;> cases state <;> cases phase <;> simp_all [opened, burst, Config.checkWindow, Config.maxCredit]

theorem fromCollector (s : State) (h : s.held = false) (l : s.port.link = .up) (m : s.mgmt = drained.mgmt) :
    FromCollector s (hdr collector) :=
  ⟨⟨h, l, by rw [State.params, m]; rfl, by rw [State.mgmtAddress, m]; decide⟩, by rw [State.params, m]; rfl⟩

/-- The credits 0, 1, 16 and 17; an open urgent batch; nothing sealed. -/
theorem test_witness_DrainOpenStartsTheFirstBurst :
    FromCollector (withBatch openUrgent drained) (hdr collector) ∧ PoolSound (withBatch openUrgent drained)
      ∧ DrainSound (withBatch openUrgent drained).drain ∧ ((withBatch openUrgent drained).batch 0).state = .openUrgent
      ∧ ¬1 ≤ (0 : Byte).toNat ∧ 1 ≤ (1 : Byte).toNat ∧ (16 : Byte).toNat ≤ 16 ∧ ¬(17 : Byte).toNat ≤ 16
      ∧ (draining .sending .sending).drain.state ≠ .closed :=
  ⟨fromCollector _ rfl rfl rfl, withBatch_sound rfl openUrgent_sound, test_witness_DrainAndPoolSound.1, by decide, by decide,
    by decide, by decide, by decide, by decide⟩

theorem test_witness_DrainCheckJudgesTheOldestBurst :
    FromCollector (draining .sending .awaiting) (hdr collector) ∧ DrainSound (draining .sending .awaiting).drain
      ∧ (draining .sending .awaiting).drain.tag = some 1
      ∧ (draining .sending .awaiting).drain.window.head? = some (burst .awaiting) ∧ (burst .awaiting).index = (1 : Byte).toNat
      ∧ (draining .closing .awaiting).drain.state = .closing ∧ (burst .sending).phase ≠ .awaiting :=
  ⟨fromCollector _ rfl rfl rfl, opened_sound _ _ (by decide), rfl, rfl, rfl, rfl, by decide⟩

/-- After a judgement with the window empty: the next burst at one more credit, COMPLETE with the credit used up, SHORT with
nothing sealed, STOP in CLOSING; the batch of a failed burst goes back to the list, or is FREE when nothing of it is live. -/
theorem test_witness_DrainGoesOnOrEnds :
    (let s := fun state credit sealedList => ({ drained with
       drain := { opened state .awaiting with window := [], credit := some credit }
       pool := { drained.pool with
         batches := drained.pool.batches.set 0 { state := .sealed, urgency := some .urgent, stamp := some 0, entries := [entry] }
         sealedList := sealedList } } : State)
     (afterJudgement (s .sending 2 [0])).drain.started = 2 ∧ (afterJudgement (s .paused 2 [0])).drain.state = .paused
       ∧ (afterJudgement (s .sending 1 [0])).drain.lastOutcome = some .complete
       ∧ (afterJudgement (s .sending 2 [])).drain.lastOutcome = some .short
       ∧ (afterJudgement (s .closing 2 [0])).drain.lastOutcome = some .stop
       ∧ (s .sending 2 [0]).drain.tag = some 1 ∧ (s .sending 2 [0]).params.collector.isSome)
      ∧ (batchReturn 0 (withLive.modBatch 0 fun b => { b with state := .inFlight, stamp := some 0 })).pool.sealedList = [0]
      ∧ ((batchReturn 0 ((withBatch openUrgent drained).modBatch 0 fun b => { b with state := .inFlight })).batch 0).state = .free := by
  decide

theorem test_witness_DrainPauseResumeAndStop :
    FromCollector (draining .paused .sending) (hdr collector) ∧ DrainSound (draining .paused .sending).drain
      ∧ (draining .paused .sending).drain.window ≠ [] ∧ (draining .paused .sending).drain.staging = none
      ∧ FromCollector (draining .sending .sending) (hdr collector) ∧ (draining .closing .awaiting).drain.state = .closing :=
  ⟨fromCollector _ rfl rfl rfl, opened_sound _ _ (by decide), by decide, rfl, fromCollector _ rfl rfl rfl, rfl⟩

/-- A half-sent burst whose frame waits in the drain queue, or is on the line. -/
def halfSent (waits : Bool) : State :=
  let f : BurstFrame := { tag := 1, index := 1, number := 0, head := none, last := false, entries := [] }
  { draining .sending .sending with
    port := { link := .up, tx := some (if waits then .control else .drain, frame), drainQ := if waits then [frame] else [] }
    drain := { opened .sending .sending with staging := some f } }

/-- A stop withdraws a frame that waits, marks the report of one on the line, closes at once without bursts that await
their checks, and goes on in CLOSING with one. -/
theorem test_witness_StopWithdrawsTheHalfSentBurst :
    (let after := fun s => match exec (.drainStop (hdr collector) 1) s with
       | .next t => (t.drain.state, t.drain.disregard, t.drain.firstFailed, t.port.drainQ.length)
       | _ => (.paused, false, none, 9)
     after (halfSent true) = (.closed, false, some 1, 0) ∧ after (halfSent false) = (.closed, true, some 1, 0)
       ∧ after (draining .paused .awaiting) = (.closing, false, none, 0))
      ∧ FromCollector (halfSent true) (hdr collector) ∧ DrainSound (halfSent true).drain
      ∧ (halfSent true).drain.halfSent ≠ [] ∧ (draining .paused .awaiting).drain.halfSent = [] := by
  refine ⟨by decide, fromCollector _ rfl rfl rfl, ?_, by decide, by decide⟩
  constructor <;> simp [halfSent, opened, burst, Config.checkWindow, Config.maxCredit]

/-- A resume with nothing sealed and no burst ends the drain SHORT while credit is left. -/
theorem test_witness_ResumeCanEndShort :
    (let s : State := { drained with drain := { opened .paused .awaiting with window := [], credit := some 2 } }
     (match exec (.drainResume (hdr collector) 1) s with
       | .next t => t.drain.lastOutcome
       | _ => none) = some .short
       ∧ s.drain.halfSent = [] ∧ s.pool.sealedList = [] ∧ s.drain.started < s.drain.credit.getD 0) := by
  decide

theorem test_witness_DrainTimersTerminateTheDrain :
    (draining .paused .awaiting).held = false ∧ DrainSound (draining .paused .awaiting).drain
      ∧ burst .awaiting ∈ (draining .paused .awaiting).drain.window ∧ (burst .awaiting).phase = .awaiting
      ∧ DrainSound (draining .closing .awaiting).drain :=
  ⟨rfl, opened_sound _ _ (by decide), by decide, rfl, opened_sound _ _ (by decide)⟩

/-- How a command leaves the drain and what it told: the outcome if the drain is CLOSED, the first failed index, the batches
freed, and whether a frame is on the line. -/
def ending (c : Instr) (s : State) : Option (Option DrainOutcome × Option Nat × U32 × Bool) :=
  match exec c s with
  | .next t =>
    some (if t.drain.state = .closed then t.drain.lastOutcome else none, t.drain.firstFailed, t.pool.counters.freedEmpty,
      t.port.tx.isSome)
  | _ => none

/-- In CLOSING the last check wait returns its batch and ends the drain with STOP and a DRAIN-END. -/
theorem test_witness_LastCheckWaitEndsTheDrain :
    ending (.checkTimerExpiry 1) (draining .closing .awaiting) = some (some .stop, some 1, 1, true) := by
  decide +kernel

/-- In SENDING a check that names no burst ends the drain with PROTOCOL, its batch returned. -/
theorem test_witness_WrongCheckEndsTheDrain :
    ending (.drainCheck (hdr collector) 1 2 0) (draining .sending .awaiting) = some (some .protocol, some 1, 1, true) := by
  decide +kernel

/-- A burst frame on the line, the LAST one or not. -/
def onTheLine (state : DrainState) (last : Bool) : State :=
  { drained with
    port := { link := .up, tx := some (.drain, frame) }
    drain := { opened state .sending with
      staging := some { tag := 1, index := 1, number := 0, head := none, last := last, entries := [] } } }

theorem test_witness_SentBurstFrameIsFollowedUp :
    (onTheLine .paused false).port.tx = some (.drain, frame) ∧ (onTheLine .sending true).params.collector.isSome
      ∧ DrainSound (onTheLine .sending true).drain ∧ (onTheLine .sending true).drain.disregard = false
      ∧ burst .sending ∈ (onTheLine .sending true).drain.window := by
  refine ⟨rfl, rfl, ?_, rfl, by decide⟩
  constructor <;> simp [onTheLine, opened, burst, Config.checkWindow, Config.maxCredit]

/-- The report of a withdrawn frame is counted and clears the mark. -/
theorem test_witness_WithdrawnFrameIsDisregarded :
    (let s : State := { drained with port := { link := .up, tx := some (.drain, frame) }, drain := { disregard := true } }
     s.held = false ∧ s.drain.disregard = true
       ∧ (match exec .frameSent s with
          | .next t => (t.drain.disregard, t.port.counters.drain.sent, t.port.tx.isSome)
          | _ => (true, 0, true)) = (false, 1, false)) := by
  decide

/-- A frame takes 1,024 octets and not one entry more, and is the LAST when none is left. -/
theorem test_witness_BurstFrameIsPacked :
    (let long : Entry := { entry with alarms := [1, 2, 3] }
     let w := fun more => ({ burst .sending with
       remaining := entry :: entry :: List.replicate 35 long ++ more, framesBuilt := 0 } : Burst)
     long.octets.length = 28
       ∧ ((nextBurstFrame drained (w [entry])).1.entries.flatMap Entry.octets).length = 1024
       ∧ (nextBurstFrame drained (w [entry])).2.remaining = [entry] ∧ (nextBurstFrame drained (w [entry])).1.last = false
       ∧ (nextBurstFrame drained (w [])).1.last = true ∧ (nextBurstFrame drained (w [])).1.head.isSome) := by
  decide +kernel

/-- With the collector address cleared the next frame ends the drain. -/
theorem test_witness_ClearedCollectorEndsTheDrain :
    (let s : State := { up with drain := opened .sending .sending }
     s.params.collector = none ∧ s.drain.state ≠ .closed ∧ (buildFrame (burst .sending) s).drain.lastOutcome = some .protocol
       ∧ (buildFrame (burst .sending) s).drain.counters.endDropped = 1)
      ∧ DrainSound (opened .sending .sending) :=
  ⟨by decide, opened_sound _ _ (by decide)⟩

/-! ### Management -/

/-- A request of a kind at the head of the queue. -/
theorem headIs {k : RequestKind} (command : U16) (data : List Byte) (s : State) (h : s.held = false)
    (hk : requestKind command = some k) : HeadIs (withRequest command data s) k (request command data) [] :=
  ⟨h, rfl, hk⟩

/-- Seven requests wait, and eight; a source the manager list allows, and one it does not. -/
theorem test_witness_RequestsAreQueuedOrRefused :
    Reaches up (hdr 2) ∧ up.params.managers = []
      ∧ (List.replicate 7 (request 1 [])).length < 8 ∧ 8 ≤ (List.replicate 8 (request 1 [])).length
      ∧ ¬(hdr 2).src ∈ [(4 : Addr)] ∧ requestKind 0 = none ∧ requestKind 24 = none
      ∧ (withRequest 24 [] up).mgmt.queue = [request 24 []] ∧ 12 ≤ (12 : Byte).toNat ∧ 16 ≤ (16 : Byte).toNat
      ∧ 2 ≤ (2 : Byte).toNat ∧ 64 ≤ (64 : Byte).toNat ∧ 4096 ≤ (16 : Byte).toNat * 256 + (0 : Byte).toNat :=
  ⟨⟨rfl, rfl, rfl, by decide⟩, rfl, by decide, by decide, by decide, by decide, by decide, rfl, by decide, by decide,
    by decide, by decide, by decide⟩

/-- Data one octet short and one too long for a run of reefers, a scope's argument and the load requests. -/
theorem test_witness_DataOfAnotherLengthIsRefused :
    reeferRun [0, 0] = none ∧ reeferRun [0, 0, 1, 0] = none ∧ countersArg [0] = none ∧ countersArg [0, 0, 0] = none
      ∧ countersArg [1, 0] = none ∧ countersArg [4, 0, 0, 0] = none ∧ loadBeginArg [0, 1, 0, 0, 0] = none
      ∧ loadBeginArg [0, 1, 0, 0, 0, 1, 0] = none ∧ requestKind 5 = some .loadSegment ∧ requestKind 6 = some .loadEnd := by
  decide

theorem test_witness_IdentifyAndReadParamsAnswer :
    HeadIs (withRequest 1 [] up) .identify (request 1 []) [] ∧ HeadIs (withRequest 2 [] up) .readParams (request 2 []) [] :=
  ⟨headIs 1 [] up rfl rfl, headIs 2 [] up rfl rfl⟩

/-- Reads of the last crane, cell, chain and group, and of runs that end at the last reefer and one past it. -/
theorem test_witness_ReadsReportTheRecords :
    HeadIs (withRequest 7 [11] up) .readCrane (request 7 [11]) [] ∧ HeadIs (withRequest 8 [15] up) .readCell (request 8 [15]) []
      ∧ HeadIs (withRequest 9 [1] up) .readChain (request 9 [1]) []
      ∧ HeadIs (withRequest 11 [63] up) .readGroup (request 11 [63]) []
      ∧ HeadIs (withRequest 10 [15, 255, 1] up) .readReefer (request 10 [15, 255, 1]) []
      ∧ reeferRun [15, 255, 1] = some (4095, 1) ∧ reeferRun [15, 255, 2] = none ∧ reeferRun [0, 0, 0] = none
      ∧ reeferRun [0, 0, 16] = some (0, 16) ∧ reeferRun [0, 0, 17] = none :=
  ⟨headIs 7 _ up rfl rfl, headIs 8 _ up rfl rfl, headIs 9 _ up rfl rfl, headIs 11 _ up rfl rfl, headIs 10 _ up rfl rfl,
    by decide, by decide, by decide, by decide, by decide⟩

theorem test_witness_ReadsOfPoolAndDrainReport :
    HeadIs (withRequest 12 [] up) .readBatches (request 12 []) [] ∧ HeadIs (withRequest 13 [] up) .readDrain (request 13 []) [] :=
  ⟨headIs 12 [] up rfl rfl, headIs 13 [] up rfl rfl⟩

/-- A time remaining counts a started ms as whole, a time gone by does not. -/
theorem test_witness_TimesAreReadInMilliseconds :
    [none, some 0, some 1, some 4, some 5].map msRemaining = [none, some 0, some 1, some 1, some 2]
      ∧ [0, 3, 4, 7, 8].map msGone = [0, 0, 1, 1, 2] := by
  decide

/-- The scopes at the edges of their arguments, and a flag that is none. -/
theorem test_witness_ReadCountersReportsAndClears :
    HeadIs (withRequest 14 [0, 1] up) .readCounters (request 14 [0, 1]) []
      ∧ countersArg [1, 1, 0] = some (.chain .S, false) ∧ countersArg [1, 2, 0] = none
      ∧ countersArg [3, 11, 1] = some (.crane 11, true) ∧ countersArg [3, 12, 1] = none
      ∧ countersArg [4, 15, 255, 1, 1] = some (.reefer 4095 1, true) ∧ countersArg [4, 15, 255, 2, 1] = none
      ∧ countersArg [7, 0] = some (.management, false) ∧ countersArg [8, 0] = none ∧ countersArg [7, 2] = none
      ∧ countersArg [] = none :=
  ⟨headIs 14 _ up rfl rfl, by decide, by decide, by decide, by decide, by decide, by decide, by decide, by decide, by decide,
    by decide⟩

/-- A break limit of 15 is taken and one of 16 is at fault; a fade level that would reach the recover level is at fault. -/
theorem test_witness_SetParamsTakesTheWholeListOrNone :
    HeadIs (withRequest 3 [1, 8, 1, 15] up) .setParams (request 3 [1, 8, 1, 15]) []
      ∧ judgeParams up.params [1, 8, 1, 15] = .accepted { up.params with breakLimit := 15 }
      ∧ judgeParams up.params [1, 8, 1, 16] = .atFault (some 0) ∧ judgeParams up.params [1, 10, 1, 6] = .atFault (some 0)
      ∧ judgeParams up.params [0] = .atFault none ∧ judgeParams up.params [20, 8, 1, 15] = .atFault none
      ∧ judgeParams up.params [1, 8, 2, 15] = .atFault none ∧ judgeParams up.params [1, 8, 1, 15, 0] = .atFault none
      ∧ judgeParams up.params [2, 10, 1, 6, 8, 1, 16] = .atFault (some 1) :=
  ⟨headIs 3 _ up rfl rfl, by decide, by decide, by decide, by decide, by decide, by decide, by decide,
    by decide⟩

/-- An urgent seal time of 50 ms finds the open batch at its age of 50 ms, and not a quarter millisecond before. -/
theorem test_witness_NewSealTimeSealsAnOldBatch :
    (let after := fun age => match exec .setParams
         (withRequest 3 [1, 12, 2, 0, 50] (withBatch { openUrgent with age := age } drained)) with
       | .next t => (t.batch 0).state
       | _ => .free
     after 200 = .sealed ∧ after 199 = .openUrgent)
      ∧ PoolSound (withBatch { openUrgent with age := 200 } drained) := by
  refine ⟨by decide +kernel, withBatch_sound rfl ?_⟩
  simp [BatchSound, openUrgent]

/-- A LOAD-BEGIN of 64 segments and 65,536 octets, one octet more, no octet, and table 5. -/
theorem test_witness_LoadBeginOpensATransaction :
    HeadIs (withRequest 4 [4, 64, 0, 1, 0, 0] up) .loadBegin (request 4 [4, 64, 0, 1, 0, 0]) []
      ∧ valueOf [0, 1, 0, 0] = 65536 ∧ 65536 < valueOf [0, 1, 0, 1] ∧ (tableOf 4).isSome ∧ tableOf 5 = none
      ∧ 1024 * (1 : Byte).toNat < valueOf [0, 0, 4, 1] :=
  ⟨headIs 4 _ up rfl rfl, by decide, by decide, by decide, by decide, by decide⟩

/-- An open load of one segment and four octets. -/
def loading (staging : List Byte) (next : Nat) : State :=
  up.modMgmt fun m =>
    { m with
      load := some { table := .cells, segments := 1, total := 4, next := next, crc := crcOver 0xFFFF#16 staging }
      staging := staging, timer := some 8000 }

theorem test_witness_LoadSegmentIsAppendedInOrder :
    HeadIs (withRequest 5 [0, 5, 1, 8, 5] (loading [] 0)) .loadSegment (request 5 [0, 5, 1, 8, 5]) []
      ∧ (loading [] 0).mgmt.load.isSome ∧ ¬4 < (loading [] 0).mgmt.staging.length + [5, 1, 8, 5].length
      ∧ 4 < (loading [] 0).mgmt.staging.length + [5, 1, 8, 5, 0].length ∧ (loading [] 0).held = false
      ∧ up.mgmt.load = none ∧ (1 : Byte).toNat ≠ 0 :=
  ⟨headIs 5 _ _ rfl rfl, by decide, by decide, by decide, rfl, rfl, by decide⟩

/-- A whole load of one cell entry passes its owner's validation; one with position 8 is refused at entry 0. -/
theorem test_witness_LoadEndRefusesOrApplies :
    HeadIs (withRequest 6 [0, 0] (loading [5, 1, 8, 5] 1)) .loadEnd (request 6 [0, 0]) []
      ∧ loadFault .cells [5, 1, 8, 5] up = none
      ∧ loadFault .cells [5, 1, 8, 8] up = some { status := .range, position := some 0 }
      ∧ loadFault .cells [5, 1, 8, 4] up = some { status := .range, position := none } :=
  ⟨headIs 6 _ _ rfl rfl, by decide +kernel, by decide +kernel, by decide +kernel⟩

/-- A load that takes an UP cell out sets its change flag and hands on one usability event; one that redefines it does
neither. -/
theorem test_witness_CellsLoadIsOneEventPerCell :
    (let seen := fun (content : List Byte) =>
       let t := applyLoad .cells content (running up)
       ((t.cell 5).unit, (t.cell 5).changed, t.events)
     loadFault .cells [5, 0, 0, 5] (running up) = none
       ∧ seen [5, 0, 0, 5] = (.absent, true, [.usability 5]) ∧ seen [5, 1, 9, 5] = (.up, false, [])) := by
  decide +kernel

/-- The first shadow claim on a usable cell sets its change flag and hands on one event; the second hands on one alone, since
usability changes for the first crane only, and so does its end; the end of the first does both again. -/
theorem test_witness_ShadowClaimsAreEvents :
    (let seen := fun (s : State) => ((s.cell 5).shadowCount, (s.cell 5).changed, s.events.length)
     let one := shadowAdd 3 5 (running (withCrane linked))
     let two := shadowAdd 4 5 one
     let back := fun (s : State) => s.modCell 5 fun r => { r with changed := false }
     seen one = (1, true, 1) ∧ seen (back two) = (2, false, 2)
       ∧ seen (shadowRemove 4 5 (back two)) = (1, false, 3) ∧ seen (shadowRemove 3 5 (back one)) = (0, true, 2)) := by
  decide +kernel

/-- An entry of crane 3: the action, the station, the radio address, the slots reserved; the rest at its defaults. -/
def craneOctets (action radio reservation : Byte) : List Byte :=
  [3, action, 0, 2, 0, 0, 0, 0, 0xA, 2, 0, 0, 0, 0, radio, reservation, 0, 0, 0, 0]

/-- A crane is added, refused for its slots and for an address in use; a live crane is refused its removal. -/
theorem test_witness_CraneLoadsAreJudged :
    loadFault .cranes (craneOctets 0 0xB 2) up = none
      ∧ loadFault .cranes (craneOctets 0 0xB 9) up = some { status := .range, position := some 0 }
      ∧ loadFault .cranes (craneOctets 0 0xB 2 ++ craneOctets 0 0xB 2) up = some { status := .range, position := some 1 }
      ∧ loadFault .cranes (craneOctets 1 0xB 2) (withCrane linked) = some { status := .inUse, position := some 0 }
      ∧ loadFault .cranes (craneOctets 1 0xB 2) (withCrane idle) = none := by
  decide +kernel

/-- The directory and the record after an addition that evicts a general unit, a move and a removal. -/
theorem test_witness_CraneLoadsMoveTheDirectory :
    (let unit : Addr := 0x02000000000B#48
     let s := dirSet unit (.general 0) (up.setGeneral [(0, { unit := unit, cell := 5, age := 0 })])
     let v := applyLoad .cranes (craneOctets 0 0xB 2) s
     dirFind v unit = some (.crane 3) ∧ v.cov.general = [] ∧ v.cov.counters.evicted = 1 ∧ (v.crane 3).state = .idle)
      ∧ dirFind (applyLoad .cranes (craneOctets 0 0xC 2) (withCrane idle)) 0x02000000000B#48 = none
      ∧ dirFind (applyLoad .cranes (craneOctets 0 0xC 2) (withCrane idle)) 0x02000000000C#48 = some (.crane 3)
      ∧ (applyLoad .cranes (craneOctets 1 0xB 2) (withCrane idle)).cov.directory = [] := by
  decide +kernel

/-- An entry of reefer 9 in group 0: the action and the last octet of the unit address. -/
def reeferOctets (action unit : Byte) : List Byte := [0, 9, action, 0, 0, 0, 0, 0, 0, unit]

/-- A reefer is added, replaced under the same address, readdressed and removed; a replacement of a VACANT one is at fault. -/
theorem test_witness_ReeferLoadsAreJudged :
    loadFault .reefers (reeferOctets 0 7) (withReefer {}) = none
      ∧ loadFault .reefers (reeferOctets 1 7) (withReefer {}) = some { status := .range, position := some 0 }
      ∧ ((applyLoad .reefers (reeferOctets 1 7) (withReefer reporting)).reefer 9) = reporting
      ∧ ((applyLoad .reefers (reeferOctets 1 8) (withReefer reporting)).reefer 9).state = .expected
      ∧ dirFind (applyLoad .reefers (reeferOctets 1 8) (withReefer reporting)) 8 = some (.reefer 9)
      ∧ (applyLoad .reefers (reeferOctets 2 7) (withReefer reporting)).ree.reefers = [] := by
  decide +kernel

/-- A map of 64 empty bands passes, and one entry fewer is at fault in no single entry. -/
theorem test_witness_CoverageLoadsAreJudged :
    loadFault .coverage (List.replicate 640 0) up = none
      ∧ loadFault .coverage (List.replicate 630 0) up = some { status := .range, position := none }
      ∧ loadFault .coverage ([1, 16] ++ List.replicate 638 0) up = some { status := .range, position := some 0 } := by
  decide +kernel

theorem test_witness_ClearExcursionAndClearGroup :
    HeadIs (withRequest 15 [0, 9] (withReefer reporting)) .clearExcursion (request 15 [0, 9]) []
      ∧ HeadIs (withRequest 16 [0] (withReefer reporting)) .clearGroup (request 16 [0]) []
      ∧ TablesSound (withRequest 16 [0] (withReefer reporting)) ∧ ((withReefer reporting).group 0).defn ≠ none
      ∧ ((withReefer reporting).group 1).defn = none ∧ ((withReefer reporting).reefer 9).state ≠ .vacant
      ∧ ((withReefer reporting).reefer 10).state = .vacant :=
  ⟨headIs 15 _ _ rfl rfl, headIs 16 _ _ rfl rfl,
    ⟨withReefer_tables.directory, withReefer_tables.general, withReefer_tables.generalIndex, withReefer_tables.reefers,
      withReefer_tables.reeferIndex, withReefer_tables.reeferListed⟩,
    by decide, by decide, by decide, by decide⟩

theorem test_witness_ReleaseReturnsTheCraneToIdle :
    HeadIs (withRequest 17 [3] (withCrane handed)) .releaseCrane (request 17 [3]) []
      ∧ EventsSettled (withRequest 17 [3] (withCrane handed)) ∧ ((withCrane handed).crane 3).state = .handover
      ∧ ((withCrane idle).crane 3).state = .idle :=
  ⟨headIs 17 _ _ rfl rfl, rfl, by decide, by decide⟩

theorem test_witness_BarAndUnbarSetTheFlag :
    HeadIs (withRequest 18 [15] up) .barCell (request 18 [15]) [] ∧ HeadIs (withRequest 19 [0] up) .unbarCell (request 19 [0]) []
      ∧ EventsSettled (withRequest 18 [15] up) :=
  ⟨headIs 18 _ up rfl rfl, headIs 19 _ up rfl rfl, rfl⟩

/-- The bar of a usable cell sets its change flag, and the answer goes out; a second bar changes nothing more. -/
theorem test_witness_BarIsOneEvent :
    (match exec .barCell (withRequest 18 [5] (running up)) with
     | .next t => some ((t.cell 5).barred, (t.cell 5).changed, (t.cell 5).unit, t.events, t.port.tx.isSome)
     | _ => none) = some (true, true, .up, [], true) := by
  decide +kernel

theorem test_witness_ChainEnableAndDisable :
    HeadIs (withRequest 20 [0] up) .chainEnable (request 20 [0]) [] ∧ (up.chain .N).state = .disabled
      ∧ HeadIs (withRequest 21 [0] (running up)) .chainDisable (request 21 [0]) [] ∧ ((running up).chain .N).state = .running :=
  ⟨headIs 20 _ up rfl rfl, rfl, headIs 21 _ _ rfl rfl, rfl⟩

theorem test_witness_RestartsReturnTheTraffic :
    HeadIs (withRequest 22 [] (busy 0 [] [] [] [])) .restartTraffic (request 22 []) []
      ∧ HeadIs (withRequest 23 [] (busy 0 [] [] [] [])) .restartAll (request 23 []) []
      ∧ PortSound (withRequest 22 [] (busy 0 [] [] [] [])).port ∧ (busy 0 [] [] [] []).port.tx ≠ none := by
  refine ⟨headIs 22 _ _ rfl rfl, headIs 23 _ _ rfl rfl, ?_, by decide⟩
  constructor <;> simp [withRequest, busy, State.modMgmt, Config.craneUpCapacity]

/-- The response of a restart is on the line when the transmitter was IDLE, and the mark is set for a burst frame alone. -/
theorem test_witness_RestartResponseAndMark :
    (let after := fun p : Port => match exec .restartTraffic (withRequest 22 [] { up with port := p }) with
       | .next t => (t.port.tx.map Prod.fst, t.port.controlQ.length, t.drain.disregard)
       | _ => (none, 9, false)
     after { link := .up } = (some .control, 0, false)
       ∧ after { link := .up, tx := some (.drain, frame) } = (some .drain, 1, true)
       ∧ after { link := .up, tx := some (.generalUp, frame), controlQ := List.replicate 32 frame } = (some .generalUp, 0, false)
       ∧ after {} = (none, 0, false)) := by
  decide +kernel

/-- RESTART-TRAFFIC returns a REPORTING reefer to EXPECTED and removes the GENERAL entries of the directory. -/
theorem test_witness_RestartKeepsTheDefinitions :
    ((restartTraffic true (withReefer reporting)).reefer 9) = { defn := some reeferDef, state := .expected, countdown := 3 }
      ∧ dirFind (restartTraffic true (withReefer reporting)) 7 = some (.reefer 9)
      ∧ dirFind (restartTraffic true (withGeneral up)) 7 = none := by
  decide

/-! ### Octets of what the part sends -/

theorem test_wire_blocks_end_on_a_slot (block : List Byte) : (inSlots block).length % 128 = 0 := by
  have octets : Config.slotOctets = 128 := rfl
  simp only [inSlots, List.length_append, List.length_map, List.length_range, octets]
  omega

theorem test_wire_termination_causes :
    terminationCauseField (some .stop) = [0] ∧ terminationCauseField (some .protocol) = [3] := by
  decide

theorem test_wire_load_response :
    (ResponseData.load (some { table := .reefers, segments := 3, total := 2500, next := 1, crc := 0x29B1#16 })
      1024).octets = [3, 3, 0, 0, 9, 0xC4, 1, 0, 0, 4, 0, 0x29, 0xB1] := by decide

theorem test_wire_response_frame :
    (TxContent.response 7 15 .ok true false (.flagBefore true)).wire.octets
      = [1, 0x21, 0, 0, 0, 0, 0, 5, 0, 7, 0, 15, 0, 1, 1] := by decide

theorem test_wire_hold_block :
    (DownBlock.hold 9 0x02005E107731#48 { craneSilent := false, stationSilent := true } 1400).octets
      = [9, 0x10, 0, 11, 2, 0, 0x5E, 0x10, 0x77, 0x31, 2, 0, 0, 5, 0x78] := by decide

end Tests
end Sys2Proof
end

