-- ==== Sys2Proof/Proofs/ChainFrames.lean ====
section
/-! SUPPORT. Which operations leave both chain records as they stood, and the shapes in which a request, an event and a fold
keep a law of the state. -/

namespace Sys2Proof
namespace Machine

/-! ### Chains and cells by number -/

theorem mem_cellsOf {x : CellId} {c : Chain} : x ∈ cellsOf c ↔ chainOf x = c := by
  revert x c
  rintro x (_ | _) <;> revert x <;> decide

/-- There are two chains: what holds of one and of every other holds of both. -/
theorem Chain.forall_iff {P : Chain → Prop} : (∀ c, P c) ↔ P .N ∧ P .S :=
  ⟨fun h => ⟨h _, h _⟩, fun h c => by cases c; exacts [h.1, h.2]⟩

/-! ### What keeps both chain records -/

/-- Both chain records stand. -/
def ChainsKept (s t : State) : Prop := t.chainN = s.chainN ∧ t.chainS = s.chainS

namespace ChainsKept

theorem refl (s : State) : ChainsKept s s := ⟨rfl, rfl⟩

theorem trans {s t u : State} (h : ChainsKept s t) (g : ChainsKept t u) : ChainsKept s u :=
  ⟨g.1.trans h.1, g.2.trans h.2⟩

theorem chain {s t : State} (h : ChainsKept s t) (c : Chain) : t.chain c = s.chain c := by
  cases c
  exacts [h.1, h.2]

theorem foldl {α : Type} {f : State → α → State} (h : ∀ s a, ChainsKept s (f s a)) (l : List α) (s : State) :
    ChainsKept s (l.foldl f s) := by
  induction l generalizing s with
  | nil => exact .refl s
  | cons a l ih => exact (h s a).trans (ih _)

end ChainsKept

theorem PortOnly.chains {s t : State} (h : PortOnly s t) : ChainsKept s t := by
  obtain ⟨_, rfl⟩ := h
  exact ⟨rfl, rfl⟩

theorem LinkOnly.chains {s t : State} (h : LinkOnly s t) : ChainsKept s t := by
  obtain ⟨_, _, _, _, rfl⟩ := h
  exact ⟨rfl, rfl⟩

theorem PoolOnly.chains {s t : State} (h : PoolOnly s t) : ChainsKept s t := by
  obtain ⟨_, _, _, _, rfl⟩ := h
  exact ⟨rfl, rfl⟩

theorem LinkOnly.chain {s t : State} (h : LinkOnly s t) (c : Chain) : t.chain c = s.chain c := h.chains.chain c

/-! ### Requests and events that keep a law -/

/-- An event keeps a law of the state that its effect keeps. -/
theorem take_keeps {P : State → Prop} {s t : State} {f : State → State} (hf : P s → P (f s)) (h : P s)
    (hs : s.take f = .next t) : P t := by
  simp only [State.take, Host.Outcome.next.injEq] at hs
  subst hs
  split
  · exact h
  · exact hf h

/-- A reply leaves a law standing: the state that the request leaves meets it, and what follows the response keeps it. -/
def Reply.Keeps (P : State → Prop) (r : Reply) : Prop := P r.st ∧ ∀ b t, P t → P (r.after b t)

section Replies

variable {P : State → Prop}

theorem answer_keeps (st : Status) {s : State} (h : P s) : (answer st s).Keeps P := ⟨h, fun _ _ h => h⟩

theorem answerData_keeps (d : ResponseData) {s : State} (h : P s) : (answerData d s).Keeps P := ⟨h, fun _ _ h => h⟩

theorem answerLoad_keeps (st : Status) {s : State} (h : P s) : (answerLoad st s).Keeps P := ⟨h, fun _ _ h => h⟩

theorem withoutData_keeps {f : State → Reply} {s : State} (h : P s) (hf : (f s).Keeps P) (q : Request) :
    (withoutData f q s).Keeps P := by
  unfold withoutData
  split
  · exact hf
  · exact answer_keeps _ h

theorem withArg_keeps {α : Type} {f : α → State → Reply} {s : State} (h : P s) (hf : ∀ a, (f a s).Keeps P)
    (parse : List Byte → Option α) (q : Request) : (withArg parse f q s).Keeps P := by
  unfold withArg
  split
  · exact answer_keeps _ h
  · exact hf _

/-- The execution of a request keeps a law that its reply keeps, when the law speaks neither of the port nor of the
Management Unit. -/
theorem executeHead_keeps (quiet : ∀ s p m, P s → P { s with port := p, mgmt := m }) {body : Request → State → Reply}
    (hbody : ∀ q s, P s → (body q s).Keeps P) (interleaves : Bool) (q : Request) (rest : List Request) {s : State}
    (h : P s) : P (executeHead interleaves q rest body s) := by
  cases interleaves with
  | true =>
    obtain ⟨taken, he⟩ := executeHead_interleaves q rest body s
    rw [he]
    obtain ⟨hst, hafter⟩ := hbody q (s.taking q rest) (quiet _ _ _ h)
    exact hafter _ _ (quiet _ _ _ hst)
  | false =>
    obtain ⟨taken, he⟩ := executeHead_continues q rest body s
    rw [he]
    obtain ⟨hst, hafter⟩ := hbody q (s.takingLoad q rest) (quiet _ _ _ h)
    exact hafter _ _ (quiet _ _ _ hst)

theorem serve_keeps (quiet : ∀ s p m, P s → P { s with port := p, mgmt := m }) {body : Request → State → Reply}
    (hbody : ∀ q s, P s → (body q s).Keeps P) (k : RequestKind) {s : State} (h : P s) : P (serve k body s) := by
  unfold serve
  split
  · exact h
  · split
    · exact executeHead_keeps quiet hbody _ _ _ h
    · exact h

theorem takeUnknown_keeps (quiet : ∀ s p m, P s → P { s with port := p, mgmt := m }) {s : State} (h : P s) :
    P (takeUnknown s) := by
  unfold takeUnknown
  split
  · exact h
  · split
    · exact executeHead_keeps quiet (fun _ _ h => answer_keeps _ h) _ _ _ h
    · exact h

end Replies

/-! ### Time, frames and the units of the part that no chain belongs to -/

theorem receive_chains (h : RxHeader) (ok : Bool) {f : State → State} (hf : ∀ s, ChainsKept s (f s)) (s : State) :
    ChainsKept s (State.receive h ok f s) := by
  unfold State.receive
  split
  · exact .refl s
  · split
    · exact ⟨rfl, rfl⟩
    · split
      · exact ⟨rfl, rfl⟩
      · split
        · exact ⟨rfl, rfl⟩
        · exact ChainsKept.trans ⟨rfl, rfl⟩ (hf _)

theorem discardFrame_chains (h : RxHeader) (octets : List Byte) (s : State) :
    ChainsKept s (State.discardFrame h octets s) := by
  unfold State.discardFrame
  split
  · exact .refl s
  · split <;> exact ⟨rfl, rfl⟩

theorem linkComesUp_chains (s : State) : ChainsKept s s.linkComesUp := by
  unfold State.linkComesUp
  split <;> exact ⟨rfl, rfl⟩

theorem abandonLoad_chains (cause : AbandonCause) (s : State) : ChainsKept s (abandonLoad cause s) := by
  unfold abandonLoad
  split <;> exact ⟨rfl, rfl⟩

theorem abandonUnreported_chains (cause : AbandonCause) (s : State) : ChainsKept s (abandonUnreported cause s) := by
  unfold abandonUnreported
  split
  · exact (abandonLoad_chains cause s).trans ⟨rfl, rfl⟩
  · exact .refl s

theorem linkLost_chains (s : State) : ChainsKept s (linkLost s) := by
  unfold linkLost
  split
  · have lost : ChainsKept s (drainLinkLoss (s.modPort Port.loseLink)) := (drainLinkLoss_poolOnly _).chains
    exact (lost.trans (abandonUnreported_chains .linkLoss _)).trans ⟨rfl, rfl⟩
  · exact .refl s

theorem frameSent_chains (s : State) : ChainsKept s (frameSent s) := by
  unfold frameSent
  split
  · exact .refl s
  · dsimp only
    split
    · exact (((modPort_portOnly _ s).pool.trans (drainReport_poolOnly _)).trans (modPort_portOnly _ _).pool).chains
    · exact ⟨rfl, rfl⟩

theorem offerResponse_chains (q : Request) (st : Status) (a b : Bool) (d : ResponseData) (s : State) :
    ChainsKept s (offerResponse q st a b d s).1 := by
  unfold offerResponse
  dsimp only
  split <;> exact ⟨rfl, rfl⟩

theorem fromManager_chains (q : Request) (s : State) : ChainsKept s (fromManager q s) := by
  unfold fromManager
  split
  · unfold takeRequest
    split
    · exact ⟨rfl, rfl⟩
    · exact ChainsKept.trans ⟨rfl, rfl⟩ (offerResponse_chains _ _ _ _ _ _)
  · exact ⟨rfl, rfl⟩

theorem stationFrame_chains (src : Addr) (subject : Byte) {f : CraneId → State → State}
    (hf : ∀ k s, ChainsKept s (f k s)) (s : State) : ChainsKept s (stationFrame src subject f s) := by
  unfold stationFrame
  dsimp only
  split
  · split
    · exact ⟨rfl, rfl⟩
    · split
      · exact ChainsKept.trans ⟨rfl, rfl⟩ (hf _ _)
      · exact ⟨rfl, rfl⟩
  · exact ⟨rfl, rfl⟩

theorem takeCraneDown_chains (payload : List Byte) (k : CraneId) (s : State) :
    ChainsKept s (takeCraneDown payload k s) := by
  unfold takeCraneDown
  split
  · exact ⟨rfl, rfl⟩
  · split
    · split <;> exact ⟨rfl, rfl⟩
    · split <;> exact ⟨rfl, rfl⟩
    all_goals exact ⟨rfl, rfl⟩

theorem refuseResume_chains (k : CraneId) (cause : ResumeRefusal) (s : State) :
    ChainsKept s (refuseResume k cause s) :=
  (noticeCrane_portOnly _ _ _).chains.trans ⟨rfl, rfl⟩

theorem resume_chains (k : CraneId) (s : State) : ChainsKept s (resume k s) := by
  unfold resume
  exact (((modCrane_linkOnly _ _ _).trans (noticeCrane_portOnly _ _ _).link).trans
    ((countCrane_linkOnly _ _ _).trans (evaluate_linkOnly _ _ _))).chains

theorem takeResume_chains (k : CraneId) (s : State) : ChainsKept s (takeResume k s) := by
  unfold takeResume
  dsimp only
  split
  · split
    · exact (resume_chains k s).trans (settle_linkOnly _).chains
    · exact refuseResume_chains _ _ _
  all_goals exact refuseResume_chains _ _ _

/-! ### The Drain Engine's frames and timers -/

theorem ignoreFrame_poolOnly (s : State) : PoolOnly s (ignoreFrame s) := ⟨_, _, _, _, rfl⟩

theorem judgeGood_poolOnly (w : Burst) (s : State) : PoolOnly s (judgeGood w s) :=
  (modDrain_poolOnly _ _).trans (batchGood_poolOnly _ _)

theorem afterJudgement_poolOnly (s : State) : PoolOnly s (afterJudgement s) := by
  unfold afterJudgement
  split
  · exact (startTest_poolOnly _).trans (endTest_poolOnly _)
  · exact endTest_poolOnly _
  · split
    · exact closeDrain_poolOnly _ _
    · exact .refl s
  · exact .refl s

theorem takeCheck_poolOnly (index : Nat) (crc : U16) (s : State) : PoolOnly s (takeCheck index crc s) := by
  unfold takeCheck
  split
  · refine PoolOnly.trans ?_ (afterJudgement_poolOnly _)
    split
    · exact judgeGood_poolOnly _ _
    · exact failBurst_poolOnly _ _
  · exact modDrain_poolOnly _ _
  · exact terminate_poolOnly _ _

theorem checkExpiry_poolOnly (index : Nat) (s : State) : PoolOnly s (checkExpiry index s) := by
  unfold checkExpiry
  split
  · exact .refl s
  · split
    · exact terminate_poolOnly _ _
    · exact terminate_poolOnly _ _
    · exact (failBurst_poolOnly _ _).trans (afterJudgement_poolOnly _)
    · exact .refl s

theorem fromCollector_poolOnly (src : Addr) {f : State → State} (hf : ∀ s, PoolOnly s (f s)) (s : State) :
    PoolOnly s (fromCollector src f s) := by
  unfold fromCollector
  split
  · exact hf s
  · exact modDrain_poolOnly _ _

theorem ofOpenDrain_poolOnly (tag : U16) {f : State → State} (hf : ∀ s, PoolOnly s (f s)) (s : State) :
    PoolOnly s (ofOpenDrain tag f s) := by
  unfold ofOpenDrain
  split
  · exact modDrain_poolOnly _ _
  · split
    · exact hf s
    · exact modDrain_poolOnly _ _

theorem takeOpen_poolOnly (tag : U16) (credit : Byte) (s : State) : PoolOnly s (takeOpen tag credit s) := by
  unfold takeOpen
  split
  · unfold openDrain
    split
    · exact (sendDrainEnd_poolOnly _ _).trans (modDrain_poolOnly _ _)
    · dsimp only
      refine (sealOpen_poolOnly .urgent .drainOpen s).trans ?_
      split
      · exact ((modDrain_poolOnly _ _).trans (modDrain_poolOnly _ _)).trans (sendDrainEnd_poolOnly _ _)
      · exact (modDrain_poolOnly _ _).trans (startTest_poolOnly _)
  · exact (sendDrainEnd_poolOnly _ _).trans (modDrain_poolOnly _ _)

theorem takePause_poolOnly (s : State) : PoolOnly s (takePause s) := by
  unfold takePause
  split
  · exact modDrain_poolOnly _ _
  all_goals exact ignoreFrame_poolOnly s

theorem takeDrainResume_poolOnly (s : State) : PoolOnly s (takeDrainResume s) := by
  unfold takeDrainResume
  split
  · refine (modDrain_poolOnly (fun d => { d with state := .sending, pause := none }) s).trans ?_
    dsimp only
    split
    · split
      · exact .refl _
      · exact buildFrame_poolOnly _ _
    · exact startTest_poolOnly _
  all_goals exact ignoreFrame_poolOnly s

theorem closeIfEmpty_poolOnly (s : State) : PoolOnly s (if s.drain.window.isEmpty then closeDrain .stop s else s) := by
  split
  · exact closeDrain_poolOnly _ _
  · exact .refl s

theorem takeStop_poolOnly (s : State) : PoolOnly s (takeStop s) := by
  unfold takeStop
  split
  · exact ((modDrain_poolOnly _ _).trans (withdrawHalfSent_poolOnly _)).trans (closeIfEmpty_poolOnly _)
  · exact ((modDrain_poolOnly _ _).trans (withdrawHalfSent_poolOnly _)).trans (closeIfEmpty_poolOnly _)
  all_goals exact ignoreFrame_poolOnly s

theorem pauseExpiry_poolOnly (s : State) : PoolOnly s (pauseExpiry s) := by
  unfold pauseExpiry
  split
  · exact terminate_poolOnly _ _
  all_goals exact .refl s

/-! ### The unit directory, the general units and the loads -/

theorem dirForget_chains (a : Addr) (t : DirTarget) (s : State) : ChainsKept s (dirForget a t s) := by
  unfold dirForget
  split <;> exact ⟨rfl, rfl⟩

theorem removeGeneral_chains (j : GeneralId) (s : State) : ChainsKept s (removeGeneral j s) := by
  unfold removeGeneral
  split <;> exact ⟨rfl, rfl⟩

theorem dirDefine_chains (a : Addr) (t : DirTarget) (s : State) : ChainsKept s (dirDefine a t s) := by
  unfold dirDefine
  split
  · exact (removeGeneral_chains _ s).trans ⟨rfl, rfl⟩
  all_goals exact ⟨rfl, rfl⟩

theorem moveEntry_chains (old : Option Addr) (new : Addr) (t : DirTarget) (s : State) :
    ChainsKept s (moveEntry old new t s) := by
  unfold moveEntry
  split
  · exact dirDefine_chains _ _ _
  · split
    · exact .refl s
    · exact (dirForget_chains _ _ _).trans (dirDefine_chains _ _ _)

theorem ageOutIfDue_chains (j : GeneralId) (s : State) : ChainsKept s (ageOutIfDue j s) := by
  unfold ageOutIfDue
  split
  · exact .refl s
  · split
    · exact (removeGeneral_chains _ _).trans ⟨rfl, rfl⟩
    · exact .refl s

theorem tickGeneral_chains (s : State) (j : GeneralId) : ChainsKept s (tickGeneral s j) := by
  unfold tickGeneral
  split
  · exact .refl s
  · exact ChainsKept.trans ⟨rfl, rfl⟩ (ageOutIfDue_chains _ _)

theorem tickReefer_poolOnly (s : State) (i : ReeferId) : PoolOnly s (tickReefer s i) := by
  unfold tickReefer
  split
  · exact (modReefer_poolOnly _ _ _).trans (missIfDue_poolOnly _ _)
  all_goals exact .refl s

theorem reportTick_chains (s : State) : ChainsKept s (reportTick s) :=
  (PoolOnly.foldl tickReefer_poolOnly _ s).chains.trans (ChainsKept.foldl tickGeneral_chains _ _)

theorem takeGeneralUp_chains (x : CellId) (unit : Addr) (payload : List Byte) (s : State) :
    ChainsKept s (takeGeneralUp x unit payload s) := by
  have learn : ChainsKept s (learnGeneral x unit s) := by
    unfold learnGeneral
    dsimp only
    split
    · split <;> exact ⟨rfl, rfl⟩
    · exact ⟨rfl, rfl⟩
  have hear : ChainsKept s (hearGeneral x unit s) := by
    unfold hearGeneral
    split
    · exact ⟨rfl, rfl⟩
    · exact learn
    all_goals exact ⟨rfl, rfl⟩
  unfold takeGeneralUp
  split
  · exact ⟨rfl, rfl⟩
  · exact hear.trans ⟨rfl, rfl⟩

theorem applyCrane_chains (s : State) (e : CraneEntry) : ChainsKept s (applyCrane s e) := by
  unfold applyCrane
  split
  · exact .refl s
  · dsimp only
    split
    · exact ChainsKept.trans ⟨rfl, rfl⟩ (moveEntry_chains _ _ _ _)
    · split
      · exact ChainsKept.trans ⟨rfl, rfl⟩ (dirForget_chains _ _ _)
      all_goals exact ⟨rfl, rfl⟩

theorem applyCell_linkOnly (s : State) (e : CellEntry) : LinkOnly s (applyCell s e) := by
  unfold applyCell
  split
  · exact coverageEvent_linkOnly (fun _ => modCell_linkOnly _ _ _) _ _
  · exact .refl s

theorem leaveGroup_poolOnly (d : Option ReeferDef) (s : State) : PoolOnly s (leaveGroup d s) := by
  unfold leaveGroup
  split
  · exact .refl s
  · exact modGroup_poolOnly _ _ _

theorem addReefer_chains (i : ReeferId) (g : GroupId) (unit : Addr) (s : State) :
    ChainsKept s (addReefer i g unit s) := by
  have joined : PoolOnly s (joinGroup g (leaveGroup (s.reefer i).defn (removeLive i s))) :=
    ((removeLive_poolOnly _ _).trans (leaveGroup_poolOnly _ _)).trans (modGroup_poolOnly _ _ _)
  exact (joined.trans (setReefer_poolOnly _ _ _)).chains.trans (moveEntry_chains _ _ _ _)

theorem regroupReefer_poolOnly (i : ReeferId) (g : GroupId) (unit : Addr) (s : State) :
    PoolOnly s (regroupReefer i g unit s) := by
  have moved : PoolOnly s
      (if (s.reefer i).defn.map ReeferDef.group = some g then s else joinGroup g (leaveGroup (s.reefer i).defn s)) := by
    split
    · exact .refl s
    · exact (leaveGroup_poolOnly _ _).trans (modGroup_poolOnly _ _ _)
  unfold regroupReefer
  dsimp only
  split
  · exact (moved.trans (modReefer_poolOnly _ _ _)).trans (modGroup_poolOnly _ _ _)
  · exact moved.trans (modReefer_poolOnly _ _ _)

theorem dropReefer_chains (i : ReeferId) (s : State) : ChainsKept s (dropReefer i s) := by
  unfold dropReefer
  split
  · exact .refl s
  · exact (((removeLive_poolOnly _ _).trans (leaveGroup_poolOnly _ _)).trans (setReefer_poolOnly _ _ _)).chains.trans
      (dirForget_chains _ _ _)

theorem applyReefer_chains (s : State) (e : ReeferEntry) : ChainsKept s (applyReefer s e) := by
  unfold applyReefer
  split
  · exact .refl s
  · split
    · exact dropReefer_chains _ _
    · split
      · exact .refl s
      · split
        · exact (regroupReefer_poolOnly _ _ _ _).chains
        · exact addReefer_chains _ _ _ _

theorem applyGroup_poolOnly (s : State) (e : GroupEntry) : PoolOnly s (applyGroup s e) := by
  unfold applyGroup
  split
  · exact .refl s
  · exact modGroup_poolOnly _ _ _

theorem applyLoad_chains (t : Table) (content : List Byte) (s : State) : ChainsKept s (applyLoad t content s) := by
  cases t with
  | cranes => exact ChainsKept.foldl applyCrane_chains _ s
  | cells => exact (LinkOnly.foldl applyCell_linkOnly _ s).chains
  | coverage => exact ⟨rfl, rfl⟩
  | reefers => exact ChainsKept.foldl applyReefer_chains _ s
  | groups => exact (PoolOnly.foldl applyGroup_poolOnly _ s).chains

/-! ### Parameters, clears and counters -/

theorem sealByAge_poolOnly (u : Urgency) (s : State) : PoolOnly s (sealByAge u s) :=
  (sealOpen_poolOnly _ _ _).trans (afterSeal_poolOnly _ _)

theorem applyParams_chains (new : Params) (s : State) : ChainsKept s (applyParams new s) := by
  have due : ∀ a b t, ChainsKept t (sealDueBatches a b t) := by
    intro a b t
    unfold sealDueBatches
    split
    · have popped : ChainsKept t t.popChoice.2 := ⟨rfl, rfl⟩
      split
      · exact popped.trans ((sealByAge_poolOnly _ _).trans (sealByAge_poolOnly _ _)).chains
      · exact popped.trans ((sealByAge_poolOnly _ _).trans (sealByAge_poolOnly _ _)).chains
    · exact (sealByAge_poolOnly _ _).chains
    · exact (sealByAge_poolOnly _ _).chains
    · exact .refl t
  have set : ChainsKept s (s.modMgmt fun m => { m with params := new }) := ⟨rfl, rfl⟩
  exact set.trans (due _ _ _)

theorem clearGroup_poolOnly (g : GroupId) (s : State) : PoolOnly s (clearGroup g s) :=
  (modGroup_poolOnly _ _ _).trans (PoolOnly.foldl (fun _ _ => modReefer_poolOnly _ _ _) _ _)

end Machine
end Sys2Proof
end

