-- ==== Sys2Proof/Proofs/ChainEntries.lean ====
section
/-! SUPPORT. What an entry to a chain state, the taking of a downlink and the sending of a cycle do to the chain records. -/

namespace Sys2Proof
namespace Machine

/-! ### Changing one chain record -/

theorem State.modChain_modChain (s : State) (c : Chain) (f g : ChainRec → ChainRec) :
    (s.modChain c f).modChain c g = s.modChain c fun r => g (f r) := by
  cases c <;> rfl

/-- A changed chain record shows in the state in its own field alone. -/
theorem State.modChain_frame (s : State) (c : Chain) (f : ChainRec → ChainRec) :
    s.modChain c f = { s with chainN := (s.modChain c f).chainN, chainS := (s.modChain c f).chainS } := by
  cases c <;> rfl

@[simp] theorem State.params_modChain (s : State) (c : Chain) (f : ChainRec → ChainRec) :
    (s.modChain c f).params = s.params := by
  cases c <;> rfl

@[simp] theorem State.cell_modChain (s : State) (c : Chain) (f : ChainRec → ChainRec) (x : CellId) :
    (s.modChain c f).cell x = s.cell x := by
  cases c <;> rfl

@[simp] theorem State.crane_modChain (s : State) (c : Chain) (f : ChainRec → ChainRec) (k : CraneId) :
    (s.modChain c f).crane k = s.crane k := by
  cases c <;> rfl

/-- What the controller's copy of a notice leaves depends on the port, the parameters, the address and the time alone. -/
@[simp] theorem State.controllerNoticed_modChain (s : State) (c : Chain) (f : ChainRec → ChainRec) (n : Notice) :
    (s.modChain c f).controllerNoticed n = s.controllerNoticed n := by
  cases c <;> rfl

/-! ### Entries to a chain state (R3-R9) -/

/-- What every entry to a chain state does: the record changes, the state is set with its LED, and a CHAIN-STATE notice goes
to the controller. -/
def enterState (c : Chain) (cause : ChainCause) (new : ChainState) (abortCell : Option CellId)
    (f : ChainRec → ChainRec) (s : State) : State :=
  chainNotice c cause new abortCell ((s.modChain c f).setChainState c new)

section Entry

variable (c : Chain) (cause : ChainCause) (new : ChainState) (abortCell : Option CellId) (f : ChainRec → ChainRec) (s : State)

theorem enterRollcall_eq : enterRollcall c cause s =
    enterState c cause .rollcall none
      (fun r => { r with goodTurns := 0, rollcallTurns := 0, heard := [], awaited := none }) s := rfl

theorem enterRunning_eq : enterRunning c s =
    enterState c .rollcallDone .running none
      (fun r => { r with missed := 0, stable := startTimer Config.stableMs, silence := 0 }) s := rfl

theorem enterBroken_eq : enterBroken c cause abortCell s =
    enterState c cause .broken abortCell
      (fun r =>
        { r with
          backoff := startTimer r.nextBackoff
          nextBackoff := min (2 * r.nextBackoff) Config.maxBackoff
          awaited := none
          counters := { r.counters with breaks := r.counters.breaks + 1 } }) s := rfl

theorem enterDisabled_eq : enterDisabled c s =
    enterState c .disabled .disabled none
      (fun r =>
        { r with
          awaited := none, backoff := none, stable := none, nextBackoff := Config.firstBackoff
          goodTurns := 0, rollcallTurns := 0, heard := [] }) s := rfl

/-- An entry leaves everything but the port, the LED drivers and the chain records. -/
theorem enterState_frame : enterState c cause new abortCell f s =
    { s with
      port := s.controllerNoticed (.chainState c cause new abortCell)
      leds := (enterState c cause new abortCell f s).leds
      chainN := (enterState c cause new abortCell f s).chainN
      chainS := (enterState c cause new abortCell f s).chainS } := by
  unfold enterState chainNotice
  rw [noticeController_noticed]
  cases c <;> rfl

theorem enterState_chain : (enterState c cause new abortCell f s).chain c = { f (s.chain c) with state := new } := by
  unfold enterState chainNotice
  rw [noticeController_noticed]
  cases c <;> rfl

theorem enterState_chain_ne {d : Chain} (h : d ≠ c) : (enterState c cause new abortCell f s).chain d = s.chain d := by
  unfold enterState chainNotice
  rw [noticeController_noticed]
  cases c <;> cases d
  case N.N | S.S => exact absurd rfl h
  all_goals rfl

/-- At an entry every LED driver takes the light of its state. -/
theorem enterState_leds :
    (enterState c cause new abortCell f s).leds = ((s.modChain c fun r => { f r with state := new }).refreshLeds).leds := by
  unfold enterState chainNotice
  rw [noticeController_noticed]
  cases c <;> rfl

end Entry

/-! ### The downlink of a cycle (R11-R14) -/

/-- What building the downlink of a chain can change: the crane links, the cells' downlink block counters, and of the chain's
own record the pointer of the round robin, the queue, from its head, and the count of stale frames. -/
structure DownlinkTaken (c : Chain) (s t : State) : Prop where
  frame : t = { s with
    chainN := t.chainN, chainS := t.chainS, cov := { s.cov with cells := t.cov.cells }, clu := t.clu }
  others : ∀ d, d ≠ c → t.chain d = s.chain d
  chain : t.chain c =
    { s.chain c with
      cranePtr := (t.chain c).cranePtr, generalQ := (t.chain c).generalQ
      counters := { (s.chain c).counters with generalStale := (t.chain c).counters.generalStale } }
  queue : (t.chain c).generalQ <:+ (s.chain c).generalQ
  cells : ∀ x, t.cell x = { s.cell x with downlinkBlocks := (t.cell x).downlinkBlocks }

namespace DownlinkTaken

variable {c : Chain}

theorem refl (s : State) : DownlinkTaken c s s := ⟨rfl, fun _ _ => rfl, rfl, List.suffix_refl _, fun _ => rfl⟩

theorem trans {s t u : State} (h : DownlinkTaken c s t) (g : DownlinkTaken c t u) : DownlinkTaken c s u where
  frame := by rw [g.frame, h.frame]
  others d hd := (g.others d hd).trans (h.others d hd)
  chain := by rw [g.chain, h.chain]
  queue := g.queue.trans h.queue
  cells x := by rw [g.cells, h.cells]

theorem foldl {α : Type} {f : Build → α → Build} (h : ∀ u a, DownlinkTaken c u.st (f u a).st) (l : List α) (u : Build) :
    DownlinkTaken c u.st (l.foldl f u).st := by
  induction l generalizing u with
  | nil => exact .refl _
  | cons a l ih => exact (h u a).trans (ih _)

end DownlinkTaken

/-- A block offered to a downlink takes at most what its commitment takes, and counts it for its cell. -/
theorem Build.offer_taken {c : Chain} (cap : Nat) (b : DownBlock) {commit : State → State} (u : Build)
    (h : DownlinkTaken c u.st (commit u.st)) : DownlinkTaken c u.st (u.offer cap b commit).st := by
  unfold Build.offer
  split
  · exact .refl _
  · split
    · exact .refl _
    · refine h.trans ⟨rfl, fun d _ => rfl, rfl, List.suffix_refl _, fun x => ?_⟩
      by_cases hx : x = b.cell
      · subst hx
        simp
      · simp [State.cell_modCell_ne _ hx]

theorem modCrane_downlinkTaken {c : Chain} (k : CraneId) (f : Crane → Crane) (s : State) :
    DownlinkTaken c s (s.modCrane k f) :=
  ⟨rfl, fun _ _ => rfl, rfl, List.suffix_refl _, fun _ => rfl⟩

/-- A chain whose record gives up frames of its queue, moves its pointer or counts stale frames. -/
theorem modChain_downlinkTaken {c : Chain} {f : ChainRec → ChainRec} (s : State)
    (chain : f (s.chain c) =
      { s.chain c with
        cranePtr := (f (s.chain c)).cranePtr, generalQ := (f (s.chain c)).generalQ
        counters := { (s.chain c).counters with generalStale := (f (s.chain c)).counters.generalStale } })
    (queue : (f (s.chain c)).generalQ <:+ (s.chain c).generalQ) : DownlinkTaken c s (s.modChain c f) where
  frame := by cases c <;> rfl
  others d hd := State.chain_modChain_ne s hd f
  chain := by simpa using chain
  queue := by simpa using queue
  cells x := by simp

theorem buildHolds_taken (cap : Nat) (c : Chain) (u : Build) (k : CraneId) :
    DownlinkTaken c u.st (buildHolds cap c u k).st :=
  DownlinkTaken.foldl (fun v _ => v.offer_taken cap _ (modCrane_downlinkTaken k _ _)) _ u

theorem buildNotices_taken (cap : Nat) (c : Chain) (u : Build) : DownlinkTaken c u.st (buildNotices cap c u).st :=
  DownlinkTaken.foldl
    (fun v _ => v.offer_taken cap _ ⟨rfl, fun _ _ => rfl, rfl, List.suffix_refl _, fun _ => rfl⟩) _ u

theorem buildCranes_taken (cap : Nat) (c : Chain) (n : Nat) (u : Build) :
    DownlinkTaken c u.st (buildCranes cap c n u).st := by
  induction n generalizing u with
  | zero => exact .refl _
  | succ n ih =>
    unfold buildCranes
    split
    · exact .refl _
    · split
      · exact .refl _
      · exact (u.offer_taken cap _ ((modCrane_downlinkTaken _ _ _).trans
          (modChain_downlinkTaken _ rfl (List.suffix_refl _)))).trans (ih _)

/-- The frame at the head of a chain's general downlink queue offered to a downlink; it leaves the queue when it is taken
(R14). -/
def Build.takeFrame (cap : Nat) (c : Chain) (g : GeneralDown) (rest : List GeneralDown) (u : Build) : Build :=
  u.offer cap (.generalDown g.cell g.unit g.payload) fun t => t.modChain c fun r => { r with generalQ := rest }

/-- A chain record whose queue has given up a frame of no route, which is counted as stale (R14). -/
def ChainRec.passFrame (rest : List GeneralDown) (r : ChainRec) : ChainRec :=
  { r with
    generalQ := rest
    counters := { r.counters with generalStale := r.counters.generalStale + 1 } }

/-- A frame of no route passed over (R14). -/
def Build.passFrame (c : Chain) (rest : List GeneralDown) (u : Build) : Build :=
  { u with st := u.st.modChain c (ChainRec.passFrame rest) }

/-- One frame of the queue, and then the rest. -/
theorem buildGeneral_cons (cap : Nat) (c : Chain) (g : GeneralDown) (rest : List GeneralDown) (u : Build) :
    buildGeneral cap c (g :: rest) u =
      if u.full then u
      else if carriesGeneral u.st g.cell then buildGeneral cap c rest (u.takeFrame cap c g rest)
      else buildGeneral cap c rest (u.passFrame c rest) := rfl

theorem takeFrame_taken (cap : Nat) (c : Chain) (g : GeneralDown) {rest : List GeneralDown} {u : Build}
    (h : rest <:+ (u.st.chain c).generalQ) : DownlinkTaken c u.st (u.takeFrame cap c g rest).st :=
  u.offer_taken cap _ (modChain_downlinkTaken _ rfl h)

theorem takeFrame_queue (cap : Nat) (c : Chain) (g : GeneralDown) {rest : List GeneralDown} {u : Build}
    (h : rest <:+ (u.st.chain c).generalQ) : rest <:+ ((u.takeFrame cap c g rest).st.chain c).generalQ := by
  have kept : ∀ s x (f : Cell → Cell), (State.modCell s x f).chain c = s.chain c := fun _ _ _ => rfl
  unfold Build.takeFrame Build.offer
  split
  · exact h
  · split
    · exact h
    · rw [kept, State.chain_modChain]

theorem passFrame_taken (c : Chain) {rest : List GeneralDown} {u : Build} (h : rest <:+ (u.st.chain c).generalQ) :
    DownlinkTaken c u.st (u.passFrame c rest).st :=
  modChain_downlinkTaken (f := ChainRec.passFrame rest) u.st rfl h

theorem buildGeneral_taken (cap : Nat) (c : Chain) (q : List GeneralDown) (u : Build)
    (h : q <:+ (u.st.chain c).generalQ) : DownlinkTaken c u.st (buildGeneral cap c q u).st := by
  induction q generalizing u with
  | nil => exact .refl _
  | cons g rest ih =>
    have hrest : rest <:+ (u.st.chain c).generalQ := (List.suffix_cons g rest).trans h
    rw [buildGeneral_cons]
    split
    · exact .refl _
    · split
      · exact (takeFrame_taken cap c g hrest).trans (ih _ (takeFrame_queue cap c g hrest))
      · refine (passFrame_taken c hrest).trans (ih _ ?_)
        rw [Build.passFrame, State.chain_modChain]
        exact List.suffix_refl rest

theorem buildDownlink_taken (c : Chain) (s : State) : DownlinkTaken c s (buildDownlink c s).st := by
  have holds := DownlinkTaken.foldl (buildHolds_taken (effectiveCapacity s.params) c) allCranes
    { st := s, used := 0, blocks := [], full := false }
  exact ((holds.trans (buildNotices_taken _ c _)).trans (buildCranes_taken _ c _ _)).trans
    (buildGeneral_taken _ c _ _ (List.suffix_refl _))

/-! ### Sending a cycle (R10, R15) -/

/-- The downlink of a cycle: empty in ROLLCALL (R4). -/
def cycleBuild (c : Chain) (s : State) : Build :=
  if (s.chain c).state = .rollcall then { st := s, used := 0, blocks := [], full := false } else buildDownlink c s

/-- The image of the cycle that is sent (R15). -/
def cycleImage (c : Chain) (s : State) : LineCycle :=
  { cycle := (s.chain c).cycle + 1, slots := (cycleBuild c s).used, blocks := (cycleBuild c s).blocks
    grants := grantsOf s c }

/-- The state in which the Crane Link Unit is told of the opener (R10, R15). -/
def cyclePlaced (c : Chain) (s : State) : State :=
  (cycleBuild c s).st.modChain c fun r =>
    { r with
      cycle := (s.chain c).cycle + 1, awaited := some ((s.chain c).cycle + 1), line := some (cycleImage c s)
      counters := { r.counters with openersSent := r.counters.openersSent + 1 } }

theorem sendCycle_eq (c : Chain) (s : State) : sendCycle c s = settle (openerSent c (cyclePlaced c s)) := rfl

theorem cycleBuild_taken (c : Chain) (s : State) : DownlinkTaken c s (cycleBuild c s).st := by
  unfold cycleBuild
  split
  · exact .refl s
  · exact buildDownlink_taken c s

/-- What follows the opener reaches no chain record. -/
theorem sendCycle_chains (c : Chain) (s : State) : ChainsKept (cyclePlaced c s) (sendCycle c s) :=
  ((openerSent_linkOnly _ _).trans (settle_linkOnly _)).chains

theorem sendCycle_chain_ne {c d : Chain} (h : d ≠ c) (s : State) : (sendCycle c s).chain d = s.chain d := by
  rw [(sendCycle_chains c s).chain, cyclePlaced, State.chain_modChain_ne _ h, (cycleBuild_taken c s).others d h]

/-- The record of a chain whose cycle has been sent (R10). -/
theorem sendCycle_chain (c : Chain) (s : State) : (sendCycle c s).chain c =
    { s.chain c with
      cranePtr := ((cycleBuild c s).st.chain c).cranePtr, generalQ := ((cycleBuild c s).st.chain c).generalQ
      cycle := (s.chain c).cycle + 1, awaited := some ((s.chain c).cycle + 1), line := some (cycleImage c s)
      counters := { (s.chain c).counters with
        generalStale := ((cycleBuild c s).st.chain c).counters.generalStale
        openersSent := (s.chain c).counters.openersSent + 1 } } := by
  rw [(sendCycle_chains c s).chain, cyclePlaced, State.chain_modChain, (cycleBuild_taken c s).chain]

/-! ### Leaving RUNNING (R6) -/

/-- A chain that has left RUNNING: its record, and the other's, are those of the first moment of leaving. -/
theorem leaveRunning_chains (c : Chain) (s : State) : ChainsKept (s.modChain c ChainRec.leave) (leaveRunning c s) := by
  have left : ChainsKept (s.modChain c ChainRec.leave) (departure c (s.modChain c ChainRec.leave)).popChoice.2 :=
    (departure_linkOnly c _).chains.trans ⟨rfl, rfl⟩
  refine left.trans (ChainsKept.trans ?_ (cycleEnd_linkOnly _ _ _).chains)
  split
  · exact (((settle_linkOnly _).trans (chainLeftWord_linkOnly _ _)).trans (settle_linkOnly _)).chains
  · exact ((chainLeftWord_linkOnly _ _).trans (settle_linkOnly _)).chains

theorem leaveRunning_chain (c : Chain) (s : State) : (leaveRunning c s).chain c = (s.chain c).leave := by
  rw [(leaveRunning_chains c s).chain, State.chain_modChain]

theorem leaveRunning_chain_ne {c d : Chain} (h : d ≠ c) (s : State) : (leaveRunning c s).chain d = s.chain d := by
  rw [(leaveRunning_chains c s).chain, State.chain_modChain_ne s h]

/-! ### A turn handed to the cells (R19) -/

theorem handTurn_linkOnly (c : Chain) (qs : List (CellId × StatusRecord)) (s : State) : LinkOnly s (handTurn c qs s) :=
  ((LinkOnly.foldl (fun _ _ => (statusRecord_linkOnly _ _ _).trans (settle_linkOnly _)) _ s).trans
    (LinkOnly.foldl (fun _ _ => (statusMiss_linkOnly _ _).trans (settle_linkOnly _)) _ _)).trans
    (cycleEnd_linkOnly _ _ _)

end Machine
end Sys2Proof
end

