-- ==== Sys2Proof/Proofs/ChainsSound.lean ====
section
/-! O10: every step keeps the laws of both chain records. A record keeps its laws under each change the Chain Controller makes
(R1, R3-R8, R22); every other command leaves both records as they stand. -/

namespace Sys2Proof
namespace Machine

/-! ### One record -/

/-- The record of a chain at rest outside RUNNING: no frame queued, no missed turn, no stable timer. -/
def ChainRec.Idle (r : ChainRec) : Prop := r.generalQ = [] ∧ r.missed = 0 ∧ r.stable = none

namespace ChainSound

variable {r : ChainRec}

theorem idle (h : ChainSound r) (hs : r.state ≠ .running) : r.Idle := h.running hs

/-- Counters, the last aborting cell, the pointer, the times and the image of the line carry no law. -/
theorem bookkeeping (h : ChainSound r) (heard : List CellId) (abort : Option CellId) (ptr : Option CraneId)
    (silence timer : Nat) (line : Option LineCycle) (k : ChainCounters) :
    ChainSound { r with
      heard := heard, lastAbort := abort, cranePtr := ptr, silence := silence, cycleTimer := timer, line := line
      counters := k } :=
  ⟨h.running, h.backoff, h.quiet, h.awaited, h.rollcall, h.queue, h.nextBackoff⟩

theorem leave (h : ChainSound r) : ChainSound r.leave :=
  ⟨fun _ => ⟨rfl, rfl, rfl⟩, h.backoff, fun _ => rfl, nofun, h.rollcall, Nat.zero_le _, h.nextBackoff⟩

theorem toRollcall (h : ChainSound r) (idle : r.Idle) (backoff : r.backoff = none) :
    ChainSound { r with state := .rollcall, goodTurns := 0, rollcallTurns := 0, heard := [], awaited := none } where
  running _ := idle
  backoff := by simp [backoff]
  quiet _ := rfl
  awaited := nofun
  rollcall _ := by simp [Config.goodTurnsNeeded, Config.rollcallLimit]
  queue := h.queue
  nextBackoff := h.nextBackoff

theorem toRunning (h : ChainSound r) (hs : r.state = .rollcall) (awaited : r.awaited = none) :
    ChainSound { r with state := .running, missed := 0, stable := startTimer Config.stableMs, silence := 0 } where
  running hne := absurd rfl hne
  backoff := by simpa [hs] using h.backoff
  quiet _ := awaited
  awaited := h.awaited
  rollcall hs' := by cases hs'
  queue := h.queue
  nextBackoff := h.nextBackoff

/-- The next backoff doubles up to its ceiling, and stays one of the five (R7). -/
theorem doubled {n : Nat} (h : n ∈ [100, 200, 400, 800, 1600]) :
    min (2 * n) Config.maxBackoff ∈ [100, 200, 400, 800, 1600] := by
  simp only [List.mem_cons, List.not_mem_nil, or_false] at h
  rcases h with rfl | rfl | rfl | rfl | rfl <;> decide

theorem toBroken (h : ChainSound r) (idle : r.Idle) (k : ChainCounters) :
    ChainSound { r with
      state := .broken, backoff := startTimer r.nextBackoff
      nextBackoff := min (2 * r.nextBackoff) Config.maxBackoff, awaited := none, counters := k } where
  running _ := idle
  backoff := by simp [startTimer]
  quiet _ := rfl
  awaited := nofun
  rollcall hs := by cases hs
  queue := h.queue
  nextBackoff := doubled h.nextBackoff

theorem toDisabled (h : ChainSound r) (idle : r.Idle) :
    ChainSound { r with
      state := .disabled, awaited := none, backoff := none, stable := none, nextBackoff := Config.firstBackoff
      goodTurns := 0, rollcallTurns := 0, heard := [] } where
  running _ := ⟨idle.1, idle.2.1, rfl⟩
  backoff := by simp
  quiet _ := rfl
  awaited := nofun
  rollcall hs := by cases hs
  queue := h.queue
  nextBackoff := by simp [Config.firstBackoff]

/-- A turn no longer awaited (R10, R18). -/
theorem unawaited (h : ChainSound r) (k : ChainCounters) : ChainSound { r with awaited := none, counters := k } :=
  ⟨h.running, h.backoff, fun _ => rfl, nofun, h.rollcall, h.queue, h.nextBackoff⟩

/-- Roll call moves on while it has neither passed nor failed (R4). -/
theorem judged (h : ChainSound r) (good turns : Nat) (heard : List CellId)
    (going : r.state = .rollcall → good < Config.goodTurnsNeeded ∧ turns < Config.rollcallLimit) :
    ChainSound { r with goodTurns := good, rollcallTurns := turns, heard := heard } :=
  ⟨h.running, h.backoff, h.quiet, h.awaited, going, h.queue, h.nextBackoff⟩

/-- The missed-turn count moves in RUNNING (R10). -/
theorem missing (h : ChainSound r) (hs : r.state = .running) (n : Nat) : ChainSound { r with missed := n } :=
  ⟨fun hne => absurd hs hne, h.backoff, h.quiet, h.awaited, h.rollcall, h.queue, h.nextBackoff⟩

/-- A cycle is awaited in ROLLCALL and RUNNING (R10). -/
theorem cycled (h : ChainSound r) (hs : r.state = .rollcall ∨ r.state = .running) (n : Byte) :
    ChainSound { r with cycle := n, awaited := some n } where
  running := h.running
  backoff := h.backoff
  quiet hq := by rcases hs with hs | hs <;> simp [hs] at hq
  awaited _ hn := (Option.some.inj hn).symm
  rollcall := h.rollcall
  queue := h.queue
  nextBackoff := h.nextBackoff

/-- A queue that gives up frames from its head stays within its capacity, and empty if it was (R14, R22). -/
theorem dequeued (h : ChainSound r) {q : List GeneralDown} (hq : q <:+ r.generalQ) : ChainSound { r with generalQ := q } where
  running hs := by
    obtain ⟨empty, rest⟩ := h.running hs
    exact ⟨List.suffix_nil.1 (empty ▸ hq), rest⟩
  backoff := h.backoff
  quiet := h.quiet
  awaited := h.awaited
  rollcall := h.rollcall
  queue := hq.length_le.trans h.queue
  nextBackoff := h.nextBackoff

/-- A frame joins the queue in RUNNING while there is room (R22). -/
theorem enqueued (h : ChainSound r) (hs : r.state = .running) (room : r.generalQ.length < Config.generalDownCapacity)
    (g : GeneralDown) : ChainSound { r with generalQ := r.generalQ ++ [g] } :=
  ⟨fun hne => absurd hs hne, h.backoff, h.quiet, h.awaited, h.rollcall, by simpa using room, h.nextBackoff⟩

/-- The timers move (log 1). -/
theorem tick (h : ChainSound r) : ChainSound r.tick where
  running hs := by
    obtain ⟨queue, missed, stable⟩ := h.running hs
    exact ⟨queue, missed, by simp [ChainRec.tick, stable, tickTimer]⟩
  backoff := by simpa [ChainRec.tick, tickTimer] using h.backoff
  quiet := h.quiet
  awaited := h.awaited
  rollcall := h.rollcall
  queue := h.queue
  nextBackoff := h.nextBackoff

/-- A record at its reset values, whatever its cycle number and cycle timer (R1). -/
theorem fresh (st : ChainState) (hs : st = .disabled ∨ st = .rollcall) (n : Byte) (timer : Nat) :
    ChainSound { state := st, cycle := n, cycleTimer := timer } where
  running _ := ⟨rfl, rfl, rfl⟩
  backoff := by rcases hs with rfl | rfl <;> simp
  quiet _ := rfl
  awaited := nofun
  rollcall _ := by simp [Config.goodTurnsNeeded, Config.rollcallLimit]
  queue := Nat.zero_le _
  nextBackoff := by simp [Config.firstBackoff]

theorem restartTraffic (r : ChainRec) : ChainSound r.restartTraffic :=
  fresh _ (by split <;> simp) _ _

theorem restartAll (r : ChainRec) : ChainSound r.restartAll := fresh _ (.inl rfl) _ _

end ChainSound

/-- A chain record with an ABORT marker of a cell noted (R20). -/
def ChainRec.noteAbort (x : CellId) (r : ChainRec) : ChainRec :=
  { r with lastAbort := some x, counters := { r.counters with aborts := r.counters.aborts + 1 } }

/-! ### Both records -/

theorem chainsSound_iff {s : State} : ChainsSound s ↔ ∀ c, ChainSound (s.chain c) :=
  (Chain.forall_iff (P := fun c => ChainSound (s.chain c))).symm

namespace ChainsSound

variable {s t : State} {c : Chain}

theorem record (h : ChainsSound s) (c : Chain) : ChainSound (s.chain c) := chainsSound_iff.1 h c

theorem kept (h : ChainsSound s) (k : ChainsKept s t) : ChainsSound t :=
  chainsSound_iff.2 fun c => by rw [k.chain]; exact h.record c

/-- One record changes soundly and the other stands. -/
theorem update (h : ChainsSound s) (changed : ChainSound (t.chain c)) (others : ∀ d, d ≠ c → t.chain d = s.chain d) :
    ChainsSound t :=
  chainsSound_iff.2 fun d => by
    by_cases hd : d = c
    · exact hd ▸ changed
    · rw [others d hd]
      exact h.record d

theorem modChain (h : ChainsSound s) {f : ChainRec → ChainRec} (hf : ChainSound (f (s.chain c))) :
    ChainsSound (s.modChain c f) :=
  h.update (by rwa [State.chain_modChain]) fun _ hd => State.chain_modChain_ne s hd f

theorem enterState (h : ChainsSound s) {cause : ChainCause} {new : ChainState} {abortCell : Option CellId}
    {f : ChainRec → ChainRec} (hf : ChainSound { f (s.chain c) with state := new }) :
    ChainsSound (enterState c cause new abortCell f s) :=
  h.update (by rwa [enterState_chain]) fun _ hd => enterState_chain_ne c cause new abortCell f s hd

/-! ### The Chain Controller -/

theorem count (h : ChainsSound s) (f : ChainCounters → ChainCounters) : ChainsSound (s.countChain c f) :=
  h.modChain ((h.record c).bookkeeping _ _ _ _ _ _ _)

theorem enterRollcall (h : ChainsSound s) (idle : (s.chain c).Idle) (backoff : (s.chain c).backoff = none)
    (cause : ChainCause) : ChainsSound (enterRollcall c cause s) := by
  rw [enterRollcall_eq]
  exact h.enterState ((h.record c).toRollcall idle backoff)

theorem enterRunning (h : ChainsSound s) (hs : (s.chain c).state = .rollcall) (awaited : (s.chain c).awaited = none) :
    ChainsSound (enterRunning c s) := by
  rw [enterRunning_eq]
  exact h.enterState ((h.record c).toRunning hs awaited)

theorem enterBroken (h : ChainsSound s) (idle : (s.chain c).Idle) (cause : ChainCause) (abortCell : Option CellId) :
    ChainsSound (enterBroken c cause abortCell s) := by
  rw [enterBroken_eq]
  exact h.enterState ((h.record c).toBroken idle _)

theorem enterDisabled (h : ChainsSound s) (idle : (s.chain c).Idle) : ChainsSound (enterDisabled c s) := by
  rw [enterDisabled_eq]
  exact h.enterState ((h.record c).toDisabled idle)

theorem leaveRunning (h : ChainsSound s) : ChainsSound (leaveRunning c s) :=
  (h.modChain (h.record c).leave).kept (leaveRunning_chains c s)

/-- A chain that has left RUNNING is at rest. -/
theorem leaveRunning_idle : ((Machine.leaveRunning c s).chain c).Idle := by
  rw [leaveRunning_chain]
  exact ⟨rfl, rfl, rfl⟩

theorem breakChain (h : ChainsSound s) (cause : ChainCause) (abortCell : Option CellId) :
    ChainsSound (breakChain c cause abortCell s) :=
  h.leaveRunning.enterBroken leaveRunning_idle cause abortCell

theorem sendCycle (h : ChainsSound s) (hs : (s.chain c).state = .rollcall ∨ (s.chain c).state = .running) :
    ChainsSound (sendCycle c s) := by
  refine h.update ?_ fun d hd => sendCycle_chain_ne hd s
  rw [sendCycle_chain]
  exact (((h.record c).dequeued (cycleBuild_taken c s).queue).cycled hs _).bookkeeping _ _ _ _ _ _ _

/-- Roll call with fewer than four good turns has failed, or has turns left (R4). -/
theorem rollcallGoing {r : ChainRec} (h : ¬rollcallFailed r = true) (good : r.goodTurns < Config.goodTurnsNeeded) :
    r.goodTurns < Config.goodTurnsNeeded ∧ r.rollcallTurns < Config.rollcallLimit := by
  simp only [rollcallFailed, Bool.and_eq_true, decide_eq_true_eq, not_and_or, not_le] at h
  exact ⟨good, h.resolve_right fun hn => hn good⟩

section Judged

variable {u : State} {good turns : Nat} {heard : List CellId} {k : ChainCounters}

/-- A turn judged in ROLLCALL that leaves roll call going keeps the laws (R4). -/
theorem rollcallGoes (h : ChainsSound s)
    (judged : u.chain c =
      { s.chain c with awaited := none, goodTurns := good, rollcallTurns := turns, heard := heard, counters := k })
    (others : ∀ d, d ≠ c → u.chain d = s.chain d) (few : good < Config.goodTurnsNeeded)
    (going : ¬rollcallFailed (u.chain c) = true) : ChainsSound u := by
  refine h.update ?_ others
  rw [judged] at going ⊢
  exact ((h.record c).unawaited k).judged _ _ _ fun _ => rollcallGoing going few

/-- A turn judged in ROLLCALL that fails roll call takes the chain to BROKEN soundly (R4, R7). -/
theorem rollcallFails (h : ChainsSound s) (hs : (s.chain c).state = .rollcall)
    (judged : u.chain c =
      { s.chain c with awaited := none, goodTurns := good, rollcallTurns := turns, heard := heard, counters := k })
    (others : ∀ d, d ≠ c → u.chain d = s.chain d) (cause : ChainCause) :
    ChainsSound (Machine.enterBroken c cause none u) := by
  have idle : (s.chain c).Idle := (h.record c).idle (by simp [hs])
  rw [enterBroken_eq]
  refine h.update (c := c) ?_ fun d hd => ?_
  · rw [enterState_chain, judged]
    exact ((h.record c).toBroken idle _).judged _ _ _ nofun
  · rw [enterState_chain_ne _ _ _ _ _ _ hd, others d hd]

end Judged

theorem rollcallExpiry (h : ChainsSound s) (hs : (s.chain c).state = .rollcall) : ChainsSound (rollcallExpiry c s) := by
  unfold Machine.rollcallExpiry
  split
  · exact h.sendCycle (.inl hs)
  · dsimp only
    generalize hs1 : cycleEnd c .missedTurn _ = s1
    have judged : s1.chain c =
        { s.chain c with
          awaited := none, rollcallTurns := (s.chain c).rollcallTurns + 1, goodTurns := 0, heard := []
          counters := { (s.chain c).counters with missedTurns := (s.chain c).counters.missedTurns + 1 } } := by
      rw [← hs1, (cycleEnd_linkOnly _ _ _).chain, State.chain_modChain, countMissed, State.chain_modChain]
    have others : ∀ d, d ≠ c → s1.chain d = s.chain d := fun d hd => by
      rw [← hs1, (cycleEnd_linkOnly _ _ _).chain, State.chain_modChain_ne _ hd, countMissed, State.chain_modChain_ne _ hd]
    split
    · exact h.rollcallFails hs judged others _
    · exact (h.rollcallGoes judged others (by decide) ‹_›).sendCycle (.inl (by rw [judged]; exact hs))

theorem runningExpiry (h : ChainsSound s) (hs : (s.chain c).state = .running) : ChainsSound (runningExpiry c s) := by
  unfold Machine.runningExpiry
  split
  · exact h.sendCycle (.inr hs)
  · dsimp only
    have kept := (cycleEnd_linkOnly c .missedTurn
      ((countMissed c s).modChain c fun r => { r with missed := r.missed + 1 })).chains
    have counted : (countMissed c s).chain c =
        { s.chain c with
          awaited := none
          counters := { (s.chain c).counters with missedTurns := (s.chain c).counters.missedTurns + 1 } } :=
      State.chain_modChain _ _ _
    have sound : ChainsSound (cycleEnd c .missedTurn
        ((countMissed c s).modChain c fun r => { r with missed := r.missed + 1 })) := by
      refine ChainsSound.kept ?_ kept
      refine (h.modChain (c := c) ((h.record c).unawaited _)).modChain ?_
      rw [State.chain_modChain]
      exact ((h.record c).unawaited _).missing hs _
    split
    · exact sound.breakChain _ _
    · refine sound.sendCycle (.inr ?_)
      rw [kept.chain, State.chain_modChain, counted]
      exact hs

theorem cycleExpiry (h : ChainsSound s) (c : Chain) : ChainsSound (cycleExpiry c s) := by
  have timed : ChainsSound (s.modChain c fun r => { r with cycleTimer := s.params.cyclePeriod }) :=
    h.modChain ((h.record c).bookkeeping _ _ _ _ _ _ _)
  unfold Machine.cycleExpiry
  dsimp only
  split
  · exact timed.kept (cycleEnd_linkOnly _ _ _).chains
  · exact timed.kept (cycleEnd_linkOnly _ _ _).chains
  · exact timed.rollcallExpiry (by rw [State.chain_modChain]; assumption)
  · exact timed.runningExpiry (by rw [State.chain_modChain]; assumption)

theorem backoffExpiry (h : ChainsSound s) (c : Chain) : ChainsSound (backoffExpiry c s) := by
  unfold Machine.backoffExpiry
  split
  · obtain ⟨hs, -⟩ := ‹_ ∧ _›
    have idle := (h.record c).idle (by simp [hs])
    rw [enterRollcall_eq]
    refine h.update (c := c) ?_ fun d hd => ?_
    · rw [enterState_chain, State.chain_modChain]
      exact ⟨fun _ => idle, by simp, fun _ => rfl, nofun,
        by simp [Config.goodTurnsNeeded, Config.rollcallLimit], (h.record c).queue, (h.record c).nextBackoff⟩
    · rw [enterState_chain_ne _ _ _ _ _ _ hd, State.chain_modChain_ne _ hd]
  · exact h

theorem stableExpiry (h : ChainsSound s) (c : Chain) : ChainsSound (stableExpiry c s) := by
  have r := h.record c
  unfold Machine.stableExpiry
  split
  · refine h.modChain ⟨fun hne => ?_, r.backoff, r.quiet, r.awaited, r.rollcall, r.queue, by simp [Config.firstBackoff]⟩
    obtain ⟨queue, missed, -⟩ := r.running hne
    exact ⟨queue, missed, rfl⟩
  · exact h

theorem lineSilent (h : ChainsSound s) (c : Chain) : ChainsSound (lineSilent c s) := by
  unfold Machine.lineSilent
  split
  · exact (h.count _).breakChain _ _
  · exact h

/-! ### The returning stream -/

theorem onBlock (h : ChainsSound s) (c : Chain) {f : State → State} (hf : ∀ t, ChainsSound t → ChainsSound (f t)) :
    ChainsSound (onBlock c f s) := by
  unfold Machine.onBlock
  split
  · exact h
  · exact hf _ (h.modChain ((h.record c).bookkeeping _ _ _ _ _ _ _))

theorem uplinkBlock (h : ChainsSound s) (x : CellId) (ok : Bool) {f : State → State} (hf : ∀ t, ChainsKept t (f t)) :
    ChainsSound (uplinkBlock x ok f s) := by
  refine h.onBlock _ fun t ht => ?_
  split
  · exact ht.count _
  · split
    · exact (ht.kept (modCell_linkOnly x _ t).chains).kept (hf _)
    · exact ht.count _

theorem handTurn (h : ChainsSound s) (qs : List (CellId × StatusRecord)) : ChainsSound (handTurn c qs s) :=
  h.kept (handTurn_linkOnly c qs s).chains

theorem rollcallTurn (h : ChainsSound s) (hs : (s.chain c).state = .rollcall) (awaited : (s.chain c).awaited = none)
    (qs : List (CellId × StatusRecord)) : ChainsSound (rollcallTurn c qs s) := by
  unfold Machine.rollcallTurn
  dsimp only
  generalize hs1 : s.modChain c _ = s1
  have judged : s1.chain c =
      { s.chain c with
        awaited := none, goodTurns := (s.chain c).goodTurns + 1, rollcallTurns := (s.chain c).rollcallTurns + 1
        heard := sortCells (qs.map Prod.fst), counters := (s.chain c).counters } := by
    rw [← hs1, State.chain_modChain, ← awaited]
  have others : ∀ d, d ≠ c → s1.chain d = s.chain d := fun d hd => by rw [← hs1, State.chain_modChain_ne _ hd]
  split
  · refine ChainsSound.handTurn ?_ qs
    rw [enterRunning_eq]
    refine h.update (c := c) ?_ fun d hd => ?_
    · rw [enterState_chain, judged]
      exact ((((h.record c).unawaited _).toRunning hs rfl).judged _ _ _ nofun)
    · rw [enterState_chain_ne _ _ _ _ _ _ hd, others d hd]
  · split
    · exact h.rollcallFails hs judged others _
    · refine h.rollcallGoes judged others ?_ ‹_›
      rw [judged] at *
      simp_all

theorem takeTurn (h : ChainsSound s) (c : Chain) (cycle : Byte) (records : List StatusRecord) :
    ChainsSound (takeTurn c cycle records s) := by
  unfold Machine.takeTurn
  split
  · dsimp only
    generalize hs2 : countMalformed c _ _ = s2
    have taken : s2.chain c =
        { s.chain c with
          awaited := none
          counters := { (s.chain c).counters with
            returnedTurns := (s.chain c).counters.returnedTurns + 1
            malformed := (s.chain c).counters.malformed
              + BitVec.ofNat 32 (records.length - (standingRecords c records []).length) } } := by
      rw [← hs2, countMalformed, State.countChain_eq, State.chain_modChain, State.chain_modChain]
    have sound : ChainsSound s2 := by
      refine h.update (c := c) (by rw [taken]; exact (h.record c).unawaited _) fun d hd => ?_
      rw [← hs2, countMalformed, State.countChain_eq, State.chain_modChain_ne _ hd, State.chain_modChain_ne _ hd]
    split
    · refine (sound.modChain ?_).handTurn _
      exact (sound.record c).missing (by rw [taken]; assumption) _
    · exact sound.rollcallTurn (by rw [taken]; assumption) (by rw [taken]) _
    · exact sound
    · exact sound
  · exact h.count _

theorem takeAbort (h : ChainsSound s) (x : CellId) : ChainsSound (takeAbort x s) := by
  have noted : ChainsSound (s.modChain (chainOf x) (ChainRec.noteAbort x)) :=
    h.modChain ((h.record _).bookkeeping _ _ _ _ _ _ _)
  unfold Machine.takeAbort
  dsimp only
  split
  · exact noted.breakChain _ _
  · rename_i hs
    refine noted.modChain ((noted.record _).judged _ _ _ fun _ => ⟨by simp [Config.goodTurnsNeeded], ?_⟩)
    rw [State.chain_modChain]
    exact ((h.record _).rollcall hs).2
  · exact noted
  · exact noted

/-! ### Frames, requests and restarts -/

theorem receive (h : ChainsSound s) (g : RxHeader) (ok : Bool) {f : State → State}
    (hf : ∀ t, ChainsSound t → ChainsSound (f t)) : ChainsSound (State.receive g ok f s) := by
  have counted : ∀ k : PortCounters → PortCounters, ChainsSound (s.countPort k) := fun _ => h.kept ⟨rfl, rfl⟩
  unfold State.receive
  split
  · exact h
  · split
    · exact counted _
    · split
      · exact counted _
      · split
        · exact counted _
        · exact hf _ (counted _)

theorem takeGeneralDown (h : ChainsSound s) (unit : Addr) (payload : List Byte) :
    ChainsSound (takeGeneralDown unit payload s) := by
  have missed : ∀ k, ChainsSound (s.countCov k) := fun k => h.kept (countCov_linkOnly k s).chains
  have offered : ∀ x, ChainsSound (offerGeneralDown x unit payload s) := by
    intro x
    unfold offerGeneralDown
    dsimp only
    split
    · obtain ⟨running, room⟩ := ‹_ ∧ _›
      exact h.modChain ((h.record _).enqueued running room _)
    · exact h.count _
  unfold Machine.takeGeneralDown
  split
  · split
    · exact missed _
    · split
      · exact offered _
      · exact missed _
  all_goals exact missed _

theorem disableChain (h : ChainsSound s) (c : Chain) : ChainsSound (disableChain c s) := by
  unfold Machine.disableChain
  split
  · exact h
  · exact h.leaveRunning.enterDisabled leaveRunning_idle
  all_goals exact h.enterDisabled ((h.record c).idle (by simp [*]))

theorem enableRequest (h : ChainsSound s) (c : Chain) : (enableRequest c s).Keeps ChainsSound := by
  unfold Machine.enableRequest
  split
  · rename_i hs
    have backoff : (s.chain c).backoff = none := by
      have broken := (h.record c).backoff
      simpa [hs] using broken
    exact ⟨h.enterRollcall ((h.record c).idle (by simp [hs])) backoff _, fun _ _ h => h⟩
  all_goals exact answer_keeps _ h

theorem clearCounters (h : ChainsSound s) (a : Scope) : ChainsSound (clearCounters s a) := by
  cases a with
  | chain c => exact h.count _
  | coverage => exact h.kept ((countCov_linkOnly _ s).trans (LinkOnly.foldl (fun _ _ => modCell_linkOnly _ _ _) _ _)).chains
  | reefer first n =>
    exact h.kept ((PoolOnly.foldl (fun t i => modReefer_poolOnly i _ t) _ s).chains.trans ⟨rfl, rfl⟩)
  | _ => exact h.kept ⟨rfl, rfl⟩

theorem tick (h : ChainsSound s) : ChainsSound s.tick := by
  unfold State.tick
  split
  · exact h
  · exact ⟨h.1.tick, h.2.tick⟩

/-- The laws of the chains speak neither of the port nor of the Management Unit. -/
theorem quiet (s : State) (p : Port) (m : Mgmt) (h : ChainsSound s) : ChainsSound { s with port := p, mgmt := m } :=
  h.kept ⟨rfl, rfl⟩

/-- A reply whose state keeps both records, with nothing to follow, keeps their laws. -/
theorem reply (h : ChainsSound s) {r : Reply} (st : ChainsKept s r.st) (after : ∀ b t, ChainsKept t (r.after b t)) :
    r.Keeps ChainsSound :=
  ⟨h.kept st, fun b t ht => ht.kept (after b t)⟩

theorem setParams (h : ChainsSound s) (q : Request) : (setParams q s).Keeps ChainsSound := by
  unfold Machine.setParams
  split
  · exact h.reply (.refl s) fun _ t => .refl t
  · exact h.reply (.refl s) fun _ t => applyParams_chains _ t

theorem loadBegin (h : ChainsSound s) (q : Request) : (loadBegin q s).Keeps ChainsSound := by
  unfold Machine.loadBegin
  split
  · exact answerLoad_keeps _ h
  · split
    · exact answerLoad_keeps _ h
    · split
      · exact answerLoad_keeps _ h
      · split
        · exact answerLoad_keeps _ h
        · exact answerLoad_keeps _ (h.kept ⟨rfl, rfl⟩)

theorem refuseLoad (h : ChainsSound s) (st : Status) : (refuseLoad st s).Keeps ChainsSound :=
  answerLoad_keeps _ (h.kept (abandonLoad_chains _ s))

theorem loadSegment (h : ChainsSound s) (q : Request) : (loadSegment q s).Keeps ChainsSound := by
  unfold Machine.loadSegment
  split
  · exact answerLoad_keeps _ h
  · split
    · exact answerLoad_keeps _ h
    · split
      · exact h.refuseLoad _
      · split
        · exact h.refuseLoad _
        · exact answerLoad_keeps _ (h.kept ⟨rfl, rfl⟩)

theorem closeAndApply (h : ChainsSound s) (t : Transaction) : (closeAndApply t s).Keeps ChainsSound := by
  unfold Machine.closeAndApply
  dsimp only
  split
  · exact h.reply ⟨rfl, rfl⟩ fun _ t => .refl t
  · exact h.reply ((applyLoad_chains t.table s.mgmt.staging s).trans ⟨rfl, rfl⟩) fun _ u => (settle_linkOnly u).chains

theorem loadEnd (h : ChainsSound s) (q : Request) : (loadEnd q s).Keeps ChainsSound := by
  unfold Machine.loadEnd
  split
  · split
    · exact answerLoad_keeps _ h
    · split
      · exact h.refuseLoad _
      · split
        · exact h.refuseLoad _
        · split
          · exact h.refuseLoad _
          · exact h.closeAndApply _
  · exact answerLoad_keeps _ h

theorem readCrane (h : ChainsSound s) (k : CraneId) : (readCrane k s).Keeps ChainsSound := by
  unfold Machine.readCrane
  dsimp only
  split <;> exact answerData_keeps _ h

theorem readGroup (h : ChainsSound s) (g : GroupId) : (readGroup g s).Keeps ChainsSound := by
  unfold Machine.readGroup
  split <;> exact answerData_keeps _ h

theorem clearExcursion (h : ChainsSound s) (i : ReeferId) : (clearExcursionRequest i s).Keeps ChainsSound := by
  unfold clearExcursionRequest
  split
  · exact answer_keeps _ h
  all_goals exact h.reply (modReefer_poolOnly i _ s).chains fun _ t => .refl t

theorem clearGroup (h : ChainsSound s) (g : GroupId) : (clearGroupRequest g s).Keeps ChainsSound := by
  unfold clearGroupRequest
  split
  · exact answer_keeps _ h
  · exact h.reply (clearGroup_poolOnly g s).chains fun _ t => .refl t

theorem releaseRequest (h : ChainsSound s) (k : CraneId) : (releaseRequest k s).Keeps ChainsSound := by
  unfold Machine.releaseRequest
  split
  · exact answer_keeps _ h
  · exact answer_keeps _ h
  all_goals exact h.reply (releaseCrane_linkOnly k s).chains fun _ t => (settle_linkOnly t).chains

theorem barRequest (h : ChainsSound s) (b : Bool) (x : CellId) : (barRequest b x s).Keeps ChainsSound :=
  h.reply (setBarred_linkOnly x b s).chains fun _ t => (settle_linkOnly t).chains

theorem restartTraffic (taken : Bool) (s : State) : ChainsSound (restartTraffic taken s) :=
  ⟨.restartTraffic _, .restartTraffic _⟩

theorem restartAll (taken : Bool) (s : State) : ChainsSound (restartAll taken s) := ⟨.restartAll _, .restartAll _⟩

end ChainsSound

/-! ### Every command -/

/-- A chain at power-on is sound. -/
theorem ChainSound.atReset : ChainSound {} := ChainSound.fresh .disabled (.inl rfl) 0 _

/-- The effect of an event that keeps both records. -/
theorem take_chainsSound {s t : State} {f : State → State} (hf : ChainsKept s (f s)) (h : ChainsSound s)
    (hs : s.take f = .next t) : ChainsSound t :=
  take_keeps (fun h => h.kept hf) h hs

/-- A request that is served keeps the laws of the chains when its reply does. -/
theorem serve_chainsSound {s t : State} {k : RequestKind} {body : Request → State → Reply}
    (hbody : ∀ q u, ChainsSound u → (body q u).Keeps ChainsSound) (h : ChainsSound s)
    (hs : s.take (serve k body) = .next t) : ChainsSound t :=
  take_keeps (fun h => serve_keeps ChainsSound.quiet hbody k h) h hs

theorem exec_chainsSound (i : Instr) {s t : State} (h : ChainsSound s) (hs : exec i s = .next t) : ChainsSound t := by
  cases i with
  | resetNAssert => cases hs; exact ⟨.atReset, .atReset⟩
  | resetNRelease straps => cases hs; exact ⟨.atReset, .atReset⟩
  | linkUp => exact take_chainsSound (linkComesUp_chains s) h hs
  | linkLoss => exact take_chainsSound (linkLost_chains s) h hs
  | frameSent => exact take_chainsSound (frameSent_chains s) h hs
  | uplinkFrameDiscarded g octets => exact take_chainsSound (discardFrame_chains g octets s) h hs
  | craneDown g subject payload =>
    exact take_chainsSound (receive_chains _ _ (stationFrame_chains _ _ (takeCraneDown_chains payload)) s) h hs
  | craneResume g subject =>
    exact take_chainsSound (receive_chains _ _ (stationFrame_chains _ _ takeResume_chains) s) h hs
  | drainOpen g tag credit =>
    exact take_chainsSound
      (receive_chains _ _ (fun u => (fromCollector_poolOnly _ (takeOpen_poolOnly tag credit) u).chains) s) h hs
  | drainCheck g tag index crc =>
    exact take_chainsSound (receive_chains _ _ (fun u =>
      (fromCollector_poolOnly _ (ofOpenDrain_poolOnly tag (takeCheck_poolOnly _ crc)) u).chains) s) h hs
  | drainPause g tag =>
    exact take_chainsSound (receive_chains _ _ (fun u =>
      (fromCollector_poolOnly _ (ofOpenDrain_poolOnly tag takePause_poolOnly) u).chains) s) h hs
  | drainResume g tag =>
    exact take_chainsSound (receive_chains _ _ (fun u =>
      (fromCollector_poolOnly _ (ofOpenDrain_poolOnly tag takeDrainResume_poolOnly) u).chains) s) h hs
  | drainStop g tag =>
    exact take_chainsSound (receive_chains _ _ (fun u =>
      (fromCollector_poolOnly _ (ofOpenDrain_poolOnly tag takeStop_poolOnly) u).chains) s) h hs
  | mgmtRequest g id command data => exact take_chainsSound (receive_chains _ _ (fromManager_chains _) s) h hs
  | generalFrame g unit payload =>
    exact take_keeps (fun h => h.receive _ _ fun _ ht => ht.takeGeneralDown _ _) h hs
  | cycleTimerExpiry c => exact take_keeps (fun h => h.cycleExpiry c) h hs
  | backoffTimerExpiry c => exact take_keeps (fun h => h.backoffExpiry c) h hs
  | stableTimerExpiry c => exact take_keeps (fun h => h.stableExpiry c) h hs
  | signalLoss c => exact take_keeps (fun h => h.lineSilent c) h hs
  | fillBlock c => exact take_keeps (fun h => h.onBlock c fun _ ht => ht) h hs
  | openerReturned c => exact take_keeps (fun h => h.onBlock c fun _ ht => ht) h hs
  | undeliveredDownlink x => exact take_keeps (fun h => h.onBlock _ fun _ ht => ht.count _) h hs
  | craneUp x radio seq payload =>
    exact take_keeps (fun h => h.uplinkBlock x _ fun u => (takeCraneUp_linkOnly _ _ _ _ u).chains) h hs
  | reeferReport x r => exact take_keeps (fun h => h.uplinkBlock x _ fun u => (takeReport_poolOnly _ _ u).chains) h hs
  | generalUp x unit payload => exact take_keeps (fun h => h.uplinkBlock x _ (takeGeneralUp_chains _ _ _)) h hs
  | turnMarker c cycle records =>
    refine take_keeps (fun h => h.onBlock c fun u hu => ?_) h hs
    split
    · exact hu.takeTurn _ _ _
    · exact hu.count _
  | abortMarker x => exact take_keeps (fun h => h.onBlock _ fun _ ht => ht.takeAbort x) h hs
  | malformedBlock c b =>
    refine take_keeps (fun h => h.onBlock c fun u hu => ?_) h hs
    split
    · exact hu.count _
    · exact hu
  | supervisionTimerExpiry k => exact take_chainsSound (superviseExpiry_linkOnly k s).chains h hs
  | handoverCountdownExpiry k =>
    exact take_chainsSound (f := fun u => settle (timeoutIfDue k u))
      ((timeoutIfDue_linkOnly k s).trans (settle_linkOnly _)).chains h hs
  | failedTargetBarExpiry k => exact take_chainsSound (barEndIfDue_linkOnly k s).chains h hs
  | reportTick => exact take_chainsSound (reportTick_chains s) h hs
  | missCharge i => exact take_chainsSound (missIfDue_poolOnly i s).chains h hs
  | generalAgeOut j => exact take_chainsSound (ageOutIfDue_chains j s) h hs
  | sealTimeExpiry u =>
    exact take_chainsSound (f := fun v => afterSeal v (sealOpen u .age v))
      ((sealOpen_poolOnly u .age s).trans (afterSeal_poolOnly s _)).chains h hs
  | checkTimerExpiry index => exact take_chainsSound (checkExpiry_poolOnly index s).chains h hs
  | pauseTimerExpiry => exact take_chainsSound (pauseExpiry_poolOnly s).chains h hs
  | transactionTimerExpiry => exact take_chainsSound (abandonUnreported_chains .timeout s) h hs
  | identify => exact serve_chainsSound (fun q _ h => withoutData_keeps h (answerData_keeps _ h) q) h hs
  | readParams => exact serve_chainsSound (fun q _ h => withoutData_keeps h (answerData_keeps _ h) q) h hs
  | setParams => exact serve_chainsSound (fun q _ h => h.setParams q) h hs
  | loadBegin => exact serve_chainsSound (fun q _ h => h.loadBegin q) h hs
  | loadSegment => exact serve_chainsSound (fun q _ h => h.loadSegment q) h hs
  | loadEnd => exact serve_chainsSound (fun q _ h => h.loadEnd q) h hs
  | readCrane => exact serve_chainsSound (fun q _ h => withArg_keeps h (fun k => h.readCrane k) _ q) h hs
  | readCell => exact serve_chainsSound (fun q _ h => withArg_keeps h (fun _ => answerData_keeps _ h) _ q) h hs
  | readChain => exact serve_chainsSound (fun q _ h => withArg_keeps h (fun _ => answerData_keeps _ h) _ q) h hs
  | readReefer => exact serve_chainsSound (fun q _ h => withArg_keeps h (fun _ => answerData_keeps _ h) _ q) h hs
  | readGroup => exact serve_chainsSound (fun q _ h => withArg_keeps h (fun g => h.readGroup g) _ q) h hs
  | readBatches => exact serve_chainsSound (fun q _ h => withoutData_keeps h (answerData_keeps _ h) q) h hs
  | readDrain => exact serve_chainsSound (fun q _ h => withoutData_keeps h (answerData_keeps _ h) q) h hs
  | readCounters =>
    refine serve_chainsSound (fun q u h => withArg_keeps h (fun a => ⟨?_, fun _ _ h => h⟩) _ q) h hs
    unfold readCounters
    dsimp only
    split
    · exact h.clearCounters _
    · exact h
  | clearExcursion => exact serve_chainsSound (fun q _ h => withArg_keeps h (fun i => h.clearExcursion i) _ q) h hs
  | clearGroup => exact serve_chainsSound (fun q _ h => withArg_keeps h (fun g => h.clearGroup g) _ q) h hs
  | releaseCrane => exact serve_chainsSound (fun q _ h => withArg_keeps h (fun k => h.releaseRequest k) _ q) h hs
  | barCell => exact serve_chainsSound (fun q _ h => withArg_keeps h (fun x => h.barRequest true x) _ q) h hs
  | unbarCell => exact serve_chainsSound (fun q _ h => withArg_keeps h (fun x => h.barRequest false x) _ q) h hs
  | chainEnable => exact serve_chainsSound (fun q _ h => withArg_keeps h (fun c => h.enableRequest c) _ q) h hs
  | chainDisable =>
    exact serve_chainsSound (fun q _ h => withArg_keeps h (fun c => ⟨h.disableChain c, fun _ _ h => h⟩) _ q) h hs
  | restartTraffic =>
    exact serve_chainsSound
      (fun q _ h => withoutData_keeps h ⟨h, fun b t _ => ChainsSound.restartTraffic b t⟩ q) h hs
  | restartAll =>
    exact serve_chainsSound (fun q _ h => withoutData_keeps h ⟨h, fun b t _ => ChainsSound.restartAll b t⟩ q) h hs
  | unknownRequest => exact take_keeps (fun h => takeUnknown_keeps ChainsSound.quiet h) h hs
  | rollcallLedBlink c =>
    refine take_chainsSound ?_ h hs
    unfold rollcallBlink
    split
    · cases c <;> exact ⟨rfl, rfl⟩
    · exact .refl s

end Machine

open Machine

/-- Settles O10: no quarter of a millisecond and no command breaks the laws of a chain record. -/
theorem stepKeepsTheChainsSound : Obligations.StepKeepsTheChainsSound := by
  intro s t h hs
  unfold step at hs
  split at hs
  next =>
    cases hs
    exact h.tick
  next c rest _ =>
    have rested : ChainsSound { s with pending := rest } := h.kept ⟨rfl, rfl⟩
    exact exec_chainsSound c rested hs

end Sys2Proof
end

