-- ==== Sys2Proof/Proofs/CycleEnds.lean ====
section
/-! O28: what a cycle-end event reports, and the expiry of the cycle timer of a chain that sends no cycle (R10, R35). -/

namespace Sys2Proof
namespace Machine

/-! ### Change flags (R34, R35) -/

/-- Clearing flags changes the cells alone. -/
theorem clearFlags_cellsOnly (l : List CellId) (s : State) :
    ∃ cells, clearFlags l s = { s with cov := { s.cov with cells := cells } } := by
  unfold clearFlags
  induction l generalizing s with
  | nil => exact ⟨_, rfl⟩
  | cons x l ih => exact ih (s.modCell x fun r => { r with changed := false })

/-- Clearing flags does not read the port. -/
theorem clearFlags_port (l : List CellId) (s : State) (p : Port) :
    clearFlags l { s with port := p } = { clearFlags l s with port := p } := by
  unfold clearFlags
  induction l generalizing s with
  | nil => rfl
  | cons x l ih => exact ih (s.modCell x fun r => { r with changed := false })

theorem clearFlags_cell (l : List CellId) (s : State) (x : CellId) :
    (clearFlags l s).cell x = { s.cell x with changed := (s.cell x).changed && !l.contains x } := by
  unfold clearFlags
  induction l generalizing s with
  | nil => simp
  | cons y l ih =>
    rw [List.foldl_cons, ih]
    by_cases h : x = y
    · subst h
      simp
    · simp [State.cell_modCell_ne _ h, h]

/-- An item of the notice in the terms of R35. -/
theorem cellItem_eq (s : State) (x : CellId) : cellItem s x =
    { cell := x, unit := (s.cell x).unit, shadowCount := (s.cell x).shadowCount
      usable := decide ((s.cell x).unit = .up ∧ (s.cell x).barred = false ∧ (s.cell x).shadowCount = 0) } := by
  simp [cellItem, usable, Bool.and_assoc]

/-! ### The three ways a cycle-end event ends (R35, R147, R152) -/

section CycleEnd

variable {c : Chain} {s : State}

/-- The CELL-CHANGE notice of the flagged cells, as it is offered. -/
def changeFrame (c : Chain) (cause : CycleEndCause) (a : Addr) (s : State) : TxFrame :=
  s.noticeFrame a (.cellChange c cause ((flaggedCells s c).map (cellItem s)))

theorem cycleEnd_unflagged (h : flaggedCells s c = []) (cause : CycleEndCause) : cycleEnd c cause s = s := by
  simp [cycleEnd, h]

theorem cycleEnd_uncontrolled (h : flaggedCells s c ≠ []) (hc : s.params.controller = none) (cause : CycleEndCause) :
    cycleEnd c cause s = clearFlags (flaggedCells s c) s := by
  unfold cycleEnd
  split
  · contradiction
  · rw [hc]

theorem cycleEnd_controlled (h : flaggedCells s c ≠ []) {a : Addr} (hc : s.params.controller = some a)
    (cause : CycleEndCause) :
    cycleEnd c cause s =
      let o := s.offer .control (changeFrame c cause a s)
      if o.2 then
        ((clearFlags (flaggedCells s c) o.1).countCov fun k => { k with changeQueued := k.changeQueued + 1 }).countPort
          fun k => { k with noticesQueued := k.noticesQueued + 1 }
      else o.1.countCov fun k => { k with changeDeferred := k.changeDeferred + 1 } := by
  unfold cycleEnd
  split
  · contradiction
  · rw [hc]
    rfl

/-- A refused notice is counted as deferred, and the flags stand. -/
theorem cycleEnd_refused (h : flaggedCells s c ≠ []) {a : Addr} (hc : s.params.controller = some a)
    {cause : CycleEndCause} {p : Port} (ho : s.port.offer .control (changeFrame c cause a s) = (p, false)) :
    cycleEnd c cause s =
      { s with
        port := p
        cov := { s.cov with counters :=
          { s.cov.counters with changeDeferred := s.cov.counters.changeDeferred + 1 } } } := by
  rw [cycleEnd_controlled h hc]
  simp [State.offer, ho, State.countCov]

/-- A notice that is taken clears the flags it reports. -/
theorem cycleEnd_taken (h : flaggedCells s c ≠ []) {a : Addr} (hc : s.params.controller = some a)
    {cause : CycleEndCause} (ho : (s.port.offer .control (changeFrame c cause a s)).2 = true) :
    cycleEnd c cause s =
      { s with
        port := s.port.noticed (changeFrame c cause a s)
        cov := { s.cov with
          cells := (clearFlags (flaggedCells s c) s).cov.cells
          counters := { s.cov.counters with changeQueued := s.cov.counters.changeQueued + 1 } } } := by
  rw [cycleEnd_controlled h hc]
  simp only [State.offer, ho, if_true, clearFlags_port]
  obtain ⟨cells, cleared⟩ := clearFlags_cellsOnly (flaggedCells s c) s
  simp [cleared, Port.noticed, ho, State.countCov, State.modPort]

/-- What a cycle-end event does is what R35 says. -/
theorem cycleEnd_reports (c : Chain) (cause : CycleEndCause) (s : State) :
    CellsReported c cause s (cycleEnd c cause s) := by
  have items : (flaggedCells s c).map (cellItem s) = ((cellsOf c).filter fun x => (s.cell x).changed).map fun x =>
      ({ cell := x, unit := (s.cell x).unit, shadowCount := (s.cell x).shadowCount
         usable := decide ((s.cell x).unit = .up ∧ (s.cell x).barred = false ∧ (s.cell x).shadowCount = 0) } : CellItem) :=
    List.map_congr_left fun x _ => cellItem_eq s x
  refine ⟨fun none => cycleEnd_unflagged none cause, fun some uncontrolled => ?_, fun a some controlled => ⟨?_, ?_, ?_⟩⟩
  · rw [cycleEnd_uncontrolled some uncontrolled]
    refine ⟨?_, clearFlags_cell _ s⟩
    obtain ⟨cells, cleared⟩ := clearFlags_cellsOnly (flaggedCells s c) s
    rw [cleared]
  · intro down
    exact cycleEnd_refused some controlled (offer_down down .control _)
  · intro linkUp full
    exact cycleEnd_refused some controlled (offer_full (c := .control) linkUp full _)
  · intro linkUp room
    have taken : (s.port.offer .control (changeFrame c cause a s)).2 = true := by rw [offer_taken (c := .control) linkUp room]
    rw [cycleEnd_taken some controlled taken]
    refine ⟨clearFlags_cell (flaggedCells s c) s, ?_⟩
    simp only [changeFrame, items]

end CycleEnd

/-- A cycle-end event leaves everything but the port, the cells and the counters of the Coverage Unit. -/
theorem cycleEnd_frame (c : Chain) (cause : CycleEndCause) (s : State) :
    cycleEnd c cause s =
      { s with
        port := (cycleEnd c cause s).port
        cov := { s.cov with
          cells := (cycleEnd c cause s).cov.cells, counters := (cycleEnd c cause s).cov.counters } } := by
  by_cases flagged : flaggedCells s c = []
  · rw [cycleEnd_unflagged flagged]
  · cases controlled : s.params.controller with
    | none =>
      rw [cycleEnd_uncontrolled flagged controlled]
      obtain ⟨cells, cleared⟩ := clearFlags_cellsOnly (flaggedCells s c) s
      rw [cleared]
    | some a =>
      cases taken : (s.port.offer .control (changeFrame c cause a s)).2 with
      | false => rw [cycleEnd_refused flagged controlled (Prod.ext rfl taken)]
      | true => rw [cycleEnd_taken flagged controlled taken]

end Machine

open Machine

/-- Settles O28, by the ways a cycle-end event ends. -/
theorem cycleTimerOfAnIdleChainReportsItsCells : Obligations.CycleTimerOfAnIdleChainReportsItsCells := by
  refine ⟨fun c s awake idle => ?_, cycleEnd_reports⟩
  have expiry : cycleExpiry c s = cycleEnd c .noCycle (s.modChain c fun r => { r with cycleTimer := s.params.cyclePeriod }) := by
    rcases idle with idle | idle <;> simp [cycleExpiry, idle]
  refine ⟨_, (State.take_awake awake (cycleExpiry c)).trans (by rw [expiry]), cycleEnd_reports _ _ _, ?_⟩
  rw [← State.modChain_cov s c fun r => { r with cycleTimer := s.params.cyclePeriod }]
  exact cycleEnd_frame _ _ _

end Sys2Proof
end

