-- ==== Sys2Proof/Proofs/ChainEvents.lean ====
section
/-! O31, O32 and O35: the backoff, stable and blink timers, the blocks of the returning stream that are only counted, and
the GENERAL frames of the downlink queues. -/

namespace Sys2Proof
namespace Machine

/-! ### Timers of a chain (R5, R8, R172) -/

/-- The backoff timer takes a BROKEN chain to ROLLCALL, its timer stopped (R8). -/
theorem backoffExpiry_due {c : Chain} {s : State} (broken : (s.chain c).state = .broken)
    (runs : (s.chain c).backoff.isSome) :
    backoffExpiry c s = enterState c .backoffExpired .rollcall none
      (fun r => { r with goodTurns := 0, rollcallTurns := 0, heard := [], awaited := none })
      (s.modChain c fun r => { r with backoff := none }) := by
  simp [backoffExpiry, broken, runs, enterRollcall_eq]

theorem backoffExpiry_notDue {c : Chain} {s : State} (h : (s.chain c).state ≠ .broken ∨ (s.chain c).backoff = none) :
    backoffExpiry c s = s := by
  rcases h with h | h <;> simp [backoffExpiry, h]

/-- The light of a ROLLCALL chain's LED in the terms of R172. -/
theorem chainLed_rollcall (ms : U32) : chainLed .rollcall ms = decide (ms.toNat % 500 < 250) := rfl

/-! ### Blocks of the returning stream (R3, R17, R21) -/

theorem onBlock_disabled {c : Chain} {s : State} (h : (s.chain c).state = .disabled) (f : State → State) :
    onBlock c f s = s := by
  simp [onBlock, h]

theorem onBlock_heard {c : Chain} {s : State} (h : (s.chain c).state ≠ .disabled) (f : State → State) :
    onBlock c f s = f (s.lineHeard c) := by
  simp [onBlock, h, State.lineHeard]

@[simp] theorem State.lineHeard_state (s : State) (c : Chain) : ((s.lineHeard c).chain c).state = (s.chain c).state := by
  simp [State.lineHeard]

@[simp] theorem State.lineHeard_awaited (s : State) (c : Chain) :
    ((s.lineHeard c).chain c).awaited = (s.chain c).awaited := by
  simp [State.lineHeard]

@[simp] theorem State.cell_lineHeard (s : State) (c : Chain) (x : CellId) : (s.lineHeard c).cell x = s.cell x :=
  State.cell_modChain s c _ x

/-- An uplink block of a cell that is not granted is discarded and counted (R7, R18a). -/
theorem uplinkBlock_ungranted {x : CellId} {s : State} (enabled : (s.chain (chainOf x)).state ≠ .disabled)
    (h : (s.chain (chainOf x)).state ≠ .running ∨ (s.cell x).fitted = false) (f : State → State) :
    uplinkBlock x true f s =
      (s.lineHeard (chainOf x)).countChain (chainOf x) fun k => { k with ungranted := k.ungranted + 1 } := by
  rw [uplinkBlock, onBlock_heard enabled]
  rcases h with h | h <;> simp [h]

/-- A cell is the one a received octet names exactly when it is a cell of the chain with that number. -/
theorem cellOn_eq_some {c : Chain} {o : Byte} {x : CellId} : cellOn c o = some x ↔ chainOf x = c ∧ x.val = o.toNat := by
  unfold cellOn
  constructor
  · intro h
    exact ⟨mem_cellsOf.1 (List.mem_of_find?_eq_some h), by simpa using List.find?_some h⟩
  · rintro ⟨on, named⟩
    cases hf : (cellsOf c).find? fun y => y.val == o.toNat with
    | none => exact absurd named (by simpa using List.find?_eq_none.1 hf x (mem_cellsOf.2 on))
    | some y =>
      have : y.val = o.toNat := by simpa using List.find?_some hf
      rw [Option.some.injEq, Fin.ext_iff, this, named]

/-- A received octet names a cell of the chain. -/
theorem cellOn_isSome {c : Chain} {o : Byte} : (cellOn c o).isSome ↔ ∃ x : CellId, chainOf x = c ∧ x.val = o.toNat := by
  simp only [Option.isSome_iff_exists, cellOn_eq_some]

/-- The length a kind allows, in the terms of R170's table. -/
theorem blockLengthOk_iff (kind : Byte) (length : Nat) (content : List Byte) :
    blockLengthOk kind length content = some true ↔
      kind.toNat = 0x00 ∨ kind.toNat = 0x01 ∧ length = 2
      ∨ kind.toNat = 0x02 ∧ (content.getD 17 0).toNat ≤ 8 ∧ length = 18 + 3 * (content.getD 17 0).toNat
      ∨ kind.toNat = 0x03 ∧ length = 0 ∨ kind.toNat = 0x10 ∧ length = 11 ∨ kind.toNat = 0x11 ∧ length = 12
      ∨ kind.toNat = 0x12 ∧ length = 10
      ∨ (kind.toNat = 0x13 ∨ kind.toNat = 0x14 ∨ kind.toNat = 0x22) ∧ 7 ≤ length ∨ kind.toNat = 0x20 ∧ 10 ≤ length
      ∨ kind.toNat = 0x21 ∧ (content.getD 15 0).toNat ≤ 4 ∧ length = 16 + 2 * (content.getD 15 0).toNat := by
  have head : ∀ n, (content.drop n).headD 0 = content.getD n 0 := by
    intro n
    rw [List.headD_eq_head?_getD, List.head?_drop, List.getD_eq_getElem?_getD]
  unfold blockLengthOk
  simp only [head]
  generalize kind.toNat = k
  split <;> simp_all

/-- A block that is not malformed passes its three tests (R17, R170). -/
theorem blockMalformed_iff (c : Chain) (b : RawBlock) :
    blockMalformed c b = true ↔
      ¬(blockLengthOk b.kind b.length.toNat b.content = some true
        ∧ ¬b.slots * Config.slotOctets < 4 + b.length.toNat
        ∧ (blockHasCell b.kind && (cellOn c b.cell).isNone) = false) := by
  unfold blockMalformed
  cases blockLengthOk b.kind b.length.toNat b.content with
  | none => simp
  | some ok => cases ok <;> simp [or_iff_not_imp_left]

/-! ### General frames (R14, R43) -/

theorem carriesGeneral_iff (s : State) (x : CellId) :
    carriesGeneral s x = true ↔ (s.cell x).unit = .up ∨ (s.cell x).unit = .fading := by
  simp [carriesGeneral]

@[simp] theorem State.chain_received (s : State) (c : Chain) : s.received.chain c = s.chain c := by
  cases c <;> rfl

end Machine

open Machine

/-- Settles O31, timer by timer. -/
theorem backoffStableAndBlinkTimers : Obligations.BackoffStableAndBlinkTimers := by
  refine ⟨fun c s awake => ⟨fun broken runs => ?_, fun h => ?_⟩, fun c s awake => ⟨fun runs => ?_, fun h => ?_⟩,
    fun c s awake => ⟨fun rollcall => ?_, fun h => ?_⟩⟩
  · refine ⟨_, (State.take_awake awake (backoffExpiry c)).trans (by rw [backoffExpiry_due broken runs]), ?_, ?_, ?_, ?_⟩
    · rw [enterState_frame]
      cases c <;> rfl
    · intro d hd
      rw [enterState_chain_ne _ _ _ _ _ _ hd, State.chain_modChain_ne _ hd]
    · rw [enterState_frame]
      exact State.controllerNoticed_modChain _ _ _ _
    · rw [enterState_chain, State.chain_modChain]
  · exact (State.take_awake awake (backoffExpiry c)).trans (by rw [backoffExpiry_notDue h])
  · refine (State.take_awake awake (stableExpiry c)).trans ?_
    simp [stableExpiry, runs, Config.firstBackoff]
  · refine (State.take_awake awake (stableExpiry c)).trans ?_
    simp [stableExpiry, h]
  · refine (State.take_awake awake (rollcallBlink c)).trans ?_
    cases c <;> simp [rollcallBlink, rollcall, chainLed_rollcall]
  · refine (State.take_awake awake (rollcallBlink c)).trans ?_
    simp [rollcallBlink, h]

/-- Settles O32, kind of block by kind of block. -/
theorem blocksThatAreOnlyCounted : Obligations.BlocksThatAreOnlyCounted := by
  refine ⟨?_, ?_, ?_, ?_⟩
  · rintro c x b s awake rfl malformed
    have taken : ∀ f, s.take (onBlock (chainOf x) f) = .next (onBlock (chainOf x) f s) := fun f => State.take_awake awake _
    have counted : (if blockMalformed (chainOf x) b then countMalformed (chainOf x) 1 else id) = countMalformed (chainOf x) 1 :=
      if_pos malformed
    refine ⟨fun enabled => ⟨?_, ?_, ?_, ?_⟩, fun disabled => ⟨?_, ?_, ?_, ?_⟩⟩
    · exact (taken _).trans (by rw [onBlock_heard enabled]; rfl)
    · exact (taken _).trans (by rw [onBlock_heard enabled]; rfl)
    · exact (taken _).trans (by rw [onBlock_heard enabled])
    · exact (taken _).trans (by rw [onBlock_heard enabled, counted]; rfl)
    all_goals exact (taken _).trans (by rw [onBlock_disabled disabled])
  · intro x radio seq payload r s awake long few enabled ungranted
    have discarded : ∀ f, s.take (uplinkBlock x true f) = .next
        ((s.lineHeard (chainOf x)).countChain (chainOf x) fun k => { k with ungranted := k.ungranted + 1 }) := fun f =>
      (State.take_awake awake _).trans (by rw [uplinkBlock_ungranted enabled ungranted])
    refine ⟨?_, ?_, ?_⟩
    · rw [← discarded (takeCraneUp x radio seq payload), ← decide_eq_true long]
      rfl
    · rw [← discarded (takeReport x r), ← decide_eq_true few]
      rfl
    · rw [← discarded (takeGeneralUp x radio payload), ← decide_eq_true (show 1 ≤ payload.length by omega)]
      rfl
  · intro c cycle records s awake few enabled stale
    refine (State.take_awake awake _).trans ?_
    rw [onBlock_heard enabled, if_pos few, takeTurn, if_neg (by rwa [State.lineHeard_awaited])]
    rfl
  · intro c b
    have allowed := blockLengthOk_iff b.kind b.length.toNat b.content
    have named : (blockHasCell b.kind && (cellOn c b.cell).isNone) = false ↔
        b.kind.toNat ≤ 2 ∨ ∃ x : CellId, chainOf x = c ∧ x.val = b.cell.toNat := by
      rw [← cellOn_isSome]
      cases cellOn c b.cell <;> simp [blockHasCell]
    dsimp only
    rw [← allowed, ← named]
    have fits : 4 + b.length.toNat ≤ 128 * b.slots ↔ ¬b.slots * Config.slotOctets < 4 + b.length.toNat := by
      simp only [Config.slotOctets]
      omega
    rw [fits]
    exact blockMalformed_iff c b

/-- Settles O35, by what the directory holds for the unit. -/
theorem generalFrameFollowsItsUnit : Obligations.GeneralFrameFollowsItsUnit := by
  intro h unit payload s reaches long
  have taken : exec (.generalFrame h unit payload) s = .next (takeGeneralDown unit payload s.received) := by
    refine (State.take_awake reaches.awake _).trans ?_
    rw [decide_eq_true long, receive_reaches reaches]
  have found : dirFind s.received unit = dirFind s unit := rfl
  dsimp only
  rw [taken]
  refine ⟨fun j r hunit hrec => ?_, fun unknown => ?_, fun defined => ?_⟩
  · have listed : sparseFind s.received.cov.general j.val = some r := hrec
    have carried : carriesGeneral s.received r.cell = true ↔
        (s.cell r.cell).unit = .up ∨ (s.cell r.cell).unit = .fading := by
      rw [carriesGeneral_iff]
      rfl
    rw [takeGeneralDown, found, hunit]
    simp only [listed]
    refine ⟨fun hc room => ?_, fun hc full => ?_, fun hc => ?_⟩
    · rw [if_pos (carried.2 hc), offerGeneralDown]
      simp only [State.chain_received, Config.generalDownCapacity]
      rw [if_pos room]
    · rw [if_pos (carried.2 hc), offerGeneralDown]
      simp only [State.chain_received, Config.generalDownCapacity]
      rw [if_neg full]
    · rw [if_neg (mt carried.1 hc)]
  · rw [takeGeneralDown, found, unknown]
  · rw [takeGeneralDown, found]
    unfold dirCrane dirReefer at defined
    split <;> simp_all

end Sys2Proof
end

