-- ==== Sys2Proof/Proofs/Reads.lean ====
section
/-! O49: how a request is answered whose reply leaves nothing to follow, and what the reads of records report. -/

namespace Sys2Proof
namespace Machine

/-! ### A request answered (R155, R156) -/

/-- A request that is no part of a load, whose reply leaves nothing to follow, is answered with what the reply says. -/
theorem serve_answered {s : State} {k : RequestKind} {q : Request} {rest : List Request} (h : HeadIs s k q rest)
    (alone : k.continuesLoad = false) {body : Request → State → Reply} {r : Reply}
    (hr : body q (s.taking q rest) = r) (done : r.after = fun _ t => t) :
    s.take (serve k body) = .next (r.st.answered q r.status s.abandonedFlag r.changed r.data) := by
  rw [State.take_awake h.awake, serve_head h, alone]
  obtain ⟨taken, executed⟩ := executeHead_interleaves q rest body s
  rw [Bool.not_false, executed, hr, done]

/-- A read is answered OK with its data, and the state as the taking of the request left it. -/
theorem serve_reads {s : State} {k : RequestKind} {q : Request} {rest : List Request} (h : HeadIs s k q rest)
    (alone : k.continuesLoad = false) {body : Request → State → Reply} {d : ResponseData}
    (hr : body q (s.taking q rest) = answerData d (s.taking q rest)) :
    s.take (serve k body) = .next ((s.taking q rest).answered q .ok s.abandonedFlag false d) :=
  serve_answered h alone hr rfl

/-- A request answered with a status and nothing else. -/
theorem serve_status {s : State} {k : RequestKind} {q : Request} {rest : List Request} (h : HeadIs s k q rest)
    (alone : k.continuesLoad = false) {body : Request → State → Reply} {st : Status}
    (hr : body q (s.taking q rest) = answer st (s.taking q rest)) :
    s.take (serve k body) = .next ((s.taking q rest).answered q st s.abandonedFlag false .none) :=
  serve_answered h alone hr rfl

/-! ### The thing a request names (R156, R166) -/

theorem withArg_some {α : Type} {parse : List Byte → Option α} {q : Request} {a : α} (h : parse q.data = some a)
    (f : α → State → Reply) (s : State) : withArg parse f q s = f a s := by
  simp [withArg, h]

theorem withArg_none {α : Type} {parse : List Byte → Option α} {q : Request} (h : parse q.data = none)
    (f : α → State → Reply) (s : State) : withArg parse f q s = answer .range s := by
  simp [withArg, h]

/-- A number below 256 is named by the octet of its value. -/
theorem octetBelow_ofNat {n : Nat} (h : n ≤ 256) (k : Fin n) : octetBelow n [BitVec.ofNat 8 k.val] = some k := by
  have small : k.val % 256 = k.val := Nat.mod_eq_of_lt (by omega)
  simp [octetBelow, below, small]

/-! ### Records do not depend on the request taken -/

section Taking

variable (s : State) (q : Request) (rest : List Request)

@[simp] theorem State.crane_taking (k : CraneId) : (s.taking q rest).crane k = s.crane k := rfl
@[simp] theorem State.cell_taking (x : CellId) : (s.taking q rest).cell x = s.cell x := rfl
@[simp] theorem State.group_taking (g : GroupId) : (s.taking q rest).group g = s.group g := rfl
@[simp] theorem State.reefer_taking (i : ReeferId) : (s.taking q rest).reefer i = s.reefer i := rfl
@[simp] theorem State.chain_taking (c : Chain) : (s.taking q rest).chain c = s.chain c := by cases c <;> rfl

end Taking

/-! ### What the reads report (R1, R23, R60, R110) -/

theorem msRemaining_eq (t : Timer) : msRemaining t = t.map fun n => (n + 3) / 4 := rfl

theorem readCrane_eq (k : CraneId) (s : State) : readCrane k s = answerData
    (if (s.crane k).state = .vacant then .vacantCrane
     else .crane
      { record := { s.crane k with queue := [], window := none, oldHoldOff := none, supervision := none }
        supervision := (s.crane k).supervision.map fun n => (n + 3) / 4
        queueDests := (s.crane k).queue.map DownEntry.dests
        window := (s.crane k).window.map fun w =>
          (w.base, ((List.range 64).filter fun i => w.marks.getLsbD i).length) }) s := by
  have marks : ∀ w : Window, w.markCount = ((List.range 64).filter fun i => w.marks.getLsbD i).length := fun w =>
    List.countP_eq_length_filter
  simp only [readCrane, marks, msRemaining_eq]
  cases (s.crane k).state <;> simp

theorem readGroup_eq (g : GroupId) (s : State) : readGroup g s =
    answerData (if (s.group g).defn = none then .undefinedGroup else .group (s.group g)) s := by
  unfold readGroup
  split <;> simp [*]

/-- A run within the table is named by its first index and its count (R110). -/
theorem reeferRun_eq (a b n : Byte) : reeferRun [a, b, n] =
    if a.toNat * 256 + b.toNat ≤ 4095 ∧ 1 ≤ n.toNat ∧ n.toNat ≤ 16 ∧ a.toNat * 256 + b.toNat + n.toNat ≤ 4096 then
      some (a.toNat * 256 + b.toNat, n.toNat)
    else none := by
  simp only [reeferRun, valueOf, List.foldl_cons, List.foldl_nil, Nat.zero_mul, Nat.zero_add, ← Nat.lt_succ_iff]

/-- The reefers of a run within the table, in index order. -/
theorem reefersOf_eq (s : State) {first count : Nat} (h : first + count ≤ 4096) :
    reefersOf s (first, count) =
      (List.range count).map fun n => (sparseFind s.ree.reefers (first + n)).getD Reefer.vacant := by
  rw [reefersOf, ← List.filterMap_eq_map]
  refine List.filterMap_congr fun n hn => ?_
  have inside : first + n < 4096 := by
    have := List.mem_range.1 hn
    omega
  simp [below, inside, State.reefer]

theorem reefersOf_length (s : State) {first count : Nat} (h : first + count ≤ 4096) :
    (reefersOf s (first, count)).length = count := by
  simp [reefersOf_eq s h]

theorem reefersOf_getElem? (s : State) {first count : Nat} (h : first + count ≤ 4096) {i : ReeferId} (lo : first ≤ i.val)
    (hi : i.val < first + count) : (reefersOf s (first, count))[i.val - first]? = some (s.reefer i) := by
  have place : i.val - first < count := by omega
  have number : first + (i.val - first) = i.val := by omega
  simp [reefersOf_eq s h, place, number, State.reefer]

end Machine

open Machine

/-- Settles O49, read by read. -/
theorem readsReportTheRecords : Obligations.ReadsReportTheRecords := by
  refine ⟨fun q rest k s head data => ?_, fun q rest s => ⟨fun x head data => ?_, fun c head data => ?_,
    fun g head data => ?_⟩, fun q rest a b n s head data => ⟨fun inside => ?_, fun outside => ?_⟩⟩
  · refine serve_reads head rfl ?_
    rw [withArg_some (by rw [data]; exact octetBelow_ofNat (by decide) k), readCrane_eq, State.crane_taking]
  · refine serve_reads head rfl ?_
    rw [withArg_some (by rw [data]; exact octetBelow_ofNat (by decide) x)]
    rfl
  · have named : chainNamed q.data = some c := by rw [data]; cases c <;> rfl
    refine serve_reads head rfl ?_
    rw [withArg_some named, readChain, State.chain_taking]
    rfl
  · refine serve_reads head rfl ?_
    rw [withArg_some (by rw [data]; exact octetBelow_ofNat (by decide) g), readGroup_eq, State.group_taking]
  · have run : reeferRun q.data = some (a.toNat * 256 + b.toNat, n.toNat) := by
      rw [data, reeferRun_eq, if_pos inside]
    obtain ⟨-, -, -, within⟩ := inside
    refine ⟨reefersOf s (a.toNat * 256 + b.toNat, n.toNat), serve_reads head rfl ?_, reefersOf_length s within,
      fun i lo hi => reefersOf_getElem? s within lo hi⟩
    rw [withArg_some run]
    rfl
  · refine serve_status head rfl ?_
    rw [withArg_none (by rw [data, reeferRun_eq, if_neg outside])]

end Sys2Proof
end

