-- ==== Sys2Proof/Proofs/LinkMoves.lean ====
section
/-! SUPPORT. The single moves of which handover and everything that follows an event consists (R31-R33, R75-R91), and what no
run of them touches: the link state, and of a cell all but its reserved slots, its shadow count and its change flag. -/

namespace Sys2Proof
namespace Machine

/-- A run of the moves that handover and the settling of events are made of: a notice offered or suppressed, a claim's or a
flag's change of one cell, a change of one crane that keeps its definition, a count of the Coverage Unit, and the lists of
pending notices and of events set anew. -/
inductive LinkMoves : State → State → Prop
  | refl (s : State) : LinkMoves s s
  | trans {s t u : State} : LinkMoves s t → LinkMoves t u → LinkMoves s u
  | noticed (s : State) (f : TxFrame) : LinkMoves s { s with port := s.port.noticed f }
  | suppressed (s : State) :
      LinkMoves s (s.countPort fun k => { k with noticesSuppressed := k.noticesSuppressed + 1 })
  | cell (s : State) (x : CellId) (reserved shadow : Cell → Nat) (flag : Cell → Bool) :
      LinkMoves s (s.modCell x fun r => { r with reserved := reserved r, shadowCount := shadow r, changed := flag r })
  | crane (s : State) (k : CraneId) (f : Crane → Crane) (defn : ∀ c, (f c).defn = c.defn := by intros; rfl) :
      LinkMoves s (s.modCrane k f)
  | count (s : State) (f : CoverageCounters → CoverageCounters) : LinkMoves s (s.countCov f)
  | notices (s : State) (l : List PendingNotice) : LinkMoves s { s with clu := { s.clu with notices := l } }
  | events (s : State) (l : List CluEvent) : LinkMoves s { s with events := l }

namespace LinkMoves

theorem foldl {α : Type} {f : State → α → State} (h : ∀ s a, LinkMoves s (f s a)) (l : List α) (s : State) :
    LinkMoves s (l.foldl f s) := by
  induction l generalizing s with
  | nil => exact .refl s
  | cons a l ih => exact (h s a).trans (ih _)

/-! ### What a run of moves keeps -/

theorem only {s t : State} (h : LinkMoves s t) : LinkOnly s t := by
  induction h with
  | refl s => exact .refl s
  | trans _ _ ih ih' => exact ih.trans ih'
  | _ => exact ⟨_, _, _, _, rfl⟩

theorem link {s t : State} (h : LinkMoves s t) : t.port.link = s.port.link := by
  induction h with
  | trans _ _ ih ih' => exact ih'.trans ih
  | noticed s f => exact offer_link s.port .control f
  | _ => rfl

/-- A run of moves leaves of a cell all but its reserved slots, its shadow count and its change flag. -/
theorem cellKept {s t : State} (h : LinkMoves s t) (y : CellId) : t.cell y =
    { s.cell y with
      reserved := (t.cell y).reserved, shadowCount := (t.cell y).shadowCount, changed := (t.cell y).changed } := by
  induction h with
  | trans _ _ ih ih' => rw [ih', ih]
  | cell s x reserved shadow flag =>
    by_cases h : y = x
    · subst h
      rw [State.cell_modCell]
    · rw [State.cell_modCell_ne _ h]
  | _ => rfl

theorem defnKept {s t : State} (h : LinkMoves s t) (j : CraneId) : (t.crane j).defn = (s.crane j).defn := by
  induction h with
  | trans _ _ ih ih' => exact ih'.trans ih
  | crane s k f defn =>
    by_cases h : j = k
    · subst h
      rw [State.crane_modCrane, defn]
    · rw [State.crane_modCrane_ne _ h]
  | _ => rfl

end LinkMoves

/-! ### Notices and claims -/

theorem noticeTo_moves (s : State) (a : Addr) (n : Notice) : LinkMoves s (s.noticeTo a n) := by
  rw [noticeTo_noticed]
  exact .noticed s _

theorem noticeController_moves (s : State) (n : Notice) : LinkMoves s (s.noticeController n) := by
  unfold State.noticeController
  split
  · exact .suppressed s
  · exact noticeTo_moves _ _ _

theorem noticeCrane_moves (s : State) (k : CraneId) (n : Notice) : LinkMoves s (s.noticeCrane k n) := by
  unfold State.noticeCrane
  split
  · exact noticeController_moves _ _
  · exact (noticeController_moves _ _).trans (noticeTo_moves _ _ _)

theorem countCrane_moves (k : CraneId) (f : CraneCounters → CraneCounters) (s : State) : LinkMoves s (s.countCrane k f) :=
  .crane s k _

theorem push_moves (e : CluEvent) (s : State) : LinkMoves s (s.push e) := .events s _

/-- An event of a cell whose own change is a run of moves is one. -/
theorem coverageEvent_moves {f : State → State} (h : ∀ s, LinkMoves s (f s)) (x : CellId) (s : State) :
    LinkMoves s (coverageEvent x f s) := by
  have flag : LinkMoves (f s) ((f s).modCell x fun r => { r with changed := true }) :=
    .cell (f s) x Cell.reserved Cell.shadowCount fun _ => true
  have flagged : ∀ b : Bool, LinkMoves s (if b = true then (f s).modCell x fun r => { r with changed := true } else f s) := by
    intro b
    split
    · exact (h s).trans flag
    · exact h s
  unfold coverageEvent
  dsimp only
  split
  · exact (flagged _).trans (push_moves _ _)
  · exact flagged _

theorem reserveClaim_moves (x : CellId) (n : Nat) (s : State) : LinkMoves s (reserveClaim x n s).1 := by
  unfold reserveClaim
  split <;> dsimp only
  · exact .cell s x (fun r => r.reserved + n) Cell.shadowCount Cell.changed
  · exact .count s _

theorem releaseClaim_moves (x : CellId) (n : Nat) (s : State) : LinkMoves s (releaseClaim x n s) :=
  (LinkMoves.cell s x (fun r => r.reserved - n) Cell.shadowCount Cell.changed).trans (push_moves _ _)

theorem shadowAdd_moves (k : CraneId) (x : CellId) (s : State) : LinkMoves s (shadowAdd k x s) :=
  coverageEvent_moves (fun t => (LinkMoves.cell t x Cell.reserved (fun r => r.shadowCount + 1) Cell.changed).trans
    (.crane _ k _)) x s

theorem shadowRemove_moves (k : CraneId) (x : CellId) (s : State) : LinkMoves s (shadowRemove k x s) :=
  coverageEvent_moves (fun t => (LinkMoves.cell t x Cell.reserved (fun r => r.shadowCount - 1) Cell.changed).trans
    (.crane _ k _)) x s

/-! ### Handover (R77-R90) -/

theorem withdrawNotices_moves (p : PendingNotice → Bool) (s : State) : LinkMoves s (withdrawNotices p s) :=
  (LinkMoves.notices s _).trans (LinkMoves.foldl (fun t (n : PendingNotice) => countCrane_moves n.crane _ t) _ _)

theorem queueNotices_moves (k : CraneId) (a t : CellId) (s : State) : LinkMoves s (queueNotices k a t s) :=
  .notices s _

theorem startHandover_moves (k : CraneId) (t : CellId) (s : State) : LinkMoves s (startHandover k t s) := by
  unfold startHandover
  dsimp only
  refine LinkMoves.trans ?_ (countCrane_moves _ _ _)
  split
  · exact .crane s k _
  · exact (LinkMoves.crane s k _).trans (queueNotices_moves _ _ _ _)

theorem deferHandover_moves (k : CraneId) (l : List CellId) (s : State) : LinkMoves s (deferHandover k l s) := by
  unfold deferHandover
  dsimp only
  split
  · exact .refl s
  · exact ((LinkMoves.crane s k _).trans (noticeCrane_moves _ _ _)).trans (countCrane_moves _ _ _)

theorem attemptStart_moves (k : CraneId) (l tried : List CellId) (s : State) : LinkMoves s (attemptStart k l tried s) := by
  induction l generalizing tried s with
  | nil => exact deferHandover_moves k tried s
  | cons x l ih =>
    unfold attemptStart
    dsimp only
    split
    · exact (reserveClaim_moves _ _ _).trans (startHandover_moves _ _ _)
    · exact (reserveClaim_moves _ _ _).trans (ih _ _)

theorem holdOff_moves (k : CraneId) (b : Bool) (ahead : List CellId) (s : State) : LinkMoves s (holdOff k b ahead s) := by
  unfold holdOff
  dsimp only
  split
  · exact (LinkMoves.crane s k _).trans (attemptStart_moves _ _ _ _)
  · exact (LinkMoves.crane s k _).trans (.crane _ k _)

theorem evaluate_moves (k : CraneId) (b : Bool) (s : State) : LinkMoves s (evaluate k b s) := by
  unfold evaluate
  dsimp only
  split
  · split
    · split
      · exact .refl s
      · split
        · split
          · exact .crane s k _
          · exact holdOff_moves _ _ _ _
        · exact attemptStart_moves _ _ _ _
    · exact attemptStart_moves _ _ _ _
  · exact .refl s

theorem failHandover_moves (k : CraneId) (cause : FailCause) (s : State) : LinkMoves s (failHandover k cause s) := by
  unfold failHandover
  split
  · exact .refl s
  · exact ((((((releaseClaim_moves _ _ _).trans (.crane _ k _)).trans (withdrawNotices_moves _ _)).trans
      (.crane _ k _)).trans (noticeCrane_moves _ _ _)).trans (countCrane_moves _ _ _)).trans
      (evaluate_moves _ _ _)

theorem timeoutIfDue_moves (k : CraneId) (s : State) : LinkMoves s (timeoutIfDue k s) := by
  unfold timeoutIfDue
  split
  · exact failHandover_moves _ _ _
  · exact .refl s

theorem barEndIfDue_moves (k : CraneId) (s : State) : LinkMoves s (barEndIfDue k s) := by
  unfold barEndIfDue
  split
  · exact .crane s k _
  · exact .refl s
  · exact .refl s

theorem barStep_moves (c : Chain) (k : CraneId) (s : State) : LinkMoves s (barStep c k s) := by
  unfold barStep
  split
  · split
    · exact (LinkMoves.crane s k _).trans (barEndIfDue_moves _ _)
    · exact .refl s
  · exact .refl s

theorem countdownStep_moves (c : Chain) (k : CraneId) (s : State) : LinkMoves s (countdownStep c k s) := by
  unfold countdownStep
  split
  · split
    · exact (LinkMoves.crane s k _).trans (timeoutIfDue_moves _ _)
    · exact .refl s
  · exact .refl s

theorem openerSent_moves (c : Chain) (s : State) : LinkMoves s (openerSent c s) :=
  (LinkMoves.foldl (fun t k => barStep_moves c k t) _ s).trans (LinkMoves.foldl (fun t k => countdownStep_moves c k t) _ _)

theorem chainLeftVisit_moves (c : Chain) (k : CraneId) (s : State) : LinkMoves s (chainLeftVisit c k s) := by
  unfold chainLeftVisit
  split
  · split
    · exact failHandover_moves _ _ _
    · exact .refl s
  · exact .refl s

theorem chainLeftWord_moves (c : Chain) (s : State) : LinkMoves s (chainLeftWord c s) :=
  (((LinkMoves.foldl (fun t k => .crane t k _) _ s).trans
    (LinkMoves.foldl (fun t k => .crane t k _) _ _)).trans (withdrawNotices_moves _ _)).trans
    (LinkMoves.foldl (fun t k => chainLeftVisit_moves c k t) _ _)

/-! ### The events that follow (R75) -/

theorem sweepVisit_moves (k : CraneId) (s : State) : LinkMoves s (sweepVisit k s) := by
  unfold sweepVisit
  split
  · split
    · exact .refl s
    · exact failHandover_moves _ _ _
  · exact evaluate_moves _ _ _
  · exact .refl s

theorem usabilitySweep_moves (s : State) : LinkMoves s (usabilitySweep s) :=
  LinkMoves.foldl (fun t k => sweepVisit_moves k t) _ s

theorem roomNotice_moves (s : State) : LinkMoves s (roomNotice s) := by
  refine LinkMoves.foldl (fun t k => ?_) _ s
  split
  · exact evaluate_moves _ _ _
  · exact .refl t

theorem takeLinkEvent_moves (s : State) (e : CluEvent) : LinkMoves s (takeLinkEvent s e) := by
  cases e
  · exact usabilitySweep_moves s
  · exact roomNotice_moves s
  · exact .refl s

theorem settleLink_moves (n : Nat) (s : State) : LinkMoves s (settleLink n s) := by
  induction n generalizing s with
  | zero => exact .refl s
  | succ n ih =>
    unfold settleLink
    split
    · exact .refl s
    · exact ((LinkMoves.events s _).trans (LinkMoves.foldl takeLinkEvent_moves _ _)).trans (ih _)

theorem moveShadow_moves (k : CraneId) (new : List CellId) {after : State → State} (h : ∀ s, LinkMoves s (after s))
    (s : State) : LinkMoves s (moveShadow k new after s) :=
  (LinkMoves.foldl (fun t x => (shadowRemove_moves k x t).trans (h _)) _ s).trans
    (LinkMoves.foldl (fun t x => (shadowAdd_moves k x t).trans (h _)) _ _)

theorem mapVisit_moves (k : CraneId) (s : State) : LinkMoves s (mapVisit k s) := by
  unfold mapVisit
  split
  case h_4 => exact .refl s
  case h_5 => exact .refl s
  all_goals exact moveShadow_moves _ _ (settleLink_moves _) _

theorem takeCluEvent_moves (s : State) (e : CluEvent) : LinkMoves s (takeCluEvent s e) := by
  cases e
  · exact usabilitySweep_moves s
  · exact roomNotice_moves s
  · exact (LinkMoves.foldl (fun t k => mapVisit_moves k t) _ s).trans
      (LinkMoves.foldl (fun t k => evaluate_moves k false t) _ _)

theorem settle_moves (s : State) : LinkMoves s (settle s) := by
  unfold settle
  generalize settleRounds = n
  induction n generalizing s with
  | zero => exact .refl s
  | succ n ih =>
    unfold settleN
    split
    · exact .refl s
    · exact ((LinkMoves.events s _).trans (LinkMoves.foldl takeCluEvent_moves _ _)).trans (ih _)

/-! ### A cycle-end event (R35) -/

/-- A cycle-end event keeps the link state. -/
theorem cycleEnd_link (c : Chain) (cause : CycleEndCause) (s : State) :
    (cycleEnd c cause s).port.link = s.port.link := by
  by_cases flagged : flaggedCells s c = []
  · rw [cycleEnd_unflagged flagged]
  · cases controlled : s.params.controller with
    | none =>
      obtain ⟨cells, cleared⟩ := clearFlags_cellsOnly (flaggedCells s c) s
      rw [cycleEnd_uncontrolled flagged controlled, cleared]
    | some a =>
      have kept := offer_link s.port .control (changeFrame c cause a s)
      cases taken : (s.port.offer .control (changeFrame c cause a s)).2 with
      | false => rw [cycleEnd_refused flagged controlled (Prod.ext rfl taken), ← kept]
      | true => rw [cycleEnd_taken flagged controlled taken, ← kept]; rfl

/-- A cycle-end event leaves of a cell all but its change flag. -/
theorem cycleEnd_cell (c : Chain) (cause : CycleEndCause) (s : State) (x : CellId) :
    (cycleEnd c cause s).cell x = { s.cell x with changed := ((cycleEnd c cause s).cell x).changed } := by
  have cleared := clearFlags_cell (flaggedCells s c) s x
  have flagOnly : ∀ {r u : Cell}, (∃ b, u = { r with changed := b }) → u = { r with changed := u.changed } := by
    rintro _ _ ⟨b, rfl⟩
    rfl
  by_cases flagged : flaggedCells s c = []
  · rw [cycleEnd_unflagged flagged]
  · cases controlled : s.params.controller with
    | none => rw [cycleEnd_uncontrolled flagged controlled, cleared]
    | some a =>
      cases taken : (s.port.offer .control (changeFrame c cause a s)).2 with
      | false => rw [cycleEnd_refused flagged controlled (Prod.ext rfl taken)]; rfl
      | true =>
        rw [cycleEnd_taken flagged controlled taken]
        exact flagOnly ⟨_, cleared⟩

end Machine
end Sys2Proof
end

