-- ==== Sys2Proof/Proofs/Departures.lean ====
section
/-! SUPPORT. A chain that leaves RUNNING, part by part (R6, R29, R57, R68, R81): its departure from the cells, the withdrawal
of what is pending on it, and what the whole of it keeps. -/

namespace Sys2Proof
namespace Machine

/-! ### Frames that hold the chains too -/

theorem ChainOnly.refl (s : State) : ChainOnly s s := ⟨_, _, _, _, _, _, _, _, rfl⟩

theorem ChainOnly.trans {s t u : State} (h : ChainOnly s t) (g : ChainOnly t u) : ChainOnly s u := by
  obtain ⟨_, _, _, _, _, _, _, _, rfl⟩ := h
  obtain ⟨_, _, _, _, _, _, _, _, rfl⟩ := g
  exact ⟨_, _, _, _, _, _, _, _, rfl⟩

theorem LinkOnly.chainOnly {s t : State} (h : LinkOnly s t) : ChainOnly s t := by
  obtain ⟨_, _, _, _, rfl⟩ := h
  exact ⟨_, _, _, _, _, _, _, _, rfl⟩

theorem modChain_chainOnly (s : State) (c : Chain) (f : ChainRec → ChainRec) : ChainOnly s (s.modChain c f) := by
  cases c <;> exact ⟨_, _, _, _, _, _, _, _, rfl⟩

theorem enterState_chainOnly (c : Chain) (cause : ChainCause) (new : ChainState) (abortCell : Option CellId)
    (f : ChainRec → ChainRec) (s : State) : ChainOnly s (enterState c cause new abortCell f s) := by
  rw [enterState_frame]
  exact ⟨_, _, _, _, _, _, _, _, rfl⟩

theorem popChoice_chainOnly (s : State) : ChainOnly s s.popChoice.2 := ⟨_, _, _, _, _, _, _, _, rfl⟩

theorem ChainOnly.time {s t : State} (h : ChainOnly s t) : t.time = s.time := by
  obtain ⟨_, _, _, _, _, _, _, _, rfl⟩ := h
  rfl

theorem ChainOnly.held {s t : State} (h : ChainOnly s t) : t.held = s.held := by
  obtain ⟨_, _, _, _, _, _, _, _, rfl⟩ := h
  rfl

theorem ChainOnly.mgmt {s t : State} (h : ChainOnly s t) : t.mgmt = s.mgmt := by
  obtain ⟨_, _, _, _, _, _, _, _, rfl⟩ := h
  rfl

theorem leaveRunning_chainOnly (c : Chain) (s : State) : ChainOnly s (leaveRunning c s) := by
  have left := (modChain_chainOnly s c ChainRec.leave).trans
    ((departure_linkOnly c _).chainOnly.trans (popChoice_chainOnly _))
  refine left.trans (ChainOnly.trans ?_ (cycleEnd_linkOnly _ _ _).chainOnly)
  split
  · exact (((settle_linkOnly _).trans (chainLeftWord_linkOnly _ _)).trans (settle_linkOnly _)).chainOnly
  · exact ((chainLeftWord_linkOnly _ _).trans (settle_linkOnly _)).chainOnly

/-! ### The departure of one cell (R29, R31, R34) -/

/-- A cell that has joined, and so goes DOWN when its chain leaves RUNNING. -/
def Cell.Joined (r : Cell) : Prop := r.unit ≠ .absent ∧ r.unit ≠ .down

theorem Cell.depart_joined {r : Cell} (h : r.Joined) :
    r.depart = { r with unit := .down, progress := 0, missCount := 0 } := by
  obtain ⟨absent, down⟩ := h
  unfold Cell.depart Cell.enterDown
  split <;> simp_all

theorem Cell.depart_other {r : Cell} (h : ¬r.Joined) : r.depart = r := by
  unfold Cell.Joined at h
  unfold Cell.depart
  split <;> simp_all

/-- A cell is usable for someone: plainly, or for a defined crane (R31). -/
def FitForAny (s : State) (x : CellId) : Prop := Fit s x ∨ ∃ k, (s.crane k).defn ≠ none ∧ FitFor s k x

/-- What is usable for someone is UP, and so has joined. -/
theorem FitForAny.up {s : State} {x : CellId} (h : FitForAny s x) : (s.cell x).unit = .up := by
  obtain h | ⟨k, -, h⟩ := h
  exacts [h.1, h.1]

theorem fitForAny_iff {s : State} {x : CellId} : FitForAny s x ↔
    (s.cell x).unit = .up ∧ (s.cell x).barred = false
      ∧ ((s.cell x).shadowCount = 0 ∨ ∃ k, (s.crane k).defn ≠ none ∧ FitFor s k x) := by
  constructor
  · rintro (⟨up, free, clear⟩ | ⟨k, defined, fit⟩)
    · exact ⟨up, free, .inl clear⟩
    · exact ⟨fit.1, fit.2.1, .inr ⟨k, defined, fit⟩⟩
  · rintro ⟨up, free, clear | fit⟩
    · exact .inl ⟨up, free, clear⟩
    · exact .inr fit

/-- Usability for someone depends on the cell and on the cranes alone. -/
theorem fitForAny_congr {s t : State} {x : CellId} (cell : t.cell x = s.cell x) (clu : t.clu = s.clu) :
    FitForAny t x ↔ FitForAny s x := by
  have crane : ∀ k, t.crane k = s.crane k := State.crane_congr clu
  simp only [FitForAny, Fit, FitFor, cell, crane]

/-- A departure ends the usability of a cell for everyone, and so differs exactly when it was usable for someone. -/
theorem fitDiffers_depart (s : State) (x : CellId) : FitDiffers s (s.modCell x Cell.depart) x ↔ FitForAny s x := by
  have crane : ∀ k, (s.modCell x Cell.depart).crane k = s.crane k := fun _ => rfl
  by_cases joined : (s.cell x).Joined
  · have down : (s.cell x).depart.unit = .down := by rw [Cell.depart_joined joined]
    simp [FitDiffers, FitForAny, Fit, FitFor, down]
  · have same : (s.modCell x Cell.depart).cell x = s.cell x := by rw [State.cell_modCell, Cell.depart_other joined]
    have unfit : ¬FitForAny s x := fun h => joined ⟨by simp [h.up], by simp [h.up]⟩
    simp only [unfit, iff_false]
    simp [FitDiffers, Fit, FitFor, crane, same]

/-- The record of a cell whose chain has left RUNNING, with its change flag (R29, R34). -/
def Cell.departed (r : Cell) : Cell :=
  if r.unit ≠ .absent ∧ r.unit ≠ .down then { r with unit := .down, progress := 0, missCount := 0, changed := true } else r

/-- The departure of one cell, as an event of the Coverage Unit. -/
def departCell (s : State) (x : CellId) : State := coverageEvent x (fun u => u.modCell x Cell.depart) s

section DepartCell

variable (s : State) (x : CellId)

theorem departCell_event : CellEvent x s (s.modCell x Cell.depart) (departCell s x) :=
  coverageEvent_cellEvent x (fun u => u.modCell x Cell.depart) s

theorem departCell_cell : (departCell s x).cell x = (s.cell x).departed := by
  have event := departCell_event s x
  have flag := event.flag
  rw [event.cell, State.cell_modCell]
  rw [State.cell_modCell] at flag
  by_cases joined : (s.cell x).Joined
  · have raised : ((departCell s x).cell x).changed = true := by
      refine flag.2 (.inr (.inl ?_))
      rw [Cell.depart_joined joined]
      exact joined.2
    rw [raised, Cell.depart_joined joined, Cell.departed, if_pos (show _ ∧ _ from joined)]
  · have same : (s.modCell x Cell.depart).cell x = s.cell x := by rw [State.cell_modCell, Cell.depart_other joined]
    rw [Cell.depart_other joined] at flag ⊢
    have stands : ((departCell s x).cell x).changed = (s.cell x).changed := by
      rw [Bool.eq_iff_iff, flag]
      simp [Fit, same]
    rw [stands, Cell.departed, if_neg (show ¬(_ ∧ _) from joined)]

theorem departCell_cell_ne {y : CellId} (h : y ≠ x) : (departCell s x).cell y = s.cell y := by
  rw [(departCell_event s x).others y h, State.cell_modCell_ne _ h]

theorem departCell_events [Decidable (FitForAny s x)] :
    (departCell s x).events = s.events ++ if FitForAny s x then [.usability x] else [] := by
  have event := departCell_event s x
  split
  · exact event.told ((fitDiffers_depart s x).2 ‹_›)
  · rw [List.append_nil]
    exact event.untold (mt (fitDiffers_depart s x).1 ‹_›)

theorem departCell_frame : departCell s x =
    { s with cov := { s.cov with cells := (departCell s x).cov.cells }, events := (departCell s x).events } :=
  (departCell_event s x).frame

end DepartCell

/-! ### The departure of a chain -/

theorem departure_eq (c : Chain) (s : State) : departure c s = (cellsOf c).foldl departCell s := rfl

/-- The departure of some cells leaves everything but the cells and the events. -/
theorem departCells_frame (l : List CellId) (s : State) : ∃ cells ev, l.foldl departCell s =
    { s with cov := { s.cov with cells := cells }, events := ev } := by
  induction l generalizing s with
  | nil => exact ⟨_, _, rfl⟩
  | cons x l ih =>
    obtain ⟨cells, ev, rest⟩ := ih (departCell s x)
    rw [List.foldl_cons, rest, departCell_frame]
    exact ⟨_, _, rfl⟩

theorem departCells_cell {l : List CellId} (once : l.Nodup) (s : State) (x : CellId) :
    (l.foldl departCell s).cell x = if x ∈ l then (s.cell x).departed else s.cell x := by
  induction l generalizing s with
  | nil => simp
  | cons y l ih =>
    obtain ⟨apart, once'⟩ := List.nodup_cons.1 once
    rw [List.foldl_cons, ih once']
    by_cases h : x = y
    · subst h
      simp [apart, departCell_cell]
    · simp [h, departCell_cell_ne s y h]

open Classical in
theorem departCells_events {l : List CellId} (once : l.Nodup) (s : State) :
    (l.foldl departCell s).events = s.events ++ (l.filter fun x => decide (FitForAny s x)).map CluEvent.usability := by
  induction l generalizing s with
  | nil => simp
  | cons y l ih =>
    obtain ⟨apart, once'⟩ := List.nodup_cons.1 once
    have clu : (departCell s y).clu = s.clu := by rw [departCell_frame]
    have same : (l.filter fun x => decide (FitForAny (departCell s y) x)) = l.filter fun x => decide (FitForAny s x) :=
      List.filter_congr fun x hx => by
        have other : x ≠ y := fun h => apart (h ▸ hx)
        rw [fitForAny_congr (departCell_cell_ne s y other) clu]
    rw [List.foldl_cons, ih once', same, departCell_events, List.append_assoc, List.filter_cons]
    split <;> simp_all

theorem cellsOf_sorted (c : Chain) : (cellsOf c).Pairwise fun x y => x.val < y.val := by cases c <;> decide

theorem cellsOf_nodup (c : Chain) : (cellsOf c).Nodup := by cases c <;> decide

theorem departure_cell (c : Chain) (s : State) (x : CellId) :
    (departure c s).cell x = if chainOf x = c then (s.cell x).departed else s.cell x := by
  rw [departure_eq, departCells_cell (cellsOf_nodup c)]
  simp only [mem_cellsOf]

/-- The departure of a chain that leaves RUNNING, from the state before it leaves (R5, R6, R29, R31, R34). -/
theorem departure_left (c : Chain) (s : State) : ChainLeft c s (departure c (s.modChain c ChainRec.leave)) := by
  classical
  have chains := (departure_linkOnly c (s.modChain c ChainRec.leave)).chains
  have fit : ∀ x, FitForAny (s.modChain c ChainRec.leave) x ↔ FitForAny s x := fun x =>
    fitForAny_congr (State.cell_modChain _ _ _ _) (State.modChain_clu _ _ _)
  constructor
  case frame =>
    obtain ⟨cells, ev, frame⟩ := departCells_frame (cellsOf c) (s.modChain c ChainRec.leave)
    rw [departure_eq, frame]
    cases c <;> rfl
  case others =>
    intro e he
    rw [chains.chain, State.chain_modChain_ne _ he]
  case chain =>
    rw [chains.chain, State.chain_modChain]
    rfl
  case cells =>
    intro x
    rw [departure_cell, State.cell_modChain]
    simp only [Cell.departed, ite_and]
  case told =>
    refine ⟨(cellsOf c).filter fun x => decide (FitForAny s x), ?_, (cellsOf_sorted c).sublist List.filter_sublist, ?_⟩
    · rw [departure_eq, departCells_events (cellsOf_nodup c), State.modChain_events]
      simp only [fit]
    · intro x
      rw [List.mem_filter, mem_cellsOf, decide_eq_true_iff, fitForAny_iff]

end Machine
end Sys2Proof
end

