-- ==== Sys2Proof/Proofs/LeavingRunning.lean ====
section
/-! SUPPORT. A chain that leaves RUNNING, as a whole (R6): the withdrawal of what is pending on it (R57, R68, R81), the
handovers to it that fail (R89), and what of cells and link state the departure leaves. -/

namespace Sys2Proof
namespace Machine

/-! ### Every crane changed alike -/

theorem allCranes_nodup : allCranes.Nodup := by decide

theorem modCranes_frame (f : Crane → Crane) (l : List CraneId) (s : State) :
    ∃ cranes, l.foldl (fun t k => t.modCrane k f) s = { s with clu := { s.clu with cranes := cranes } } := by
  induction l generalizing s with
  | nil => exact ⟨_, rfl⟩
  | cons k l ih =>
    obtain ⟨cranes, rest⟩ := ih (s.modCrane k f)
    exact ⟨cranes, rest⟩

theorem modCranes_crane (f : Crane → Crane) {l : List CraneId} (once : l.Nodup) (s : State) (k : CraneId) :
    (l.foldl (fun t j => t.modCrane j f) s).crane k = if k ∈ l then f (s.crane k) else s.crane k := by
  induction l generalizing s with
  | nil => simp
  | cons j l ih =>
    obtain ⟨apart, once'⟩ := List.nodup_cons.1 once
    rw [List.foldl_cons, ih once']
    by_cases h : k = j
    · subst h
      simp [apart, State.crane_modCrane]
    · simp [h, State.crane_modCrane_ne s h]

theorem modAllCranes_crane (f : Crane → Crane) (s : State) (k : CraneId) :
    (allCranes.foldl (fun t j => t.modCrane j f) s).crane k = f (s.crane k) := by
  rw [modCranes_crane f allCranes_nodup, if_pos (mem_allCranes k)]

/-! ### Pending notices withdrawn (R81) -/

/-- The counters of a crane of which so many notice blocks have been withdrawn. -/
def Crane.noticesGone (n : Nat) (r : Crane) : Crane :=
  { r with counters := { r.counters with noticesWithdrawn := r.counters.noticesWithdrawn + BitVec.ofNat 32 n } }

theorem countWithdrawn_crane (l : List PendingNotice) (s : State) (k : CraneId) :
    (l.foldl (fun t n => t.countCrane n.crane fun r => { r with noticesWithdrawn := r.noticesWithdrawn + 1 }) s).crane k
      = (s.crane k).noticesGone (l.filter fun n => decide (n.crane = k)).length := by
  induction l generalizing s with
  | nil => simp [Crane.noticesGone]
  | cons n l ih =>
    rw [List.foldl_cons, ih, List.filter_cons]
    by_cases h : n.crane = k
    · subst h
      simp [State.countCrane, State.crane_modCrane, Crane.noticesGone, BitVec.ofNat_add, BitVec.add_assoc,
        BitVec.add_comm 1#32]
    · simp [h, State.countCrane, State.crane_modCrane_ne _ (Ne.symm h)]

theorem countWithdrawn_frame (l : List PendingNotice) (s : State) : ∃ cranes,
    l.foldl (fun t n => t.countCrane n.crane fun r => { r with noticesWithdrawn := r.noticesWithdrawn + 1 }) s
      = { s with clu := { s.clu with cranes := cranes } } := by
  induction l generalizing s with
  | nil => exact ⟨_, rfl⟩
  | cons n l ih =>
    obtain ⟨cranes, rest⟩ := ih (s.countCrane n.crane fun r => { r with noticesWithdrawn := r.noticesWithdrawn + 1 })
    exact ⟨cranes, rest⟩

theorem withdrawNotices_crane (p : PendingNotice → Bool) (s : State) (k : CraneId) :
    (withdrawNotices p s).crane k =
      (s.crane k).noticesGone (s.clu.notices.filter fun n => decide (n.crane = k) && p n).length := by
  unfold withdrawNotices
  rw [countWithdrawn_crane, List.filter_filter]
  rfl

theorem withdrawNotices_frame (p : PendingNotice → Bool) (s : State) : ∃ cranes, withdrawNotices p s =
    { s with clu := { s.clu with cranes := cranes, notices := s.clu.notices.filter fun n => !p n } } := by
  obtain ⟨cranes, counted⟩ := countWithdrawn_frame (s.clu.notices.filter p)
    { s with clu := { s.clu with notices := s.clu.notices.filter fun n => !p n } }
  exact ⟨cranes, counted⟩

/-! ### The controller's word that a chain has left RUNNING (R57, R68, R81, R89) -/

/-- What is pending on the cells of a chain withdrawn: destinations, KEEP blocks and holds of each crane, then the notices. -/
def withdrawPending (c : Chain) (s : State) : State :=
  withdrawNotices (fun n => chainOf n.cell == c)
    (allCranes.foldl (fun t k => t.modCrane k (Crane.withdrawHolds fun x => chainOf x == c))
      (allCranes.foldl (fun t k => t.modCrane k (Crane.withdraw fun x => chainOf x == c)) s))

theorem chainLeftWord_eq (c : Chain) (s : State) :
    chainLeftWord c s = allCranes.foldl (fun t k => chainLeftVisit c k t) (withdrawPending c s) := rfl

theorem withdrawPending_withdrawn (c : Chain) (s : State) : PendingWithdrawn c s (withdrawPending c s) := by
  obtain ⟨first, taken⟩ := modCranes_frame (Crane.withdraw fun x => chainOf x == c) allCranes s
  obtain ⟨second, held⟩ := modCranes_frame (Crane.withdrawHolds fun x => chainOf x == c) allCranes
    (allCranes.foldl (fun t k => t.modCrane k (Crane.withdraw fun x => chainOf x == c)) s)
  have equal : ∀ x : CellId, (chainOf x == c) = decide (chainOf x = c) := fun _ => rfl
  constructor
  case frame =>
    obtain ⟨cranes, noticed⟩ := withdrawNotices_frame (fun n => chainOf n.cell == c)
      (allCranes.foldl (fun t k => t.modCrane k (Crane.withdrawHolds fun x => chainOf x == c))
        (allCranes.foldl (fun t k => t.modCrane k (Crane.withdraw fun x => chainOf x == c)) s))
    rw [withdrawPending, noticed, held, taken]
    simp only [equal, decide_not]
  case cranes =>
    intro k
    rw [withdrawPending, withdrawNotices_crane, modAllCranes_crane, modAllCranes_crane, held, taken]
    have filled : ∀ e : DownEntry, (!e.dests.isEmpty) = decide (e.dests ≠ []) := fun e => by
      cases e.dests <;> rfl
    simp only [Crane.noticesGone, Crane.withdrawHolds, Crane.withdraw, equal, decide_not, filled, List.length_map,
      Bool.decide_and]

theorem chainLeftVisit_left {c : Chain} {k : CraneId} {s : State} {x : CellId} (busy : (s.crane k).state = .handover)
    (target : (s.crane k).target = some x) (on : chainOf x = c) :
    chainLeftVisit c k s = failHandover k .chainLeft s := by
  simp [chainLeftVisit, busy, target, on]

theorem chainLeftVisit_stays {c : Chain} {k : CraneId} {s : State}
    (h : (s.crane k).state ≠ .handover ∨ ∀ x, (s.crane k).target = some x → chainOf x ≠ c) :
    chainLeftVisit c k s = s := by
  unfold chainLeftVisit
  split
  · obtain idle | elsewhere := h
    · exact absurd ‹_› idle
    · rw [if_neg (elsewhere _ ‹_›)]
  · rfl

/-! ### Leaving RUNNING (R6) -/

/-- The state in which the Crane Link Unit takes the controller's word: the cells have departed and the order of R84 is used
up. -/
def departed (c : Chain) (s : State) : State := (departure c (s.modChain c ChainRec.leave)).popChoice.2

theorem departed_left (c : Chain) (s : State) : ChainLeft c s { departed c s with choices := s.choices } := by
  have left := departure_left c s
  exact ⟨congrArg (fun t : State => { t with choices := s.choices }) left.frame, left.others, left.chain, left.cells, left.told⟩

theorem departed_choices (c : Chain) (s : State) : (departed c s).choices = s.choices.tail := by
  rw [departed, (departure_left c s).frame]
  rfl

theorem leaveRunning_eq (c : Chain) (s : State) : leaveRunning c s =
    cycleEnd c .chainLeft (settle (chainLeftWord c
      (if s.choices.head? = some true then settle (departed c s) else departed c s))) := by
  have choices : (departure c (s.modChain c ChainRec.leave)).choices = s.choices := by rw [(departure_left c s).frame]
  have first : (departure c (s.modChain c ChainRec.leave)).popChoice.1 = true ↔ s.choices.head? = some true := by
    simp only [State.popChoice, choices]
    cases s.choices <;> simp
  unfold leaveRunning
  dsimp only
  simp only [first]
  split <;> rfl

/-- From the departure to the cycle-end event, all that happens are the moves of handover and of the settling of events. -/
theorem word_moves (c : Chain) (s : State) : LinkMoves (departed c s)
    (settle (chainLeftWord c (if s.choices.head? = some true then settle (departed c s) else departed c s))) := by
  refine LinkMoves.trans ?_ ((chainLeftWord_moves _ _).trans (settle_moves _))
  split
  · exact settle_moves _
  · exact .refl _

theorem leaveRunning_link (c : Chain) (s : State) : (leaveRunning c s).port.link = s.port.link := by
  have kept := congrArg (fun t : State => t.port.link) (departed_left c s).frame
  rw [leaveRunning_eq, cycleEnd_link, (word_moves c s).link]
  exact kept

/-- Leaving RUNNING takes every joined cell of the chain DOWN, and no other cell anywhere (R29). -/
theorem leaveRunning_unit (c : Chain) (s : State) (x : CellId) : ((leaveRunning c s).cell x).unit =
    if chainOf x = c ∧ (s.cell x).unit ≠ .absent then .down else (s.cell x).unit := by
  have gone : ((departed c s).cell x).unit =
      if chainOf x = c ∧ (s.cell x).unit ≠ .absent then .down else (s.cell x).unit := by
    have departs : (departed c s).cell x = _ := (departed_left c s).cells x
    rw [departs]
    split_ifs <;> simp_all
  rw [leaveRunning_eq, cycleEnd_cell, (word_moves c s).cellKept x]
  exact gone

end Machine
end Sys2Proof
end

