-- ==== Sys2Proof/Proofs/Breaks.lean ====
section
/-! SUPPORT. The breaks of a chain, whatever their cause (R6, R7), and the missed turn (R10). -/

namespace Sys2Proof
namespace Machine

/-- A chain record changed by one of two functions that agree on it. -/
theorem State.modChain_congr {s : State} {c : Chain} {f g : ChainRec → ChainRec} (h : f (s.chain c) = g (s.chain c)) :
    s.modChain c f = s.modChain c g := by
  cases c <;> simp_all [State.modChain, State.chain]

theorem enterState_cell (c : Chain) (cause : ChainCause) (new : ChainState) (abortCell : Option CellId)
    (f : ChainRec → ChainRec) (s : State) (x : CellId) : (enterState c cause new abortCell f s).cell x = s.cell x := by
  rw [enterState_frame]
  rfl

/-! ### The LED of a chain that breaks (R172) -/

/-- The LED drivers with the one of a chain dark. -/
def Leds.dark (c : Chain) (l : Leds) : Leds :=
  match c with
  | .N => { l with chn := false }
  | .S => { l with chs := false }

/-- An entry to a state with a dark LED darkens the LED of the chain and no other. -/
theorem enterState_dark {c : Chain} {new : ChainState} {s u : State} (sound : LedsSound s) (awake : s.held = false)
    (only : ChainOnly s u) (link : u.port.link = s.port.link) (others : ∀ d, d ≠ c → u.chain d = s.chain d)
    (dark : ∀ ms, chainLed new ms = false) (cause : ChainCause) (abortCell : Option CellId)
    (f : ChainRec → ChainRec) : (enterState c cause new abortCell f u).leds = s.leds.dark c := by
  have leds : s.leds =
      { link := s.port.link = .up, chn := chainLed s.chainN.state s.time.ms, chs := chainLed s.chainS.state s.time.ms } := by
    simpa [LedsSound, awake] using sound
  have held : u.held = false := only.held.trans awake
  rw [enterState_leds, leds]
  cases c with
  | N =>
    have other : u.chainS = s.chainS := others .S (by decide)
    simp [State.refreshLeds, State.modChain, Leds.dark, held, link, other, only.time, dark]
  | S =>
    have other : u.chainN = s.chainN := others .N (by decide)
    simp [State.refreshLeds, State.modChain, Leds.dark, held, link, other, only.time, dark]

/-! ### A break (R6, R7) -/

/-- The state in which a chain breaks: of what a break depends on and speaks of, it agrees with the state before the step. -/
structure StillWhole (c : Chain) (s u : State) : Prop where
  only : ChainOnly s u
  link : u.port.link = s.port.link
  others : ∀ d, d ≠ c → u.chain d = s.chain d
  state : (u.chain c).state = (s.chain c).state
  nextBackoff : (u.chain c).nextBackoff = (s.chain c).nextBackoff
  queue : (u.chain c).generalQ = (s.chain c).generalQ
  breaks : (u.chain c).counters.breaks = (s.chain c).counters.breaks
  flushed : (u.chain c).counters.generalFlushed = (s.chain c).counters.generalFlushed
  units : ∀ x, (u.cell x).unit = (s.cell x).unit

/-- The state that enters BROKEN: a RUNNING chain has done what leaving RUNNING requires. -/
def toBreak (c : Chain) (s u : State) : State := if (s.chain c).state = .running then leaveRunning c u else u

/-- What a chain is at the moment of its break, when it was RUNNING, and when it was not. -/
theorem toBreak_chain (c : Chain) (s u : State) : (toBreak c s u).chain c =
    if (s.chain c).state = .running then (u.chain c).leave else u.chain c := by
  unfold toBreak
  split
  · exact leaveRunning_chain c u
  · rfl

namespace StillWhole

variable {c : Chain} {s u : State}

/-- A change of the chain's own record that leaves what a break speaks of. -/
theorem modChain {f : ChainRec → ChainRec} (state : (f (s.chain c)).state = (s.chain c).state)
    (nextBackoff : (f (s.chain c)).nextBackoff = (s.chain c).nextBackoff)
    (queue : (f (s.chain c)).generalQ = (s.chain c).generalQ)
    (breaks : (f (s.chain c)).counters.breaks = (s.chain c).counters.breaks)
    (flushed : (f (s.chain c)).counters.generalFlushed = (s.chain c).counters.generalFlushed) :
    StillWhole c s (s.modChain c f) where
  only := modChain_chainOnly s c f
  link := by cases c <;> rfl
  others d h := State.chain_modChain_ne s h f
  state := by rw [State.chain_modChain, state]
  nextBackoff := by rw [State.chain_modChain, nextBackoff]
  queue := by rw [State.chain_modChain, queue]
  breaks := by rw [State.chain_modChain, breaks]
  flushed := by rw [State.chain_modChain, flushed]
  units x := by rw [State.cell_modChain]

theorem cycleEnd (h : StillWhole c s u) (cause : CycleEndCause) : StillWhole c s (cycleEnd c cause u) := by
  have chain : ∀ d, (Machine.cycleEnd c cause u).chain d = u.chain d := (cycleEnd_linkOnly c cause u).chain
  constructor
  case only => exact h.only.trans (cycleEnd_linkOnly c cause u).chainOnly
  case link => rw [cycleEnd_link, h.link]
  case others => intro d hd; rw [chain, h.others d hd]
  case state => rw [chain, h.state]
  case nextBackoff => rw [chain, h.nextBackoff]
  case queue => rw [chain, h.queue]
  case breaks => rw [chain, h.breaks]
  case flushed => rw [chain, h.flushed]
  case units => intro x; rw [cycleEnd_cell]; exact h.units x

theorem toBreak_only (h : StillWhole c s u) : ChainOnly s (toBreak c s u) := by
  unfold toBreak
  split
  · exact h.only.trans (leaveRunning_chainOnly c u)
  · exact h.only

theorem toBreak_link (h : StillWhole c s u) : (toBreak c s u).port.link = s.port.link := by
  unfold toBreak
  split
  · rw [leaveRunning_link, h.link]
  · exact h.link

theorem toBreak_others (h : StillWhole c s u) (d : Chain) (hd : d ≠ c) : (toBreak c s u).chain d = s.chain d := by
  unfold toBreak
  split
  · rw [leaveRunning_chain_ne hd, h.others d hd]
  · exact h.others d hd

/-- A break, whatever its cause. -/
theorem broke (h : StillWhole c s u) (awake : s.held = false) (sound : LedsSound s) (cause : ChainCause)
    (abortCell : Option CellId) :
    ChainOnly s (enterBroken c cause abortCell (toBreak c s u))
      ∧ Broke c cause abortCell u s (enterBroken c cause abortCell (toBreak c s u)) := by
  have chain := toBreak_chain c s u
  have kept : ((toBreak c s u).chain c).nextBackoff = (s.chain c).nextBackoff
      ∧ ((toBreak c s u).chain c).counters.breaks = (s.chain c).counters.breaks := by
    rw [chain]
    split
    · exact ⟨h.nextBackoff, h.breaks⟩
    · exact ⟨h.nextBackoff, h.breaks⟩
  obtain ⟨nextBackoff, breaks⟩ := kept
  rw [enterBroken_eq]
  refine ⟨h.toBreak_only.trans (enterState_chainOnly _ _ _ _ _ _), ?_⟩
  constructor
  case state => rw [enterState_chain]
  case others =>
    intro d hd
    rw [enterState_chain_ne _ _ _ _ _ _ hd, h.toBreak_others d hd]
  case backoff =>
    rw [enterState_chain, nextBackoff]
    rfl
  case nextBackoff =>
    rw [enterState_chain, nextBackoff]
    rfl
  case awaited => rw [enterState_chain]
  case breaks => rw [enterState_chain, breaks]
  case queue =>
    intro running
    rw [enterState_chain, chain, if_pos running, ← h.queue, ← h.flushed]
    exact ⟨rfl, rfl, rfl, rfl⟩
  case cells =>
    intro running x on
    rw [enterState_cell, toBreak, if_pos running, leaveRunning_unit, h.units]
    split_ifs <;> simp_all
  case led =>
    refine (enterState_dark sound awake h.toBreak_only h.toBreak_link h.toBreak_others (fun _ => rfl) _ _ _).trans ?_
    cases c <;> rfl
  case notice => exact enterState_frame _ _ _ _ _ _

end StillWhole

theorem breakChain_eq {c : Chain} {s : State} (running : (s.chain c).state = .running) (cause : ChainCause)
    (abortCell : Option CellId) (u : State) : breakChain c cause abortCell u = enterBroken c cause abortCell (toBreak c s u) := by
  rw [toBreak, if_pos running, breakChain]

/-! ### A missed turn (R4, R10) -/

/-- A chain record with a missed turn found at an expiry of the cycle timer: the timer runs anew; in RUNNING the missed
turns are counted, in ROLLCALL the turn is judged and no cell was heard. -/
def ChainRec.missTurn (period : Nat) (q : ChainRec) : ChainRec :=
  { q with
    cycleTimer := period, awaited := none
    missed := if q.state = .running then q.missed + 1 else q.missed
    goodTurns := if q.state = .rollcall then 0 else q.goodTurns
    rollcallTurns := if q.state = .rollcall then q.rollcallTurns + 1 else q.rollcallTurns
    heard := if q.state = .rollcall then [] else q.heard
    counters := { q.counters with missedTurns := q.counters.missedTurns + 1 } }

/-- The state after the cycle-end event of a missed turn. -/
def turnMissed (c : Chain) (s : State) : State :=
  cycleEnd c .missedTurn (s.modChain c (ChainRec.missTurn s.params.cyclePeriod))

theorem turnMissed_chain (c : Chain) (s : State) :
    (turnMissed c s).chain c = (s.chain c).missTurn s.params.cyclePeriod := by
  rw [turnMissed, (cycleEnd_linkOnly _ _ _).chain, State.chain_modChain]

theorem turnMissed_whole (c : Chain) (s : State) : StillWhole c s (turnMissed c s) :=
  (StillWhole.modChain rfl rfl rfl rfl rfl).cycleEnd .missedTurn

theorem turnMissed_params (c : Chain) (s : State) : (turnMissed c s).params = s.params := by
  obtain ⟨_, _, _, _, _, _, _, _, whole⟩ := (turnMissed_whole c s).only
  rw [whole]
  rfl

/-- A missed turn of a RUNNING chain breaks it at the limit, and else a cycle goes out. -/
theorem cycleExpiry_missed_running {c : Chain} {s : State} (running : (s.chain c).state = .running)
    (awaited : (s.chain c).awaited ≠ none) : cycleExpiry c s =
      if s.params.breakLimit ≤ (s.chain c).missed + 1 then breakChain c .missedTurns none (turnMissed c s)
      else sendCycle c (turnMissed c s) := by
  have judged : (countMissed c (s.modChain c fun r => { r with cycleTimer := s.params.cyclePeriod })).modChain c
      (fun r => { r with missed := r.missed + 1 }) = s.modChain c (ChainRec.missTurn s.params.cyclePeriod) := by
    rw [countMissed, State.modChain_modChain, State.modChain_modChain]
    exact State.modChain_congr (by simp [ChainRec.missTurn, running])
  have missed : ((turnMissed c s).chain c).missed = (s.chain c).missed + 1 := by
    rw [turnMissed_chain, ChainRec.missTurn, if_pos running]
  simp only [cycleExpiry, running, runningExpiry, State.chain_modChain, awaited, if_false, judged]
  rw [← turnMissed, turnMissed_params, missed]

/-- A missed turn of a ROLLCALL chain breaks it when it is the 32nd turn judged, and else a cycle goes out. -/
theorem cycleExpiry_missed_rollcall {c : Chain} {s : State} (rollcall : (s.chain c).state = .rollcall)
    (awaited : (s.chain c).awaited ≠ none) : cycleExpiry c s =
      if 31 ≤ (s.chain c).rollcallTurns then enterBroken c .rollcallFailed none (turnMissed c s)
      else sendCycle c (turnMissed c s) := by
  have judged : (countMissed c (s.modChain c fun r => { r with cycleTimer := s.params.cyclePeriod })).modChain c
      (fun r => { r with rollcallTurns := r.rollcallTurns + 1, goodTurns := 0, heard := [] })
        = s.modChain c (ChainRec.missTurn s.params.cyclePeriod) := by
    rw [countMissed, State.modChain_modChain, State.modChain_modChain]
    exact State.modChain_congr (by simp [ChainRec.missTurn, rollcall])
  have failed : rollcallFailed ((turnMissed c s).chain c) = true ↔ 31 ≤ (s.chain c).rollcallTurns := by
    rw [turnMissed_chain]
    simp [rollcallFailed, ChainRec.missTurn, rollcall, Config.rollcallLimit, Config.goodTurnsNeeded]
  simp only [cycleExpiry, rollcall, rollcallExpiry, State.chain_modChain, awaited, if_false, judged]
  rw [← turnMissed]
  simp only [failed]

/-! ### The three causes (R7) -/

/-- Of what a break does not speak, it leaves the chain's record as it finds it. -/
theorem enterBroken_keeps (c : Chain) (cause : ChainCause) (abortCell : Option CellId) (s u : State) :
    let r := (enterBroken c cause abortCell (toBreak c s u)).chain c
    r = { u.chain c with
      state := r.state, missed := r.missed, awaited := r.awaited, stable := r.stable, generalQ := r.generalQ
      backoff := r.backoff, nextBackoff := r.nextBackoff
      counters := { (u.chain c).counters with
        generalFlushed := r.counters.generalFlushed, breaks := r.counters.breaks } } := by
  rw [enterBroken_eq, enterState_chain, toBreak_chain]
  split <;> rfl

/-- The missed turn that brings a RUNNING chain to the break limit, or is the 32nd judged in ROLLCALL. -/
theorem cycleExpiry_breaks {c : Chain} {s : State} (awaited : (s.chain c).awaited ≠ none)
    (due : (s.chain c).state = .running ∧ s.params.breakLimit ≤ (s.chain c).missed + 1
      ∨ (s.chain c).state = .rollcall ∧ 31 ≤ (s.chain c).rollcallTurns) :
    cycleExpiry c s =
      enterBroken c (if (s.chain c).state = .running then .missedTurns else .rollcallFailed) none
        (toBreak c s (turnMissed c s)) := by
  obtain ⟨running, limit⟩ | ⟨rollcall, limit⟩ := due
  · rw [cycleExpiry_missed_running running awaited, if_pos limit, breakChain_eq running, if_pos running]
  · rw [cycleExpiry_missed_rollcall rollcall awaited, if_pos limit, toBreak, rollcall, if_neg (by decide),
      if_neg (by decide)]

/-- An ABORT marker, by the state of its chain (R20). -/
theorem takeAbort_eq (x : CellId) (s : State) :
    let noted := s.modChain (chainOf x) (ChainRec.noteAbort x)
    takeAbort x s =
      if (s.chain (chainOf x)).state = .running then breakChain (chainOf x) .abort (some x) noted
      else if (s.chain (chainOf x)).state = .rollcall then noted.modChain (chainOf x) fun r => { r with goodTurns := 0 }
      else noted := by
  unfold takeAbort
  dsimp only
  split
  case h_1 running => rw [if_pos running]; rfl
  case h_2 rollcall => rw [rollcall, if_neg (by decide), if_pos rfl]; rfl
  case h_3 disabled => rw [disabled, if_neg (by decide), if_neg (by decide)]; rfl
  case h_4 broken => rw [broken, if_neg (by decide), if_neg (by decide)]; rfl

/-- An ABORT marker heard on an enabled chain. -/
theorem abort_heard {x : CellId} {s : State} (enabled : (s.chain (chainOf x)).state ≠ .disabled) :
    let heard := s.modChain (chainOf x) fun r => ChainRec.noteAbort x { r with silence := 0 }
    onBlock (chainOf x) (takeAbort x) s =
      if (s.chain (chainOf x)).state = .running then breakChain (chainOf x) .abort (some x) heard
      else if (s.chain (chainOf x)).state = .rollcall then heard.modChain (chainOf x) fun r => { r with goodTurns := 0 }
      else heard := by
  have noted : (s.lineHeard (chainOf x)).modChain (chainOf x) (ChainRec.noteAbort x) =
      s.modChain (chainOf x) fun r => ChainRec.noteAbort x { r with silence := 0 } := State.modChain_modChain _ _ _ _
  rw [onBlock_heard enabled, takeAbort_eq, State.lineHeard_state, noted]

end Machine

/-! ### The breaks settled -/

open Machine

/-- Settles O30, by the break of a chain, whatever its cause, and by the parts of leaving RUNNING. -/
theorem breakCausesBreakTheChain : Obligations.BreakCausesBreakTheChain := by
  unfold Obligations.BreakCausesBreakTheChain
  refine ⟨?missedTurn, ?signalLoss, ?abort, ?leaving, ?word⟩
  case missedTurn =>
    intro c s awake sound r awaited due u
    obtain ⟨only, broke⟩ := (turnMissed_whole c s).broke awake sound
      (if (s.chain c).state = .running then .missedTurns else .rollcallFailed) none
    have keeps := enterBroken_keeps c (if (s.chain c).state = .running then .missedTurns else .rollcallFailed) none s
      (turnMissed c s)
    refine ⟨_, (State.take_awake awake _).trans (congrArg _ (cycleExpiry_breaks awaited due)), only, broke, ?_, ?_, ?_⟩
    all_goals rw [keeps, turnMissed_chain]; rfl
  case signalLoss =>
    intro c s awake sound
    have whole : StillWhole c s (s.countChain c fun k => { k with signalLosses := k.signalLosses + 1 }) :=
      .modChain rfl rfl rfl rfl rfl
    obtain ⟨only, broke⟩ := whole.broke awake sound .signalLoss none
    refine ⟨fun running => ⟨_, ?_, only, broke, ?_⟩, fun idle => ?_⟩
    · exact (State.take_awake awake _).trans (by rw [lineSilent, if_pos running, breakChain_eq running])
    · rw [enterBroken_keeps, State.countChain, State.chain_modChain]
    · exact (State.take_awake awake _).trans (by rw [lineSilent, if_neg idle])
  case abort =>
    intro x s awake sound c counted
    have whole : StillWhole c s (s.modChain c counted) := .modChain rfl rfl rfl rfl rfl
    obtain ⟨only, broke⟩ := whole.broke awake sound .abort (some x)
    have taken : exec (.abortMarker x) s = .next (onBlock c (takeAbort x) s) := State.take_awake awake _
    refine ⟨fun running => ⟨_, ?_, only, broke, ?_, ?_⟩, fun rollcall => ?_, fun broken => ?_, fun disabled => ?_⟩
    · rw [taken, abort_heard (by simp [c, running]), if_pos running, breakChain_eq running]
      rfl
    · rw [enterBroken_keeps, State.chain_modChain]
    · rw [enterBroken_keeps, State.chain_modChain]
    · rw [taken, abort_heard (by simp [c, rollcall]), rollcall, if_neg (by decide), if_pos rfl,
        State.modChain_modChain]
      rfl
    · rw [taken, abort_heard (by simp [c, broken]), broken, if_neg (by decide), if_neg (by decide)]
      rfl
    · rw [taken, onBlock_disabled disabled]
  case leaving => exact fun c s => ⟨departed c s, departed_left c s, departed_choices c s, leaveRunning_eq c s⟩
  case word =>
    exact fun c s => ⟨withdrawPending c s, withdrawPending_withdrawn c s, fun t k => chainLeftVisit c k t,
      chainLeftWord_eq c s, fun t k => ⟨fun x busy target on => chainLeftVisit_left busy target on,
        chainLeftVisit_stays⟩⟩

end Sys2Proof
end

