-- ==== Sys2Proof/Proofs/EnableDisable.lean ====
section
/-! CHAIN-ENABLE and CHAIN-DISABLE (R3, R4, R6, R9), settled. -/

namespace Sys2Proof
namespace Machine

@[simp] theorem State.chain_answered (u : State) (q : Request) (st : Status) (a b : Bool) (d : ResponseData) (c : Chain) :
    (u.answered q st a b d).chain c = u.chain c := by
  cases c <;> rfl

@[simp] theorem State.cell_answered (u : State) (q : Request) (st : Status) (a b : Bool) (d : ResponseData) (x : CellId) :
    (u.answered q st a b d).cell x = u.cell x := rfl

theorem enableRequest_disabled {c : Chain} {s : State} (h : (s.chain c).state = .disabled) :
    enableRequest c s = { st := enterRollcall c .enabled s } := by
  simp [enableRequest, h]

theorem enableRequest_enabled {c : Chain} {s : State} (h : (s.chain c).state ≠ .disabled) :
    enableRequest c s = answer .state s := by
  unfold enableRequest
  split
  · exact absurd ‹_› h
  all_goals rfl

theorem disableChain_disabled {c : Chain} {s : State} (h : (s.chain c).state = .disabled) : disableChain c s = s := by
  simp [disableChain, h]

theorem disableChain_enabled {c : Chain} {s : State} (h : (s.chain c).state ≠ .disabled) :
    disableChain c s = enterDisabled c (if (s.chain c).state = .running then leaveRunning c s else s) := by
  unfold disableChain
  split
  case h_1 disabled => exact absurd disabled h
  case h_2 running => rw [if_pos running]
  case h_3 rollcall => rw [rollcall, if_neg (by decide)]
  case h_4 broken => rw [broken, if_neg (by decide)]

/-- What changes in the chains alone from the taking of a request to its answer. -/
theorem ChainOnly.answered {s t : State} {q : Request} {rest : List Request} (h : ChainOnly (s.taking q rest) t)
    (st : Status) (a b : Bool) (d : ResponseData) :
    ∃ p leds n k cov clu ev ch, t.answered q st a b d = { s with
      port := p, leds := leds, chainN := n, chainS := k, cov := cov, clu := clu, events := ev, choices := ch
      mgmt := (t.answered q st a b d).mgmt } := by
  obtain ⟨_, _, _, _, _, _, _, _, rfl⟩ := h
  exact ⟨_, _, _, _, _, _, _, _, rfl⟩

theorem StillWhole.refl (c : Chain) (s : State) : StillWhole c s s :=
  ⟨.refl s, rfl, fun _ _ => rfl, rfl, rfl, rfl, rfl, rfl, fun _ => rfl⟩

end Machine

open Machine

/-- Settles O59, from the entries to ROLLCALL and DISABLED and from what leaving RUNNING leaves. -/
theorem chainEnableAndDisable : Obligations.ChainEnableAndDisable := by
  unfold Obligations.ChainEnableAndDisable
  intro q rest c s data u r
  have named : chainNamed q.data = some c := by rw [data]; cases c <;> rfl
  have state : (u.chain c).state = r.state := by rw [State.chain_taking]
  refine ⟨fun head => ⟨fun enabled => ?_, fun disabled => ?_⟩, fun head => ⟨fun disabled => ?_, fun enabled => ?_⟩⟩
  · refine serve_status head rfl ?_
    rw [withArg_some named, enableRequest_enabled (state ▸ enabled)]
  · have served := serve_answered head rfl (body := withArg chainNamed enableRequest)
      ((withArg_some named _ _).trans (enableRequest_disabled (state.trans disabled))) rfl
    rw [enterRollcall_eq] at served
    refine ⟨_, served, ?_, fun d hd => ?_, ?_, ?_⟩
    · rw [enterState_frame]
      rfl
    · rw [State.chain_answered, enterState_chain_ne _ _ _ _ _ _ hd, State.chain_taking]
    · rw [State.chain_answered, enterState_chain, State.chain_taking]
    · rw [enterState_frame]
      rfl
  · refine serve_answered head rfl (withArg_some named _ _) rfl |>.trans ?_
    rw [disableRequest, disableChain_disabled (state.trans disabled)]
  · have served := serve_answered head rfl (body := withArg chainNamed disableRequest) (withArg_some named _ _) rfl
    rw [disableRequest, disableChain_enabled (state ▸ enabled)] at served
    have whole : StillWhole c u u := .refl c u
    rw [← toBreak, enterDisabled_eq] at served
    refine ⟨_, served, ?_, fun d hd => ?_, ?_⟩
    · exact (whole.toBreak_only.trans (enterState_chainOnly _ _ _ _ _ _)).answered _ _ _ _
    · rw [State.chain_answered, enterState_chain_ne _ _ _ _ _ _ hd, whole.toBreak_others d hd, State.chain_taking]
    · have cycle : ((toBreak c u u).chain c).cycle = r.cycle := by
        rw [toBreak_chain, State.chain_taking]
        split <;> rfl
      rw [State.chain_answered, enterState_chain]
      refine ⟨rfl, rfl, rfl, rfl, rfl, rfl, rfl, rfl, cycle, fun running => ?_, ?_⟩
      · have left : (toBreak c u u).chain c = r.leave := by
          rw [toBreak_chain, if_pos (state.trans running), State.chain_taking]
        refine ⟨congrArg ChainRec.generalQ left, congrArg ChainRec.missed left, fun x on => ?_⟩
        rw [State.cell_answered, enterState_cell, toBreak, if_pos (state.trans running), leaveRunning_unit,
          State.cell_taking]
        split_ifs <;> simp_all
      · rw [← state, enterState_frame]
        rfl

end Sys2Proof
end

