-- ==== Sys2Proof/Proofs/Turns.lean ====
section
/-! A turn in time (R4, R5, R18, R19, R26-R28), settled, on two layers: the records of a marker that stand, and what the
records and the misses of a turn leave of each cell. -/

namespace Sys2Proof
namespace Machine

/-! ### The records that stand (R19) -/

/-- A record of a marker that no record of the same cell goes before. -/
def FirstRecord (q : StatusRecord) (records : List StatusRecord) : Prop :=
  ∃ front back, records = front ++ q :: back ∧ ∀ p ∈ front, p.cell ≠ q.cell

theorem not_firstRecord_nil (q : StatusRecord) : ¬FirstRecord q [] := by
  rintro ⟨front, back, split, -⟩
  simp at split

theorem firstRecord_cons {q p : StatusRecord} {rest : List StatusRecord} :
    FirstRecord q (p :: rest) ↔ p = q ∨ p.cell ≠ q.cell ∧ FirstRecord q rest := by
  constructor
  · rintro ⟨front, back, split, first⟩
    cases front with
    | nil => exact .inl (List.cons.inj split).1
    | cons p' front =>
      obtain ⟨rfl, rest⟩ := List.cons.inj split
      exact .inr ⟨first p (by simp), front, back, rest, fun p' h => first p' (by simp [h])⟩
  · rintro (rfl | ⟨other, front, back, rfl, first⟩)
    · exact ⟨[], rest, rfl, by simp⟩
    · refine ⟨p :: front, back, rfl, fun p' h => ?_⟩
      obtain rfl | h := List.mem_cons.1 h
      exacts [other, first p' h]

section Standing

variable (c : Chain)

theorem standingRecords_sublist (records : List StatusRecord) (seen : List CellId) :
    ((standingRecords c records seen).map Prod.snd).Sublist records := by
  induction records generalizing seen with
  | nil => simp [standingRecords]
  | cons q rest ih =>
    unfold standingRecords
    split
    · exact (ih seen).cons q
    · split
      · exact (ih seen).cons q
      · exact (ih _).cons_cons q

/-- Two octets that name the same cell of a chain are the same. -/
theorem cellOn_inj {o p : Byte} {x : CellId} (ho : cellOn c o = some x) : cellOn c p = some x ↔ p = o := by
  constructor
  · intro hp
    obtain ⟨-, hp⟩ := cellOn_eq_some.1 hp
    obtain ⟨-, ho⟩ := cellOn_eq_some.1 ho
    exact BitVec.eq_of_toNat_eq (hp.symm.trans ho)
  · rintro rfl
    exact ho

theorem mem_standingRecords {records : List StatusRecord} {seen : List CellId} {x : CellId} {q : StatusRecord} :
    (x, q) ∈ standingRecords c records seen ↔ x ∉ seen ∧ cellOn c q.cell = some x ∧ FirstRecord q records := by
  induction records generalizing seen with
  | nil => simp [standingRecords, not_firstRecord_nil]
  | cons p rest ih =>
    rw [firstRecord_cons]
    unfold standingRecords
    split
    case h_1 none =>
      rw [ih]
      have other : cellOn c q.cell = some x → p ≠ q ∧ p.cell ≠ q.cell := fun h =>
        ⟨fun e => by simp [← e, none] at h, fun e => by simp [← e, none] at h⟩
      grind
    case h_2 y named =>
      have same : cellOn c q.cell = some x → (p.cell = q.cell ↔ x = y) := fun h => by
        rw [← cellOn_inj c h, named, Option.some.injEq, eq_comm]
      split
      case isTrue known =>
        rw [ih]
        have known : y ∈ seen := by simpa using known
        grind
      case isFalse new =>
        rw [List.mem_cons, ih, Prod.mk.injEq, List.mem_cons, not_or]
        have new : y ∉ seen := by simpa using new
        grind

theorem standingRecords_nodup (records : List StatusRecord) (seen : List CellId) :
    ((standingRecords c records seen).map Prod.fst).Nodup := by
  induction records generalizing seen with
  | nil => simp [standingRecords]
  | cons q rest ih =>
    unfold standingRecords
    split
    · exact ih seen
    · split
      · exact ih seen
      · next x _ _ =>
        rw [List.map_cons, List.nodup_cons]
        refine ⟨fun h => ?_, ih _⟩
        obtain ⟨⟨y, p⟩, standing, rfl⟩ := List.mem_map.1 h
        exact ((mem_standingRecords c).1 standing).1 (by simp)

end Standing

/-! ### A cell, but for what handover touches -/

/-- A cell record with its reserved slots, its shadow count and its change flag struck out: what handover and a cycle-end
event leave as it is. -/
def Cell.core (r : Cell) : Cell := { r with reserved := 0, shadowCount := 0, changed := false }

theorem LinkMoves.core {s t : State} (h : LinkMoves s t) (x : CellId) : (t.cell x).core = (s.cell x).core := by
  rw [h.cellKept x]
  rfl

theorem cycleEnd_core (c : Chain) (cause : CycleEndCause) (s : State) (x : CellId) :
    ((cycleEnd c cause s).cell x).core = (s.cell x).core := by
  rw [cycleEnd_cell]
  rfl

theorem Cell.takeStatus_core (p : Params) (q : StatusRecord) (r : Cell) :
    (r.takeStatus p q).core = (r.core.takeStatus p q).core := by
  unfold Cell.takeStatus Cell.advance
  cases h : r.unit <;> simp only [Cell.core, h] <;> split_ifs <;> rfl

theorem Cell.takeMiss_core (p : Params) (r : Cell) : (r.takeMiss p).core = (r.core.takeMiss p).core := by
  unfold Cell.takeMiss
  cases h : r.unit <;> simp only [Cell.core, h] <;> split_ifs <;> rfl

theorem Cell.takeStatus_fitted (p : Params) (q : StatusRecord) (r : Cell) : (r.takeStatus p q).fitted = r.fitted := by
  unfold Cell.takeStatus Cell.advance
  cases r.unit <;> simp only <;> split_ifs <;> rfl

/-- A record taken leaves its quality and backlog, and no miss. -/
theorem Cell.takeStatus_reported (p : Params) (q : StatusRecord) (r : Cell) :
    (r.takeStatus p q).quality = q.quality ∧ (r.takeStatus p q).backlog = q.backlog ∧ (r.takeStatus p q).missCount = 0 := by
  unfold Cell.takeStatus Cell.advance
  cases r.unit <;> simp only <;> split_ifs <;> exact ⟨rfl, rfl, rfl⟩

theorem Cell.takeMiss_spared {p : Params} {r : Cell} (h : r.unit = .absent ∨ r.unit = .down) : r.takeMiss p = r := by
  unfold Cell.takeMiss
  obtain h | h := h <;> simp [h]

theorem Cell.takeMiss_charged {p : Params} {r : Cell} (h : r.unit = .joining ∨ r.unit = .up ∨ r.unit = .fading) :
    r.takeMiss p =
      if p.statusMissLimit ≤ r.missCount + 1 then
        { r with unit := .down, progress := 0, missCount := 0, statusMisses := r.statusMisses + 1 }
      else { r with progress := 0, missCount := r.missCount + 1, statusMisses := r.statusMisses + 1 } := by
  unfold Cell.takeMiss
  obtain h | h | h := h <;> simp only [h] <;> rfl

/-! ### Records and misses taken, and what follows each (R26, R28) -/

section Taken

/-- A status record taken, with what it hands to the Crane Link Unit. -/
def takeRecord (s : State) (p : CellId × StatusRecord) : State := settle (statusRecord p.1 p.2 s)

/-- A status miss charged, with what it hands to the Crane Link Unit. -/
def missRecord (s : State) (x : CellId) : State := settle (statusMiss x s)

theorem handTurn_eq (c : Chain) (qs : List (CellId × StatusRecord)) (s : State) : handTurn c qs s =
    cycleEnd c .turn (((cellsOf c).filter fun x =>
      ((qs.foldl takeRecord s).cell x).fitted && !(qs.map Prod.fst).contains x).foldl missRecord (qs.foldl takeRecord s)) :=
  rfl

theorem LinkOnly.params {s t : State} (h : LinkOnly s t) : t.params = s.params := by
  obtain ⟨_, _, _, _, rfl⟩ := h
  rfl

theorem ChainOnly.params {s t : State} (h : ChainOnly s t) : t.params = s.params := by
  obtain ⟨_, _, _, _, _, _, _, _, rfl⟩ := h
  rfl

theorem CellEvent.core {x : CellId} {f : Cell → Cell} {s t : State} (event : CellEvent x s (s.modCell x f) t) (y : CellId) :
    (t.cell y).core = if y = x then (f (s.cell y)).core else (s.cell y).core := by
  split
  case isTrue h =>
    subst h
    rw [event.cell, State.cell_modCell]
    rfl
  case isFalse h => rw [event.others y h, State.cell_modCell_ne _ h]

theorem takeRecord_core (s : State) (p : CellId × StatusRecord) (y : CellId) :
    ((takeRecord s p).cell y).core =
      if y = p.1 ∧ (s.cell y).fitted = true then ((s.cell y).takeStatus s.params p.2).core else (s.cell y).core := by
  rw [takeRecord, (settle_moves _).core, statusRecord]
  split
  case isTrue fitted =>
    have event : CellEvent p.1 s (s.modCell p.1 (Cell.takeStatus s.params p.2)) _ :=
      coverageEvent_cellEvent p.1 (fun t => t.modCell p.1 (Cell.takeStatus t.params p.2)) s
    rw [event.core]
    by_cases h : y = p.1
    · rw [if_pos h, if_pos ⟨h, h ▸ fitted⟩]
    · rw [if_neg h, if_neg fun both => h both.1]
  case isFalse unfitted =>
    rw [if_neg]
    · rfl
    · rintro ⟨rfl, fitted⟩
      exact unfitted fitted

theorem missRecord_core (s : State) (x y : CellId) :
    ((missRecord s x).cell y).core = if y = x then ((s.cell y).takeMiss s.params).core else (s.cell y).core := by
  have event : CellEvent x s (s.modCell x (Cell.takeMiss s.params)) (statusMiss x s) :=
    coverageEvent_cellEvent x (fun t => t.modCell x (Cell.takeMiss t.params)) s
  rw [missRecord, (settle_moves _).core, event.core]

theorem takeRecord_params (s : State) (p : CellId × StatusRecord) : (takeRecord s p).params = s.params :=
  ((statusRecord_linkOnly _ _ _).trans (settle_linkOnly _)).params

theorem missRecord_params (s : State) (x : CellId) : (missRecord s x).params = s.params :=
  ((statusMiss_linkOnly _ _).trans (settle_linkOnly _)).params

theorem takeRecord_fitted (s : State) (p : CellId × StatusRecord) (y : CellId) :
    ((takeRecord s p).cell y).fitted = (s.cell y).fitted := by
  have core := congrArg Cell.fitted (takeRecord_core s p y)
  split at core
  · exact core.trans (Cell.takeStatus_fitted _ _ _)
  · exact core

/-! ### The records of a turn, and its misses -/

theorem takeRecords_params (l : List (CellId × StatusRecord)) (s : State) : (l.foldl takeRecord s).params = s.params := by
  induction l generalizing s with
  | nil => rfl
  | cons p l ih => rw [List.foldl_cons, ih, takeRecord_params]

theorem takeRecords_fitted (l : List (CellId × StatusRecord)) (s : State) (y : CellId) :
    ((l.foldl takeRecord s).cell y).fitted = (s.cell y).fitted := by
  induction l generalizing s with
  | nil => rfl
  | cons p l ih => rw [List.foldl_cons, ih, takeRecord_fitted]

theorem takeRecords_core_other {l : List (CellId × StatusRecord)} {y : CellId} (h : y ∉ l.map Prod.fst) (s : State) :
    ((l.foldl takeRecord s).cell y).core = (s.cell y).core := by
  induction l generalizing s with
  | nil => rfl
  | cons p l ih =>
    simp only [List.map_cons, List.mem_cons, not_or] at h
    obtain ⟨other, others⟩ := h
    rw [List.foldl_cons, ih others, takeRecord_core, if_neg fun both => other both.1]

theorem takeRecords_core_mem {l : List (CellId × StatusRecord)} (once : (l.map Prod.fst).Nodup) {y : CellId}
    {q : StatusRecord} (h : (y, q) ∈ l) (s : State) (fitted : (s.cell y).fitted = true) :
    ((l.foldl takeRecord s).cell y).core = ((s.cell y).takeStatus s.params q).core := by
  induction l generalizing s with
  | nil => simp at h
  | cons p l ih =>
    rw [List.map_cons, List.nodup_cons] at once
    obtain ⟨apart, once⟩ := once
    rw [List.foldl_cons]
    obtain rfl | later := List.mem_cons.1 h
    · rw [takeRecords_core_other apart, takeRecord_core, if_pos ⟨rfl, fitted⟩]
    · have other : y ≠ p.1 := fun e => apart (e ▸ List.mem_map_of_mem (f := Prod.fst) later)
      have before : ((takeRecord s p).cell y).core = (s.cell y).core := by
        rw [takeRecord_core, if_neg fun both => other both.1]
      rw [ih once later _ ((takeRecord_fitted s p y).trans fitted), takeRecord_params, Cell.takeStatus_core, before,
        ← Cell.takeStatus_core]

theorem missRecords_core {l : List CellId} (once : l.Nodup) (s : State) (y : CellId) :
    ((l.foldl missRecord s).cell y).core = if y ∈ l then ((s.cell y).takeMiss s.params).core else (s.cell y).core := by
  induction l generalizing s with
  | nil => simp
  | cons x l ih =>
    obtain ⟨apart, once'⟩ := List.nodup_cons.1 once
    rw [List.foldl_cons, ih once', missRecord_params]
    by_cases h : y = x
    · subst h
      simp [apart, missRecord_core]
    · have same : ((missRecord s x).cell y).core = (s.cell y).core := by rw [missRecord_core, if_neg h]
      simp only [List.mem_cons, h, false_or]
      split
      · rw [Cell.takeMiss_core, same, ← Cell.takeMiss_core]
      · exact same

/-- The cells charged a miss: the fitted cells of the chain without a record. -/
def silentCells (c : Chain) (qs : List (CellId × StatusRecord)) (s : State) : List CellId :=
  (cellsOf c).filter fun x => decide ((s.cell x).fitted = true ∧ ∀ p ∈ qs, p.1 ≠ x)

theorem mem_silentCells {c : Chain} {qs : List (CellId × StatusRecord)} {s : State} {x : CellId} :
    x ∈ silentCells c qs s ↔ chainOf x = c ∧ (s.cell x).fitted = true ∧ ∀ p ∈ qs, p.1 ≠ x := by
  rw [silentCells, List.mem_filter, mem_cellsOf, decide_eq_true_iff]

variable (c : Chain) (qs : List (CellId × StatusRecord)) (s : State)

theorem handTurn_silent : handTurn c qs s =
    cycleEnd c .turn ((silentCells c qs s).foldl missRecord (qs.foldl takeRecord s)) := by
  have silent : ((cellsOf c).filter fun x => ((qs.foldl takeRecord s).cell x).fitted && !(qs.map Prod.fst).contains x)
      = silentCells c qs s := by
    refine List.filter_congr fun x _ => ?_
    rw [takeRecords_fitted, Bool.eq_iff_iff]
    have unheard : (∀ q, (x, q) ∉ qs) ↔ ∀ a q, (a, q) ∈ qs → a ≠ x :=
      ⟨fun h a q taken same => h q (same ▸ taken), fun h q taken => h x q taken rfl⟩
    simp [unheard]
  rw [handTurn_eq, silent]

theorem handTurn_core (x : CellId) : ((handTurn c qs s).cell x).core =
    if x ∈ silentCells c qs s then ((s.cell x).takeMiss s.params).core else ((qs.foldl takeRecord s).cell x).core := by
  have once : (silentCells c qs s).Nodup := (cellsOf_nodup c).filter _
  rw [handTurn_silent, cycleEnd_core, missRecords_core once, takeRecords_params]
  split
  case isTrue silent =>
    obtain ⟨-, -, unheard⟩ := mem_silentCells.1 silent
    have other : x ∉ qs.map Prod.fst := fun h => by
      obtain ⟨p, hp, rfl⟩ := List.mem_map.1 h
      exact unheard p hp rfl
    rw [Cell.takeMiss_core, takeRecords_core_other other, ← Cell.takeMiss_core]
  case isFalse => rfl

/-- A fitted cell with a standing record takes it (R26, R28). -/
theorem handTurn_record {c : Chain} {qs : List (CellId × StatusRecord)} (once : (qs.map Prod.fst).Nodup) {s : State}
    {x : CellId} {q : StatusRecord} (h : (x, q) ∈ qs) (fitted : (s.cell x).fitted = true) :
    ((handTurn c qs s).cell x).core = ((s.cell x).takeStatus s.params q).core := by
  have heard : x ∉ silentCells c qs s := fun silent => (mem_silentCells.1 silent).2.2 _ h rfl
  rw [handTurn_core, if_neg heard, takeRecords_core_mem once h s fitted]

/-- A fitted cell of the chain without a record is charged a miss (R28). -/
theorem handTurn_miss {c : Chain} {qs : List (CellId × StatusRecord)} {s : State} {x : CellId} (on : chainOf x = c)
    (fitted : (s.cell x).fitted = true) (unheard : ∀ q, (x, q) ∉ qs) :
    ((handTurn c qs s).cell x).core = ((s.cell x).takeMiss s.params).core := by
  rw [handTurn_core, if_pos (mem_silentCells.2 ⟨on, fitted, fun p hp same => unheard p.2 (same ▸ hp)⟩)]

/-- A cell of the other chain stands. -/
theorem handTurn_other {c : Chain} {qs : List (CellId × StatusRecord)} {s : State} {x : CellId} (off : chainOf x ≠ c)
    (unheard : x ∉ qs.map Prod.fst) : ((handTurn c qs s).cell x).core = (s.cell x).core := by
  rw [handTurn_core, if_neg fun silent => off (mem_silentCells.1 silent).1, takeRecords_core_other unheard]

end Taken

/-! ### A turn marker in time (R4, R5, R18) -/

/-- The state with a turn in time heard, no longer awaited and counted, so many of its records malformed. -/
def turnHeard (c : Chain) (malformed : Nat) (s : State) : State :=
  s.modChain c fun r =>
    { r with
      silence := 0, awaited := none
      counters := { r.counters with
        returnedTurns := r.counters.returnedTurns + 1
        malformed := r.counters.malformed + BitVec.ofNat 32 malformed } }

@[simp] theorem turnHeard_goodTurns (c : Chain) (s : State) (n : Nat) : ((turnHeard c n s).chain c).goodTurns = (s.chain c).goodTurns := by
  rw [turnHeard, State.chain_modChain]

@[simp] theorem turnHeard_rollcallTurns (c : Chain) (s : State) (n : Nat) :
    ((turnHeard c n s).chain c).rollcallTurns = (s.chain c).rollcallTurns := by
  rw [turnHeard, State.chain_modChain]

/-- A chain record with a good turn of roll call judged, and the cells that were heard. -/
def ChainRec.judgeGood (qs : List (CellId × StatusRecord)) (r : ChainRec) : ChainRec :=
  { r with goodTurns := r.goodTurns + 1, rollcallTurns := r.rollcallTurns + 1, heard := sortCells (qs.map Prod.fst) }

theorem rollcallFailed_iff (r : ChainRec) : rollcallFailed r = true ↔ 32 ≤ r.rollcallTurns ∧ r.goodTurns < 4 := by
  rw [rollcallFailed, Bool.and_eq_true]
  exact and_congr decide_eq_true_iff decide_eq_true_iff

theorem rollcallTurn_eq (c : Chain) (qs : List (CellId × StatusRecord)) (s : State) : rollcallTurn c qs s =
    if 3 ≤ (s.chain c).goodTurns then handTurn c qs (enterRunning c (s.modChain c (ChainRec.judgeGood qs)))
    else if 31 ≤ (s.chain c).rollcallTurns then enterBroken c .rollcallFailed none (s.modChain c (ChainRec.judgeGood qs))
    else s.modChain c (ChainRec.judgeGood qs) := by
  have good : Config.goodTurnsNeeded ≤ (s.chain c).goodTurns + 1 ↔ 3 ≤ (s.chain c).goodTurns := by
    simp [Config.goodTurnsNeeded]
  unfold rollcallTurn
  simp only [State.chain_modChain, good]
  split
  · rfl
  · next few =>
    have failed : rollcallFailed ((s.chain c).judgeGood qs) = true ↔ 31 ≤ (s.chain c).rollcallTurns := by
      rw [rollcallFailed_iff]
      change 32 ≤ (s.chain c).rollcallTurns + 1 ∧ (s.chain c).goodTurns + 1 < 4 ↔ _
      omega
    exact if_congr failed rfl rfl

theorem sortCells_sorted (l : List CellId) : (sortCells l).Pairwise fun x y => x.val < y.val := by
  have all : allCells.Pairwise fun x y => x.val < y.val := by decide
  exact all.filter _

section InTime

variable {c : Chain} {cycle : Byte} {records : List StatusRecord} {s : State}

theorem turnMarker_inTime (awake : s.held = false) (short : records.length ≤ 8) (awaited : (s.chain c).awaited = some cycle)
    (up : (s.chain c).state = .running ∨ (s.chain c).state = .rollcall) :
    let standing := standingRecords c records []
    let turned := turnHeard c (records.length - standing.length) s
    exec (.turnMarker c cycle records) s = .next
      (if (s.chain c).state = .running then handTurn c standing (turned.modChain c fun r => { r with missed := 0 })
      else rollcallTurn c standing turned) := by
  intro standing turned
  have enabled : (s.chain c).state ≠ .disabled := by rintro e; simp [e] at up
  have counted : countMalformed c (records.length - standing.length) ((s.lineHeard c).modChain c fun r =>
      { r with awaited := none, counters := { r.counters with returnedTurns := r.counters.returnedTurns + 1 } })
        = turned := by
    rw [countMalformed, State.countChain, State.lineHeard, State.modChain_modChain, State.modChain_modChain]
    rfl
  refine (State.take_awake awake _).trans (congrArg _ ?_)
  rw [onBlock_heard enabled, if_pos short, takeTurn, State.lineHeard_awaited, if_pos awaited, State.lineHeard_state]
  dsimp only
  rw [counted]
  obtain running | rollcall := up
  · rw [running, if_pos rfl]
  · rw [rollcall, if_neg (by decide)]

/-- The state in which a turn hands its records to the cells: in RUNNING with no turn missed, after the fourth good turn
of roll call as RUNNING is entered. -/
def turnReady (c : Chain) (records : List StatusRecord) (s : State) : State :=
  let standing := standingRecords c records []
  let turned := turnHeard c (records.length - standing.length) s
  if (s.chain c).state = .running then turned.modChain c fun r => { r with missed := 0 }
  else enterRunning c (turned.modChain c (ChainRec.judgeGood standing))

/-- The turn that hands its records to the cells: every one in RUNNING, and the fourth good one of roll call. -/
theorem turnMarker_hands (awake : s.held = false) (short : records.length ≤ 8) (awaited : (s.chain c).awaited = some cycle)
    (up : (s.chain c).state = .running ∨ (s.chain c).state = .rollcall ∧ (s.chain c).goodTurns = 3) :
    exec (.turnMarker c cycle records) s = .next (handTurn c (standingRecords c records []) (turnReady c records s)) := by
  rw [turnMarker_inTime awake short awaited (up.imp_right And.left), turnReady]
  obtain running | ⟨rollcall, good⟩ := up
  · rw [if_pos running, if_pos running]
  · have three : ∀ n, ((turnHeard c n s).chain c).goodTurns = 3 := fun n => by rw [turnHeard_goodTurns, good]
    rw [rollcall, if_neg (by decide), if_neg (by decide), rollcallTurn_eq, if_pos (three _).ge]

variable (c records s)

theorem turnReady_only : ChainOnly s (turnReady c records s) := by
  unfold turnReady
  dsimp only
  have heard := modChain_chainOnly s c fun r =>
    { r with
      silence := 0, awaited := none
      counters := { r.counters with
        returnedTurns := r.counters.returnedTurns + 1
        malformed := r.counters.malformed
          + BitVec.ofNat 32 (records.length - (standingRecords c records []).length) } }
  refine heard.trans ?_
  split
  · exact modChain_chainOnly _ c _
  · exact (modChain_chainOnly _ c _).trans (enterState_chainOnly _ _ _ _ _ _)

theorem turnReady_cell (x : CellId) : (turnReady c records s).cell x = s.cell x := by
  unfold turnReady turnHeard
  dsimp only
  split
  · rw [State.cell_modChain, State.cell_modChain]
  · rw [enterRunning_eq, enterState_cell, State.cell_modChain, State.cell_modChain]

theorem turnReady_others (d : Chain) (hd : d ≠ c) : (turnReady c records s).chain d = s.chain d := by
  unfold turnReady turnHeard
  dsimp only
  split
  · rw [State.chain_modChain_ne _ hd, State.chain_modChain_ne _ hd]
  · rw [enterRunning_eq, enterState_chain_ne _ _ _ _ _ _ hd, State.chain_modChain_ne _ hd, State.chain_modChain_ne _ hd]

theorem turnReady_running (running : (s.chain c).state = .running) : turnReady c records s =
    (turnHeard c (records.length - (standingRecords c records []).length) s).modChain c fun r => { r with missed := 0 } :=
  if_pos running

theorem turnReady_rollcall (rollcall : (s.chain c).state = .rollcall) : turnReady c records s =
    enterState c .rollcallDone .running none
      (fun r => { r with missed := 0, stable := startTimer Config.stableMs, silence := 0 })
      ((turnHeard c (records.length - (standingRecords c records []).length) s).modChain c
        (ChainRec.judgeGood (standingRecords c records []))) :=
  if_neg (by rw [rollcall]; decide)

/-- The record of a chain that the fourth good turn has made RUNNING. -/
theorem turnReady_entered (rollcall : (s.chain c).state = .rollcall) (good : (s.chain c).goodTurns = 3) :
    (turnReady c records s).chain c =
      { (turnHeard c (records.length - (standingRecords c records []).length) s).chain c with
        state := .running, missed := 0, stable := some (10000 * 4), goodTurns := 4
        rollcallTurns := (s.chain c).rollcallTurns + 1
        heard := sortCells ((standingRecords c records []).map Prod.fst) } := by
  have silence : ∀ n, ((turnHeard c n s).chain c).silence = 0 := fun n => by rw [turnHeard, State.chain_modChain]
  rw [turnReady_rollcall c records s rollcall, enterState_chain, State.chain_modChain]
  simp only [ChainRec.judgeGood, turnHeard_goodTurns, turnHeard_rollcallTurns, good, silence]
  rfl

theorem turnReady_frame (rollcall : (s.chain c).state = .rollcall) :
    let turned := turnHeard c (records.length - (standingRecords c records []).length) s
    turnReady c records s = { turned with
      port := turned.controllerNoticed (.chainState c .rollcallDone .running none), leds := (turnReady c records s).leds
      chainN := (turnReady c records s).chainN, chainS := (turnReady c records s).chainS } := by
  rw [turnReady_rollcall c records s rollcall, enterState_frame, State.controllerNoticed_modChain, State.modChain_frame]

theorem turnReady_chain (up : (s.chain c).state = .running ∨ (s.chain c).state = .rollcall) :
    let r := (turnReady c records s).chain c
    r.state = .running ∧ r.awaited = none ∧ r.missed = 0
      ∧ r.counters.returnedTurns = (s.chain c).counters.returnedTurns + 1
      ∧ r.counters.malformed = (s.chain c).counters.malformed
        + BitVec.ofNat 32 (records.length - (standingRecords c records []).length) := by
  obtain running | rollcall := up
  · rw [turnReady_running c records s running, State.chain_modChain, turnHeard, State.chain_modChain]
    exact ⟨running, rfl, rfl, rfl, rfl⟩
  · rw [turnReady_rollcall c records s rollcall, enterState_chain, State.chain_modChain, turnHeard, State.chain_modChain]
    exact ⟨rfl, rfl, rfl, rfl, rfl⟩

end InTime

end Machine

open Machine

/-- Settles O33, by the records that stand, by what they and the misses leave of each cell's core, and by the break of a
chain whose roll call fails. -/
theorem turnInTimeReachesTheCells : Obligations.TurnInTimeReachesTheCells := by
  unfold Obligations.TurnInTimeReachesTheCells
  refine ⟨?hands, ?judged, ?standing⟩
  case hands =>
    intro c cycle records s awake short awaited up standing
    have once : (standing.map Prod.fst).Nodup := standingRecords_nodup c records []
    have cell := turnReady_cell c records s
    have only := turnReady_only c records s
    have params : (turnReady c records s).params = s.params := only.params
    have handed := handTurn_linkOnly c standing (turnReady c records s)
    obtain ⟨state, awaited', missed, returned, malformed⟩ := turnReady_chain c records s (up.imp_right And.left)
    refine ⟨_, turnMarker_hands awake short awaited up, only.trans handed.chainOnly, fun d hd => ?_, ?_, ?_, ?_, ?_, ?_,
      fun x q taken fitted => ?_, fun x on fitted unheard => ?_, fun x off => ?_, ?_⟩
    · rw [handed.chain, turnReady_others c records s d hd]
    · rw [handed.chain, state]
    · rw [handed.chain, awaited']
    · rw [handed.chain, missed]
    · rw [handed.chain, returned]
    · rw [handed.chain, malformed]
    · have core := handTurn_record (c := c) once taken ((cell x).symm ▸ fitted)
      rw [cell, params] at core
      obtain ⟨quality, backlog, missCount⟩ := (s.cell x).takeStatus_reported s.params q
      have unit := congrArg Cell.unit core
      have progress := congrArg Cell.progress core
      exact ⟨(congrArg Cell.quality core).trans quality, (congrArg Cell.backlog core).trans backlog,
        (congrArg Cell.missCount core).trans missCount, unit, progress⟩
    · have core := handTurn_miss on ((cell x).symm ▸ fitted) unheard
      rw [cell, params] at core
      have unit := congrArg Cell.unit core
      have missCount := congrArg Cell.missCount core
      have progress := congrArg Cell.progress core
      have misses := congrArg Cell.statusMisses core
      simp only [Cell.core] at unit missCount progress misses
      refine ⟨unit, missCount, progress, misses, fun spared => ?_, fun charged => ?_⟩
      · rw [unit, missCount, Cell.takeMiss_spared spared]
        exact ⟨rfl, rfl⟩
      · rw [unit, missCount, progress, misses, Cell.takeMiss_charged charged]
        split_ifs <;> simp
    · refine (congrArg Cell.unit (handTurn_other off fun heard => ?_)).trans (congrArg (fun r => r.core.unit) (cell x))
      obtain ⟨⟨y, q⟩, taken, rfl⟩ := List.mem_map.1 heard
      exact off (cellOn_eq_some.1 ((mem_standingRecords c).1 taken).2.1).1
    · intro turned
      refine ⟨turnReady c records s, ?_, turnReady_running c records s, fun rollcall => ?_⟩
      · have silent : silentCells c standing (turnReady c records s) = silentCells c standing s := by
          simp only [silentCells, cell]
        rw [handTurn_silent, silent]
        rfl
      · have good : (s.chain c).goodTurns = 3 := by simpa [rollcall] using up
        have entered := turnReady_entered c records s rollcall good
        have heard : ((turnReady c records s).chain c).heard = sortCells (standing.map Prod.fst) := by rw [entered]
        refine ⟨?_, heard ▸ sortCells_sorted _, fun x => by simp [heard], turnReady_frame c records s rollcall⟩
        rw [heard]
        exact entered
  case judged =>
    intro c cycle records s awake sound short awaited rollcall few standing
    have judged : (turnHeard c (records.length - standing.length) s).modChain c (ChainRec.judgeGood standing) =
        s.modChain c fun r => ChainRec.judgeGood standing { r with
          silence := 0, awaited := none
          counters := { r.counters with
            returnedTurns := r.counters.returnedTurns + 1
            malformed := r.counters.malformed + BitVec.ofNat 32 (records.length - standing.length) } } :=
      State.modChain_modChain _ _ _ _
    have taken : exec (.turnMarker c cycle records) s =
        .next (rollcallTurn c standing (turnHeard c (records.length - standing.length) s)) :=
      (turnMarker_inTime awake short awaited (.inr rollcall)).trans (by rw [rollcall, if_neg (by decide)])
    rw [rollcallTurn_eq, turnHeard_goodTurns, turnHeard_rollcallTurns, if_neg (by omega), judged] at taken
    refine ⟨sortCells (standing.map Prod.fst), sortCells_sorted _, fun x => by simp, fun going => ?_, fun last => ?_⟩
    · rw [taken, if_neg (by omega)]
      rfl
    · rw [if_pos last] at taken
      have whole := StillWhole.modChain (c := c) (s := s) (f := fun r => ChainRec.judgeGood standing { r with
          silence := 0, awaited := none
          counters := { r.counters with
            returnedTurns := r.counters.returnedTurns + 1
            malformed := r.counters.malformed + BitVec.ofNat 32 (records.length - standing.length) } }) rfl rfl rfl rfl rfl
      have broke := whole.broke awake sound .rollcallFailed none
      rw [toBreak, rollcall, if_neg (by decide)] at broke
      exact ⟨_, taken, broke⟩
  case standing =>
    intro c records standing
    refine ⟨standingRecords_sublist c records [], standingRecords_nodup c records [], fun x q => ?_⟩
    rw [mem_standingRecords, cellOn_eq_some]
    simp [FirstRecord, and_assoc]

end Sys2Proof
end

