-- ==== Sys2Proof/Proofs/CraneTurns.lean ====
section
/-! SUPPORT. What a crane offers a chain (R56, R59), which crane's turn it is (R13), and what an opener does to bars and
countdowns (R82, R86). -/

namespace Sys2Proof
namespace Machine

/-! ### The cell a block is for first (R56) -/

theorem mem_chainCells {c : Chain} {cells : List CellId} {x : CellId} :
    x ∈ sortCells (cells.filter fun y => chainOf y == c) ↔ x ∈ cells ∧ chainOf x = c := by
  rw [mem_sortCells, List.mem_filter, beq_iff_eq]

/-- The head of the sorted cells is the lowest of them. -/
theorem head?_sortCells {l : List CellId} {x : CellId} :
    (sortCells l).head? = some x ↔ x ∈ l ∧ ∀ y ∈ l, x.val ≤ y.val := by
  have sorted := sortCells_sorted l
  cases h : sortCells l with
  | nil =>
    have empty : ∀ y, y ∉ l := fun y hy => by
      have : y ∈ sortCells l := mem_sortCells.2 hy
      rw [h] at this
      exact List.not_mem_nil this
    simp [empty]
  | cons z rest =>
    rw [h, List.pairwise_cons] at sorted
    obtain ⟨lowest, -⟩ := sorted
    have mem : ∀ y, y ∈ l ↔ y = z ∨ y ∈ rest := fun y => by rw [← mem_sortCells, h, List.mem_cons]
    simp only [List.head?_cons, Option.some.injEq, mem]
    constructor
    · rintro rfl
      refine ⟨.inl rfl, fun y hy => ?_⟩
      obtain rfl | hy := hy
      exacts [le_rfl, (lowest y hy).le]
    · rintro ⟨rfl | later, least⟩
      · rfl
      · exact absurd (least z (.inl rfl)) (by have := lowest x later; omega)

theorem firstCell_eq_some {c : Chain} {anchor : Option CellId} {cells : List CellId} {x : CellId} :
    firstCell c anchor cells = some x ↔ FirstOf c anchor cells x := by
  have head : (sortCells (cells.filter fun y => chainOf y == c)).head? = some x ↔
      (x ∈ cells ∧ chainOf x = c) ∧ ∀ y ∈ cells, chainOf y = c → x.val ≤ y.val := by
    rw [head?_sortCells]
    simp only [List.mem_filter, beq_iff_eq, and_imp]
  unfold firstCell FirstOf
  cases anchor with
  | none => simp [head, and_assoc]
  | some a =>
    have known : ((sortCells (cells.filter fun y => chainOf y == c)).contains a = true) ↔ a ∈ cells ∧ chainOf a = c := by
      rw [List.contains_iff_mem, mem_chainCells]
    dsimp only
    split
    case isTrue h =>
      obtain ⟨there, on⟩ := known.1 h
      simp only [Option.some.injEq]
      constructor
      · rintro rfl
        exact ⟨there, on, .inl rfl⟩
      · rintro ⟨-, -, same | ⟨absent, -⟩⟩
        exacts [same, absurd there (absent a rfl on)]
    case isFalse h =>
      rw [known, not_and'] at h
      rw [head]
      simp only [Option.some.injEq]
      constructor
      · rintro ⟨⟨there, on⟩, least⟩
        exact ⟨there, on, .inr ⟨fun b same onB => same ▸ h (same ▸ onB), least⟩⟩
      · rintro ⟨there, on, rfl | ⟨-, least⟩⟩
        exacts [absurd there (h on), ⟨⟨there, on⟩, least⟩]

theorem firstCell_eq_none {c : Chain} {anchor : Option CellId} {cells : List CellId} :
    firstCell c anchor cells = none ↔ ∀ x ∈ cells, chainOf x ≠ c := by
  have head : (sortCells (cells.filter fun y => chainOf y == c)).head? = none ↔ ∀ x ∈ cells, chainOf x ≠ c := by
    rw [List.head?_eq_none_iff, List.eq_nil_iff_forall_not_mem]
    simp only [mem_chainCells, not_and, ne_eq]
  unfold firstCell
  cases anchor with
  | none => exact head
  | some a =>
    dsimp only
    split
    case isTrue h =>
      obtain ⟨there, on⟩ := mem_chainCells.1 (List.contains_iff_mem.1 h)
      simp only [reduceCtorEq, false_iff, not_forall]
      exact ⟨a, there, not_not.2 on⟩
    case isFalse => exact head

/-! ### What a crane offers (R56, R59) -/

/-- A queue after the copy of its oldest entry for the chain: the entries before it have no cell of the chain. -/
theorem takeCopy_append {c : Chain} {x : CellId} {front back : List DownEntry} {e : DownEntry}
    (before : ∀ d ∈ front, ∀ y ∈ d.dests, chainOf y ≠ c) (there : ∃ y ∈ e.dests, chainOf y = c) :
    let left := e.dests.filter fun y => decide (y ≠ x)
    takeCopy c x (front ++ e :: back) = front ++ (if left = [] then [] else [{ e with dests := left }]) ++ back := by
  induction front with
  | nil =>
    have on : (e.dests.any fun y => chainOf y == c) = true := by simpa using there
    have same : (e.dests.filter fun y => y != x) = e.dests.filter fun y => decide (y ≠ x) :=
      List.filter_congr fun y _ => by simp [bne, beq_eq_decide]
    simp only [List.nil_append, takeCopy, on, if_true, same, List.isEmpty_iff]
    split <;> rfl
  | cons d front ih =>
    have off : (d.dests.any fun y => chainOf y == c) = false := by
      simpa using fun y hy => before d (by simp) y hy
    simp [takeCopy, off, ih fun d' h => before d' (by simp [h])]

theorem oldestFor_append {c : Chain} {front back : List DownEntry} {e : DownEntry}
    (before : ∀ d ∈ front, ∀ y ∈ d.dests, chainOf y ≠ c) (there : ∃ y ∈ e.dests, chainOf y = c) :
    oldestFor c (front ++ e :: back) = some e := by
  have off : front.find? (fun d => d.dests.any fun y => chainOf y == c) = none := by
    simpa using before
  have on : (e.dests.any fun y => chainOf y == c) = true := by simpa using there
  rw [oldestFor, List.find?_append, off, List.find?_cons, on]
  rfl

theorem oldestFor_eq_none {c : Chain} {q : List DownEntry} (h : ∀ e ∈ q, ∀ y ∈ e.dests, chainOf y ≠ c) :
    oldestFor c q = none := by
  simpa [oldestFor] using h

/-- A crane whose KEEP block for a cell has been taken (R59). -/
def Crane.keepTaken (x : CellId) (r : Crane) : Crane :=
  { r with
    keeps := r.keeps.filter fun e => e.1 != x
    counters := { r.counters with keepSent := r.counters.keepSent + 1 } }

/-- A crane of which a copy for a cell has been taken (R56). -/
def Crane.copyTaken (c : Chain) (x : CellId) (r : Crane) : Crane :=
  { r with
    queue := takeCopy c x r.queue, downlinkSent := true
    counters := { r.counters with copies := r.counters.copies + 1 } }

section Offers

variable {c : Chain} {k : CraneId} {s : State}

theorem craneOffer_keep {x : CellId} (first : FirstOf c (s.crane k).anchor ((s.crane k).keeps.map Prod.fst) x) :
    ∃ stamp, (x, stamp) ∈ (s.crane k).keeps
      ∧ craneOffer c k s = some (.keep x (s.crane k).radio stamp, Crane.keepTaken x) := by
  obtain ⟨⟨y, stamp⟩, found⟩ : ∃ e, ((s.crane k).keeps.find? fun e => e.1 == x) = some e := by
    rw [← Option.isSome_iff_exists, List.find?_isSome]
    obtain ⟨e, kept, rfl⟩ := List.mem_map.1 first.1
    exact ⟨e, kept, by simp⟩
  obtain rfl : y = x := by simpa using List.find?_some found
  refine ⟨stamp, List.mem_of_find?_eq_some found, ?_⟩
  unfold craneOffer
  simp only [firstCell_eq_some.2 first, found]
  rfl

theorem craneOffer_unkept (unkept : ∀ e ∈ (s.crane k).keeps, chainOf e.1 ≠ c) : craneOffer c k s =
    (oldestFor c (s.crane k).queue).bind fun e => (firstCell c (s.crane k).anchor e.dests).map fun x =>
      (.craneDown x (s.crane k).radio e.payload, Crane.copyTaken c x) := by
  have none : firstCell c (s.crane k).anchor ((s.crane k).keeps.map Prod.fst) = none :=
    firstCell_eq_none.2 (by simpa using fun x y h => unkept (x, y) h)
  simp only [craneOffer, none]
  cases oldestFor c (s.crane k).queue with
  | none => rfl
  | some e => cases h : firstCell c (s.crane k).anchor e.dests <;> simp only [Option.bind_some, h] <;> rfl

theorem craneOffer_copy (unkept : ∀ e ∈ (s.crane k).keeps, chainOf e.1 ≠ c) {front back : List DownEntry} {e : DownEntry}
    (queue : (s.crane k).queue = front ++ e :: back) (before : ∀ d ∈ front, ∀ y ∈ d.dests, chainOf y ≠ c) {x : CellId}
    (first : FirstOf c (s.crane k).anchor e.dests x) :
    craneOffer c k s = some (.craneDown x (s.crane k).radio e.payload, Crane.copyTaken c x) := by
  rw [craneOffer_unkept unkept, queue, oldestFor_append before ⟨x, first.1, first.2.1⟩, Option.bind_some,
    firstCell_eq_some.2 first]
  rfl

theorem craneOffer_none (unkept : ∀ e ∈ (s.crane k).keeps, chainOf e.1 ≠ c)
    (elsewhere : ∀ e ∈ (s.crane k).queue, ∀ y ∈ e.dests, chainOf y ≠ c) : craneOffer c k s = none := by
  rw [craneOffer_unkept unkept, oldestFor_eq_none elsewhere]
  rfl

end Offers

/-! ### Whose turn it is (R13) -/

theorem roundFrom_sorted (p : Option CraneId) : (roundFrom p).Pairwise fun j k => turnOf p j < turnOf p k := by
  cases p with
  | none => decide
  | some p => revert p; decide

theorem mem_roundFrom (p : Option CraneId) (k : CraneId) : k ∈ roundFrom p := by
  cases p with
  | none => exact mem_allCranes k
  | some p =>
    rw [roundFrom, List.mem_append, or_comm, ← List.mem_append, List.take_append_drop]
    exact mem_allCranes k

theorem firstOffer_none {c : Chain} {s : State} {l : List CraneId} (h : ∀ k ∈ l, craneOffer c k s = none) :
    firstOffer c s l = none := by
  induction l with
  | nil => rfl
  | cons k l ih => rw [firstOffer, h k (by simp)]; exact ih fun j hj => h j (by simp [hj])

/-- In a pass sorted by turns the first offer is that of the crane none before which offers. -/
theorem firstOffer_first {c : Chain} {s : State} {turn : CraneId → Nat} {l : List CraneId}
    (sorted : l.Pairwise fun j k => turn j < turn k) {k : CraneId} (there : k ∈ l) {b : DownBlock} {f : Crane → Crane}
    (offers : craneOffer c k s = some (b, f)) (before : ∀ j, turn j < turn k → craneOffer c j s = none) :
    firstOffer c s l = some (k, b, f) := by
  induction l with
  | nil => simp at there
  | cons j l ih =>
    obtain ⟨earlier, sorted⟩ := List.pairwise_cons.1 sorted
    obtain rfl | there := List.mem_cons.1 there
    · rw [firstOffer, offers]
    · rw [firstOffer, before j (earlier k there)]
      exact ih sorted there

section Turns

variable {cap n : Nat} {c : Chain} {u : Build}

theorem buildCranes_full (full : u.full = true) : buildCranes cap c n u = u := by
  cases n with
  | zero => rfl
  | succ n => rw [buildCranes, if_pos full]

theorem buildCranes_idle (idle : ∀ k, craneOffer c k u.st = none) : buildCranes cap c n u = u := by
  cases n with
  | zero => rfl
  | succ n =>
    rw [buildCranes, firstOffer_none fun k _ => idle k]
    simp

/-- A turn of the round robin: the first crane after the pointer that offers a block. -/
theorem buildCranes_turn (going : u.full = false) {k : CraneId} {b : DownBlock} {f : Crane → Crane}
    (offers : craneOffer c k u.st = some (b, f))
    (before : ∀ j, turnOf (u.st.chain c).cranePtr j < turnOf (u.st.chain c).cranePtr k → craneOffer c j u.st = none) :
    buildCranes cap c (n + 1) u = buildCranes cap c n
      (u.offer cap b fun t => (t.modCrane k f).modChain c fun r => { r with cranePtr := some k }) := by
  have first := firstOffer_first (roundFrom_sorted _) (mem_roundFrom _ k) offers before
  rw [buildCranes, if_neg (by simp [going]), first]

end Turns

theorem Build.offer_exceeds {cap : Nat} {b : DownBlock} {u : Build} (going : u.full = false)
    (exceeds : cap < u.used + b.slots) (commit : State → State) : u.offer cap b commit = { u with full := true } := by
  rw [Build.offer, if_neg (by simp [going]), if_pos exceeds]

theorem Build.offer_fits {cap : Nat} {b : DownBlock} {u : Build} (going : u.full = false)
    (fits : u.used + b.slots ≤ cap) (commit : State → State) : u.offer cap b commit =
      { st := (commit u.st).modCell b.cell fun r => { r with downlinkBlocks := r.downlinkBlocks + 1 }
        used := u.used + b.slots, blocks := u.blocks ++ [b], full := false } := by
  rw [Build.offer, if_neg (by simp [going]), if_neg (by omega)]

/-! ### What an opener moves (R82, R86) -/

theorem State.modCrane_modCrane (s : State) (k : CraneId) (f g : Crane → Crane) :
    (s.modCrane k f).modCrane k g = s.modCrane k fun r => g (f r) := by
  simp [State.modCrane]

theorem State.modCrane_self {s : State} {k : CraneId} {f : Crane → Crane} (h : f (s.crane k) = s.crane k) :
    s.modCrane k f = s := by
  have same : f s.clu.cranes[k.val] = s.clu.cranes[k.val] := h
  simp [State.modCrane, same]

theorem State.modCrane_congr {s : State} {k : CraneId} {f g : Crane → Crane} (h : f (s.crane k) = g (s.crane k)) :
    s.modCrane k f = s.modCrane k g := by
  have same : f s.clu.cranes[k] = g s.clu.cranes[k] := h
  rw [State.modCrane, State.modCrane, same]

theorem barEndIfDue_eq {k : CraneId} {s : State} {x : CellId} {n : Nat} (bar : (s.crane k).bar = some (x, n)) :
    barEndIfDue k s = if n = 0 then s.modCrane k fun r => { r with bar := none } else s := by
  unfold barEndIfDue
  rw [bar]
  cases n <;> rfl

/-- A crane's failed-target bar after an opener of a chain (R86). -/
def Crane.stepBar (c : Chain) (r : Crane) : Crane :=
  { r with
    bar := match r.bar with
      | some (x, n) => if chainOf x ≠ c then some (x, n) else if n ≤ 1 then none else some (x, n - 1)
      | none => none }

theorem barStep_eq (c : Chain) (k : CraneId) (s : State) : barStep c k s = s.modCrane k (Crane.stepBar c) := by
  unfold barStep
  cases bar : (s.crane k).bar with
  | none => exact (State.modCrane_self (by simp only [Crane.stepBar, bar]; rw [← bar])).symm
  | some p =>
    obtain ⟨x, n⟩ := p
    dsimp only
    by_cases on : chainOf x = c
    · rw [if_pos on]
      have stepped : ((s.modCrane k fun r => { r with bar := some (x, n - 1) }).crane k).bar = some (x, n - 1) := by
        rw [State.crane_modCrane]
      rw [barEndIfDue_eq stepped]
      split
      case isTrue ended =>
        rw [State.modCrane_modCrane]
        refine State.modCrane_congr ?_
        simp only [Crane.stepBar, bar, on, ne_eq, not_true_eq_false, if_false, if_pos (show n ≤ 1 by omega)]
      case isFalse runs =>
        refine State.modCrane_congr ?_
        simp only [Crane.stepBar, bar, on, ne_eq, not_true_eq_false, if_false, if_neg (show ¬n ≤ 1 by omega)]
    · rw [if_neg on]
      exact (State.modCrane_self (by simp only [Crane.stepBar, bar, on, ne_eq, not_false_eq_true, if_true]; rw [← bar])).symm

theorem openerSent_eq (c : Chain) (s : State) : openerSent c s =
    allCranes.foldl (fun t k => countdownStep c k t) (allCranes.foldl (fun t k => t.modCrane k (Crane.stepBar c)) s) := by
  simp only [openerSent, barStep_eq]

theorem countdownStep_counts {c : Chain} {k : CraneId} {s : State} {x : CellId} (busy : (s.crane k).state = .handover)
    (target : (s.crane k).target = some x) (on : chainOf x = c) : countdownStep c k s =
      timeoutIfDue k (s.modCrane k fun r => { r with countdown := r.countdown - 1 }) := by
  simp [countdownStep, busy, target, on]

/-- The countdown of a handover to a cell of the chain, while it runs (R82). -/
theorem countdownStep_runs {c : Chain} {k : CraneId} {s : State} {x : CellId} (busy : (s.crane k).state = .handover)
    (target : (s.crane k).target = some x) (on : chainOf x = c) (runs : (s.crane k).countdown - 1 ≠ 0) :
    countdownStep c k s = s.modCrane k fun r => { r with countdown := (s.crane k).countdown - 1 } := by
  rw [countdownStep_counts busy target on, timeoutIfDue, if_neg]
  · exact State.modCrane_congr rfl
  · rintro ⟨-, ended⟩
    rw [State.crane_modCrane] at ended
    exact runs ended

/-- The countdown of a handover to a cell of the chain, when it ends (R82). -/
theorem countdownStep_ends {c : Chain} {k : CraneId} {s : State} {x : CellId} (busy : (s.crane k).state = .handover)
    (target : (s.crane k).target = some x) (on : chainOf x = c) (ended : (s.crane k).countdown - 1 = 0) :
    countdownStep c k s =
      failHandover k .timeout (s.modCrane k fun r => { r with countdown := (s.crane k).countdown - 1 }) := by
  have counted : (s.modCrane k fun r => { r with countdown := r.countdown - 1 }) =
      s.modCrane k fun r => { r with countdown := (s.crane k).countdown - 1 } := State.modCrane_congr rfl
  rw [countdownStep_counts busy target on, timeoutIfDue, if_pos, counted]
  rw [State.crane_modCrane]
  exact ⟨busy, ended⟩

theorem countdownStep_stays {c : Chain} {k : CraneId} {s : State}
    (h : (s.crane k).state ≠ .handover ∨ ∀ x, (s.crane k).target = some x → chainOf x ≠ c) : countdownStep c k s = s := by
  unfold countdownStep
  split
  · obtain idle | elsewhere := h
    · exact absurd ‹_› idle
    · rw [if_neg (elsewhere _ ‹_›)]
  · rfl

end Machine
end Sys2Proof
end

