-- ==== Sys2Proof/Proofs/PendingBlocks.lean ====
section
/-! SUPPORT. The blocks that go ahead of the crane round robin (R12): pending HOLD blocks by crane and cell (R68), then
pending HANDOVER-NOTICE blocks, oldest first (R81). -/

namespace Sys2Proof
namespace Machine

/-! ### One pending block -/

/-- A block that is pending at a crane link, and goes ahead of the round robin. -/
inductive Ahead
  | hold (k : CraneId) (e : CellId × U32)
  | notice (n : PendingNotice)

/-- The cell a pending block is for. -/
def Ahead.cell : Ahead → CellId
  | .hold _ e => e.1
  | .notice n => n.cell

/-- The downlink block of a pending block. -/
def Ahead.block (s : State) : Ahead → DownBlock
  | .hold k e => .hold e.1 (s.crane k).radio (s.crane k).lost e.2
  | .notice n => .handoverNotice n.cell (s.crane n.crane).radio n.anchor n.target n.stamp

/-- A crane whose HOLD block for a cell has been taken (R68). -/
def Crane.holdTaken (x : CellId) (r : Crane) : Crane :=
  { r with
    holds := r.holds.filter fun e => e.1 != x
    counters := { r.counters with holdsSent := r.counters.holdsSent + 1 } }

/-- What the taking of a pending block changes at the crane links. -/
def Ahead.take (p : Ahead) (t : State) : State :=
  match p with
  | .hold k e => t.modCrane k (Crane.holdTaken e.1)
  | .notice n => { t with clu := { t.clu with notices := t.clu.notices.erase n } }

/-- A pending block offered to a downlink. -/
def offerAhead (cap : Nat) (u : Build) (p : Ahead) : Build := u.offer cap (p.block u.st) p.take

/-- A pending block sent: taken, and counted for its cell. -/
def sendAhead (t : State) (p : Ahead) : State :=
  (p.take t).modCell p.cell fun r => { r with downlinkBlocks := r.downlinkBlocks + 1 }

@[simp] theorem Ahead.cell_block (s : State) (p : Ahead) : (p.block s).cell = p.cell := by cases p <;> rfl

@[simp] theorem Ahead.slots_block (s : State) (p : Ahead) : (p.block s).slots = 1 := by cases p <;> rfl

theorem sendAhead_crane_ne {k j : CraneId} (h : j ≠ k) (s : State) (e : CellId × U32) :
    (sendAhead s (.hold k e)).crane j = s.crane j := State.crane_modCrane_ne s h _

theorem sendAhead_crane (k : CraneId) (s : State) (e : CellId × U32) :
    (sendAhead s (.hold k e)).crane k = (s.crane k).holdTaken e.1 := State.crane_modCrane s k _

/-- The sending of a pending block leaves what the others are made of. -/
theorem Ahead.block_send (s : State) (p : Ahead) : Ahead.block (sendAhead s p) = Ahead.block s := by
  have kept : ∀ j, ((sendAhead s p).crane j).radio = (s.crane j).radio
      ∧ ((sendAhead s p).crane j).lost = (s.crane j).lost := by
    intro j
    cases p with
    | hold k e =>
      by_cases h : j = k
      · subst h
        rw [sendAhead_crane]
        exact ⟨rfl, rfl⟩
      · rw [sendAhead_crane_ne h]
        exact ⟨rfl, rfl⟩
    | notice n => exact ⟨rfl, rfl⟩
  funext q
  cases q with
  | hold k e =>
    obtain ⟨radio, lost⟩ := kept k
    simp only [Ahead.block, radio, lost]
  | notice n =>
    obtain ⟨radio, -⟩ := kept n.crane
    simp only [Ahead.block, radio]

theorem offerAhead_eq (cap : Nat) (u : Build) (p : Ahead) : offerAhead cap u p =
    if u.full then u
    else if cap < u.used + 1 then { u with full := true }
    else { st := sendAhead u.st p, used := u.used + 1, blocks := u.blocks ++ [p.block u.st], full := false } := by
  simp only [offerAhead, Build.offer, Ahead.slots_block, Ahead.cell_block]
  rfl

/-! ### All of them (R12) -/

theorem offerAheads_full {cap : Nat} {u : Build} (full : u.full = true) (l : List Ahead) :
    l.foldl (offerAhead cap) u = u := by
  induction l with
  | nil => rfl
  | cons p l ih => rw [List.foldl_cons, offerAhead_eq, if_pos full, ih]

/-- Pending blocks are taken in order as long as there is room, each in one slot. -/
theorem offerAheads_eq {cap : Nat} {u : Build} (going : u.full = false) (room : u.used ≤ cap) (l : List Ahead) :
    l.foldl (offerAhead cap) u =
      { st := (l.take (cap - u.used)).foldl sendAhead u.st
        used := u.used + (l.take (cap - u.used)).length
        blocks := u.blocks ++ (l.take (cap - u.used)).map (Ahead.block u.st)
        full := decide (cap - u.used < l.length) } := by
  induction l generalizing u with
  | nil =>
    obtain ⟨st, used, blocks, full⟩ := u
    simp at going
    simp [going]
  | cons p l ih =>
    rw [List.foldl_cons, offerAhead_eq, if_neg (by simp [going])]
    by_cases fits : cap < u.used + 1
    · have none : cap - u.used = 0 := by omega
      rw [if_pos fits, offerAheads_full rfl, none]
      simp
    · obtain ⟨n, left⟩ : ∃ n, cap - u.used = n + 1 := ⟨cap - u.used - 1, by omega⟩
      have left' : cap - (u.used + 1) = n := by omega
      rw [if_neg fits, ih rfl (by simp; omega)]
      dsimp only
      rw [left, left', List.take_succ_cons]
      simp [Ahead.block_send, Nat.add_assoc, Nat.add_comm 1]

section Pending

variable (c : Chain) (s : State)

/-- The HOLD blocks pending for a chain, by crane and cell (R68). -/
def pendingHolds : List (CraneId × CellId × U32) :=
  allCranes.flatMap fun k => ((s.crane k).holds.filter fun e => decide (chainOf e.1 = c)).map fun e => (k, e)

/-- The HANDOVER-NOTICE blocks pending for a chain, oldest first (R81). -/
def pendingNotices : List PendingNotice := s.clu.notices.filter fun n => decide (chainOf n.cell = c)

/-- All that is pending for a chain, in the order in which it goes out. -/
def pendingAhead : List Ahead :=
  (pendingHolds c s).map (fun p => Ahead.hold p.1 p.2) ++ (pendingNotices c s).map Ahead.notice

end Pending

theorem offerAhead_crane_ne {k j : CraneId} (h : j ≠ k) (cap : Nat) (u : Build) (e : CellId × U32) :
    (offerAhead cap u (.hold k e)).st.crane j = u.st.crane j := by
  rw [offerAhead_eq]
  split_ifs
  exacts [rfl, rfl, sendAhead_crane_ne h _ _]

theorem offerAhead_notices (cap : Nat) (u : Build) (k : CraneId) (e : CellId × U32) :
    (offerAhead cap u (.hold k e)).st.clu.notices = u.st.clu.notices := by
  rw [offerAhead_eq]
  split_ifs <;> rfl

theorem offerHolds_crane_ne {k j : CraneId} (h : j ≠ k) (cap : Nat) (l : List (CellId × U32)) (u : Build) :
    ((l.foldl (fun v e => offerAhead cap v (.hold k e)) u).st.crane j) = u.st.crane j := by
  induction l generalizing u with
  | nil => rfl
  | cons e l ih => rw [List.foldl_cons, ih, offerAhead_crane_ne h]

theorem offerHolds_notices (cap : Nat) (l : List (CraneId × CellId × U32)) (u : Build) :
    (l.foldl (fun v p => offerAhead cap v (.hold p.1 p.2)) u).st.clu.notices = u.st.clu.notices := by
  induction l generalizing u with
  | nil => rfl
  | cons p l ih => rw [List.foldl_cons, ih, offerAhead_notices]

theorem buildHolds_eq (cap : Nat) (c : Chain) (u : Build) (k : CraneId) : buildHolds cap c u k =
    ((u.st.crane k).holds.filter fun e => decide (chainOf e.1 = c)).foldl (fun v e => offerAhead cap v (.hold k e)) u :=
  rfl

theorem buildNotices_eq (cap : Nat) (c : Chain) (u : Build) : buildNotices cap c u =
    (u.st.clu.notices.filter fun n => decide (chainOf n.cell = c)).foldl (fun v n => offerAhead cap v (.notice n)) u :=
  rfl

/-- The HOLD blocks of some cranes are those pending before any of them is offered. -/
theorem buildHolds_fold (cap : Nat) (c : Chain) {l : List CraneId} (once : l.Nodup) (u : Build) :
    l.foldl (buildHolds cap c) u =
      (l.flatMap fun k => ((u.st.crane k).holds.filter fun e => decide (chainOf e.1 = c)).map fun e => (k, e)).foldl
        (fun v p => offerAhead cap v (.hold p.1 p.2)) u := by
  induction l generalizing u with
  | nil => rfl
  | cons k l ih =>
    obtain ⟨apart, once'⟩ := List.nodup_cons.1 once
    rw [List.foldl_cons, ih once', List.flatMap_cons, List.foldl_append, List.foldl_map, buildHolds_eq]
    have same : (l.flatMap fun j => (((buildHolds cap c u k).st.crane j).holds.filter
        fun e => decide (chainOf e.1 = c)).map fun e => (j, e))
        = l.flatMap fun j => ((u.st.crane j).holds.filter fun e => decide (chainOf e.1 = c)).map fun e => (j, e) := by
      refine List.flatMap_congr fun j hj => ?_
      rw [buildHolds_eq, offerHolds_crane_ne fun e : j = k => apart (e ▸ hj)]
    rw [buildHolds_eq] at same
    rw [same]

/-- The empty downlink. -/
def Build.empty (s : State) : Build := { st := s, used := 0, blocks := [], full := false }

/-- The downlink after the pending blocks. -/
def buildAhead (cap : Nat) (c : Chain) (s : State) : Build :=
  buildNotices cap c (allCranes.foldl (buildHolds cap c) (Build.empty s))

theorem buildAhead_eq (cap : Nat) (c : Chain) (s : State) : buildAhead cap c s =
    { st := ((pendingAhead c s).take cap).foldl sendAhead s
      used := ((pendingAhead c s).take cap).length
      blocks := ((pendingAhead c s).take cap).map (Ahead.block s)
      full := decide (cap < (pendingAhead c s).length) } := by
  have folded : buildAhead cap c s = (pendingAhead c s).foldl (offerAhead cap) (Build.empty s) := by
    rw [buildAhead, buildHolds_fold cap c allCranes_nodup, buildNotices_eq, offerHolds_notices, pendingAhead,
      List.foldl_append, List.foldl_map, List.foldl_map]
    rfl
  rw [folded, offerAheads_eq rfl (Nat.zero_le _)]
  simp [Build.empty]

/-! ### What the taking of the pending blocks leaves -/

/-- A counter that counts one, and then so many. -/
theorem counter_succ (a : Counter) (n : Nat) : a + 1 + BitVec.ofNat 32 n = a + BitVec.ofNat 32 (n + 1) := by
  rw [BitVec.ofNat_add, BitVec.add_comm (BitVec.ofNat 32 n), ← BitVec.add_assoc]
  rfl

theorem sendHolds_crane (l : List (CraneId × CellId × U32)) (s : State) (k : CraneId) :
    let taken := l.filter fun p => decide (p.1 = k)
    (l.foldl (fun t p => sendAhead t (.hold p.1 p.2)) s).crane k =
      { s.crane k with
        holds := (s.crane k).holds.filter fun e => !(taken.any fun p => p.2.1 == e.1)
        counters := { (s.crane k).counters with
          holdsSent := (s.crane k).counters.holdsSent + BitVec.ofNat 32 taken.length } } := by
  intro taken
  induction l generalizing s with
  | nil => simp [taken]
  | cons p l ih =>
    obtain ⟨j, e⟩ := p
    rw [List.foldl_cons, ih]
    by_cases h : j = k
    · subst h
      have first : taken = (j, e) :: l.filter fun p => decide (p.1 = j) := by simp [taken]
      rw [sendAhead_crane, first]
      have gone : ∀ (b : Bool) (x : CellId), (!b && (x != e.1)) = !(e.1 == x || b) := fun b x => by
        rw [Bool.not_or, Bool.and_comm, bne, BEq.comm]
      simp only [Crane.holdTaken, List.filter_filter, List.any_cons, List.length_cons, gone, counter_succ]
    · have later : taken = l.filter fun p => decide (p.1 = k) := by simp [taken, h]
      rw [sendAhead_crane_ne (Ne.symm h), later]

theorem sendHolds_notices (l : List (CraneId × CellId × U32)) (s : State) :
    (l.foldl (fun t p => sendAhead t (.hold p.1 p.2)) s).clu.notices = s.clu.notices := by
  induction l generalizing s with
  | nil => rfl
  | cons p l ih => rw [List.foldl_cons, ih]; rfl

theorem sendNotices_crane (l : List PendingNotice) (s : State) (k : CraneId) :
    (l.foldl (fun t n => sendAhead t (.notice n)) s).crane k = s.crane k := by
  induction l generalizing s with
  | nil => rfl
  | cons n l ih => rw [List.foldl_cons, ih]; rfl

theorem sendNotices_notices (l : List PendingNotice) (s : State) :
    (l.foldl (fun t n => sendAhead t (.notice n)) s).clu.notices = l.foldl List.erase s.clu.notices := by
  induction l generalizing s with
  | nil => rfl
  | cons n l ih => rw [List.foldl_cons, ih]; rfl

section After

variable (cap : Nat) (c : Chain) (s : State)

theorem buildAhead_st : (buildAhead cap c s).st =
    ((pendingNotices c s).take (cap - (pendingHolds c s).length)).foldl (fun t n => sendAhead t (.notice n))
      (((pendingHolds c s).take cap).foldl (fun t p => sendAhead t (.hold p.1 p.2)) s) := by
  rw [buildAhead_eq, pendingAhead, List.take_append, List.foldl_append, ← List.map_take, ← List.map_take,
    List.foldl_map, List.foldl_map, List.length_map]

theorem buildAhead_crane (k : CraneId) :
    let taken := ((pendingHolds c s).take cap).filter fun p => decide (p.1 = k)
    (buildAhead cap c s).st.crane k =
      { s.crane k with
        holds := (s.crane k).holds.filter fun e => !(taken.any fun p => p.2.1 == e.1)
        counters := { (s.crane k).counters with
          holdsSent := (s.crane k).counters.holdsSent + BitVec.ofNat 32 taken.length } } := by
  rw [buildAhead_st, sendNotices_crane, sendHolds_crane]

theorem buildAhead_notices : (buildAhead cap c s).st.clu.notices =
    ((pendingNotices c s).take (cap - (pendingHolds c s).length)).foldl List.erase s.clu.notices := by
  rw [buildAhead_st, sendNotices_notices, sendHolds_notices]

theorem sendAheads_chain (l : List Ahead) (d : Chain) : (l.foldl sendAhead s).chain d = s.chain d := by
  induction l generalizing s with
  | nil => rfl
  | cons p l ih =>
    rw [List.foldl_cons, ih]
    cases p <;> rfl

@[simp] theorem buildAhead_chain (d : Chain) : (buildAhead cap c s).st.chain d = s.chain d := by
  rw [buildAhead_eq]
  exact sendAheads_chain s _ d

end After

end Machine
end Sys2Proof
end

