-- ==== Sys2Proof/Proofs/Downlinks.lean ====
section
/-! SUPPORT. The downlink of a RUNNING chain as it is built (R11-R14): what every stage keeps, the round robin of the cranes,
and the general frames. -/

namespace Sys2Proof
namespace Machine

/-! ### What every stage of a build keeps (R11, R12) -/

/-- A build in order: its slots are those of its blocks and keep within the capacity, and each block is counted for its
cell. -/
structure BuildSound (cap : Nat) (s : State) (u : Build) : Prop where
  used : u.used = (u.blocks.map DownBlock.slots).sum
  fits : u.used ≤ cap
  counted : ∀ x, (u.st.cell x).downlinkBlocks =
    (s.cell x).downlinkBlocks + BitVec.ofNat 32 (u.blocks.countP fun b => decide (b.cell = x))

namespace BuildSound

variable {cap : Nat} {s : State} {u : Build}

theorem empty (cap : Nat) (s : State) : BuildSound cap s (Build.empty s) where
  used := rfl
  fits := Nat.zero_le cap
  counted x := by simp [Build.empty]

theorem offer (h : BuildSound cap s u) (b : DownBlock) {commit : State → State}
    (kept : ∀ x, (commit u.st).cell x = u.st.cell x) : BuildSound cap s (u.offer cap b commit) := by
  unfold Build.offer
  split
  · exact h
  · split
    · exact ⟨h.used, h.fits, h.counted⟩
    · next fits =>
      refine ⟨by simp [h.used], by dsimp only; omega, fun x => ?_⟩
      dsimp only
      rw [List.countP_append, BitVec.ofNat_add, ← BitVec.add_assoc, ← h.counted]
      by_cases there : x = b.cell
      · subst there
        rw [State.cell_modCell, kept]
        simp
      · rw [State.cell_modCell_ne _ there, kept]
        simp [Ne.symm there]

theorem foldl {α : Type} {f : Build → α → Build} (step : ∀ u a, BuildSound cap s u → BuildSound cap s (f u a))
    (l : List α) (h : BuildSound cap s u) : BuildSound cap s (l.foldl f u) := by
  induction l generalizing u with
  | nil => exact h
  | cons a l ih => exact ih (step u a h)

end BuildSound

/-- Every block of a build is for a cell of the chain. -/
def BlocksOn (c : Chain) (u : Build) : Prop := ∀ b ∈ u.blocks, chainOf b.cell = c

theorem BlocksOn.offer {c : Chain} {u : Build} (h : BlocksOn c u) {b : DownBlock} (on : chainOf b.cell = c) (cap : Nat)
    (commit : State → State) : BlocksOn c (u.offer cap b commit) := by
  unfold Build.offer
  split
  · exact h
  · split
    · exact h
    · intro d hd
      obtain old | new := List.mem_append.1 hd
      exacts [h d old, List.mem_singleton.1 new ▸ on]

/-- A stage that offers a block leaves the state as it was, or as the block's commitment and its count leave it. -/
theorem Build.offer_st (cap : Nat) (b : DownBlock) (commit : State → State) (u : Build) :
    (u.offer cap b commit).st = u.st ∨ (u.offer cap b commit).st =
      (commit u.st).modCell b.cell fun r => { r with downlinkBlocks := r.downlinkBlocks + 1 } := by
  unfold Build.offer
  split_ifs
  exacts [.inl rfl, .inl rfl, .inr rfl]

/-! ### The crane round robin (R13) -/

/-- What a crane offers is for a cell of the chain, and takes a slot at least. -/
theorem craneOffer_block {c : Chain} {k : CraneId} {s : State} {b : DownBlock} {f : Crane → Crane}
    (h : craneOffer c k s = some (b, f)) : chainOf b.cell = c ∧ 1 ≤ b.slots := by
  have some_slots : ∀ n, 1 ≤ slotsOf n := fun n => by simp only [slotsOf, Config.slotOctets]; omega
  unfold craneOffer at h
  dsimp only at h
  split at h
  case h_1 x first =>
    obtain ⟨rfl, -⟩ := Prod.mk.inj (Option.some.inj h)
    exact ⟨(firstCell_eq_some.1 first).2.1, le_rfl⟩
  case h_2 =>
    split at h
    case h_1 => simp at h
    case h_2 e _ =>
      split at h
      case h_1 => simp at h
      case h_2 x first =>
        obtain ⟨rfl, -⟩ := Prod.mk.inj (Option.some.inj h)
        exact ⟨(firstCell_eq_some.1 first).2.1, some_slots _⟩

theorem firstOffer_some {c : Chain} {s : State} {l : List CraneId} {k : CraneId} {b : DownBlock} {f : Crane → Crane}
    (h : firstOffer c s l = some (k, b, f)) : craneOffer c k s = some (b, f) := by
  induction l with
  | nil => simp [firstOffer] at h
  | cons j l ih =>
    unfold firstOffer at h
    split at h
    case h_1 o offers =>
      obtain ⟨rfl, rfl⟩ : j = k ∧ o = (b, f) := by simpa using h
      exact offers
    case h_2 => exact ih h

theorem firstOffer_eq_none {c : Chain} {s : State} {l : List CraneId} (h : firstOffer c s l = none) :
    ∀ k ∈ l, craneOffer c k s = none := by
  induction l with
  | nil => simp
  | cons j l ih =>
    unfold firstOffer at h
    split at h
    case h_1 => simp at h
    case h_2 none => simpa [none] using ih h

/-- A turn of the round robin in which a crane's block is offered. -/
def Build.turn (cap : Nat) (c : Chain) (u : Build) (k : CraneId) (b : DownBlock) (f : Crane → Crane) : Build :=
  u.offer cap b fun t => (t.modCrane k f).modChain c fun r => { r with cranePtr := some k }

section RoundRobin

variable {cap n : Nat} {c : Chain} {u : Build}

/-- What every turn of the round robin keeps, the round robin keeps. -/
theorem buildCranes_keeps {P : Build → Prop}
    (turn : ∀ u k b f, craneOffer c k u.st = some (b, f) → P u → P (u.turn cap c k b f)) (h : P u) :
    P (buildCranes cap c n u) := by
  induction n generalizing u with
  | zero => exact h
  | succ n ih =>
    unfold buildCranes
    split
    · exact h
    · split
      · exact h
      · next k b f offer => exact ih (turn u k b f (firstOffer_some offer) h)

theorem buildCranes_sound {s : State} (h : BuildSound cap s u) : BuildSound cap s (buildCranes cap c n u) :=
  buildCranes_keeps (fun _ _ b _ _ h => h.offer b fun x => by rw [State.cell_modChain]; rfl) h

theorem buildCranes_on (h : BlocksOn c u) : BlocksOn c (buildCranes cap c n u) :=
  buildCranes_keeps (fun _ _ _ _ offer h => h.offer (craneOffer_block offer).1 cap _) h

/-- The round robin moves the pointer of the chain's record alone. -/
theorem buildCranes_chain : (buildCranes cap c n u).st.chain c =
    { u.st.chain c with cranePtr := ((buildCranes cap c n u).st.chain c).cranePtr } := by
  refine buildCranes_keeps (P := fun v => v.st.chain c = { u.st.chain c with cranePtr := (v.st.chain c).cranePtr })
    (fun v k b f _ (h : v.st.chain c = _) => ?_) rfl
  have kept : ∀ s x (g : Cell → Cell), (State.modCell s x g).chain c = s.chain c := fun _ _ _ => rfl
  obtain same | taken := v.offer_st cap b fun t => (t.modCrane k f).modChain c fun r => { r with cranePtr := some k }
  · rw [Build.turn, same]
    exact h
  · rw [Build.turn, taken, kept, State.chain_modChain]
    have crane : (v.st.modCrane k f).chain c = v.st.chain c := rfl
    rw [crane, h]

/-- With turns for every slot that is left, the round robin ends when no crane offers or a block does not fit. -/
theorem buildCranes_exhausts (fits : u.used ≤ cap) (enough : cap < n + u.used) (going : (buildCranes cap c n u).full = false) :
    ∀ k, craneOffer c k (buildCranes cap c n u).st = none := by
  induction n generalizing u with
  | zero => omega
  | succ n ih =>
    unfold buildCranes at going ⊢
    split at going
    case isTrue full => simp [full] at going
    case isFalse notFull =>
      have notFull : u.full = false := by simpa using notFull
      rw [if_neg (by simp [notFull])]
      split at going
      case h_1 none =>
        exact fun k => firstOffer_eq_none none k (mem_roundFrom _ k)
      case h_2 k b f offer =>
        by_cases room : u.used + b.slots ≤ cap
        · rw [Build.offer_fits notFull room] at going ⊢
          have slots := (craneOffer_block (firstOffer_some offer)).2
          exact ih room (by dsimp only; omega) going
        · rw [Build.offer_exceeds notFull (by omega), buildCranes_full rfl] at going
          simp at going

end RoundRobin

/-! ### The general frames (R14) -/

/-- The downlink block of a general frame. -/
def GeneralDown.block (g : GeneralDown) : DownBlock := .generalDown g.cell g.unit g.payload

theorem DownlinkTaken.carries {c : Chain} {s t : State} (h : DownlinkTaken c s t) : carriesGeneral t = carriesGeneral s := by
  funext x
  rw [carriesGeneral, carriesGeneral, h.cells x]

theorem buildGeneral_full {cap : Nat} {c : Chain} {u : Build} (full : u.full = true) (q : List GeneralDown) :
    buildGeneral cap c q u = u := by
  cases q with
  | nil => rfl
  | cons g rest => rw [buildGeneral_cons, if_pos full]

section TakeFrame

variable {cap : Nat} {u : Build} {g : GeneralDown} (going : u.full = false) (fits : u.used + g.block.slots ≤ cap) (c : Chain)
  (rest : List GeneralDown)

include going fits

theorem takeFrame_fits : u.takeFrame cap c g rest =
    { st := (u.st.modChain c fun r => { r with generalQ := rest }).modCell g.cell fun r =>
        { r with downlinkBlocks := r.downlinkBlocks + 1 }
      used := u.used + g.block.slots, blocks := u.blocks ++ [g.block], full := false } :=
  Build.offer_fits going fits _

theorem takeFrame_chain : (u.takeFrame cap c g rest).st.chain c = { u.st.chain c with generalQ := rest } := by
  have kept : ∀ s x (f : Cell → Cell), (State.modCell s x f).chain c = s.chain c := fun _ _ _ => rfl
  rw [takeFrame_fits going fits, kept, State.chain_modChain]

end TakeFrame

/-- The general frames of a downlink: so many have left the head of the queue, those of a route into the downlink and the
others counted as stale; the next one, if there is one, has a route and does not fit. -/
structure GeneralSent (cap : Nat) (c : Chain) (q : List GeneralDown) (u t : Build) (n : Nat) : Prop where
  blocks : t.blocks = u.blocks ++ ((q.take n).filter fun g => carriesGeneral u.st g.cell).map GeneralDown.block
  none : u.full = true → n = 0
  stop : u.full = false → ∀ g, q[n]? = some g → carriesGeneral u.st g.cell = true ∧ cap < t.used + g.block.slots
  queue : (t.st.chain c).generalQ = q.drop n
  stale : (t.st.chain c).counters.generalStale = (u.st.chain c).counters.generalStale
    + BitVec.ofNat 32 ((q.take n).filter fun g => !carriesGeneral u.st g.cell).length
  pointer : (t.st.chain c).cranePtr = (u.st.chain c).cranePtr
  clu : t.st.clu = u.st.clu

namespace GeneralSent

variable {cap : Nat} {c : Chain} {u : Build}

/-- No frame leaves the queue. -/
theorem zero {q : List GeneralDown} {t : Build} (st : t.st = u.st) (blocks : t.blocks = u.blocks)
    (queue : (u.st.chain c).generalQ = q)
    (stop : u.full = false → ∀ g, q[0]? = some g → carriesGeneral u.st g.cell = true ∧ cap < t.used + g.block.slots) :
    GeneralSent cap c q u t 0 := by
  constructor <;> simp_all

/-- A frame with a route, and after it the rest. -/
theorem taken {g : GeneralDown} {rest : List GeneralDown} {t : Build} {n : Nat} (going : u.full = false)
    (carried : carriesGeneral u.st g.cell = true) (queue : (u.st.chain c).generalQ = g :: rest)
    (fits : u.used + g.block.slots ≤ cap) (h : GeneralSent cap c rest (u.takeFrame cap c g rest) t n) :
    GeneralSent cap c (g :: rest) u t (n + 1) := by
  have st := takeFrame_fits going fits c rest
  have same : carriesGeneral (u.takeFrame cap c g rest).st = carriesGeneral u.st :=
    (takeFrame_taken cap c g (queue ▸ List.suffix_cons g rest)).carries
  have chain := takeFrame_chain going fits c rest
  have clu : (u.takeFrame cap c g rest).st.clu = u.st.clu := by
    rw [st]
    exact State.modChain_clu _ _ _
  constructor
  case blocks =>
    rw [h.blocks, same, st]
    simp [carried, GeneralDown.block]
  case none => simp [going]
  case stop => exact fun _ => by simpa [same] using h.stop (by rw [st])
  case queue => simpa using h.queue
  case stale =>
    rw [h.stale, same, chain]
    simp [carried]
  case pointer => rw [h.pointer, chain]
  case clu => rw [h.clu, clu]

/-- A frame of no route, and after it the rest. -/
theorem passed {g : GeneralDown} {rest : List GeneralDown} {t : Build} {n : Nat} (going : u.full = false)
    (stray : carriesGeneral u.st g.cell = false) (queue : (u.st.chain c).generalQ = g :: rest)
    (h : GeneralSent cap c rest (u.passFrame c rest) t n) : GeneralSent cap c (g :: rest) u t (n + 1) := by
  have same : carriesGeneral (u.passFrame c rest).st = carriesGeneral u.st :=
    (passFrame_taken c (queue ▸ List.suffix_cons g rest)).carries
  have chain : (u.passFrame c rest).st.chain c = (u.st.chain c).passFrame rest := State.chain_modChain _ _ _
  have clu : (u.passFrame c rest).st.clu = u.st.clu := State.modChain_clu _ _ _
  constructor
  case blocks =>
    rw [h.blocks, same]
    simp [stray, Build.passFrame]
  case none => simp [going]
  case stop => exact fun _ => by simpa [same] using h.stop going
  case queue => simpa using h.queue
  case stale =>
    rw [h.stale, same, chain]
    simp only [ChainRec.passFrame, counter_succ, List.take_succ_cons, List.filter_cons, stray, Bool.not_false, if_true,
      List.length_cons]
  case pointer => rw [h.pointer, chain]; rfl
  case clu => rw [h.clu, clu]

end GeneralSent

theorem buildGeneral_sent {cap : Nat} {c : Chain} {q : List GeneralDown} {u : Build} (queue : (u.st.chain c).generalQ = q) :
    ∃ n, GeneralSent cap c q u (buildGeneral cap c q u) n := by
  induction q generalizing u with
  | nil => exact ⟨0, .zero rfl rfl queue (by simp)⟩
  | cons g rest ih =>
    rw [buildGeneral_cons]
    split
    case isTrue full => exact ⟨0, .zero rfl rfl queue (by simp [full])⟩
    case isFalse notFull =>
      have going : u.full = false := by simpa using notFull
      split
      case isTrue carried =>
        by_cases fits : u.used + g.block.slots ≤ cap
        · obtain ⟨n, sent⟩ := ih (u := u.takeFrame cap c g rest) (by rw [takeFrame_chain going fits])
          exact ⟨n + 1, sent.taken going carried queue fits⟩
        · have exceeds : u.takeFrame cap c g rest = { u with full := true } :=
            Build.offer_exceeds going (not_le.1 fits) _
          rw [exceeds, buildGeneral_full rfl]
          refine ⟨0, .zero rfl rfl queue fun _ g' head => ?_⟩
          obtain rfl : g = g' := by simpa using head
          exact ⟨carried, not_le.1 fits⟩
      case isFalse stray =>
        obtain ⟨n, sent⟩ := ih (u := u.passFrame c rest) (by rw [Build.passFrame, State.chain_modChain]; rfl)
        exact ⟨n + 1, sent.passed going (by simpa using stray) queue⟩

theorem buildGeneral_sound {cap : Nat} {c : Chain} {s : State} {q : List GeneralDown} {u : Build} (h : BuildSound cap s u) :
    BuildSound cap s (buildGeneral cap c q u) := by
  induction q generalizing u with
  | nil => exact h
  | cons g rest ih =>
    rw [buildGeneral_cons]
    split_ifs
    · exact h
    · exact ih (h.offer _ fun x => State.cell_modChain _ _ _ _)
    · refine ih ⟨h.used, h.fits, fun x => ?_⟩
      rw [Build.passFrame, State.cell_modChain]
      exact h.counted x

theorem GeneralSent.on {cap : Nat} {c : Chain} {q : List GeneralDown} {u t : Build} {n : Nat}
    (h : GeneralSent cap c q u t n) (before : BlocksOn c u) (on : ∀ g ∈ q, chainOf g.cell = c) : BlocksOn c t := by
  intro b hb
  rw [h.blocks, List.mem_append] at hb
  obtain old | new := hb
  · exact before b old
  · obtain ⟨g, there, rfl⟩ := List.mem_map.1 new
    exact on g (List.mem_of_mem_take (List.mem_of_mem_filter there))

end Machine
end Sys2Proof
end

