-- ==== Sys2Proof/Proofs/CyclesSent.lean ====
section
/-! A cycle that is sent (R4, R10-R15, R82), settled: the state at the opener, the whole downlink, the grants. -/

namespace Sys2Proof
namespace Machine

/-! ### The whole downlink (R12) -/

theorem buildAhead_sound (cap : Nat) (c : Chain) (s : State) : BuildSound cap s (buildAhead cap c s) := by
  have holds : ∀ u k, BuildSound cap s u → BuildSound cap s (buildHolds cap c u k) := fun u k h =>
    .foldl (fun _ _ h => h.offer _ fun _ => rfl) _ h
  exact .foldl (fun _ _ h => h.offer _ fun _ => rfl) _ (.foldl holds _ (.empty cap s))

theorem pendingAhead_on {c : Chain} {s : State} {p : Ahead} (h : p ∈ pendingAhead c s) : chainOf p.cell = c := by
  obtain hold | notice := List.mem_append.1 h
  · obtain ⟨⟨k, e⟩, pending, rfl⟩ := List.mem_map.1 hold
    obtain ⟨j, -, ofCrane⟩ := List.mem_flatMap.1 pending
    obtain ⟨e', held, same⟩ := List.mem_map.1 ofCrane
    obtain ⟨rfl, rfl⟩ := Prod.mk.inj same
    exact of_decide_eq_true (List.mem_filter.1 held).2
  · obtain ⟨n, pending, rfl⟩ := List.mem_map.1 notice
    exact of_decide_eq_true (List.mem_filter.1 pending).2

theorem buildAhead_on (cap : Nat) (c : Chain) (s : State) : BlocksOn c (buildAhead cap c s) := by
  intro b hb
  rw [buildAhead_eq] at hb
  obtain ⟨p, pending, rfl⟩ := List.mem_map.1 hb
  rw [Ahead.cell_block]
  exact pendingAhead_on (List.mem_of_mem_take pending)

/-- The downlink after the round robin of the cranes. -/
def buildLinks (c : Chain) (s : State) : Build :=
  buildCranes (effectiveCapacity s.params) c (effectiveCapacity s.params + 1) (buildAhead (effectiveCapacity s.params) c s)

theorem buildDownlink_eq (c : Chain) (s : State) : buildDownlink c s =
    buildGeneral (effectiveCapacity s.params) c ((buildLinks c s).st.chain c).generalQ (buildLinks c s) := rfl

section Downlink

variable (c : Chain) (s : State)

theorem buildLinks_sound : BuildSound (effectiveCapacity s.params) s (buildLinks c s) :=
  buildCranes_sound (buildAhead_sound _ c s)

theorem buildLinks_on : BlocksOn c (buildLinks c s) := buildCranes_on (buildAhead_on _ c s)

theorem buildLinks_chain : (buildLinks c s).st.chain c =
    { s.chain c with cranePtr := ((buildLinks c s).st.chain c).cranePtr } := by
  rw [buildLinks, buildCranes_chain, buildAhead_chain]

theorem buildLinks_carries : carriesGeneral (buildLinks c s).st = carriesGeneral s := by
  have ahead : DownlinkTaken c s (buildAhead (effectiveCapacity s.params) c s).st :=
    (DownlinkTaken.foldl (buildHolds_taken _ c) allCranes (Build.empty s)).trans (buildNotices_taken _ c _)
  exact (ahead.trans (buildCranes_taken _ c _ _)).carries

theorem buildLinks_exhausts (going : (buildLinks c s).full = false) (k : CraneId) :
    craneOffer c k (buildLinks c s).st = none :=
  buildCranes_exhausts (buildAhead_sound _ c s).fits (by omega) going k

theorem buildDownlink_sound : BuildSound (effectiveCapacity s.params) s (buildDownlink c s) :=
  buildGeneral_sound (buildLinks_sound c s)

theorem buildDownlink_sent :
    ∃ n, GeneralSent (effectiveCapacity s.params) c (s.chain c).generalQ (buildLinks c s) (buildDownlink c s) n := by
  have queue : ((buildLinks c s).st.chain c).generalQ = (s.chain c).generalQ := by rw [buildLinks_chain]
  rw [buildDownlink_eq, queue]
  exact buildGeneral_sent queue

theorem buildDownlink_on (on : ∀ g ∈ (s.chain c).generalQ, chainOf g.cell = c) : BlocksOn c (buildDownlink c s) := by
  obtain ⟨n, sent⟩ := buildDownlink_sent c s
  exact sent.on (buildLinks_on c s) on

end Downlink

/-! ### The grants (R15) -/

theorem grantsOf_rollcall {c : Chain} {s : State} (rollcall : (s.chain c).state = .rollcall) :
    ∀ g ∈ grantsOf s c, g = (0, 0) := by
  simp [grantsOf, rollcall]

/-- The grant of a cell's position, when no two cells of the chain share one. -/
theorem grantsOf_position {c : Chain} {s : State} (running : (s.chain c).state = .running)
    (apart : ((cellsOf c).map fun x => (s.cell x).position).Nodup) {x : CellId} (on : chainOf x = c) :
    (grantsOf s c)[(s.cell x).position.val]? =
      some (if (s.cell x).fitted then ((s.cell x).reserved, (s.cell x).budget - (s.cell x).reserved) else (0, 0)) := by
  have place : ∀ p : Fin 8, [0, 1, 2, 3, 4, 5, 6, 7][p.val]? = some p.val := by decide
  have found : (cellsOf c).find? (fun y => (s.cell y).position.val == (s.cell x).position.val) = some x := by
    cases h : (cellsOf c).find? fun y => (s.cell y).position.val == (s.cell x).position.val with
    | none => exact absurd BEq.rfl (List.find?_eq_none.1 h x (mem_cellsOf.2 on))
    | some y =>
      have same : (s.cell y).position = (s.cell x).position := Fin.ext (by simpa using List.find?_some h)
      rw [List.inj_on_of_nodup_map apart (List.mem_of_find?_eq_some h) (mem_cellsOf.2 on) same]
  rw [grantsOf, List.getElem?_map, place, Option.map_some, running, if_neg (by decide), grantAt, found]

/-! ### The state at the opener (R4, R10) -/

/-- The state in which a cycle is sent at an expiry of the cycle timer: with a turn awaited, its miss has been judged and
reported. -/
structure Opens (c : Chain) (s o : State) : Prop where
  only : ChainOnly s o
  others : ∀ d, d ≠ c → o.chain d = s.chain d
  clu : o.clu = s.clu
  cells : ∀ x, o.cell x = { s.cell x with changed := (o.cell x).changed }
  chain : o.chain c =
    if (s.chain c).awaited = none then { s.chain c with cycleTimer := s.params.cyclePeriod }
    else (s.chain c).missTurn s.params.cyclePeriod

/-- With no turn awaited a ROLLCALL or RUNNING chain sends a cycle. -/
theorem cycleExpiry_unawaited {c : Chain} {s : State} (up : (s.chain c).state = .rollcall ∨ (s.chain c).state = .running)
    (unawaited : (s.chain c).awaited = none) :
    cycleExpiry c s = sendCycle c (s.modChain c fun r => { r with cycleTimer := s.params.cyclePeriod }) := by
  obtain rollcall | running := up
  · simp only [cycleExpiry, rollcall, rollcallExpiry, State.chain_modChain, unawaited, if_true]
  · simp only [cycleExpiry, running, runningExpiry, State.chain_modChain, unawaited, if_true]

theorem opens_unawaited {c : Chain} {s : State} (unawaited : (s.chain c).awaited = none) :
    Opens c s (s.modChain c fun r => { r with cycleTimer := s.params.cyclePeriod }) where
  only := modChain_chainOnly s c _
  others d hd := State.chain_modChain_ne s hd _
  clu := State.modChain_clu _ _ _
  cells x := by rw [State.cell_modChain]
  chain := by rw [State.chain_modChain, if_pos unawaited]

theorem opens_missed {c : Chain} {s : State} (awaited : (s.chain c).awaited ≠ none) : Opens c s (turnMissed c s) where
  only := (turnMissed_whole c s).only
  others := (turnMissed_whole c s).others
  clu := by rw [turnMissed, cycleEnd_frame]; exact State.modChain_clu _ _ _
  cells x := by
    have flagged := cycleEnd_cell c .missedTurn (s.modChain c (ChainRec.missTurn s.params.cyclePeriod)) x
    rw [State.cell_modChain] at flagged
    exact flagged
  chain := by rw [turnMissed_chain, if_neg awaited]

theorem cycleExpiry_opens {c : Chain} {s : State}
    (due : (s.chain c).state = .rollcall ∧ ((s.chain c).awaited = none ∨ (s.chain c).rollcallTurns < 31)
      ∨ (s.chain c).state = .running ∧ ((s.chain c).awaited = none ∨ (s.chain c).missed + 1 < s.params.breakLimit)) :
    ∃ o, cycleExpiry c s = sendCycle c o ∧ Opens c s o := by
  by_cases awaited : (s.chain c).awaited = none
  · exact ⟨_, cycleExpiry_unawaited (due.imp And.left And.left) awaited, opens_unawaited awaited⟩
  · refine ⟨_, ?_, opens_missed awaited⟩
    obtain ⟨rollcall, few⟩ | ⟨running, few⟩ := due
    · rw [cycleExpiry_missed_rollcall rollcall awaited, if_neg (not_le.2 (few.resolve_left awaited))]
    · rw [cycleExpiry_missed_running running awaited, if_neg (not_le.2 (few.resolve_left awaited))]

/-! ### The cycle sent -/

theorem DownlinkTaken.chainOnly {c : Chain} {s t : State} (h : DownlinkTaken c s t) : ChainOnly s t := by
  rw [h.frame]
  exact ⟨_, _, _, _, _, _, _, _, rfl⟩

theorem sendCycle_chainOnly (c : Chain) (s : State) : ChainOnly s (sendCycle c s) :=
  ((cycleBuild_taken c s).chainOnly.trans (modChain_chainOnly _ c _)).trans
    ((openerSent_moves c _).trans (settle_moves _)).only.chainOnly

theorem cycleBuild_rollcall {c : Chain} {s : State} (rollcall : (s.chain c).state = .rollcall) :
    cycleBuild c s = Build.empty s := if_pos rollcall

theorem cycleBuild_running {c : Chain} {s : State} (running : (s.chain c).state = .running) :
    cycleBuild c s = buildDownlink c s := if_neg (by rw [running]; decide)

theorem cyclePlaced_clu (c : Chain) (s : State) : (cyclePlaced c s).clu = (cycleBuild c s).st.clu := State.modChain_clu _ _ _

theorem cyclePlaced_cell (c : Chain) (s : State) (x : CellId) : (cyclePlaced c s).cell x = (cycleBuild c s).st.cell x :=
  State.cell_modChain _ _ _ _

theorem cyclePlaced_chain (c : Chain) (s : State) : (cyclePlaced c s).chain c =
    { (cycleBuild c s).st.chain c with
      cycle := (s.chain c).cycle + 1, awaited := some ((s.chain c).cycle + 1), line := some (cycleImage c s)
      counters := { ((cycleBuild c s).st.chain c).counters with
        openersSent := ((cycleBuild c s).st.chain c).counters.openersSent + 1 } } := State.chain_modChain _ _ _

/-- The pending blocks as they go out. -/
theorem pendingAhead_blocks (c : Chain) (s : State) : (pendingAhead c s).map (Ahead.block s) =
    (pendingHolds c s).map (fun p => DownBlock.hold p.2.1 (s.crane p.1).radio (s.crane p.1).lost p.2.2)
      ++ (pendingNotices c s).map fun n =>
        DownBlock.handoverNotice n.cell (s.crane n.crane).radio n.anchor n.target n.stamp := by
  rw [pendingAhead, List.map_append, List.map_map, List.map_map]
  rfl

namespace Opens

variable {c : Chain} {s o : State}

theorem crane (h : Opens c s o) (k : CraneId) : o.crane k = s.crane k := State.crane_congr h.clu k

theorem pendingHolds (h : Opens c s o) : Machine.pendingHolds c o = Machine.pendingHolds c s := by
  simp only [Machine.pendingHolds, h.crane]

theorem pendingNotices (h : Opens c s o) : Machine.pendingNotices c o = Machine.pendingNotices c s := by
  rw [Machine.pendingNotices, h.clu, Machine.pendingNotices]

theorem carries (h : Opens c s o) : carriesGeneral o = carriesGeneral s := by
  funext x
  rw [carriesGeneral, carriesGeneral, h.cells x]

/-- Of the chain's record the opener finds the downlink's parts as they were. -/
theorem kept (h : Opens c s o) : (o.chain c).state = (s.chain c).state ∧ (o.chain c).cycle = (s.chain c).cycle
    ∧ (o.chain c).generalQ = (s.chain c).generalQ ∧ (o.chain c).cranePtr = (s.chain c).cranePtr
    ∧ (o.chain c).counters.generalStale = (s.chain c).counters.generalStale := by
  rw [h.chain]
  split <;> exact ⟨rfl, rfl, rfl, rfl, rfl⟩

end Opens

end Machine

open Machine

/-- Settles O29, by the stages of a downlink, the turns of the round robin and the steps of bars and countdowns. -/
theorem cycleTimerSendsACycle : Obligations.CycleTimerSendsACycle := by
  unfold Obligations.CycleTimerSendsACycle
  refine ⟨?cycle, ?turn, ?offer, ?opener⟩
  case cycle =>
    intro c s awake r due
    obtain ⟨o, opens, opening⟩ := cycleExpiry_opens due
    obtain ⟨state, cycle, queue, pointer, stale⟩ := opening.kept
    have params : o.params = s.params := opening.only.params
    have chain := sendCycle_chain c o
    refine ⟨sendCycle c o, cycleImage c o, (State.take_awake awake _).trans (congrArg _ opens),
      opening.only.trans (sendCycle_chainOnly c o), ?others, ?state, ?cycle, ?awaited, ?timer, ?openers, ?misses, ?missed,
      ?judged, ?unjudged, ?line, ?number, rfl, ?rollcall, ?running⟩
    case others =>
      intro d hd
      rw [sendCycle_chain_ne hd, opening.others d hd]
    case state =>
      rw [chain]
      exact state
    case cycle => rw [chain, cycle]
    case awaited => rw [chain, cycle]
    case timer =>
      rw [chain, opening.chain]
      split <;> rfl
    case openers =>
      rw [chain, opening.chain]
      split <;> rfl
    case misses =>
      rw [chain, opening.chain]
      dsimp only [r]
      split <;> simp [ChainRec.missTurn]
    case missed =>
      intro running
      rw [chain, opening.chain]
      dsimp only [r] at running ⊢
      split <;> simp [ChainRec.missTurn, running]
    case judged =>
      intro rollcall awaited
      rw [chain, opening.chain, if_neg awaited]
      dsimp only [r] at rollcall ⊢
      simp [ChainRec.missTurn, rollcall]
    case unjudged =>
      intro h
      rw [chain, opening.chain]
      dsimp only [r] at h ⊢
      split
      · exact ⟨rfl, rfl, rfl⟩
      · simp [ChainRec.missTurn, h.resolve_right ‹_›]
    case line => rw [chain]
    case number => exact congrArg (· + 1) cycle
    case rollcall =>
      intro rollcall
      refine ⟨?_, ?_, grantsOf_rollcall (state.trans rollcall)⟩
      · simp only [cycleImage, cycleBuild_rollcall (state.trans rollcall), Build.empty]
      · simp only [cycleImage, cycleBuild_rollcall (state.trans rollcall), Build.empty]
    case running =>
      intro running
      have built : cycleBuild c o = buildDownlink c o := cycleBuild_running (state.trans running)
      have capacity : effectiveCapacity o.params = min s.params.downlinkCapacity (32 * s.params.cyclePeriod) := by
        rw [params]
        rfl
      have sound := buildDownlink_sound c o
      obtain ⟨n, sent⟩ := buildDownlink_sent c o
      rw [capacity] at sound sent
      have blocks : (cycleImage c o).blocks = (buildDownlink c o).blocks := congrArg Build.blocks built
      have slots : (cycleImage c o).slots = (buildDownlink c o).used := congrArg Build.used built
      rw [blocks, slots]
      refine ⟨sound.used, sound.fits, fun on => ?_, fun ring x on => ?_, ?_⟩
      · exact buildDownlink_on c o (by rwa [queue])
      · have position : ∀ y, (o.cell y).position = (s.cell y).position := fun y => by rw [opening.cells y]
        have granted := grantsOf_position (s := o) (state.trans running) (by simpa only [position] using (ring c).1) on
        rw [opening.cells x] at granted
        exact granted
      intro cap holds notices ahead frame carried
      have carries : ∀ g : GeneralDown, carriesGeneral (buildLinks c o).st g.cell = carried g := fun g => by
        rw [buildLinks_carries, opening.carries, Bool.eq_iff_iff, carriesGeneral_iff, decide_eq_true_iff]
      have links := buildLinks_chain c o
      refine ⟨buildAhead cap c o, buildLinks c o, cyclePlaced c o, n, sendCycle_eq c o, ?blocks, ?used, ?full, ?cranes,
        ?notices, ?start, ?turns, ?exhausted, ?image, ?none, ?stop, ?queue, ?line, ?stale, ?pointer, ?clu, ?counted⟩
      case blocks =>
        rw [buildAhead_eq, List.map_take, pendingAhead_blocks, opening.pendingHolds, opening.pendingNotices]
        simp only [opening.crane]
        rfl
      case used => rw [buildAhead_eq, List.length_map]
      case full =>
        have count : (pendingAhead c o).length = ahead.length := by
          rw [pendingAhead, opening.pendingHolds, opening.pendingNotices]
          simp only [List.length_append, List.length_map, ahead]
          rfl
        rw [buildAhead_eq, count]
      case cranes =>
        intro k
        rw [buildAhead_crane, opening.pendingHolds, opening.crane]
        rfl
      case notices =>
        rw [buildAhead_notices, opening.pendingHolds, opening.pendingNotices, opening.clu]
        rfl
      case start => rw [buildAhead_chain, pointer]
      case turns => rw [buildLinks, capacity]
      case exhausted => exact buildLinks_exhausts c o
      case image =>
        rw [sent.blocks, queue]
        simp only [carries]
        rfl
      case none => exact sent.none
      case stop =>
        intro going g next
        rw [← carries g]
        exact sent.stop going g (queue ▸ next)
      case queue => rw [cyclePlaced_chain, built, sent.queue, queue]
      case line => rw [cyclePlaced_chain]
      case stale =>
        rw [cyclePlaced_chain, built]
        refine sent.stale.trans ?_
        rw [links, queue, stale]
        simp only [carries]
        rfl
      case pointer =>
        rw [cyclePlaced_chain, built]
        exact sent.pointer
      case clu => rw [cyclePlaced_clu, built, sent.clu]
      case counted =>
        intro x
        rw [cyclePlaced_cell, built, sound.counted, opening.cells]
  case turn =>
    intro cap n c u next
    refine ⟨fun full => buildCranes_full full, fun _ idle => buildCranes_idle idle, fun going k b f offers before =>
      ⟨fun exceeds => ?_, fun fits => ?_⟩⟩
    · exact (buildCranes_turn going offers before).trans (by rw [Build.offer_exceeds going exceeds, buildCranes_full rfl])
    · exact (buildCranes_turn going offers before).trans (by rw [Build.offer_fits going fits])
  case offer =>
    intro c k x s r off
    have differs : ∀ y : CellId, (y != x) = decide (y ≠ x) := fun y => by rw [bne, beq_eq_decide, decide_not]
    refine ⟨fun first => ?_, fun unkept front e back queue before first => ?_, craneOffer_none⟩
    · obtain ⟨stamp, kept, offers⟩ := craneOffer_keep first
      refine ⟨stamp, _, kept, offers, ?_⟩
      simp only [Crane.keepTaken, differs, r]
    · refine ⟨_, craneOffer_copy unkept queue before first, ?_⟩
      rw [Crane.copyTaken, queue, takeCopy_append before ⟨x, first.1, first.2.1⟩]
  case opener =>
    intro c s
    obtain ⟨cranes, barred⟩ := modCranes_frame (Crane.stepBar c) allCranes s
    refine ⟨allCranes.foldl (fun t k => t.modCrane k (Crane.stepBar c)) s, ?_, modAllCranes_crane _ s,
      fun t k => countdownStep c k t, openerSent_eq c s, fun t k => ⟨fun x busy target on =>
        ⟨countdownStep_runs busy target on, countdownStep_ends busy target on⟩, countdownStep_stays⟩⟩
    rw [barred]

end Sys2Proof
end

