-- ==== Sys2Proof/Proofs/Cores.lean ====
section
/-! SUPPORT. The core of a state: what the laws of the tables, of the cells and of the claims speak of, and nothing else. How
the updates of a state show in its core, and which operations do not show in it at all. -/

namespace Sys2Proof
namespace Machine

/-! ### The core of a state -/

/-- What the laws of the keyed tables (log 7, R40), of the cells (R25-R29) and of the claims (R32, R33) speak of: the cell
records, the crane records as far as claims go, the chain states, the directory, the general records and the reefers. -/
structure Core where
  cells : CellId → Cell
  cranes : CraneId → Crane
  chains : Chain → ChainState
  directory : List (Nat × DirTarget)
  general : List (Nat × GeneralRec)
  reefers : List (Nat × Reefer)

/-- A crane record as far as claims go: its definition, its state, the cells it runs through and its shadow set. -/
def Crane.core (c : Crane) : Crane :=
  { defn := c.defn, state := c.state, anchor := c.anchor, target := c.target, shadow := c.shadow }

/-- A crane in LINKED, HANDOVER or LOST. -/
def Crane.Live (c : Crane) : Prop := c.state ≠ .vacant ∧ c.state ≠ .idle

/-- The core of a state. -/
def State.core (s : State) : Core where
  cells := s.cell
  cranes k := (s.crane k).core
  chains c := (s.chain c).state
  directory := s.cov.directory
  general := s.cov.general
  reefers := s.ree.reefers

namespace Core

/-- The core with a cell's record set. -/
def setCell (a : Core) (x : CellId) (r : Cell) : Core := { a with cells := Function.update a.cells x r }

/-- The core with a crane's record set. -/
def setCrane (a : Core) (k : CraneId) (c : Crane) : Core := { a with cranes := Function.update a.cranes k c }

/-- The core with a chain's state set. -/
def setChain (a : Core) (c : Chain) (st : ChainState) : Core := { a with chains := Function.update a.chains c st }

/-- The core with slots of a cell claimed (R32). -/
def claim (a : Core) (x : CellId) (n : Nat) : Core :=
  a.setCell x { a.cells x with reserved := (a.cells x).reserved + n }

/-- The core with slots of a cell released (R32). -/
def release (a : Core) (x : CellId) (n : Nat) : Core :=
  a.setCell x { a.cells x with reserved := (a.cells x).reserved - n }

/-- The core with a cell's shadow count set (R33). -/
def shade (a : Core) (x : CellId) (n : Nat) : Core := a.setCell x { a.cells x with shadowCount := n }

/-- A cell has room for an amount of slots (R32). -/
def Room (a : Core) (x : CellId) (n : Nat) : Prop := (a.cells x).fitted = true ∧ n + (a.cells x).reserved ≤ (a.cells x).budget

section Updates

variable (a : Core)

@[simp] theorem setCell_same (x : CellId) (r : Cell) : (a.setCell x r).cells x = r := Function.update_self ..

theorem setCell_ne {x y : CellId} (h : y ≠ x) (r : Cell) : (a.setCell x r).cells y = a.cells y :=
  Function.update_of_ne h ..

@[simp] theorem setCrane_same (k : CraneId) (c : Crane) : (a.setCrane k c).cranes k = c := Function.update_self ..

theorem setCrane_ne {k j : CraneId} (h : j ≠ k) (c : Crane) : (a.setCrane k c).cranes j = a.cranes j :=
  Function.update_of_ne h ..

@[simp] theorem setChain_same (c : Chain) (st : ChainState) : (a.setChain c st).chains c = st := Function.update_self ..

theorem setChain_ne {c d : Chain} (h : d ≠ c) (st : ChainState) : (a.setChain c st).chains d = a.chains d :=
  Function.update_of_ne h ..

@[simp] theorem setCell_self (x : CellId) : a.setCell x (a.cells x) = a := by simp [setCell]

@[simp] theorem setCrane_self (k : CraneId) : a.setCrane k (a.cranes k) = a := by simp [setCrane]

@[simp] theorem setChain_self (c : Chain) : a.setChain c (a.chains c) = a := by simp [setChain]

@[simp] theorem setCell_setCell (x : CellId) (r q : Cell) : (a.setCell x r).setCell x q = a.setCell x q := by
  simp [setCell]

@[simp] theorem setCrane_setCrane (k : CraneId) (c d : Crane) : (a.setCrane k c).setCrane k d = a.setCrane k d := by
  simp [setCrane]

end Updates

end Core

/-! ### Updates of a state in its core -/

section Updates

variable (s : State)

@[simp] theorem State.core_cells : s.core.cells = s.cell := rfl

@[simp] theorem State.core_cranes (k : CraneId) : s.core.cranes k = (s.crane k).core := rfl

@[simp] theorem State.core_chains (c : Chain) : s.core.chains c = (s.chain c).state := rfl

@[simp] theorem Crane.core_reservation (c : Crane) : c.core.reservation = c.reservation := rfl

theorem State.core_modCell (x : CellId) (f : Cell → Cell) : (s.modCell x f).core = s.core.setCell x (f (s.cell x)) := by
  have cells : (s.modCell x f).cell = Function.update s.cell x (f (s.cell x)) := by
    funext y
    by_cases h : y = x
    · subst h
      simp
    · rw [State.cell_modCell_ne _ h, Function.update_of_ne h]
  unfold Core.setCell
  rw [State.core_cells, ← cells]
  rfl

theorem State.core_modCrane (k : CraneId) (f : Crane → Crane) :
    (s.modCrane k f).core = s.core.setCrane k (f (s.crane k)).core := by
  have cranes : (s.modCrane k f).core.cranes = Function.update s.core.cranes k (f (s.crane k)).core := by
    funext j
    by_cases h : j = k
    · subst h
      simp
    · rw [State.core_cranes, State.crane_modCrane_ne _ h, Function.update_of_ne h, State.core_cranes]
  unfold Core.setCrane
  rw [← cranes]
  rfl

theorem State.core_modChain (c : Chain) (f : ChainRec → ChainRec) :
    (s.modChain c f).core = s.core.setChain c (f (s.chain c)).state := by
  have chains : (s.modChain c f).core.chains = Function.update s.core.chains c (f (s.chain c)).state := by
    funext d
    by_cases h : d = c
    · subst h
      simp
    · rw [State.core_chains, State.chain_modChain_ne _ h, Function.update_of_ne h, State.core_chains]
  unfold Core.setChain
  rw [← chains]
  cases c <;> rfl

/-- A crane changed in what no claim concerns does not show in the core. -/
theorem State.core_modCrane_kept {k : CraneId} {f : Crane → Crane} (h : (f (s.crane k)).core = (s.crane k).core) :
    (s.modCrane k f).core = s.core := by
  rw [State.core_modCrane, h, ← State.core_cranes, Core.setCrane_self]

/-- A chain record that keeps its state does not show in the core. -/
theorem State.core_modChain_kept {c : Chain} {f : ChainRec → ChainRec} (h : (f (s.chain c)).state = (s.chain c).state) :
    (s.modChain c f).core = s.core := by
  rw [State.core_modChain, h, ← State.core_chains, Core.setChain_self]

end Updates

/-! ### What does not show in the core -/

theorem PortOnly.core {s t : State} (h : PortOnly s t) : t.core = s.core := by
  obtain ⟨_, rfl⟩ := h
  rfl

section Quiet

variable (s : State)

@[simp] theorem noticeController_core (n : Notice) : (s.noticeController n).core = s.core :=
  (noticeController_portOnly s n).core

@[simp] theorem noticeCrane_core (k : CraneId) (n : Notice) : (s.noticeCrane k n).core = s.core :=
  (noticeCrane_portOnly s k n).core

@[simp] theorem countCrane_core (k : CraneId) (f : CraneCounters → CraneCounters) : (s.countCrane k f).core = s.core :=
  s.core_modCrane_kept rfl

@[simp] theorem countCov_core (f : CoverageCounters → CoverageCounters) : (s.countCov f).core = s.core := rfl

@[simp] theorem countPort_core (f : PortCounters → PortCounters) : (s.countPort f).core = s.core := rfl

@[simp] theorem modPort_core (f : Port → Port) : (s.modPort f).core = s.core := rfl

@[simp] theorem modMgmt_core (f : Mgmt → Mgmt) : (s.modMgmt f).core = s.core := rfl

@[simp] theorem modDrain_core (f : Drain → Drain) : (s.modDrain f).core = s.core := rfl

@[simp] theorem push_core (e : CluEvent) : (s.push e).core = s.core := rfl

@[simp] theorem refreshLeds_core : s.refreshLeds.core = s.core := rfl

@[simp] theorem countChain_core (c : Chain) (f : ChainCounters → ChainCounters) : (s.countChain c f).core = s.core :=
  s.core_modChain_kept rfl

/-- A fold of steps that do not show in the core does not show in it. -/
theorem foldl_core {α : Type} {f : State → α → State} (h : ∀ s a, (f s a).core = s.core) (l : List α) :
    (l.foldl f s).core = s.core := by
  induction l generalizing s with
  | nil => rfl
  | cons a l ih => exact (ih _).trans (h s a)

@[simp] theorem withdrawNotices_core (p : PendingNotice → Bool) : (withdrawNotices p s).core = s.core :=
  foldl_core _ (fun t (n : PendingNotice) => countCrane_core t n.crane _) _

@[simp] theorem withdrawCraneNotices_core (k : CraneId) : (withdrawCraneNotices k s).core = s.core :=
  withdrawNotices_core s _

@[simp] theorem queueNotices_core (k : CraneId) (a t : CellId) : (queueNotices k a t s).core = s.core := rfl

@[simp] theorem modCrane_withdraw_core (k : CraneId) (p : CellId → Bool) :
    (s.modCrane k (Crane.withdraw p)).core = s.core := s.core_modCrane_kept rfl

@[simp] theorem modCrane_withdrawHolds_core (k : CraneId) (p : CellId → Bool) :
    (s.modCrane k (Crane.withdrawHolds p)).core = s.core := s.core_modCrane_kept rfl

@[simp] theorem deferHandover_core (k : CraneId) (tried : List CellId) : (deferHandover k tried s).core = s.core := by
  unfold deferHandover
  dsimp only
  split
  · rfl
  · rw [countCrane_core, noticeCrane_core, s.core_modCrane_kept rfl]

@[simp] theorem stay_core (k : CraneId) : (stay k s).core = s.core := s.core_modCrane_kept rfl

@[simp] theorem barEndIfDue_core (k : CraneId) : (barEndIfDue k s).core = s.core := by
  unfold barEndIfDue
  split
  · exact s.core_modCrane_kept rfl
  · rfl
  · rfl

@[simp] theorem barStep_core (c : Chain) (k : CraneId) : (barStep c k s).core = s.core := by
  unfold barStep
  split
  · split
    · rw [barEndIfDue_core, s.core_modCrane_kept rfl]
    · rfl
  · rfl

@[simp] theorem strayArrival_core (k : CraneId) (accepted : Bool) : (strayArrival k accepted s).core = s.core := by
  unfold strayArrival
  split
  · exact countCrane_core _ _ _
  · rfl

@[simp] theorem forwardUp_core (k : CraneId) (seq : U16) (payload : List Byte) : (forwardUp k seq payload s).core = s.core := by
  unfold forwardUp
  split
  · rfl
  · dsimp only
    split
    · rw [countCrane_core, (offer_portOnly _ _ _).core]
    · exact (offer_portOnly _ _ _).core

end Quiet

theorem chain_state_congr {s t : State} (h : t.core = s.core) (c : Chain) : (t.chain c).state = (s.chain c).state := by
  rw [← State.core_chains, h, State.core_chains]

end Machine
end Sys2Proof
end

