-- ==== Sys2Proof/Proofs/CoreSteps.lean ====
section
/-! SUPPORT. The single steps in which a core moves: the steps of handover, of the crane links, and of everything else; and what
a run of the first two keeps. Each is a whole claim with the crane's change that goes with it (R32, R33). -/

namespace Sys2Proof
namespace Machine

/-! ### Handover and crane links -/

/-- A step of an evaluation or a failure of a handover: a start on a cell with room (R80), or a target given up (R65, R85). -/
inductive HandStep (a : Core) : Core → Prop
  | started (k : CraneId) (x : CellId) (linked : (a.cranes k).state = .linked) (room : a.Room x (a.cranes k).reservation) :
      HandStep a
        ((a.claim x (a.cranes k).reservation).setCrane k { a.cranes k with state := .handover, target := some x })
  | failed (k : CraneId) (x : CellId) (st : CraneState) (target : (a.cranes k).target = some x)
      (state : st = .linked ∨ st = (a.cranes k).state) :
      HandStep a ((a.release x (a.cranes k).reservation).setCrane k { a.cranes k with state := st, target := none })

/-- A step of the crane links: one of handover, a change flag raised (R34), a first contact (R49), a completed handover
(R83), a crane-led move (R87), an entry to LOST or a resume (R66, R69), and a shadow claim (R33). -/
inductive LinkStep (a : Core) : Core → Prop
  | hand {b : Core} (h : HandStep a b) : LinkStep a b
  | raised (x : CellId) : LinkStep a (a.setCell x { a.cells x with changed := true })
  | contact (k : CraneId) (x : CellId) (idle : (a.cranes k).state = .idle) (room : a.Room x (a.cranes k).reservation) :
      LinkStep a
        ((a.claim x (a.cranes k).reservation).setCrane k { a.cranes k with state := .linked, anchor := some x })
  | completed (k : CraneId) (x t : CellId) (state : (a.cranes k).state = .handover) (anchor : (a.cranes k).anchor = some x)
      (target : (a.cranes k).target = some t) :
      LinkStep a
        ((a.release x (a.cranes k).reservation).setCrane k
          { a.cranes k with state := .linked, anchor := some t, target := none })
  | led (k : CraneId) (x y : CellId) (state : (a.cranes k).state = .linked) (anchor : (a.cranes k).anchor = some x)
      (room : a.Room y (a.cranes k).reservation) :
      LinkStep a
        (((a.claim y (a.cranes k).reservation).release x (a.cranes k).reservation).setCrane k
          { a.cranes k with anchor := some y })
  | stood (k : CraneId) (st : CraneState) (live : (a.cranes k).Live) (state : st = .linked ∨ st = .lost)
      (untargeted : (a.cranes k).target = none ∨ (a.cranes k).state ≠ .handover) :
      LinkStep a (a.setCrane k { a.cranes k with state := st })
  | shadowed (k : CraneId) (x : CellId) (live : (a.cranes k).Live) (outside : x ∉ (a.cranes k).shadow) :
      LinkStep a
        ((a.shade x ((a.cells x).shadowCount + 1)).setCrane k
          { a.cranes k with shadow := sortCells (x :: (a.cranes k).shadow) })
  | unshadowed (k : CraneId) (x : CellId) (inside : x ∈ (a.cranes k).shadow) :
      LinkStep a
        ((a.shade x ((a.cells x).shadowCount - 1)).setCrane k
          { a.cranes k with shadow := (a.cranes k).shadow.filter (· != x) })

/-- A run of handover steps. -/
abbrev HandRun : Core → Core → Prop := Relation.ReflTransGen HandStep

/-- A run of crane link steps. -/
abbrev LinkRun : Core → Core → Prop := Relation.ReflTransGen LinkStep

theorem HandRun.link {a b : Core} (h : HandRun a b) : LinkRun a b := h.lift id fun _ _ => .hand

theorem LinkStep.run {a b : Core} (h : LinkStep a b) : LinkRun a b := .single h

theorem HandStep.run {a b : Core} (h : HandStep a b) : HandRun a b := .single h

/-- A fold of operations that each run in the core runs in it. -/
theorem foldl_run {α : Type} {r : Core → Core → Prop} {f : State → α → State}
    (h : ∀ s a, Relation.ReflTransGen r s.core (f s a).core) (l : List α) (s : State) :
    Relation.ReflTransGen r s.core (l.foldl f s).core := by
  induction l generalizing s with
  | nil => exact .refl
  | cons a l ih => exact (h s a).trans (ih _)

/-! ### What a run keeps -/

/-- A crane that is live stays live through a step of a handover. -/
theorem HandStep.live {a b : Core} (h : HandStep a b) {j : CraneId} (live : (a.cranes j).Live) : (b.cranes j).Live := by
  cases h with
  | started k x linked room =>
    by_cases e : j = k
    · subst e
      simp [Crane.Live]
    · rwa [Core.setCrane_ne _ e]
  | failed k x st target state =>
    by_cases e : j = k
    · subst e
      obtain rfl | rfl := state
      · simp [Crane.Live]
      · simpa [Crane.Live] using live
    · rwa [Core.setCrane_ne _ e]

/-- Handover touches no shadow set. -/
theorem HandStep.shadow {a b : Core} (h : HandStep a b) (j : CraneId) : (b.cranes j).shadow = (a.cranes j).shadow := by
  cases h with
  | started k x _ _ | failed k x _ _ _ =>
    by_cases e : j = k
    · subst e
      simp
    · rw [Core.setCrane_ne _ e]
      rfl

theorem HandRun.live {a b : Core} (h : HandRun a b) {j : CraneId} (live : (a.cranes j).Live) : (b.cranes j).Live := by
  induction h with
  | refl => exact live
  | tail _ step ih => exact step.live ih

theorem HandRun.shadow {a b : Core} (h : HandRun a b) (j : CraneId) : (b.cranes j).shadow = (a.cranes j).shadow := by
  induction h with
  | refl => rfl
  | tail _ step ih => exact (step.shadow j).trans ih

/-- What a step of the crane links leaves of a core: everything but the cranes, and of a cell all but its reserved slots, its
shadow count and its change flag, which is never cleared. -/
structure LinkKept (a b : Core) : Prop where
  chains : b.chains = a.chains
  directory : b.directory = a.directory
  general : b.general = a.general
  reefers : b.reefers = a.reefers
  cell : ∀ x, b.cells x =
    { a.cells x with
      reserved := (b.cells x).reserved, shadowCount := (b.cells x).shadowCount, changed := (b.cells x).changed }
  flag : ∀ x, (a.cells x).changed = true → (b.cells x).changed = true

theorem LinkKept.refl (a : Core) : LinkKept a a := ⟨rfl, rfl, rfl, rfl, fun _ => rfl, fun _ h => h⟩

theorem LinkKept.trans {a b c : Core} (h : LinkKept a b) (g : LinkKept b c) : LinkKept a c where
  chains := g.chains.trans h.chains
  directory := g.directory.trans h.directory
  general := g.general.trans h.general
  reefers := g.reefers.trans h.reefers
  cell x := by rw [g.cell, h.cell]
  flag x f := g.flag x (h.flag x f)

/-- A cell changed in its reserved slots or its shadow count, or its change flag raised. -/
theorem LinkKept.setCell (a : Core) {x : CellId} {r : Cell}
    (h : r = { a.cells x with reserved := r.reserved, shadowCount := r.shadowCount, changed := r.changed })
    (flag : (a.cells x).changed = true → r.changed = true) : LinkKept a (a.setCell x r) := by
  refine ⟨rfl, rfl, rfl, rfl, fun y => ?_, fun y => ?_⟩
  all_goals by_cases e : y = x
  · subst e
    rwa [Core.setCell_same]
  · rw [Core.setCell_ne _ e]
  · subst e
    rwa [Core.setCell_same]
  · rw [Core.setCell_ne _ e]
    exact id

theorem LinkKept.setCrane (a : Core) (k : CraneId) (c : Crane) : LinkKept a (a.setCrane k c) :=
  ⟨rfl, rfl, rfl, rfl, fun _ => rfl, fun _ h => h⟩

theorem LinkKept.claim (a : Core) (x : CellId) (n : Nat) : LinkKept a (a.claim x n) := .setCell a rfl id

theorem LinkKept.shade (a : Core) (x : CellId) (n : Nat) : LinkKept a (a.shade x n) := .setCell a rfl id

theorem LinkKept.release (a : Core) (x : CellId) (n : Nat) : LinkKept a (a.release x n) := .setCell a rfl id

theorem HandStep.kept {a b : Core} (h : HandStep a b) : LinkKept a b := by
  cases h with
  | started k x _ _ => exact (LinkKept.claim a _ _).trans (.setCrane _ _ _)
  | failed k x _ _ _ => exact (LinkKept.release a _ _).trans (.setCrane _ _ _)

theorem LinkStep.kept {a b : Core} (h : LinkStep a b) : LinkKept a b := by
  cases h with
  | hand h => exact h.kept
  | raised x => exact .setCell a rfl fun _ => rfl
  | contact k x _ _ => exact (LinkKept.claim a _ _).trans (.setCrane _ _ _)
  | completed k x t _ _ _ => exact (LinkKept.release a _ _).trans (.setCrane _ _ _)
  | led k x y _ _ _ => exact ((LinkKept.claim a _ _).trans (.release _ _ _)).trans (.setCrane _ _ _)
  | stood k st _ _ _ => exact .setCrane a _ _
  | shadowed k x _ _ => exact (LinkKept.shade a _ _).trans (.setCrane _ _ _)
  | unshadowed k x _ => exact (LinkKept.shade a _ _).trans (.setCrane _ _ _)

theorem LinkRun.kept {a b : Core} (h : LinkRun a b) : LinkKept a b := by
  induction h with
  | refl => exact .refl a
  | tail _ step ih => exact ih.trans step.kept

/-! ### Every step of the part -/

/-- Cells after a release of a crane (R71): the slots of its target and anchor given up, and the cells it shadows. -/
structure CraneReleased (a : Core) (k : CraneId) (cells : CellId → Cell) : Prop where
  cell : ∀ x, cells x =
    { a.cells x with
      reserved := (a.cells x).reserved
        - (if (a.cranes k).state = .handover ∧ (a.cranes k).target = some x then (a.cranes k).reservation else 0)
        - (if (a.cranes k).anchor = some x then (a.cranes k).reservation else 0)
      shadowCount := (a.cells x).shadowCount - (if x ∈ (a.cranes k).shadow then 1 else 0)
      changed := (cells x).changed }

/-- Cells after a load of the CELLS table (R25): every record keeps its definition or has a new one within the ranges, and a
chain's positions are different and its budgets within its capacity. -/
structure CellsLoaded (a : Core) (cells : CellId → Cell) : Prop where
  cell : ∀ x, ∃ fitted budget position,
    cells x = { (a.cells x).define fitted budget position with changed := (cells x).changed }
      ∧ (budget = (a.cells x).budget ∨ budget ≤ 64 ∧ (a.cells x).reserved ≤ budget)
  positions : ∀ c, ((cellsOf c).map fun x => (cells x).position).Nodup
  budgets : ∀ c, ((cellsOf c).map fun x => (cells x).budget).sum ≤ Config.chainBudget

/-- The core after RESTART-TRAFFIC (R1, R23, R38, R40, R44, R94). -/
def Core.restarted (a : Core) (reload : GroupId → Nat) : Core where
  cells x := (a.cells x).restartTraffic
  cranes k := (a.cranes k).restartTraffic
  chains c := if a.chains c = .disabled then .disabled else .rollcall
  directory := a.directory.filter fun e => e.2.defined
  general := []
  reefers := restartReefers reload a.reefers

/-- A step of the directory and the general unit table (R38-R42). -/
inductive TableStep (a : Core) : Core → Prop
  | forgot (n : Nat) (t : DirTarget) (found : sparseFind a.directory n = some t) (defined : t.defined = true) :
      TableStep a { a with directory := sparseErase a.directory n }
  | removed (j : GeneralId) (r : GeneralRec) (found : sparseFind a.general j.val = some r) :
      TableStep a
        { a with directory := sparseErase a.directory r.unit.toNat, general := sparseErase a.general j.val }
  | defined (n : Nat) (t : DirTarget) (target : t.defined = true)
      (free : ∀ j, sparseFind a.directory n = some (.general j) → sparseFind a.general j.val = none) :
      TableStep a { a with directory := sparseInsert a.directory n t }
  | evicted (n : Nat) (t : DirTarget) (target : t.defined = true) (j : GeneralId) (r : GeneralRec)
      (held : sparseFind a.directory n = some (.general j)) (found : sparseFind a.general j.val = some r) :
      TableStep a
        { a with
          directory := sparseInsert (sparseErase a.directory r.unit.toNat) n t
          general := sparseErase a.general j.val }
  | renewed (j : GeneralId) (r : GeneralRec)
      (known : sparseFind a.directory r.unit.toNat = some (.general j)
        ∨ ∃ q, sparseFind a.general j.val = some q ∧ q.unit = r.unit) :
      TableStep a { a with general := sparseInsert a.general j.val r }
  | learned (j : GeneralId) (r : GeneralRec) (unknown : sparseFind a.directory r.unit.toNat = none)
      (free : j.val = firstFree a.general 0) :
      TableStep a
        { a with
          directory := sparseInsert a.directory r.unit.toNat (.general j)
          general := sparseInsert a.general j.val r }

/-- The core with a reefer's record set; a VACANT record is not listed (log 7). -/
def Core.setReefer (a : Core) (i : ReeferId) (r : Reefer) : Core :=
  { a with reefers := if r = Reefer.vacant then sparseErase a.reefers i.val else sparseInsert a.reefers i.val r }

/-- A step of the part. -/
inductive CoreStep (a : Core) : Core → Prop
  | link {b : Core} (h : LinkStep a b) : CoreStep a b
  | noted (x : CellId) (r : Cell)
      (kept : r =
        { a.cells x with
          barred := r.barred, changed := r.changed, uplinkBlocks := r.uplinkBlocks
          downlinkBlocks := r.downlinkBlocks, statusMisses := r.statusMisses }) :
      CoreStep a (a.setCell x r)
  | status (x : CellId) (p : Params) (q : StatusRecord) (fitted : (a.cells x).fitted = true)
      (running : a.chains (chainOf x) = .running) : CoreStep a (a.setCell x ((a.cells x).takeStatus p q))
  | missed (x : CellId) (p : Params) : CoreStep a (a.setCell x ((a.cells x).takeMiss p))
  | departed (x : CellId) : CoreStep a (a.setCell x (a.cells x).depart)
  | entered (c : Chain) (st : ChainState)
      (still : st = .running ∨ a.chains c ≠ .running
        ∨ ∀ x, chainOf x = c → (a.cells x).unit ≠ .up ∧ (a.cells x).unit ≠ .fading) :
      CoreStep a (a.setChain c st)
  | released (k : CraneId) (cells : CellId → Cell) (h : CraneReleased a k cells) :
      CoreStep a ({ a with cells := cells }.setCrane k { defn := (a.cranes k).defn, state := .idle })
  | emptied (k : CraneId) (d : Option CraneDef) (st : CraneState) (rests : ¬(a.cranes k).Live)
      (state : st = .vacant ∨ st = .idle) : CoreStep a (a.setCrane k { defn := d, state := st })
  | redefined (k : CraneId) (d : CraneDef)
      (same : (a.cranes k).Live → d.reservation = (a.cranes k).reservation) :
      CoreStep a (a.setCrane k { a.cranes k with defn := some d })
  | cellsLoaded (cells : CellId → Cell) (h : CellsLoaded a cells) : CoreStep a { a with cells := cells }
  | reefer (i : ReeferId) (r : Reefer) : CoreStep a (a.setReefer i r)
  | table {b : Core} (h : TableStep a b) : CoreStep a b
  | restarted (reload : GroupId → Nat) : CoreStep a (a.restarted reload)
  | fresh (strap : Byte) : CoreStep a (State.powerOn strap).core

/-- A run of steps of the part. -/
abbrev CoreRun : Core → Core → Prop := Relation.ReflTransGen CoreStep

theorem CoreStep.run {a b : Core} (h : CoreStep a b) : CoreRun a b := .single h

theorem LinkRun.core {a b : Core} (h : LinkRun a b) : CoreRun a b := h.lift id fun _ _ => .link

theorem TableStep.run {a b : Core} (h : TableStep a b) : CoreRun a b := .single (.table h)

/-- What does not show in the core is a run of no steps. -/
theorem run_of_eq {r : Core → Core → Prop} {a b : Core} (h : b = a) : Relation.ReflTransGen r a b := by rw [h]

end Machine
end Sys2Proof
end

