-- ==== Sys2Proof/Proofs/LinkRuns.lean ====
section
/-! SUPPORT. Handover, the crane links and what follows an event, as runs of the steps of the crane links. -/

namespace Sys2Proof
namespace Machine

/-! ### Claims (R32) -/

theorem hasRoom_core {s : State} {x : CellId} {n : Nat} : hasRoom s x n = true ↔ s.core.Room x n := by
  simp [hasRoom, Core.Room]

theorem releaseClaim_core (x : CellId) (n : Nat) (s : State) : (releaseClaim x n s).core = s.core.release x n := by
  rw [releaseClaim, push_core, State.core_modCell]
  rfl

/-- A reserve claim is granted where there is room, and else changes nothing that a claim concerns (R32). -/
theorem reserveClaim_cases (x : CellId) (n : Nat) (s : State) :
    (s.core.Room x n ∧ (reserveClaim x n s).2 = true ∧ (reserveClaim x n s).1.core = s.core.claim x n
        ∧ (reserveClaim x n s).1.clu = s.clu)
      ∨ ((reserveClaim x n s).2 = false ∧ (reserveClaim x n s).1.core = s.core) := by
  unfold reserveClaim
  split
  next room =>
    refine .inl ⟨hasRoom_core.1 room, rfl, ?_, rfl⟩
    rw [State.core_modCell]
    rfl
  next => exact .inr ⟨rfl, rfl⟩

/-- A crane's change in the core, when what the change does to a record shows in the record's core alone. -/
theorem State.core_modCrane_of {f : Crane → Crane} (g : Crane → Crane) (s : State) (k : CraneId)
    (h : ∀ c, (f c).core = g c.core := by intro; rfl) :
    (s.modCrane k f).core = s.core.setCrane k (g (s.core.cranes k)) := by
  rw [State.core_modCrane, h, State.core_cranes]

/-! ### Handover (R77-R90) -/

theorem startHandover_core (k : CraneId) (x : CellId) (s : State) : (startHandover k x s).core =
    s.core.setCrane k { s.core.cranes k with state := .handover, target := some x } := by
  have started := s.core_modCrane_of (fun c => { c with state := .handover, target := some x }) k
    (f := fun c => { c with
      target := some x, countdown := s.params.handoverLimit, deferred := false, progress := 0, state := .handover })
  unfold startHandover
  dsimp only
  rw [countCrane_core]
  split
  · exact started
  · rw [queueNotices_core, started]

theorem attemptStart_run (k : CraneId) (l tried : List CellId) {s : State} (linked : (s.crane k).state = .linked) :
    HandRun s.core (attemptStart k l tried s).core := by
  induction l generalizing tried s with
  | nil => exact run_of_eq (deferHandover_core s k tried)
  | cons x l ih =>
    unfold attemptStart
    dsimp only
    obtain ⟨room, granted, claimed, clu⟩ | ⟨refused, same⟩ := reserveClaim_cases x (s.crane k).reservation s
    · rw [if_pos granted, startHandover_core, claimed]
      exact (HandStep.started (a := s.core) k x linked room).run
    · rw [refused, if_neg Bool.false_ne_true]
      have still : ((reserveClaim x (s.crane k).reservation s).1.crane k).state = .linked := by
        have kept := congrArg (fun a : Core => (a.cranes k).state) same
        exact kept.trans linked
      rw [← same]
      exact ih _ still

theorem holdOff_run (k : CraneId) (b : Bool) (ahead : List CellId) {s : State} (linked : (s.crane k).state = .linked) :
    HandRun s.core (holdOff k b ahead s).core := by
  have moved : (s.modCrane k fun c => { c with progress := (s.crane k).holdOffStep b }).core = s.core :=
    s.core_modCrane_kept rfl
  unfold holdOff
  dsimp only
  split
  · rw [← moved]
    exact attemptStart_run k ahead [] (by rwa [State.crane_modCrane])
  · exact run_of_eq ((State.core_modCrane_kept _ rfl).trans moved)

theorem evaluate_run (k : CraneId) (b : Bool) (s : State) : HandRun s.core (evaluate k b s).core := by
  unfold evaluate
  dsimp only
  split
  next linked _ =>
    split
    · split
      · exact .refl
      · split
        · split
          · exact run_of_eq (stay_core s k)
          · exact holdOff_run k b _ linked
        · exact attemptStart_run k _ _ linked
    · exact attemptStart_run k _ _ linked
  next => exact .refl

theorem failHandover_run (k : CraneId) (cause : FailCause) (s : State) : HandRun s.core (failHandover k cause s).core := by
  unfold failHandover
  split
  · exact .refl
  next t target =>
    refine .trans (b := (s.core.release t (s.crane k).reservation).setCrane k
      { s.core.cranes k with state := .linked, target := none }) ?_ ?_
    · exact (HandStep.failed (a := s.core) k t .linked target (.inl rfl)).run
    · dsimp only
      refine (run_of_eq ?_).trans (evaluate_run k false _)
      rw [countCrane_core, noticeCrane_core,
        State.core_modCrane_of (fun c => { c with state := .linked, target := none }), withdrawCraneNotices_core,
        modCrane_withdraw_core, releaseClaim_core]
      rfl

theorem timeoutIfDue_run (k : CraneId) (s : State) : HandRun s.core (timeoutIfDue k s).core := by
  unfold timeoutIfDue
  split
  · exact failHandover_run _ _ _
  · exact .refl

theorem countdownStep_run (c : Chain) (k : CraneId) (s : State) : HandRun s.core (countdownStep c k s).core := by
  unfold countdownStep
  split
  · split
    · refine (run_of_eq ?_).trans (timeoutIfDue_run _ _)
      exact s.core_modCrane_kept rfl
    · exact .refl
  · exact .refl

theorem openerSent_run (c : Chain) (s : State) : HandRun s.core (openerSent c s).core := by
  have bars : (allCranes.foldl (fun t k => barStep c k t) s).core = s.core := foldl_core _ (fun t k => barStep_core t c k) _
  exact (run_of_eq bars).trans (foldl_run (fun t k => countdownStep_run c k t) _ _)

theorem chainLeftWord_run (c : Chain) (s : State) : HandRun s.core (chainLeftWord c s).core := by
  have visit : ∀ t k, HandRun (State.core t) (chainLeftVisit c k t).core := by
    intro t k
    unfold chainLeftVisit
    split
    · split
      · exact failHandover_run _ _ _
      · exact .refl
    · exact .refl
  refine (run_of_eq ?_).trans (foldl_run visit _ _)
  rw [withdrawNotices_core, foldl_core _ fun t k => modCrane_withdrawHolds_core t k _,
    foldl_core _ fun t k => modCrane_withdraw_core t k _]

/-! ### The events that follow (R75) -/

theorem takeLinkEvent_run (s : State) (e : CluEvent) : HandRun s.core (takeLinkEvent s e).core := by
  cases e with
  | usability x =>
    refine foldl_run (fun t k => ?_) _ s
    unfold sweepVisit
    split
    · split
      · exact .refl
      · exact failHandover_run _ _ _
    · exact evaluate_run _ _ _
    · exact .refl
  | room x =>
    refine foldl_run (fun t k => ?_) _ s
    split
    · exact evaluate_run _ _ _
    · exact .refl
  | mapChange => exact .refl

theorem settleLink_run (n : Nat) (s : State) : HandRun s.core (settleLink n s).core := by
  induction n generalizing s with
  | zero => exact .refl
  | succ n ih =>
    unfold settleLink
    split
    · exact .refl
    · exact (foldl_run takeLinkEvent_run _ { s with events := [] }).trans (ih _)

/-! ### Events of one cell (R31, R34) -/

/-- What an event of a cell does besides its own change: it may raise the cell's change flag. -/
theorem coverageEvent_run (x : CellId) (f : State → State) (s : State) :
    LinkRun (f s).core (coverageEvent x f s).core := by
  have flagged : ∀ b : Bool, LinkRun (f s).core
      (if b = true then (f s).modCell x fun r => { r with changed := true } else f s).core := by
    intro b
    split
    · rw [State.core_modCell]
      exact (LinkStep.raised (a := (f s).core) x).run
    · exact .refl
  unfold coverageEvent
  dsimp only
  split
  · exact flagged _
  · exact flagged _

theorem coverageEvent_clu (x : CellId) (f : State → State) (s : State) : (coverageEvent x f s).clu = (f s).clu := by
  rw [(coverageEvent_cellEvent x f s).frame]

/-! ### Shadow claims (R33, R52, R53) -/

theorem shadowAdd_run {k : CraneId} {x : CellId} {s : State} (live : (s.crane k).Live) (outside : x ∉ (s.crane k).shadow) :
    LinkRun s.core (shadowAdd k x s).core := by
  refine .trans (LinkStep.shadowed (a := s.core) k x live outside).run ((run_of_eq ?_).trans (coverageEvent_run x _ s))
  rw [State.core_modCrane_of (fun c => { c with shadow := sortCells (x :: c.shadow) }), State.core_modCell]
  rfl

theorem shadowRemove_run {k : CraneId} {x : CellId} {s : State} (inside : x ∈ (s.crane k).shadow) :
    LinkRun s.core (shadowRemove k x s).core := by
  refine .trans (LinkStep.unshadowed (a := s.core) k x inside).run ((run_of_eq ?_).trans (coverageEvent_run x _ s))
  rw [State.core_modCrane_of (fun c => { c with shadow := c.shadow.filter (· != x) }), State.core_modCell]
  rfl

theorem shadowAdd_crane (k : CraneId) (x : CellId) (s : State) : (shadowAdd k x s).crane k =
    { s.crane k with shadow := sortCells (x :: (s.crane k).shadow) } := by
  rw [shadowAdd, State.crane_congr (coverageEvent_clu x _ s), State.crane_modCrane]
  rfl

theorem shadowRemove_crane (k : CraneId) (x : CellId) (s : State) : (shadowRemove k x s).crane k =
    { s.crane k with shadow := (s.crane k).shadow.filter (· != x) } := by
  rw [shadowRemove, State.crane_congr (coverageEvent_clu x _ s), State.crane_modCrane]
  rfl

section MoveShadow

variable {k : CraneId} {after : State → State} (quiet : ∀ s, HandRun s.core (after s).core)

include quiet

/-- The cells that leave a shadow set: a run, after which exactly they have left, and the crane is still live. -/
theorem shadowsRemoved_run {l : List CellId} (once : l.Nodup) {s : State} (inside : ∀ x ∈ l, x ∈ (s.crane k).shadow) :
    let t := l.foldl (fun t x => after (shadowRemove k x t)) s
    LinkRun s.core t.core ∧ ((s.crane k).Live → (t.crane k).Live)
      ∧ ∀ y, y ∈ (t.crane k).shadow ↔ y ∈ (s.crane k).shadow ∧ y ∉ l := by
  induction l generalizing s with
  | nil => exact ⟨.refl, id, by simp⟩
  | cons x l ih =>
    obtain ⟨apart, once'⟩ := List.nodup_cons.1 once
    have settled := quiet (shadowRemove k x s)
    have shadow : ((after (shadowRemove k x s)).crane k).shadow = (s.crane k).shadow.filter (· != x) :=
      (settled.shadow k).trans (congrArg Crane.shadow (shadowRemove_crane k x s))
    have live : (s.crane k).Live → ((after (shadowRemove k x s)).crane k).Live := fun h =>
      settled.live (j := k) (show (shadowRemove k x s |>.crane k).Live by rw [shadowRemove_crane]; exact h)
    obtain ⟨run, live', left⟩ := ih once' (s := after (shadowRemove k x s)) fun y hy => by
      have other : y ≠ x := fun e => apart (e ▸ hy)
      simp [shadow, other, inside y (List.mem_cons_of_mem _ hy)]
    refine ⟨((shadowRemove_run (inside x List.mem_cons_self)).trans settled.link).trans run, live' ∘ live, fun y => ?_⟩
    rw [List.foldl_cons, left, shadow]
    simp [and_assoc]

/-- The cells that enter a shadow set of a live crane: a run. -/
theorem shadowsAdded_run {l : List CellId} (once : l.Nodup) {s : State} (live : (s.crane k).Live)
    (outside : ∀ x ∈ l, x ∉ (s.crane k).shadow) :
    LinkRun s.core (l.foldl (fun t x => after (shadowAdd k x t)) s).core := by
  induction l generalizing s with
  | nil => exact .refl
  | cons x l ih =>
    obtain ⟨apart, once'⟩ := List.nodup_cons.1 once
    have settled := quiet (shadowAdd k x s)
    have shadow : ((after (shadowAdd k x s)).crane k).shadow = sortCells (x :: (s.crane k).shadow) :=
      (settled.shadow k).trans (congrArg Crane.shadow (shadowAdd_crane k x s))
    have live' : ((after (shadowAdd k x s)).crane k).Live :=
      settled.live (j := k) (show (shadowAdd k x s |>.crane k).Live by rw [shadowAdd_crane]; exact live)
    refine ((shadowAdd_run live (outside x List.mem_cons_self)).trans settled.link).trans (ih once' live' fun y hy => ?_)
    have other : y ≠ x := fun e => apart (e ▸ hy)
    simp [shadow, other, outside y (List.mem_cons_of_mem _ hy)]

theorem moveShadow_run {new : List CellId} (once : new.Nodup) {s : State} (live : (s.crane k).Live) :
    LinkRun s.core (moveShadow k new after s).core := by
  obtain ⟨removed, live', left⟩ := shadowsRemoved_run quiet (k := k) (s := s)
    (l := (sortCells (s.crane k).shadow).filter fun x => !new.contains x)
    ((sortCells_nodup _).filter _) fun x hx => mem_sortCells.1 (List.mem_of_mem_filter hx)
  refine removed.trans (shadowsAdded_run quiet (once.filter _) (live' live) fun x hx => ?_)
  have old : x ∉ (s.crane k).shadow := by simpa using (List.mem_filter.1 hx).2
  exact fun h => old ((left x).1 h).1

end MoveShadow

theorem shadowSet_nodup (s : State) (band : Option BandId) (boom : Boom) : (shadowSet s band boom).Nodup := by
  unfold shadowSet
  split
  · exact sortCells_nodup _
  · exact List.nodup_nil

theorem mapVisit_run (s : State) (k : CraneId) : LinkRun s.core (mapVisit k s).core := by
  have moved : (s.crane k).Live →
      LinkRun s.core (moveShadow k (shadowSet s (s.crane k).band (s.crane k).boom) (settleLink settleRounds) s).core :=
    moveShadow_run (settleLink_run _) (shadowSet_nodup _ _ _)
  unfold mapVisit
  split
  case h_1 state => exact moved (by simp [Crane.Live, state])
  case h_2 state => exact moved (by simp [Crane.Live, state])
  case h_3 state => exact moved (by simp [Crane.Live, state])
  all_goals exact .refl

theorem takeCluEvent_run (s : State) (e : CluEvent) : LinkRun s.core (takeCluEvent s e).core := by
  cases e with
  | usability x => exact (takeLinkEvent_run s (.usability x)).link
  | room x => exact (takeLinkEvent_run s (.room x)).link
  | mapChange =>
    exact (foldl_run (fun t k => mapVisit_run t k) _ s).trans
      (foldl_run (fun t k => (evaluate_run k false t).link) _ _)

/-- What follows an event is a run of the crane links. -/
theorem settle_run (s : State) : LinkRun s.core (settle s).core := by
  unfold settle
  generalize settleRounds = n
  induction n generalizing s with
  | zero => exact .refl
  | succ n ih =>
    unfold settleN
    split
    · exact .refl
    · exact (foldl_run takeCluEvent_run _ { s with events := [] }).trans (ih _)

/-! ### Arrivals (R48-R52, R83, R87) -/

theorem takePosition_run {k : CraneId} (word : U16) {s : State} (live : (s.crane k).Live) :
    LinkRun s.core (takePosition k word s).core := by
  have reported : (s.modCrane k Crane.reported).core = s.core := s.core_modCrane_kept rfl
  have live0 : ((s.modCrane k Crane.reported).crane k).Live := by rwa [State.crane_modCrane]
  unfold takePosition
  dsimp only
  rw [← reported]
  generalize s.modCrane k Crane.reported = s0 at live0
  have moved : ∀ b : Bool, LinkRun s0.core
      (if b = true then
        moveShadow k (shadowSet s0 (positionBand word) (positionBoom word)) id
          (s0.modCrane k fun c => { c with band := positionBand word, boom := positionBoom word })
      else s0).core := by
    intro b
    split
    · have placed : (s0.modCrane k fun c => { c with band := positionBand word, boom := positionBoom word }).core = s0.core :=
        s0.core_modCrane_kept rfl
      exact (run_of_eq placed).trans
        (moveShadow_run (fun _ => .refl) (shadowSet_nodup _ _ _) (by rwa [State.crane_modCrane]))
    · exact .refl
  split
  · exact (moved _).trans (evaluate_run _ _ _).link
  · exact moved _

theorem completeHandover_run {k : CraneId} {a t : CellId} {s : State} (state : (s.crane k).state = .handover)
    (anchor : (s.crane k).anchor = some a) (target : (s.crane k).target = some t) :
    LinkRun s.core (completeHandover k a t s).core := by
  refine .trans (LinkStep.completed (a := s.core) k a t state anchor target).run (run_of_eq ?_)
  unfold completeHandover
  dsimp only
  rw [countCrane_core, noticeCrane_core, State.core_modCrane_of (fun c => { c with state := .linked }),
    withdrawCraneNotices_core, State.core_modCrane_of (fun c => { c with anchor := some t, target := none }),
    releaseClaim_core, Core.setCrane_setCrane]
  simp [Core.release, Core.setCell, Core.setCrane]

theorem otherArrival_run {k : CraneId} {a : CellId} (x : CellId) (accepted : Bool) {s : State}
    (state : (s.crane k).state = .linked) (anchor : (s.crane k).anchor = some a) :
    LinkRun s.core (otherArrival k a x accepted s).core := by
  unfold otherArrival
  split
  · dsimp only
    obtain ⟨room, granted, claimed, clu⟩ | ⟨refused, same⟩ := reserveClaim_cases x (s.crane k).reservation s
    · rw [if_pos granted]
      refine .trans (LinkStep.led (a := s.core) k a x state anchor room).run (run_of_eq ?_)
      have reservation : ((reserveClaim x (s.crane k).reservation s).1.crane k).reservation = (s.crane k).reservation := by
        rw [State.crane_congr clu]
      unfold craneLedMove
      dsimp only
      rw [countCrane_core, noticeCrane_core, State.core_modCrane_kept _ rfl, releaseClaim_core, reservation,
        State.core_modCrane_of (fun c => { c with anchor := some x }), claimed]
      rfl
    · rw [refused, if_neg Bool.false_ne_true, strayArrival_core]
      exact run_of_eq same
  · exact run_of_eq (strayArrival_core _ _ _)

theorem arrival_run (k : CraneId) (x : CellId) (accepted : Bool) (s : State) :
    LinkRun s.core (arrival k x accepted s).core := by
  unfold arrival
  split
  next state anchor target =>
    split
    · next e => exact completeHandover_run state anchor target
    · split
      · exact .refl
      · exact run_of_eq (strayArrival_core _ _ _)
  next state anchor =>
    split
    · exact .refl
    · exact otherArrival_run x accepted state anchor
  next => exact .refl

theorem liveBlock_run {k : CraneId} (x : CellId) (seq : U16) (payload : List Byte) {s : State} (live : (s.crane k).Live) :
    LinkRun s.core (liveBlock k x seq payload s).core := by
  have heard : (s.modCrane k fun c =>
      { c with craneHeard := true, counters := { c.counters with uplinkBlocks := c.counters.uplinkBlocks + 1 } }).core
        = s.core := s.core_modCrane_kept rfl
  unfold liveBlock
  dsimp only
  rw [← heard]
  have live1 : ((s.modCrane k fun c =>
      { c with craneHeard := true, counters := { c.counters with uplinkBlocks := c.counters.uplinkBlocks + 1 } }).crane
        k).Live := by
    rwa [State.crane_modCrane]
  generalize (s.modCrane k fun c =>
      { c with craneHeard := true, counters := { c.counters with uplinkBlocks := c.counters.uplinkBlocks + 1 } }) = s1
    at live1
  split
  · generalize hw : (s1.modCrane k fun c => _) = s2
    have marked : s2.core = s1.core := by
      rw [← hw]
      exact s1.core_modCrane_kept rfl
    have forwarded : (forwardUp k seq payload s2).core = s1.core := (forwardUp_core s2 k seq payload).trans marked
    have live2 : ((forwardUp k seq payload s2).core.cranes k).Live := by
      rw [forwarded]
      exact live1
    exact ((run_of_eq forwarded).trans (takePosition_run _ live2)).trans (arrival_run _ _ _ _)
  · exact (run_of_eq (countCrane_core _ _ _)).trans (arrival_run _ _ _ _)
  · exact (run_of_eq (countCrane_core _ _ _)).trans (arrival_run _ _ _ _)

theorem refuseContact_core (k : CraneId) (x : CellId) (cause : NoRoomCause) (s : State) :
    (refuseContact k x cause s).core = s.core := by
  rw [refuseContact, noticeCrane_core, countCrane_core]

theorem firstContact_run {k : CraneId} (x : CellId) (seq : U16) (payload : List Byte) {s : State}
    (idle : (s.crane k).state = .idle) : LinkRun s.core (firstContact k x seq payload s).core := by
  unfold firstContact
  split
  · dsimp only
    obtain ⟨room, granted, claimed, clu⟩ | ⟨refused, same⟩ := reserveClaim_cases x (s.crane k).reservation s
    · rw [if_pos granted]
      refine .trans (LinkStep.contact (a := s.core) k x idle room).run ?_
      generalize hl : State.modCrane _ k _ = s1
      have contact : s1.core = (s.core.claim x (s.crane k).reservation).setCrane k
          { s.core.cranes k with state := .linked, anchor := some x } := by
        rw [← hl, State.core_modCrane_of (fun c => { c with state := .linked, anchor := some x }), claimed]
        rfl
      have live : ((forwardUp k seq payload s1).core.cranes k).Live := by
        rw [forwardUp_core, contact]
        simp [Crane.Live]
      exact (run_of_eq ((forwardUp_core _ _ _ _).trans contact)).trans (takePosition_run _ live)
    · rw [refused, if_neg Bool.false_ne_true]
      exact run_of_eq ((refuseContact_core _ _ _ _).trans same)
  · exact run_of_eq (refuseContact_core _ _ _ _)

theorem takeCraneUp_run (x : CellId) (radio : Addr) (seq : U16) (payload : List Byte) (s : State) :
    LinkRun s.core (takeCraneUp x radio seq payload s).core := by
  have alive : ∀ k, (s.crane k).Live → LinkRun s.core (settle (liveBlock k x seq payload s)).core := fun k live =>
    (liveBlock_run x seq payload live).trans (settle_run _)
  unfold takeCraneUp
  dsimp only
  split
  · exact .refl
  · split
    case h_1 => exact .refl
    case h_2 idle => exact (firstContact_run x seq payload idle).trans (settle_run _)
    case h_3 state => exact alive _ (by simp [Crane.Live, state])
    case h_4 state => exact alive _ (by simp [Crane.Live, state])
    case h_5 state => exact alive _ (by simp [Crane.Live, state])

/-! ### Station frames, resume and supervision (R54-R70) -/

theorem takeCraneDown_core (payload : List Byte) (k : CraneId) (s : State) : (takeCraneDown payload k s).core = s.core := by
  have enqueued : ∀ e, (s.modCrane k (Crane.enqueue e)).core = s.core := by
    intro e
    refine s.core_modCrane_kept ?_
    unfold Crane.enqueue
    split <;> rfl
  unfold takeCraneDown
  split
  · exact countCrane_core _ _ _
  · split
    · split
      · exact countCrane_core _ _ _
      · exact enqueued _
    · split
      · exact countCrane_core _ _ _
      · exact enqueued _
    all_goals exact countCrane_core _ _ _

theorem refuseResume_core (k : CraneId) (cause : ResumeRefusal) (s : State) : (refuseResume k cause s).core = s.core := by
  rw [refuseResume, countCrane_core, noticeCrane_core]

theorem resume_run {k : CraneId} {s : State} (lost : (s.crane k).state = .lost) : LinkRun s.core (resume k s).core := by
  refine .trans (LinkStep.stood (a := s.core) k .linked (by simp [Crane.Live, Crane.core, lost]) (.inl rfl)
    (.inr (by simp [Crane.core, lost]))).run ?_
  refine (run_of_eq ?_).trans (evaluate_run k false _).link
  rw [countCrane_core, noticeCrane_core, State.core_modCrane_of (fun c => { c with state := .linked })]

theorem takeResume_run (k : CraneId) (s : State) : LinkRun s.core (takeResume k s).core := by
  unfold takeResume
  dsimp only
  split
  next lost =>
    split
    · exact (resume_run lost).trans (settle_run _)
    · exact run_of_eq (refuseResume_core _ _ _)
  all_goals exact run_of_eq (refuseResume_core _ _ _)

theorem restartSupervision_core (k : CraneId) (s : State) : (restartSupervision k s).core = s.core :=
  s.core_modCrane_kept rfl

theorem keepDecision_core (k : CraneId) (s : State) : (keepDecision k s).core = s.core := by
  unfold keepDecision
  dsimp only
  split
  · exact s.core_modCrane_kept rfl
  · rfl

/-- The abandoned handover of a crane that is about to be LOST: its target is given up, its state still to come (R65). -/
theorem abandonHandover_core (k : CraneId) (t : CellId) (s : State) : (abandonHandover k t s).core =
    (s.core.release t (s.crane k).reservation).setCrane k { s.core.cranes k with target := none } := by
  unfold abandonHandover
  dsimp only
  rw [countCrane_core, noticeCrane_core, State.core_modCrane_of (fun c => { c with target := none }),
    withdrawCraneNotices_core, modCrane_withdraw_core, releaseClaim_core]
  rfl

theorem enterLost_core (k : CraneId) (reasons : LostReasons) (abandoned : Option CellId) (s : State) :
    (enterLost k reasons abandoned s).core = s.core.setCrane k { s.core.cranes k with state := .lost } := by
  unfold enterLost
  dsimp only
  rw [countCrane_core, noticeCrane_core, State.core_modCrane_kept _ rfl,
    State.core_modCrane_of (fun c => { c with state := .lost }), withdrawCraneNotices_core, State.core_modCrane_kept _ rfl,
    State.core_modCrane_kept _ rfl]

theorem enterLost_run {k : CraneId} (reasons : LostReasons) (abandoned : Option CellId) {s : State}
    (live : (s.crane k).Live) (untargeted : (s.crane k).target = none) :
    LinkRun s.core (enterLost k reasons abandoned s).core := by
  rw [enterLost_core]
  exact (LinkStep.stood (a := s.core) k .lost live (.inr rfl) (.inl untargeted)).run

theorem superviseLive_run {k : CraneId} {s : State} (live : (s.crane k).Live) :
    LinkRun s.core (superviseLive k s).core := by
  unfold superviseLive
  dsimp only
  generalize hm : State.modCrane _ k Crane.countMisses = s1
  have counted : s1.core = s.core := by
    rw [← hm, State.core_modCrane_kept _ rfl, keepDecision_core]
  have live1 : (s1.core.cranes k).Live := by
    rw [counted]
    exact live
  rw [← counted]
  split
  · split
    next t target =>
      refine .trans (HandStep.failed (a := s1.core) k t (s1.crane k).state target (.inr rfl)).run.link ?_
      have abandoned := abandonHandover_core k t s1
      have live2 : ((abandonHandover k t s1).core.cranes k).Live := by
        rw [abandoned]
        simpa [Crane.Live] using live1
      have free : ((abandonHandover k t s1).core.cranes k).target = none := by
        rw [abandoned]
        simp
      exact (run_of_eq abandoned).trans (enterLost_run _ _ live2 free)
    next target => exact enterLost_run _ _ live1 target
  · exact .refl

theorem superviseLost_core (k : CraneId) (s : State) : (superviseLost k s).core = s.core := by
  unfold superviseLost
  dsimp only
  rw [State.core_modCrane_kept _ rfl, State.core_modCrane_kept _ rfl]

theorem superviseExpiry_run (k : CraneId) (s : State) : LinkRun s.core (superviseExpiry k s).core := by
  have restarted := restartSupervision_core k s
  have supervised : (s.crane k).Live → LinkRun s.core (settle (superviseLive k (restartSupervision k s))).core := by
    intro live
    have live' : ((restartSupervision k s).core.cranes k).Live := by
      rw [restarted]
      exact live
    exact ((run_of_eq restarted).trans (superviseLive_run live')).trans (settle_run _)
  unfold superviseExpiry
  split
  case h_1 state => exact supervised (by simp [Crane.Live, state])
  case h_2 state => exact supervised (by simp [Crane.Live, state])
  case h_3 => exact run_of_eq ((superviseLost_core _ _).trans restarted)
  all_goals exact .refl

end Machine
end Sys2Proof
end

