-- ==== Sys2Proof/Proofs/PoolRuns.lean ====
section
/-! SUPPORT. What the Batch Pool and the Drain Engine change of a reefer is its batch reference alone (R114): every operation of
theirs is a run of changes to the port, the pool and the drain, and of references set. -/

namespace Sys2Proof
namespace Machine

/-! ### Runs of the pool and the Drain Engine -/

/-- A run of changes to the port, the pool and the drain, and of batch references set. -/
inductive PoolRun : State → State → Prop
  | refl (s : State) : PoolRun s s
  | trans {s t u : State} : PoolRun s t → PoolRun t u → PoolRun s u
  | other (s : State) (port : Port) (pool : Pool) (drain : Drain) :
      PoolRun s { s with port := port, pool := pool, drain := drain }
  | setRef (s : State) (i : ReeferId) (r : Option (BatchId × Nat)) : PoolRun s (s.setRef i r)

namespace PoolRun

theorem foldl {α : Type} {f : State → α → State} (h : ∀ s a, PoolRun s (f s a)) (l : List α) (s : State) :
    PoolRun s (l.foldl f s) := by
  induction l generalizing s with
  | nil => exact .refl s
  | cons a l ih => exact (h s a).trans (ih _)

theorem only {s t : State} (h : PoolRun s t) : PoolOnly s t := by
  induction h with
  | refl s => exact .refl s
  | trans _ _ ih ih' => exact ih.trans ih'
  | other _ _ _ _ => exact ⟨_, _, _, _, rfl⟩
  | setRef _ _ _ => exact setRef_poolOnly _ _ _

/-- A run leaves of a reefer all but its batch reference. -/
theorem reefer {s t : State} (h : PoolRun s t) (j : ReeferId) :
    t.reefer j = { s.reefer j with ref := (t.reefer j).ref } := by
  induction h with
  | trans _ _ ih ih' => rw [ih', ih]
  | setRef s i r =>
    unfold State.setRef
    by_cases e : j = i
    · subst e
      rw [State.reefer_modReefer]
    · rw [State.reefer_modReefer_ne _ e]
  | _ => rfl

theorem groups {s t : State} (h : PoolRun s t) : t.ree.groups = s.ree.groups := by
  induction h with
  | trans _ _ ih ih' => exact ih'.trans ih
  | _ => rfl

end PoolRun

theorem PortOnly.poolRun {s t : State} (h : PortOnly s t) : PoolRun s t := by
  obtain ⟨_, rfl⟩ := h
  exact .other _ _ _ _

/-! ### The pool and the Drain Engine (R114-R141) -/

theorem setRef_poolRun (i : ReeferId) (r : Option (BatchId × Nat)) (s : State) : PoolRun s (s.setRef i r) := .setRef s i r

theorem modBatch_poolRun (b : BatchId) (f : Batch → Batch) (s : State) : PoolRun s (s.modBatch b f) :=
  .other _ _ _ _

theorem countPool_poolRun (f : PoolCounters → PoolCounters) (s : State) : PoolRun s (s.countPool f) :=
  .other _ _ _ _

theorem modDrain_poolRun (f : Drain → Drain) (s : State) : PoolRun s (s.modDrain f) := .other _ _ _ _

theorem freeBatch_poolRun (b : BatchId) (s : State) : PoolRun s (freeBatch b s) := .other _ _ _ _

theorem sealBatch_poolRun (b : BatchId) (c : SealCause) (s : State) : PoolRun s (sealBatch b c s) :=
  .other _ _ _ _

theorem sealOpen_poolRun (u : Urgency) (c : SealCause) (s : State) : PoolRun s (sealOpen u c s) := by
  unfold sealOpen
  split
  · exact sealBatch_poolRun _ _ _
  · exact .refl s

theorem moveRefs_poolRun (b : BatchId) (l : List Entry) (o n : Nat) (s : State) : PoolRun s (moveRefs b l o n s) := by
  induction l generalizing o n s with
  | nil => exact .refl s
  | cons e l ih =>
    unfold moveRefs
    simp only
    refine PoolRun.trans ?_ (ih _ _ _)
    split
    · exact setRef_poolRun _ _ _
    · exact .refl s

theorem removeEntry_poolRun (b : BatchId) (n : Nat) (s : State) : PoolRun s (removeEntry b n s) := by
  have h1 := (modBatch_poolRun b (fun r => { r with entries := (s.batch b).entries.eraseIdx n }) s).trans
    (moveRefs_poolRun b ((s.batch b).entries.drop (n + 1)) (n + 1) n _)
  unfold removeEntry
  simp only
  split
  · exact h1.trans (freeBatch_poolRun _ _)
  · exact h1

theorem dropEntry_poolRun (e : Entry) (u : Urgency) (s : State) : PoolRun s (dropEntry e u s) := by
  have h : ∀ f : PoolCounters → PoolCounters, PoolRun s
      (({ s.countPool f with pool := { (s.countPool f).pool with exhausted := true } }).countPool fun k =>
        { k with episodes := k.episodes + 1 }) := fun f => .other _ _ _ _
  unfold dropEntry
  generalize hf : (fun k : PoolCounters => match u with
    | .routine => { k with droppedRoutine := k.droppedRoutine + 1 }
    | .urgent => { k with droppedUrgent := k.droppedUrgent + 1 }) = f
  extract_lets s1 s2
  split
  · exact countPool_poolRun _ _
  · exact (h f).trans (noticeController_portOnly _ _).poolRun

theorem appendEntry_poolRun (b : BatchId) (e : Entry) (s : State) : PoolRun s (appendEntry b e s) := by
  have h := ((modBatch_poolRun b (fun r => { r with entries := r.entries ++ [e] }) s).trans
    (setRef_poolRun e.reefer (some (b, (s.batch b).entries.length)) _)).trans
    (countPool_poolRun (fun k => { k with placed := k.placed + 1 }) _)
  unfold appendEntry
  simp only
  split
  · exact h.trans (sealBatch_poolRun _ _ _)
  · split
    · exact h.trans (sealBatch_poolRun _ _ _)
    · exact h

theorem placeNew_poolRun (e : Entry) (u : Urgency) (s : State) : PoolRun s (placeNew e u s).1 := by
  have spill : PoolRun s (placeNew.overflow e u s).1 := by
    unfold placeNew.overflow
    split <;> dsimp only
    · exact (appendEntry_poolRun _ _ _).trans (countPool_poolRun _ _)
    · exact dropEntry_poolRun _ _ _
  unfold placeNew
  split
  · exact appendEntry_poolRun _ _ _
  · split
    · split
      · exact ((modBatch_poolRun _ _ _).trans (countPool_poolRun _ _)).trans (appendEntry_poolRun _ _ _)
      · exact spill
    · exact spill

theorem overwriteEntry_poolRun (b : BatchId) (slot : Nat) (e : Entry) (s : State) :
    PoolRun s (overwriteEntry b slot e s) :=
  (modBatch_poolRun _ _ _).trans (countPool_poolRun _ _)

theorem placeInPool_poolRun (e : Entry) (u : Urgency) (s : State) : PoolRun s (placeInPool e u s).1 := by
  have written : ∀ b slot e f, PoolRun s ((overwriteEntry b slot e s).countPool f) := fun b slot e f =>
    (overwriteEntry_poolRun b slot e s).trans (countPool_poolRun f _)
  have upgraded : ∀ b slot e f,
      PoolRun s ((placeNew e .urgent ((removeEntry b slot s).setRef e.reefer none)).1.countPool f) := fun b slot e f =>
    (((removeEntry_poolRun b slot s).trans (setRef_poolRun e.reefer none _)).trans (placeNew_poolRun e .urgent _)).trans
      (countPool_poolRun f _)
  unfold placeInPool
  simp only
  split
  · exact placeNew_poolRun _ _ _
  · split
    · exact placeNew_poolRun _ _ _
    · split
      · dsimp only
        exact overwriteEntry_poolRun _ _ _ _
      · split
        · dsimp only
          exact upgraded _ _ _ _
        · dsimp only
          exact written _ _ _ _

theorem removeLive_poolRun (i : ReeferId) (s : State) : PoolRun s (removeLive i s) := by
  unfold removeLive
  split
  · exact .refl s
  · split
    · exact ((removeEntry_poolRun _ _ _).trans (setRef_poolRun _ _ _)).trans (countPool_poolRun _ _)
    · exact setRef_poolRun _ _ _

theorem takeHead_poolRun (s : State) : PoolRun s (takeHead s).1 := by
  unfold takeHead
  split <;> exact .other _ _ _ _

theorem batchGood_poolRun (b : BatchId) (s : State) : PoolRun s (batchGood b s) := by
  unfold batchGood
  dsimp only
  refine ((PoolRun.foldl (fun s i => ?_) _ s).trans (freeBatch_poolRun _ _)).trans (countPool_poolRun _ _)
  split
  · exact setRef_poolRun _ _ _
  · exact .refl s

theorem renumber_poolRun (b : BatchId) (l : List (Entry × Nat)) (n : Nat) (s : State) :
    PoolRun s (renumber b l n s) := by
  induction l generalizing n s with
  | nil => exact .refl s
  | cons e l ih => exact (setRef_poolRun _ _ _).trans (ih _ _)

theorem joinSealed_poolRun (b : BatchId) (s : State) : PoolRun s (joinSealed b s) := .other _ _ _ _

theorem batchReturn_poolRun (b : BatchId) (s : State) : PoolRun s (batchReturn b s) := by
  unfold batchReturn
  simp only
  have h := ((modBatch_poolRun b (fun r => { r with entries := (liveEntries s b).map Prod.fst }) s).trans
    (renumber_poolRun b (liveEntries s b) 0 _)).trans (countPool_poolRun (fun k =>
      { k with pruned := k.pruned + BitVec.ofNat 32 ((s.batch b).entries.length - (liveEntries s b).length) }) _)
  split
  · exact (h.trans (freeBatch_poolRun _ _)).trans (countPool_poolRun _ _)
  · exact ((h.trans (modBatch_poolRun _ _ _)).trans (joinSealed_poolRun _ _)).trans (countPool_poolRun _ _)

theorem sendDrainEnd_poolRun (d : DrainEnd) (s : State) : PoolRun s (sendDrainEnd d s) := by
  unfold sendDrainEnd
  simp only
  split
  · exact modDrain_poolRun _ _
  · split
    · exact (offer_portOnly _ _ _).poolRun
    · exact (offer_portOnly _ _ _).poolRun.trans (modDrain_poolRun _ _)

theorem closeDrain_poolRun (o : DrainOutcome) (s : State) : PoolRun s (closeDrain o s) :=
  (modDrain_poolRun _ _).trans (sendDrainEnd_poolRun _ _)

theorem withdrawStaged_poolRun (s : State) : PoolRun s (withdrawStaged s) := by
  unfold withdrawStaged
  split
  · exact .refl s
  · simp only
    split
    · exact (modDrain_poolRun _ _).trans (modDrain_poolRun _ _)
    · exact (modDrain_poolRun _ _).trans (modPort_portOnly _ _).poolRun

theorem failBurst_poolRun (w : Burst) (s : State) : PoolRun s (failBurst w s) :=
  (modDrain_poolRun _ _).trans (batchReturn_poolRun _ _)

theorem withdrawHalfSent_poolRun (s : State) : PoolRun s (withdrawHalfSent s) := by
  unfold withdrawHalfSent
  split
  · exact .refl s
  · exact (withdrawStaged_poolRun _).trans (failBurst_poolRun _ _)

theorem terminate_poolRun (o : DrainOutcome) (s : State) : PoolRun s (terminate o s) :=
  (((modDrain_poolRun _ _).trans (withdrawHalfSent_poolRun _)).trans
    (PoolRun.foldl (fun _ _ => failBurst_poolRun _ _) _ _)).trans (closeDrain_poolRun _ _)

theorem buildFrame_poolRun (w : Burst) (s : State) : PoolRun s (buildFrame w s) := by
  unfold buildFrame
  split
  · exact terminate_poolRun _ _
  · exact (modDrain_poolRun _ _).trans (offer_portOnly _ _ _).poolRun

theorem startBurst_poolRun (s : State) : PoolRun s (startBurst s) := by
  unfold startBurst
  simp only
  split
  · exact .refl s
  · exact ((takeHead_poolRun _).trans (modDrain_poolRun _ _)).trans (buildFrame_poolRun _ _)

theorem endTest_poolRun (s : State) : PoolRun s (endTest s) := by
  unfold endTest
  split
  any_goals exact .refl s
  all_goals
    split
    · split
      · exact closeDrain_poolRun _ _
      · split
        · exact closeDrain_poolRun _ _
        · exact .refl s
    · exact .refl s

theorem startTest_poolRun (s : State) : PoolRun s (startTest s) := by
  unfold startTest
  split
  · exact startBurst_poolRun _
  · split
    · exact endTest_poolRun _
    · exact .refl s

theorem afterSeal_poolRun (b s : State) : PoolRun s (afterSeal b s) := by
  unfold afterSeal
  split
  · exact .refl s
  · split
    · exact startBurst_poolRun _
    · exact .refl s

theorem placeEntry_poolRun (e : Entry) (u : Urgency) (s : State) : PoolRun s (placeEntry e u s).1 :=
  (placeInPool_poolRun _ _ _).trans (afterSeal_poolRun _ _)

theorem drainReport_poolRun (s : State) : PoolRun s (drainReport s) := by
  unfold drainReport
  split
  · exact modDrain_poolRun _ _
  · unfold burstFrameSent
    split
    · simp only
      split
      · exact ((modDrain_poolRun _ _).trans (modDrain_poolRun _ _)).trans (startTest_poolRun _)
      · split
        · exact (modDrain_poolRun _ _).trans (buildFrame_poolRun _ _)
        · exact modDrain_poolRun _ _
    · exact .refl s

theorem drainLinkLoss_poolRun (s : State) : PoolRun s (drainLinkLoss s) := by
  unfold drainLinkLoss
  simp only
  split
  · exact modDrain_poolRun _ _
  · exact ((modDrain_poolRun _ _).trans (modDrain_poolRun _ _)).trans
      (PoolRun.foldl (fun _ _ => batchReturn_poolRun _ _) _ _)

theorem ignoreFrame_poolRun (s : State) : PoolRun s (ignoreFrame s) := .other _ _ _ _

theorem judgeGood_poolRun (w : Burst) (s : State) : PoolRun s (judgeGood w s) :=
  (modDrain_poolRun _ _).trans (batchGood_poolRun _ _)

theorem afterJudgement_poolRun (s : State) : PoolRun s (afterJudgement s) := by
  unfold afterJudgement
  split
  · exact (startTest_poolRun _).trans (endTest_poolRun _)
  · exact endTest_poolRun _
  · split
    · exact closeDrain_poolRun _ _
    · exact .refl s
  · exact .refl s

theorem takeCheck_poolRun (index : Nat) (crc : U16) (s : State) : PoolRun s (takeCheck index crc s) := by
  unfold takeCheck
  split
  · refine PoolRun.trans ?_ (afterJudgement_poolRun _)
    split
    · exact judgeGood_poolRun _ _
    · exact failBurst_poolRun _ _
  · exact modDrain_poolRun _ _
  · exact terminate_poolRun _ _

theorem checkExpiry_poolRun (index : Nat) (s : State) : PoolRun s (checkExpiry index s) := by
  unfold checkExpiry
  split
  · exact .refl s
  · split
    · exact terminate_poolRun _ _
    · exact terminate_poolRun _ _
    · exact (failBurst_poolRun _ _).trans (afterJudgement_poolRun _)
    · exact .refl s

theorem fromCollector_poolRun (src : Addr) {f : State → State} (hf : ∀ s, PoolRun s (f s)) (s : State) :
    PoolRun s (fromCollector src f s) := by
  unfold fromCollector
  split
  · exact hf s
  · exact modDrain_poolRun _ _

theorem ofOpenDrain_poolRun (tag : U16) {f : State → State} (hf : ∀ s, PoolRun s (f s)) (s : State) :
    PoolRun s (ofOpenDrain tag f s) := by
  unfold ofOpenDrain
  split
  · exact modDrain_poolRun _ _
  · split
    · exact hf s
    · exact modDrain_poolRun _ _

theorem takeOpen_poolRun (tag : U16) (credit : Byte) (s : State) : PoolRun s (takeOpen tag credit s) := by
  unfold takeOpen
  split
  · unfold openDrain
    split
    · exact (sendDrainEnd_poolRun _ _).trans (modDrain_poolRun _ _)
    · dsimp only
      refine (sealOpen_poolRun .urgent .drainOpen s).trans ?_
      split
      · exact ((modDrain_poolRun _ _).trans (modDrain_poolRun _ _)).trans (sendDrainEnd_poolRun _ _)
      · exact (modDrain_poolRun _ _).trans (startTest_poolRun _)
  · exact (sendDrainEnd_poolRun _ _).trans (modDrain_poolRun _ _)

theorem takePause_poolRun (s : State) : PoolRun s (takePause s) := by
  unfold takePause
  split
  · exact modDrain_poolRun _ _
  all_goals exact ignoreFrame_poolRun s

theorem takeDrainResume_poolRun (s : State) : PoolRun s (takeDrainResume s) := by
  unfold takeDrainResume
  split
  · refine (modDrain_poolRun (fun d => { d with state := .sending, pause := none }) s).trans ?_
    dsimp only
    split
    · split
      · exact .refl _
      · exact buildFrame_poolRun _ _
    · exact startTest_poolRun _
  all_goals exact ignoreFrame_poolRun s

theorem closeIfEmpty_poolRun (s : State) : PoolRun s (if s.drain.window.isEmpty then closeDrain .stop s else s) := by
  split
  · exact closeDrain_poolRun _ _
  · exact .refl s

theorem takeStop_poolRun (s : State) : PoolRun s (takeStop s) := by
  unfold takeStop
  split
  · exact ((modDrain_poolRun _ _).trans (withdrawHalfSent_poolRun _)).trans (closeIfEmpty_poolRun _)
  · exact ((modDrain_poolRun _ _).trans (withdrawHalfSent_poolRun _)).trans (closeIfEmpty_poolRun _)
  all_goals exact ignoreFrame_poolRun s

theorem pauseExpiry_poolRun (s : State) : PoolRun s (pauseExpiry s) := by
  unfold pauseExpiry
  split
  · exact terminate_poolRun _ _
  all_goals exact .refl s

/-! ### In the core -/

theorem setReefer_core (i : ReeferId) (r : Reefer) (s : State) : (s.setReefer i r).core = s.core.setReefer i r := rfl

theorem setReefer_run (i : ReeferId) (r : Reefer) (s : State) : CoreRun s.core (s.setReefer i r).core := by
  rw [setReefer_core]
  exact (CoreStep.reefer i r).run

theorem modReefer_run (i : ReeferId) (f : Reefer → Reefer) (s : State) : CoreRun s.core (s.modReefer i f).core :=
  setReefer_run _ _ _

theorem modGroup_core (g : GroupId) (f : Group → Group) (s : State) : (s.modGroup g f).core = s.core := rfl

theorem PoolRun.core {s t : State} (h : PoolRun s t) : CoreRun s.core t.core := by
  induction h with
  | refl s => exact .refl
  | trans _ _ ih ih' => exact ih.trans ih'
  | other s _ _ _ => exact .refl
  | setRef s i r => exact modReefer_run i _ s

end Machine
end Sys2Proof
end

