-- ==== Sys2Proof/Proofs/TableRuns.lean ====
section
/-! SUPPORT. The unit directory, the general units, the Reefer Unit and the loads, as runs of the steps of the part. -/

namespace Sys2Proof
namespace Machine

/-! ### The unit directory (R38, R39) -/

theorem dirForget_run (a : Addr) {t : DirTarget} (defined : t.defined = true) (s : State) :
    CoreRun s.core (dirForget a t s).core := by
  unfold dirForget
  split
  next found => exact (TableStep.forgot (a := s.core) a.toNat t found defined).run
  next => exact .refl

theorem removeGeneral_run (j : GeneralId) (s : State) : CoreRun s.core (removeGeneral j s).core := by
  unfold removeGeneral
  split
  · exact .refl
  next r found => exact (TableStep.removed (a := s.core) j r found).run

theorem dirDefine_run (a : Addr) {t : DirTarget} (defined : t.defined = true) (s : State) :
    CoreRun s.core (dirDefine a t s).core := by
  unfold dirDefine
  split
  next j held =>
    unfold removeGeneral
    split
    next absent =>
      refine (TableStep.defined (a := s.core) a.toNat t defined fun i hi => ?_).run
      obtain rfl : j = i := DirTarget.general.inj (Option.some.inj (held.symm.trans hi))
      exact absent
    next r found => exact (TableStep.evicted (a := s.core) a.toNat t defined j r held found).run
  next k held =>
    exact (TableStep.defined (a := s.core) a.toNat t defined fun i hi => by cases held.symm.trans hi).run
  next i held =>
    exact (TableStep.defined (a := s.core) a.toNat t defined fun i hi => by cases held.symm.trans hi).run
  next absent =>
    exact (TableStep.defined (a := s.core) a.toNat t defined fun i hi => by cases absent.symm.trans hi).run

theorem moveEntry_run (old : Option Addr) (new : Addr) {t : DirTarget} (defined : t.defined = true) (s : State) :
    CoreRun s.core (moveEntry old new t s).core := by
  unfold moveEntry
  split
  · exact dirDefine_run _ defined _
  · split
    · exact .refl
    · exact (dirForget_run _ defined _).trans (dirDefine_run _ defined _)

theorem dirForget_clu (a : Addr) (t : DirTarget) (s : State) : (dirForget a t s).clu = s.clu := by
  unfold dirForget
  split <;> rfl

theorem dirDefine_clu (a : Addr) (t : DirTarget) (s : State) : (dirDefine a t s).clu = s.clu := by
  have removed : ∀ j, (removeGeneral j s).clu = s.clu := by
    intro j
    unfold removeGeneral
    split <;> rfl
  unfold dirDefine
  split
  · exact removed _
  all_goals rfl

theorem moveEntry_clu (old : Option Addr) (new : Addr) (t : DirTarget) (s : State) :
    (moveEntry old new t s).clu = s.clu := by
  unfold moveEntry
  split
  · exact dirDefine_clu _ _ _
  · split
    · rfl
    · exact (dirDefine_clu _ _ _).trans (dirForget_clu _ _ _)

/-! ### General units (R41-R43) -/

theorem learnGeneral_run (x : CellId) (unit : Addr) {s : State} (unknown : dirFind s unit = none) :
    CoreRun s.core (learnGeneral x unit s).core := by
  unfold learnGeneral
  dsimp only
  split
  next free =>
    split
    · exact .refl
    · exact (TableStep.learned (a := s.core) ⟨_, free⟩ { unit := unit, cell := x, age := 0 } unknown rfl).run
  next => exact .refl

theorem hearGeneral_run (x : CellId) (unit : Addr) (s : State) : CoreRun s.core (hearGeneral x unit s).core := by
  unfold hearGeneral
  split
  next j known => exact (TableStep.renewed (a := s.core) j { unit := unit, cell := x, age := 0 } (.inl known)).run
  next unknown => exact learnGeneral_run x unit unknown
  all_goals exact .refl

theorem takeGeneralUp_run (x : CellId) (unit : Addr) (payload : List Byte) (s : State) :
    CoreRun s.core (takeGeneralUp x unit payload s).core := by
  unfold takeGeneralUp
  split
  · exact .refl
  · exact hearGeneral_run _ _ _

theorem ageOutIfDue_run (j : GeneralId) (s : State) : CoreRun s.core (ageOutIfDue j s).core := by
  unfold ageOutIfDue
  split
  · exact .refl
  · split
    · exact removeGeneral_run _ _
    · exact .refl

theorem tickGeneral_run (s : State) (j : GeneralId) : CoreRun s.core (tickGeneral s j).core := by
  unfold tickGeneral
  split
  · exact .refl
  next r found =>
    have older : CoreRun s.core (s.setGeneral (sparseInsert s.cov.general j.val { r with age := r.age + 1 })).core :=
      (TableStep.renewed (a := s.core) j { r with age := r.age + 1 } (.inr ⟨r, found, rfl⟩)).run
    exact older.trans (ageOutIfDue_run _ _)

theorem takeGeneralDown_core (unit : Addr) (payload : List Byte) (s : State) :
    (takeGeneralDown unit payload s).core = s.core := by
  have offered : ∀ x, (offerGeneralDown x unit payload s).core = s.core := by
    intro x
    unfold offerGeneralDown
    dsimp only
    split
    · exact s.core_modChain_kept rfl
    · exact countChain_core _ _ _
  unfold takeGeneralDown
  split
  · split
    · rfl
    · split
      · exact offered _
      · rfl
  all_goals rfl

/-! ### The Reefer Unit (R97-R109) -/

theorem countReefer_run (i : ReeferId) (f : ReeferCounters → ReeferCounters) (s : State) :
    CoreRun s.core (s.countReefer i f).core := modReefer_run i _ s

theorem forwardReport_run (kind : EntryKind) (u : Urgency) (i : ReeferId) (d : ReeferDef) (g : GroupDef) (seq : Byte)
    (f : Forwarded) (s : State) : CoreRun s.core (forwardReport kind u i d g seq f s).core := by
  unfold forwardReport
  dsimp only
  split <;>
    exact ((modReefer_run _ _ _).trans (placeEntry_poolRun _ _ _).core).trans (modReefer_run _ _ _)

theorem suppressReport_run (i : ReeferId) (d : ReeferDef) (g : GroupDef) (seq : Byte) (f : Forwarded) (s : State) :
    CoreRun s.core (suppressReport i d g seq f s).core := by
  unfold suppressReport
  dsimp only
  split
  · exact forwardReport_run _ _ _ _ _ _ _ _
  · exact modReefer_run _ _ _

theorem hearReport_run (x : CellId) (seq : Byte) (cls : ReportClass) (hit newlySet : Bool) (i : ReeferId) (gid : GroupId)
    (s : State) : CoreRun s.core (hearReport x seq cls hit newlySet i gid s).core := by
  unfold hearReport
  dsimp only
  split
  · exact (modReefer_run _ _ _).trans (run_of_eq (modGroup_core _ _ _))
  · exact modReefer_run _ _ _

theorem takeValid_run (x : CellId) (seq : Byte) (f : Forwarded) (i : ReeferId) (d : ReeferDef) (g : GroupDef) (s : State) :
    CoreRun s.core (takeValid x seq f i d g s).core := by
  have heard := fun cls hit newlySet => hearReport_run x seq cls hit newlySet i d.group s
  have judged : ∀ b u t, CoreRun t.core
      (if b = true then forwardReport .report u i d g seq f t else suppressReport i d g seq f t).core := by
    intro b u t
    split
    · exact forwardReport_run _ _ _ _ _ _ _ _
    · exact suppressReport_run _ _ _ _ _ _
  unfold takeValid
  dsimp only
  split
  · exact heard _ _ _
  · exact ((heard _ _ _).trans (countReefer_run _ _ _)).trans (forwardReport_run _ _ _ _ _ _ _ _)
  all_goals exact (heard _ _ _).trans (judged _ _ _)

theorem takeReport_run (x : CellId) (r : Report) (s : State) : CoreRun s.core (takeReport x r s).core := by
  unfold takeReport
  split
  · exact .refl
  · split
    · split
      · split
        · exact countReefer_run _ _ _
        · split
          · exact .refl
          · split
            · exact .refl
            · exact takeValid_run _ _ _ _ _ _ _
      · exact countReefer_run _ _ _
    · exact countReefer_run _ _ _

theorem chargeMiss_run (i : ReeferId) (d : ReeferDef) (g : GroupDef) (s : State) :
    CoreRun s.core (chargeMiss i d g s).core := by
  have silent : ∀ t, CoreRun (State.core t) (enterSilent i d t).core := by
    intro t
    have placed := fun e => (placeEntry_poolRun e .urgent
      (t.modReefer i fun r => { r with state := .silent, counters := { r.counters with silences := r.counters.silences + 1 } })).core
    unfold enterSilent
    dsimp only
    split
    · exact (modReefer_run _ _ _).trans (placed _)
    · exact ((modReefer_run _ _ _).trans (placed _)).trans (modReefer_run _ _ _)
  unfold chargeMiss
  split
  · exact modReefer_run _ _ _
  · dsimp only
    split
    · exact (modReefer_run _ _ _).trans (silent _)
    · exact modReefer_run _ _ _

theorem missIfDue_run (i : ReeferId) (s : State) : CoreRun s.core (missIfDue i s).core := by
  unfold missIfDue
  split
  · split
    · exact .refl
    · split
      · exact (modReefer_run _ _ _).trans (chargeMiss_run _ _ _ _)
      · exact .refl
  · exact .refl

theorem reportTick_run (s : State) : CoreRun s.core (reportTick s).core := by
  refine (foldl_run (fun t i => ?_) _ s).trans (foldl_run tickGeneral_run _ _)
  unfold tickReefer
  split
  · exact (modReefer_run _ _ _).trans (missIfDue_run _ _)
  all_goals exact .refl

theorem clearGroup_run (g : GroupId) (s : State) : CoreRun s.core (clearGroup g s).core :=
  (run_of_eq (modGroup_core g _ s)).trans (foldl_run (fun t i => modReefer_run i _ t) _ _)

/-! ### Loads of reefers (R95, R96) -/

theorem leaveGroup_core (d : Option ReeferDef) (s : State) : (leaveGroup d s).core = s.core := by
  unfold leaveGroup
  split <;> rfl

theorem addReefer_run (i : ReeferId) (g : GroupId) (unit : Addr) (s : State) :
    CoreRun s.core (addReefer i g unit s).core := by
  have joined : (joinGroup g (leaveGroup (s.reefer i).defn (removeLive i s))).core = (removeLive i s).core :=
    (modGroup_core _ _ _).trans (leaveGroup_core _ _)
  exact (((removeLive_poolRun i s).core.trans (run_of_eq joined)).trans (setReefer_run _ _ _)).trans
    (moveEntry_run _ _ rfl _)

theorem regroupReefer_run (i : ReeferId) (g : GroupId) (unit : Addr) (s : State) :
    CoreRun s.core (regroupReefer i g unit s).core := by
  have moved :
      (if (s.reefer i).defn.map ReeferDef.group = some g then s else joinGroup g (leaveGroup (s.reefer i).defn s)).core
        = s.core := by
    split
    · rfl
    · exact (modGroup_core _ _ _).trans (leaveGroup_core _ _)
  unfold regroupReefer
  dsimp only
  split
  · exact ((run_of_eq moved).trans (modReefer_run _ _ _)).trans (run_of_eq (modGroup_core _ _ _))
  · exact (run_of_eq moved).trans (modReefer_run _ _ _)

theorem dropReefer_run (i : ReeferId) (s : State) : CoreRun s.core (dropReefer i s).core := by
  unfold dropReefer
  split
  · exact .refl
  · exact (((removeLive_poolRun i s).core.trans (run_of_eq (leaveGroup_core _ _))).trans (setReefer_run _ _ _)).trans
      (dirForget_run _ rfl _)

theorem applyReefer_run (s : State) (e : ReeferEntry) : CoreRun s.core (applyReefer s e).core := by
  unfold applyReefer
  split
  · exact .refl
  · split
    · exact dropReefer_run _ _
    · split
      · exact .refl
      · split
        · exact regroupReefer_run _ _ _ _
        · exact addReefer_run _ _ _ _

/-! ### Loads of cranes (R46, R47) -/

/-- No crane has become live, and those that are live have the reservations they had. -/
def ReservationsStand (s t : State) : Prop :=
  ∀ k, (t.crane k).Live → (s.crane k).Live ∧ (t.crane k).reservation = (s.crane k).reservation

/-- What a load's entry may do to a crane (R47): a crane that rests has a new record at rest, or a new definition, and a live
one has a new definition. -/
inductive CraneLoaded (c : Crane) : Crane → Prop
  | empty (d : Option CraneDef) (st : CraneState) (rests : ¬c.Live) (state : st = .vacant ∨ st = .idle) :
      CraneLoaded c { defn := d, state := st }
  | redefined (d : CraneDef) (idle : c.state = .idle) : CraneLoaded c { c with defn := some d }
  | live (d : CraneDef) (live : c.Live) (same : d.reservation = c.reservation) : CraneLoaded c (c.redefine d)

/-- The record of a crane that an entry of a load defines (R47). -/
def Crane.loaded (d : CraneDef) (r : Crane) : Crane :=
  match r.state with
  | .vacant => { defn := some d, state := .idle }
  | .idle => { r with defn := some d }
  | .linked | .handover | .lost => r.redefine d

theorem Crane.loaded_loaded {d : CraneDef} {c : Crane} (same : c.Live → d.reservation = c.reservation) :
    CraneLoaded c (c.loaded d) := by
  have live : c.Live → CraneLoaded c (c.redefine d) := fun live => .live d live (same live)
  unfold Crane.loaded
  split
  case h_1 state => exact .empty _ _ (by simp [Crane.Live, state]) (.inr rfl)
  case h_2 state => exact .redefined _ state
  case h_3 state => exact live (by simp [Crane.Live, state])
  case h_4 state => exact live (by simp [Crane.Live, state])
  case h_5 state => exact live (by simp [Crane.Live, state])

theorem CraneLoaded.stands {c d : Crane} (h : CraneLoaded c d) (live : d.Live) :
    c.Live ∧ d.reservation = c.reservation := by
  cases h with
  | empty e st _ state => exact absurd live (by obtain rfl | rfl := state <;> simp [Crane.Live])
  | redefined e idle => exact absurd live (by simp [Crane.Live, idle])
  | live e live' same => exact ⟨live', same⟩

theorem CraneLoaded.run {k : CraneId} {f : Crane → Crane} {s : State} (h : CraneLoaded (s.crane k) (f (s.crane k))) :
    CoreRun s.core (s.modCrane k f).core := by
  rw [State.core_modCrane]
  generalize hd : f (s.crane k) = d at h
  cases h with
  | empty e st rests state => exact (CoreStep.emptied (a := s.core) k e st rests state).run
  | redefined e idle =>
    exact (CoreStep.redefined (a := s.core) k e fun live => absurd idle live.2).run
  | live e live same => exact (CoreStep.redefined (a := s.core) k e fun _ => same).run

/-- One entry of a load that gives no live crane another reservation. -/
theorem applyCrane_run {s : State} {e : CraneEntry} (same : ∀ k, below 12 e.index = some k → (s.crane k).Live →
    e.action = 0 ∧ e.defn.reservation = (s.crane k).reservation) :
    CoreRun s.core (applyCrane s e).core ∧ ReservationsStand s (applyCrane s e) := by
  have stands : ∀ k (f : Crane → Crane) t, CraneLoaded (s.crane k) (f (s.crane k)) → State.clu t = (s.modCrane k f).clu →
      ReservationsStand s t := by
    intro k f t loaded clu j live
    rw [State.crane_congr clu] at live ⊢
    by_cases h : j = k
    · subst h
      rw [State.crane_modCrane] at live ⊢
      exact loaded.stands live
    · rw [State.crane_modCrane_ne _ h] at live ⊢
      exact ⟨live, rfl⟩
  have nothing : CoreRun s.core s.core ∧ ReservationsStand s s := ⟨.refl, fun _ live => ⟨live, rfl⟩⟩
  unfold applyCrane
  split
  · exact nothing
  next k index =>
    dsimp only
    split
    · have loaded : CraneLoaded (s.crane k) ((s.crane k).loaded e.defn) := Crane.loaded_loaded fun live => (same k index live).2
      exact ⟨(loaded.run (f := Crane.loaded e.defn)).trans (moveEntry_run _ _ rfl _),
        stands k (Crane.loaded e.defn) _ loaded (moveEntry_clu _ _ _ _)⟩
    · have emptied : (s.crane k).state = .idle → CraneLoaded (s.crane k) ((fun _ => {}) (s.crane k)) := fun state =>
        .empty none .vacant (by simp [Crane.Live, state]) (.inl rfl)
      split
      next d state _ =>
        exact ⟨(emptied state).run.trans (dirForget_run _ rfl _), stands k _ _ (emptied state) (dirForget_clu _ _ _)⟩
      next state _ => exact ⟨(emptied state).run, stands k _ _ (emptied state) rfl⟩
      all_goals exact nothing

/-- A load whose entries give no live crane another reservation. -/
theorem applyCranes_run {s t : State} (l : List CraneEntry) (stood : ReservationsStand s t)
    (same : ∀ e ∈ l, ∀ k, below 12 e.index = some k → (s.crane k).Live →
      e.action = 0 ∧ e.defn.reservation = (s.crane k).reservation) :
    CoreRun t.core (l.foldl applyCrane t).core := by
  induction l generalizing t with
  | nil => exact .refl
  | cons e l ih =>
    obtain ⟨run, stands⟩ := applyCrane_run (s := t) (e := e) fun k index live => by
      obtain ⟨live', kept⟩ := stood k live
      rw [kept]
      exact same e List.mem_cons_self k index live'
    refine run.trans (ih (fun k live => ?_) fun d hd => same d (List.mem_cons_of_mem _ hd))
    obtain ⟨live', kept⟩ := stands k live
    obtain ⟨live'', kept'⟩ := stood k live'
    exact ⟨live'', kept.trans kept'⟩

theorem entryFault_none {α : Type} {status : Status} {bad : List α → α → Bool} {l : List α} :
    entryFault status bad l = none ↔ ∀ i e, l[i]? = some e → bad (l.take i).reverse e = false := by
  rw [entryFault, Option.map_eq_none_iff, firstFault_none]
  simp

/-- Nothing is at fault when the first judgement and every later one find nothing. -/
theorem orElse_none {α : Type} {a : Option α} {b : Unit → Option α} (h : (a.orElse b) = none) : a = none ∧ b () = none := by
  cases a with
  | none => exact ⟨rfl, h⟩
  | some x => cases h

/-- An entry that is not at fault gives a live crane the reservation it has (R46). -/
theorem craneInUse_false {s : State} {e : CraneEntry} (h : craneInUse s e = false) {k : CraneId}
    (index : below 12 e.index = some k) (live : (s.crane k).Live) :
    e.action = 0 ∧ e.defn.reservation = (s.crane k).reservation := by
  obtain ⟨vacant, idle⟩ := live
  unfold craneInUse at h
  rw [index] at h
  dsimp only at h
  cases state : (s.crane k).state <;> cases defn : (s.crane k).defn <;> simp_all [Crane.reservation]

theorem craneLoad_run {s : State} {l : List CraneEntry} (h : craneFault s l = none) :
    CoreRun s.core (l.foldl applyCrane s).core := by
  obtain ⟨-, rest⟩ := orElse_none h
  obtain ⟨-, unused⟩ := orElse_none rest
  refine applyCranes_run l (fun _ live => ⟨live, rfl⟩) fun e he k => ?_
  obtain ⟨i, hi⟩ := List.mem_iff_getElem?.1 he
  exact craneInUse_false (entryFault_none.1 unused i e hi)

/-! ### Loads of cells (R25) -/

theorem Cell.define_budget (fitted : Bool) (budget : Nat) (position : Fin 8) (r : Cell) :
    (r.define fitted budget position).budget = budget := by
  unfold Cell.define
  dsimp only
  split <;> rfl

theorem Cell.define_position (fitted : Bool) (budget : Nat) (position : Fin 8) (r : Cell) :
    (r.define fitted budget position).position = position := by
  unfold Cell.define
  dsimp only
  split <;> rfl

/-- A cell's own definition leaves its record as it is. -/
theorem Cell.define_self (r : Cell) : r.define r.fitted r.budget r.position = r := by
  unfold Cell.define
  dsimp only
  rw [if_neg (by simp)]

theorem below_eq_some {n v : Nat} {i : Fin n} : below n v = some i ↔ v = i.val := by
  unfold below
  split
  next h =>
    rw [Option.some.injEq, Fin.ext_iff]
  next h => exact iff_of_false (by simp) fun e => h (e ▸ i.isLt)

/-- A cell entry that takes effect, on its cell and on no other (R25, R34). -/
theorem applyCell_cell {s : State} {e : CellEntry} {x : CellId} {p : Fin 8} (cell : e.cell = x.val)
    (position : e.position = p.val) :
    (∃ b, (applyCell s e).cell x = { (s.cell x).define (e.fitted == 1) e.budget p with changed := b })
      ∧ ∀ y, y ≠ x → (applyCell s e).cell y = s.cell y := by
  have event := coverageEvent_cellEvent x (fun t => t.modCell x (Cell.define (e.fitted == 1) e.budget p)) s
  have taken : applyCell s e = coverageEvent x (fun t => t.modCell x (Cell.define (e.fitted == 1) e.budget p)) s := by
    unfold applyCell
    rw [below_eq_some.2 cell, below_eq_some.2 position]
  rw [taken]
  refine ⟨⟨_, event.cell.trans (by rw [State.cell_modCell])⟩, fun y h => ?_⟩
  rw [event.others y h, State.cell_modCell_ne _ h]

/-- A cell entry reaches the cells and the events alone. -/
theorem applyCell_frame (s : State) (e : CellEntry) : ∃ cells ev, applyCell s e =
    { s with cov := { s.cov with cells := cells }, events := ev } := by
  unfold applyCell
  split
  next x p _ _ =>
    rw [(coverageEvent_cellEvent x _ s).frame]
    exact ⟨_, _, rfl⟩
  next => exact ⟨_, _, rfl⟩

theorem applyCells_frame (l : List CellEntry) (s : State) : ∃ cells ev, l.foldl applyCell s =
    { s with cov := { s.cov with cells := cells }, events := ev } := by
  induction l generalizing s with
  | nil => exact ⟨_, _, rfl⟩
  | cons e l ih =>
    obtain ⟨_, _, first⟩ := applyCell_frame s e
    obtain ⟨_, _, rest⟩ := ih (applyCell s e)
    rw [List.foldl_cons, rest, first]
    exact ⟨_, _, rfl⟩

theorem applyCells_core (l : List CellEntry) (s : State) :
    (l.foldl applyCell s).core = { s.core with cells := (l.foldl applyCell s).cell } := by
  obtain ⟨_, _, frame⟩ := applyCells_frame l s
  rw [frame]
  rfl

/-- The definition that a load gives a cell: that of its entry, or its own (R25). -/
def Loaded (l : List CellEntry) (r : Cell) (x : CellId) (q : Cell) : Prop :=
  match entryFor l x with
  | none => q = r
  | some e => ∃ p : Fin 8, e.position = p.val ∧ ∃ b, q = { r.define (e.fitted == 1) e.budget p with changed := b }

/-- Entries within their ranges that name different cells give each cell the definition of its own entry. -/
theorem applyCells_cell {l : List CellEntry} (ranges : ∀ e ∈ l, e.cell < 16 ∧ e.position < 8)
    (once : (l.map CellEntry.cell).Nodup) (s : State) (x : CellId) :
    Loaded l (s.cell x) x ((l.foldl applyCell s).cell x) := by
  induction l generalizing s with
  | nil => rfl
  | cons e l ih =>
    obtain ⟨apart, once'⟩ := List.nodup_cons.1 (by simpa using once : (e.cell :: l.map CellEntry.cell).Nodup)
    obtain ⟨cell, position⟩ := ranges e List.mem_cons_self
    obtain ⟨⟨b, own⟩, others⟩ := applyCell_cell (s := s) (x := ⟨e.cell, cell⟩) (p := ⟨e.position, position⟩) rfl rfl
    have rest := ih (fun d hd => ranges d (List.mem_cons_of_mem _ hd)) once' (applyCell s e)
    rw [List.foldl_cons]
    by_cases h : e.cell = x.val
    · obtain rfl : x = ⟨e.cell, cell⟩ := Fin.ext h.symm
      have unlisted : entryFor l ⟨e.cell, cell⟩ = none := by
        simp only [entryFor, List.find?_eq_none, beq_iff_eq]
        exact fun d hd same => apart (List.mem_map.2 ⟨d, hd, same⟩)
      have listed : entryFor (e :: l) ⟨e.cell, cell⟩ = some e := by simp [entryFor]
      unfold Loaded at rest ⊢
      rw [unlisted] at rest
      rw [listed]
      dsimp only at rest ⊢
      exact ⟨⟨e.position, position⟩, rfl, b, rest.trans own⟩
    · have other : x ≠ ⟨e.cell, cell⟩ := fun same => h (congrArg Fin.val same).symm
      have same : entryFor (e :: l) x = entryFor l x := by simp [entryFor, h]
      unfold Loaded at rest ⊢
      rw [same, ← others x other]
      exact rest

/-- No entry names the same thing as one before it: the entries' names are different. -/
theorem nodup_of_unrepeated {α : Type} {key : α → Nat} {l : List α}
    (h : ∀ i e, l[i]? = some e → ∀ d ∈ (l.take i).reverse, key d ≠ key e) : (l.map key).Nodup := by
  rw [List.Nodup, List.pairwise_map, List.pairwise_iff_getElem]
  intro i j hi hj lt same
  refine h j l[j] (List.getElem?_eq_getElem hj) l[i] ?_ same
  rw [List.mem_reverse, List.mem_take_iff_getElem]
  exact ⟨i, by omega, rfl⟩

theorem cellOutOfRange_false {before : List CellEntry} {e : CellEntry} (h : cellOutOfRange before e = false) :
    e.cell < 16 ∧ e.budget ≤ 64 ∧ e.position < 8 ∧ ∀ d ∈ before, d.cell ≠ e.cell := by
  simp only [cellOutOfRange, Bool.or_eq_false_iff, decide_eq_false_iff_not, not_le, not_lt, List.any_eq_false, beq_iff_eq]
    at h
  obtain ⟨⟨⟨⟨cell, -⟩, budget⟩, position⟩, apart⟩ := h
  exact ⟨cell, budget, position, apart⟩

theorem cellLoad_run {s : State} {l : List CellEntry} (h : cellFault s l = none) :
    CoreRun s.core (l.foldl applyCell s).core := by
  obtain ⟨ranged, rest⟩ := orElse_none h
  obtain ⟨unclashed, rest'⟩ := orElse_none rest
  obtain ⟨unused, within⟩ := orElse_none rest'
  have range : ∀ e ∈ l, e.cell < 16 ∧ e.budget ≤ 64 ∧ e.position < 8 := fun e he => by
    obtain ⟨i, hi⟩ := List.mem_iff_getElem?.1 he
    obtain ⟨cell, budget, position, -⟩ := cellOutOfRange_false (entryFault_none.1 ranged i e hi)
    exact ⟨cell, budget, position⟩
  have once : (l.map CellEntry.cell).Nodup := nodup_of_unrepeated fun i e hi =>
    (cellOutOfRange_false (entryFault_none.1 ranged i e hi)).2.2.2
  have loaded : ∀ x, Loaded l (s.cell x) x ((l.foldl applyCell s).cell x) :=
    applyCells_cell (fun e he => ⟨(range e he).1, (range e he).2.2⟩) once s
  have positions : ∀ x, ((l.foldl applyCell s).cell x).position.val = positionAfter s l x := by
    intro x
    have defined := loaded x
    unfold Loaded at defined
    unfold positionAfter
    split at defined
    next none =>
      rw [defined, none]
      rfl
    next e found =>
      obtain ⟨p, position, b, defined⟩ := defined
      rw [defined, found]
      simp [Cell.define_position, position]
  have budgets : ∀ x, ((l.foldl applyCell s).cell x).budget = budgetAfter s l x := by
    intro x
    have defined := loaded x
    unfold Loaded at defined
    unfold budgetAfter
    split at defined
    next none =>
      rw [defined, none]
      rfl
    next e found =>
      obtain ⟨p, position, b, defined⟩ := defined
      rw [defined, found]
      simp [Cell.define_budget]
  rw [applyCells_core]
  refine (CoreStep.cellsLoaded (a := s.core) _ ⟨fun x => ?_, fun c => ?_, fun c => ?_⟩).run
  · have defined := loaded x
    unfold Loaded at defined
    split at defined
    next =>
      refine ⟨(s.cell x).fitted, (s.cell x).budget, (s.cell x).position, ?_, .inl rfl⟩
      rw [defined, State.core_cells, Cell.define_self]
    next e found =>
      obtain ⟨p, position, b, defined⟩ := defined
      refine ⟨e.fitted == 1, e.budget, p, by rw [defined]; rfl, .inr ?_⟩
      have listed := List.mem_of_find?_eq_some found
      have named : e.cell = x.val := by simpa using List.find?_some found
      obtain ⟨i, hi⟩ := List.mem_iff_getElem?.1 listed
      have free := entryFault_none.1 unused i e hi
      unfold cellInUse at free
      rw [below_eq_some.2 named] at free
      simp only [Bool.or_eq_false_iff, decide_eq_false_iff_not, not_lt] at free
      exact ⟨(range e listed).2.1, free.1⟩
  · have clash : positionsClash s l c = false := by
      unfold wholeFault at unclashed
      cases c <;> simp_all
    have apart : ((cellsOf c).map (positionAfter s l)).Nodup := by simpa [positionsClash] using clash
    refine List.Nodup.of_map Fin.val ?_
    rw [List.map_map]
    convert apart using 2
    funext x
    exact positions x
  · have afford : overBudget s l c = false := by
      unfold wholeFault at within
      cases c <;> simp_all
    simpa [overBudget, budgets] using afford

/-! ### Any load (R163, R164) -/

theorem applyLoad_run {t : Table} {content : List Byte} {s : State} (h : loadFault t content s = none) :
    CoreRun s.core (applyLoad t content s).core := by
  obtain ⟨-, sound⟩ := orElse_none h
  cases t with
  | cranes => exact craneLoad_run sound
  | cells => exact cellLoad_run sound
  | coverage => exact .refl
  | reefers => exact foldl_run applyReefer_run _ s
  | groups =>
    refine run_of_eq (foldl_core s (fun t e => ?_) _)
    unfold applyGroup
    split <;> rfl

end Machine
end Sys2Proof
end

