-- ==== Sys2Proof/Proofs/ChainRuns.lean ====
section
/-! SUPPORT. The Chain Controllers and the cells of a turn, as runs of the steps of the part. -/

namespace Sys2Proof
namespace Machine

/-! ### Cells (R26-R30, R35) -/

/-- A cell changed in its barred flag, its change flag and its counters alone. -/
theorem modCell_run {x : CellId} {f : Cell → Cell} (s : State)
    (kept : ∀ r, f r =
      { r with
        barred := (f r).barred, changed := (f r).changed, uplinkBlocks := (f r).uplinkBlocks
        downlinkBlocks := (f r).downlinkBlocks, statusMisses := (f r).statusMisses } := by intro; rfl) :
    CoreRun s.core (s.modCell x f).core := by
  rw [State.core_modCell]
  exact (CoreStep.noted (a := s.core) x (f (s.cell x)) (kept _)).run

/-- An event of a cell whose own change is a run. -/
theorem coverageEvent_coreRun {x : CellId} {f : State → State} {s : State} (h : CoreRun s.core (f s).core) :
    CoreRun s.core (coverageEvent x f s).core :=
  h.trans (coverageEvent_run x f s).core

theorem statusRecord_run {x : CellId} (q : StatusRecord) {s : State} (running : (s.chain (chainOf x)).state = .running) :
    CoreRun s.core (statusRecord x q s).core := by
  unfold statusRecord
  split
  next fitted =>
    refine coverageEvent_coreRun ?_
    rw [State.core_modCell]
    exact (CoreStep.status (a := s.core) x s.params q fitted running).run
  next => exact .refl

theorem statusMiss_run (x : CellId) (s : State) : CoreRun s.core (statusMiss x s).core := by
  refine coverageEvent_coreRun ?_
  rw [State.core_modCell]
  exact (CoreStep.missed (a := s.core) x s.params).run

theorem setBarred_run (x : CellId) (b : Bool) (s : State) : CoreRun s.core (setBarred x b s).core :=
  coverageEvent_coreRun (modCell_run s)

theorem departure_run (c : Chain) (s : State) : CoreRun s.core (departure c s).core := by
  refine foldl_run (fun t x => coverageEvent_coreRun ?_) _ s
  rw [State.core_modCell]
  exact (CoreStep.departed (a := t.core) x).run

theorem clearFlags_run (l : List CellId) (s : State) : CoreRun s.core (clearFlags l s).core :=
  foldl_run (fun t x => modCell_run t) l s

theorem cycleEnd_run (c : Chain) (cause : CycleEndCause) (s : State) : CoreRun s.core (cycleEnd c cause s).core := by
  unfold cycleEnd
  split
  · exact .refl
  · split
    · exact clearFlags_run _ _
    · dsimp only
      split
      · exact (run_of_eq (offer_portOnly _ _ _).core).trans (clearFlags_run _ _)
      · exact run_of_eq (offer_portOnly _ _ _).core

/-! ### Chain states (R3-R9) -/

/-- An entry to a chain state shows in the core as that state. -/
theorem enterState_core (c : Chain) (cause : ChainCause) (new : ChainState) (abortCell : Option CellId)
    (f : ChainRec → ChainRec) (s : State) : (enterState c cause new abortCell f s).core = s.core.setChain c new := by
  unfold enterState chainNotice State.setChainState
  rw [noticeController_core, refreshLeds_core, State.core_modChain, State.core_modChain]
  simp [Core.setChain]

theorem enterState_run {c : Chain} {new : ChainState} {s : State} (cause : ChainCause) (abortCell : Option CellId)
    (f : ChainRec → ChainRec)
    (still : new = .running ∨ (s.chain c).state ≠ .running
      ∨ ∀ x, chainOf x = c → (s.cell x).unit ≠ .up ∧ (s.cell x).unit ≠ .fading) :
    CoreRun s.core (enterState c cause new abortCell f s).core := by
  rw [enterState_core]
  exact (CoreStep.entered (a := s.core) c new still).run

theorem departed_run (c : Chain) (s : State) : CoreRun s.core (departed c s).core := by
  have left : (s.modChain c ChainRec.leave).core = s.core := s.core_modChain_kept rfl
  exact (run_of_eq left).trans (departure_run c _)

/-- The controller's word that a chain has left, and the events that follow it. -/
theorem chainLeft_run (c : Chain) (s : State) : CoreRun s.core (settle (chainLeftWord c s)).core :=
  (chainLeftWord_run c s).link.core.trans (settle_run _).core

theorem leaveRunning_run (c : Chain) (s : State) : CoreRun s.core (leaveRunning c s).core := by
  rw [leaveRunning_eq]
  refine (departed_run c s).trans (Relation.ReflTransGen.trans ?_ (cycleEnd_run c .chainLeft _))
  split
  · exact (settle_run _).core.trans (chainLeft_run c _)
  · exact chainLeft_run c _

/-- The cells of a chain that has left RUNNING are neither UP nor FADING (R29). -/
theorem leaveRunning_still {c : Chain} {s : State} {x : CellId} (on : chainOf x = c) :
    ((leaveRunning c s).cell x).unit ≠ .up ∧ ((leaveRunning c s).cell x).unit ≠ .fading := by
  rw [leaveRunning_unit]
  split_ifs with gone
  · simp
  · have absent : (s.cell x).unit = .absent := by simpa [on] using gone
    simp [absent]

theorem breakChain_run (c : Chain) (cause : ChainCause) (abortCell : Option CellId) (s : State) :
    CoreRun s.core (breakChain c cause abortCell s).core :=
  (leaveRunning_run c s).trans (enterState_run cause abortCell _ (.inr (.inr fun _ on => leaveRunning_still on)))

theorem disableChain_run (c : Chain) (s : State) : CoreRun s.core (disableChain c s).core := by
  unfold disableChain
  split
  next => exact .refl
  next => exact (leaveRunning_run c s).trans (enterState_run _ _ _ (.inr (.inr fun _ on => leaveRunning_still on)))
  next state => exact enterState_run _ _ _ (.inr (.inl (by simp [state])))
  next state => exact enterState_run _ _ _ (.inr (.inl (by simp [state])))

theorem backoffExpiry_run (c : Chain) (s : State) : CoreRun s.core (backoffExpiry c s).core := by
  unfold backoffExpiry
  split
  next broken =>
    have stopped : (s.modChain c fun r => { r with backoff := none }).core = s.core := s.core_modChain_kept rfl
    refine (run_of_eq stopped).trans (enterState_run _ _ _ (.inr (.inl ?_)))
    rw [State.chain_modChain]
    simp [broken.1]
  next => exact .refl

theorem stableExpiry_core (c : Chain) (s : State) : (stableExpiry c s).core = s.core := by
  unfold stableExpiry
  split
  · exact s.core_modChain_kept rfl
  · rfl

theorem lineSilent_run (c : Chain) (s : State) : CoreRun s.core (lineSilent c s).core := by
  unfold lineSilent
  split
  · exact (run_of_eq (countChain_core _ _ _)).trans (breakChain_run _ _ _ _)
  · exact .refl

/-! ### The downlink and its cycle (R10-R15) -/

/-- A block offered to a downlink whose taking does not show in the core. -/
theorem Build.offer_run (cap : Nat) (b : DownBlock) {commit : State → State} (u : Build)
    (quiet : (commit u.st).core = u.st.core) : CoreRun u.st.core (u.offer cap b commit).st.core := by
  obtain same | taken := u.offer_st cap b commit
  · rw [same]
  · rw [taken]
    exact (run_of_eq quiet).trans (modCell_run _)

theorem foldl_build_run {α : Type} {f : Build → α → Build} (h : ∀ u a, CoreRun u.st.core (f u a).st.core) (l : List α)
    (u : Build) : CoreRun u.st.core (l.foldl f u).st.core := by
  induction l generalizing u with
  | nil => exact .refl
  | cons a l ih => exact (h u a).trans (ih _)

/-- What a crane gives up for a block that it offers concerns no claim (R13). -/
theorem craneOffer_core {c : Chain} {k : CraneId} {s : State} {b : DownBlock} {f : Crane → Crane}
    (h : craneOffer c k s = some (b, f)) (r : Crane) : (f r).core = r.core := by
  unfold craneOffer at h
  dsimp only at h
  split at h
  · obtain ⟨-, rfl⟩ := Prod.mk.inj (Option.some.inj h)
    rfl
  · split at h
    · cases h
    · split at h
      · cases h
      · obtain ⟨-, rfl⟩ := Prod.mk.inj (Option.some.inj h)
        rfl

theorem buildCranes_run (cap : Nat) (c : Chain) (n : Nat) (u : Build) :
    CoreRun u.st.core (buildCranes cap c n u).st.core := by
  induction n generalizing u with
  | zero => exact .refl
  | succ n ih =>
    unfold buildCranes
    split
    · exact .refl
    · split
      · exact .refl
      next k b f offered =>
        refine (u.offer_run cap b ?_).trans (ih _)
        rw [State.core_modChain_kept _ rfl, State.core_modCrane_kept _ (craneOffer_core (firstOffer_some offered) _)]

theorem buildGeneral_run (cap : Nat) (c : Chain) (q : List GeneralDown) (u : Build) :
    CoreRun u.st.core (buildGeneral cap c q u).st.core := by
  induction q generalizing u with
  | nil => exact .refl
  | cons g rest ih =>
    rw [buildGeneral_cons]
    split
    · exact .refl
    · split
      · exact (u.offer_run cap _ (State.core_modChain_kept _ rfl)).trans (ih _)
      · have passed : (u.passFrame c rest).st.core = u.st.core := State.core_modChain_kept _ rfl
        exact (run_of_eq passed).trans (ih _)

theorem buildDownlink_run (c : Chain) (s : State) : CoreRun s.core (buildDownlink c s).st.core := by
  have holds := foldl_build_run (f := buildHolds (effectiveCapacity s.params) c)
    (fun u k => foldl_build_run (fun v e => v.offer_run _ _ (State.core_modCrane_kept _ rfl)) _ u) allCranes
    { st := s, used := 0, blocks := [], full := false }
  have notices : ∀ u, CoreRun u.st.core (buildNotices (effectiveCapacity s.params) c u).st.core := fun u =>
    foldl_build_run (fun v n => v.offer_run _ _ rfl) _ u
  exact ((holds.trans (notices _)).trans (buildCranes_run _ c _ _)).trans (buildGeneral_run _ c _ _)

theorem sendCycle_run (c : Chain) (s : State) : CoreRun s.core (sendCycle c s).core := by
  have built : CoreRun s.core (cycleBuild c s).st.core := by
    unfold cycleBuild
    split
    · exact .refl
    · exact buildDownlink_run c s
  have placed : (cyclePlaced c s).core = (cycleBuild c s).st.core := State.core_modChain_kept _ rfl
  rw [sendCycle_eq]
  exact (built.trans (run_of_eq placed)).trans (LinkRun.core ((openerSent_run c _).link.trans (settle_run _)))

/-! ### The cycle timer (R4, R10) -/

theorem countMissed_core (c : Chain) (s : State) : (countMissed c s).core = s.core := s.core_modChain_kept rfl

/-- A failed roll call breaks the chain, and else the turn is followed by what is given (R4). -/
theorem rollcallExpiry_run {c : Chain} {s : State} (rollcall : (s.chain c).state = .rollcall) :
    CoreRun s.core (rollcallExpiry c s).core := by
  unfold rollcallExpiry
  split
  · exact sendCycle_run c s
  · dsimp only
    generalize hm : State.modChain _ c _ = s0
    have missed : s0.core = s.core := by
      rw [← hm, State.core_modChain_kept _ rfl, countMissed_core]
    have ended := (run_of_eq missed).trans (cycleEnd_run c .missedTurn s0)
    split
    · refine ended.trans (enterState_run _ _ _ (.inr (.inl ?_)))
      rw [(cycleEnd_linkOnly c .missedTurn s0).chain, chain_state_congr missed, rollcall]
      simp
    · exact ended.trans (sendCycle_run _ _)

theorem runningExpiry_run (c : Chain) (s : State) : CoreRun s.core (runningExpiry c s).core := by
  unfold runningExpiry
  split
  · exact sendCycle_run c s
  · dsimp only
    generalize hm : State.modChain _ c _ = s0
    have missed : s0.core = s.core := by
      rw [← hm, State.core_modChain_kept _ rfl, countMissed_core]
    have ended := (run_of_eq missed).trans (cycleEnd_run c .missedTurn s0)
    split
    · exact ended.trans (breakChain_run _ _ _ _)
    · exact ended.trans (sendCycle_run _ _)

theorem cycleExpiry_run (c : Chain) (s : State) : CoreRun s.core (cycleExpiry c s).core := by
  unfold cycleExpiry
  dsimp only
  generalize hr : s.modChain c _ = s1
  have restarted : s1.core = s.core := by
    rw [← hr]
    exact s.core_modChain_kept rfl
  refine (run_of_eq restarted).trans ?_
  split
  next => exact cycleEnd_run _ _ _
  next => exact cycleEnd_run _ _ _
  next state => exact rollcallExpiry_run ((chain_state_congr restarted c).trans state)
  next => exact runningExpiry_run _ _

/-! ### The returning stream (R17-R20) -/

theorem onBlock_run {c : Chain} {f : State → State} (hf : ∀ t, CoreRun t.core (f t).core) (s : State) :
    CoreRun s.core (onBlock c f s).core := by
  have heard : (s.modChain c fun r => { r with silence := 0 }).core = s.core := s.core_modChain_kept rfl
  unfold onBlock
  split
  · exact .refl
  · exact (run_of_eq heard).trans (hf _)

theorem countMalformed_core (c : Chain) (n : Nat) (s : State) : (countMalformed c n s).core = s.core :=
  countChain_core _ _ _

theorem uplinkBlock_run (x : CellId) (ok : Bool) {f : State → State} (hf : ∀ t, CoreRun t.core (f t).core) (s : State) :
    CoreRun s.core (uplinkBlock x ok f s).core := by
  refine onBlock_run (fun t => ?_) s
  split
  · exact run_of_eq (countMalformed_core _ _ _)
  · split
    · exact (modCell_run t).trans (hf _)
    · exact run_of_eq (countChain_core _ _ _)

theorem handTurn_run {c : Chain} {qs : List (CellId × StatusRecord)} (on : ∀ p ∈ qs, chainOf p.1 = c) {s : State}
    (running : (s.chain c).state = .running) : CoreRun s.core (handTurn c qs s).core := by
  have records : ∀ t : State, (t.chain c).state = .running →
      CoreRun t.core (qs.foldl (fun t p => settle (statusRecord p.1 p.2 t)) t).core := by
    induction qs with
    | nil => exact fun _ _ => .refl
    | cons p qs ih =>
      intro t running
      have here : (t.chain (chainOf p.1)).state = .running := by rwa [on p List.mem_cons_self]
      refine ((statusRecord_run p.2 here).trans (settle_run _).core).trans
        (ih (fun r hr => on r (List.mem_cons_of_mem _ hr)) _ ?_)
      rw [(settle_linkOnly _).chain, (statusRecord_linkOnly _ _ _).chain, running]
  exact ((records s running).trans
    (foldl_run (fun t x => (statusMiss_run x t).trans (settle_run _).core) _ _)).trans (cycleEnd_run _ _ _)

theorem standingRecords_on (c : Chain) (records : List StatusRecord) (seen : List CellId) :
    ∀ p ∈ standingRecords c records seen, chainOf p.1 = c := by
  induction records generalizing seen with
  | nil => simp [standingRecords]
  | cons q rest ih =>
    unfold standingRecords
    split
    · exact ih seen
    next x named =>
      split
      · exact ih seen
      · have on : chainOf x = c := mem_cellsOf.1 (List.mem_of_find?_eq_some named)
        simpa [on] using ih (x :: seen)

theorem rollcallTurn_run {c : Chain} {qs : List (CellId × StatusRecord)} (on : ∀ p ∈ qs, chainOf p.1 = c) {s : State}
    (rollcall : (s.chain c).state = .rollcall) : CoreRun s.core (rollcallTurn c qs s).core := by
  unfold rollcallTurn
  dsimp only
  generalize hj : s.modChain c _ = s1
  have judged : s1.core = s.core := by
    rw [← hj]
    exact s.core_modChain_kept rfl
  refine (run_of_eq judged).trans ?_
  split
  · have entered : CoreRun s1.core (enterRunning c s1).core := enterState_run _ _ _ (.inl rfl)
    refine entered.trans (handTurn_run on ?_)
    rw [enterRunning_eq, enterState_chain]
  · split
    · refine enterState_run _ _ _ (.inr (.inl ?_))
      rw [chain_state_congr judged, rollcall]
      simp
    · exact .refl

theorem takeTurn_run (c : Chain) (cycle : Byte) (records : List StatusRecord) (s : State) :
    CoreRun s.core (takeTurn c cycle records s).core := by
  have on := standingRecords_on c records []
  unfold takeTurn
  split
  · dsimp only
    generalize hs2 : countMalformed c _ _ = s2
    have counted : s2.core = s.core := by
      rw [← hs2, countMalformed_core, State.core_modChain_kept _ rfl]
    refine (run_of_eq counted).trans ?_
    split
    next running =>
      have unmissed : (s2.modChain c fun r => { r with missed := 0 }).core = s2.core := s2.core_modChain_kept rfl
      refine (run_of_eq unmissed).trans (handTurn_run on ?_)
      rw [chain_state_congr (unmissed.trans counted), running]
    next rollcall => exact rollcallTurn_run on ((chain_state_congr counted c).trans rollcall)
    all_goals exact .refl
  · exact run_of_eq (countChain_core _ _ _)

theorem takeAbort_run (x : CellId) (s : State) : CoreRun s.core (takeAbort x s).core := by
  have noted : (s.modChain (chainOf x) (ChainRec.noteAbort x)).core = s.core := s.core_modChain_kept rfl
  unfold takeAbort
  dsimp only
  split
  · exact (run_of_eq noted).trans (breakChain_run _ _ _ _)
  · exact (run_of_eq noted).trans (run_of_eq (State.core_modChain_kept _ rfl))
  all_goals exact run_of_eq noted

end Machine
end Sys2Proof
end

