-- ==== Sys2Proof/Proofs/StepRuns.lean ====
section
/-! SUPPORT. Every step of the part is a run of the steps of its core: the release of a crane, the requests, the restarts, and
then each command. -/

namespace Sys2Proof
namespace Machine

/-! ### The release of a crane (R71) -/

section Release

variable (k : CraneId)

theorem shadowRemove_core (x : CellId) (s : State) : (shadowRemove k x s).core =
    { s.core.setCrane k ((shadowRemove k x s).crane k).core with cells := (shadowRemove k x s).cell } := by
  have removed : ((s.modCell x fun r => { r with shadowCount := r.shadowCount - 1 }).modCrane k fun c =>
      { c with shadow := c.shadow.filter (· != x) }).core =
        { s.core.setCrane k ((shadowRemove k x s).crane k).core with
          cells := (s.modCell x fun r => { r with shadowCount := r.shadowCount - 1 }).cell } := by
    rw [State.core_modCrane_of (fun c => { c with shadow := c.shadow.filter (· != x) }), shadowRemove_crane]
    rfl
  have frame := congrArg State.core (coverageEvent_cellEvent x (fun t =>
    (t.modCell x fun r => { r with shadowCount := r.shadowCount - 1 }).modCrane k fun c =>
      { c with shadow := c.shadow.filter (· != x) }) s).frame
  refine frame.trans ?_
  exact congrArg (fun a : Core => { a with cells := (shadowRemove k x s).cell }) removed

theorem shadowRemove_cell (x : CellId) (s : State) (y : CellId) : (shadowRemove k x s).cell y =
    { s.cell y with
      shadowCount := (s.cell y).shadowCount - (if y = x then 1 else 0)
      changed := ((shadowRemove k x s).cell y).changed } := by
  have event := coverageEvent_cellEvent x (fun t =>
    (t.modCell x fun r => { r with shadowCount := r.shadowCount - 1 }).modCrane k fun c =>
      { c with shadow := c.shadow.filter (· != x) }) s
  have removed : ∀ z, ((s.modCell x fun r => { r with shadowCount := r.shadowCount - 1 }).modCrane k fun c =>
      { c with shadow := c.shadow.filter (· != x) }).cell z =
        (s.modCell x fun r => { r with shadowCount := r.shadowCount - 1 }).cell z := fun _ => rfl
  by_cases h : y = x
  · subst h
    rw [shadowRemove, event.cell, removed, State.cell_modCell, if_pos rfl]
  · rw [shadowRemove, event.others y h, removed, State.cell_modCell_ne _ h, if_neg h]
    rfl

/-- The cells that a crane shadows, given up at its release. -/
theorem shadowsReleased {l : List CellId} (once : l.Nodup) (s : State) :
    let t := l.foldl (fun t x => shadowRemove k x t) s
    t.core = { s.core.setCrane k (t.crane k).core with cells := t.cell }
      ∧ (∀ y, t.cell y =
        { s.cell y with
          shadowCount := (s.cell y).shadowCount - (if y ∈ l then 1 else 0), changed := (t.cell y).changed })
      ∧ (t.crane k).defn = (s.crane k).defn := by
  induction l generalizing s with
  | nil => exact ⟨by simp [← State.core_cranes, ← State.core_cells], fun y => by simp, rfl⟩
  | cons x l ih =>
    obtain ⟨apart, once'⟩ := List.nodup_cons.1 once
    obtain ⟨core, cells, defn⟩ := ih once' (shadowRemove k x s)
    refine ⟨?_, fun y => ?_, ?_⟩
    · rw [List.foldl_cons, core, shadowRemove_core]
      simp [Core.setCrane]
    · rw [List.foldl_cons, cells, shadowRemove_cell]
      by_cases h : y = x
      · subst h
        simp [apart]
      · simp [h]
    · rw [List.foldl_cons, defn, shadowRemove_crane]

theorem releaseClaim_cell (x : CellId) (n : Nat) (s : State) (y : CellId) : (releaseClaim x n s).cell y =
    { s.cell y with reserved := (s.cell y).reserved - (if x = y then n else 0) } := by
  rw [releaseClaim, State.cell_push]
  by_cases h : y = x
  · subst h
    rw [State.cell_modCell, if_pos rfl]
  · rw [State.cell_modCell_ne _ h, if_neg (Ne.symm h)]
    rfl

/-- A release of slots changes the cells alone. -/
theorem releaseClaim_cells (x : CellId) (n : Nat) (s : State) :
    (releaseClaim x n s).core = { s.core with cells := (releaseClaim x n s).cell } := by
  have cells : (releaseClaim x n s).cell = (s.core.release x n).cells := congrArg Core.cells (releaseClaim_core x n s)
  rw [releaseClaim_core, cells]
  rfl

/-- The release of a crane, the slots of its target given up. -/
def targetReleased (s : State) : State :=
  match (s.crane k).state, (s.crane k).target with
  | .handover, some t => withdrawCraneNotices k (releaseClaim t (s.crane k).reservation s)
  | _, _ => s

/-- The release of a crane, the slots of its target and of its anchor given up. -/
def slotsReleased (s : State) : State :=
  match (s.crane k).anchor with
  | some a => releaseClaim a (s.crane k).reservation (targetReleased k s)
  | none => targetReleased k s

theorem targetReleased_core (s : State) : (targetReleased k s).core = { s.core with cells := (targetReleased k s).cell }
    ∧ ∀ y, (targetReleased k s).cell y =
      { s.cell y with reserved := (s.cell y).reserved
          - (if (s.crane k).state = .handover ∧ (s.crane k).target = some y then (s.crane k).reservation else 0) } := by
  unfold targetReleased
  split
  next t state target =>
    have quiet := withdrawCraneNotices_core (releaseClaim t (s.crane k).reservation s) k
    have cells : (withdrawCraneNotices k (releaseClaim t (s.crane k).reservation s)).cell =
        (releaseClaim t (s.crane k).reservation s).cell := congrArg Core.cells quiet
    refine ⟨?_, fun y => ?_⟩
    · rw [quiet, cells, releaseClaim_cells]
    · rw [cells, releaseClaim_cell]
      simp [state, target]
  next h =>
    refine ⟨rfl, fun y => ?_⟩
    rw [if_neg fun e => h y e.1 e.2]
    rfl

theorem slotsReleased_core (s : State) : (slotsReleased k s).core = { s.core with cells := (slotsReleased k s).cell }
    ∧ ∀ y, (slotsReleased k s).cell y =
      { s.cell y with
        reserved := (s.cell y).reserved
          - (if (s.crane k).state = .handover ∧ (s.crane k).target = some y then (s.crane k).reservation else 0)
          - (if (s.crane k).anchor = some y then (s.crane k).reservation else 0) } := by
  obtain ⟨core, cells⟩ := targetReleased_core k s
  unfold slotsReleased
  split
  next a anchor =>
    refine ⟨?_, fun y => ?_⟩
    · rw [releaseClaim_cells, core]
    · rw [releaseClaim_cell, cells]
      simp [anchor]
  next anchor =>
    refine ⟨core, fun y => ?_⟩
    rw [cells]
    simp [anchor]

/-- The release of a crane, all that it claims given up. -/
def allReleased (s : State) : State :=
  (sortCells (s.crane k).shadow).foldl (fun t x => shadowRemove k x t) (slotsReleased k s)

theorem releaseCrane_core (s : State) : (releaseCrane k s).core =
    (allReleased k s).core.setCrane k { defn := ((allReleased k s).crane k).defn, state := .idle } :=
  State.core_modCrane_of (fun c => { defn := c.defn, state := .idle }) (allReleased k s) k
    (f := fun r => { (r.withdrawHolds fun _ => true).atRest with
      counters := { (r.withdrawHolds fun _ => true).counters with
        flushed := (r.withdrawHolds fun _ => true).counters.flushed + BitVec.ofNat 32 r.queue.length
        releases := (r.withdrawHolds fun _ => true).counters.releases + 1 } })

theorem releaseCrane_run (s : State) : CoreRun s.core (releaseCrane k s).core := by
  obtain ⟨core, cells⟩ := slotsReleased_core k s
  obtain ⟨core', cells', defn'⟩ := shadowsReleased k (sortCells_nodup (s.crane k).shadow) (slotsReleased k s)
  have defn : ((slotsReleased k s).crane k).defn = (s.crane k).defn := congrArg (fun a : Core => (a.cranes k).defn) core
  refine .trans (CoreStep.released (a := s.core) k (allReleased k s).cell ⟨fun x => ?_⟩).run (run_of_eq ?_)
  · refine (cells' x).trans ?_
    rw [cells]
    simp only [mem_sortCells]
    rfl
  · rw [releaseCrane_core]
    have defn'' : ((allReleased k s).crane k).defn = (s.crane k).defn := defn'.trans defn
    rw [defn'']
    refine (congrArg (fun a : Core => a.setCrane k _) core').trans ?_
    rw [core]
    simp only [Core.setCrane, Function.update_idem]
    rfl

end Release

/-! ### Requests and frames -/

/-- A reply that is a run: to the state that the request leaves, and in what follows the response. -/
def Reply.Runs (s : State) (r : Reply) : Prop :=
  CoreRun s.core r.st.core ∧ ∀ b t, CoreRun (State.core t) (r.after b t).core

section Replies

variable {s t : State}

theorem answer_runs (st : Status) : (answer st s).Runs s := ⟨.refl, fun _ _ => .refl⟩

theorem answerData_runs (d : ResponseData) : (answerData d s).Runs s := ⟨.refl, fun _ _ => .refl⟩

theorem answerLoad_runs (st : Status) (h : t.core = s.core) : (answerLoad st t).Runs s :=
  ⟨run_of_eq h, fun _ _ => .refl⟩

theorem withoutData_runs {f : State → Reply} (hf : (f s).Runs s) (q : Request) : (withoutData f q s).Runs s := by
  unfold withoutData
  split
  · exact hf
  · exact answer_runs _

theorem withArg_runs {α : Type} {f : α → State → Reply} (hf : ∀ a, (f a s).Runs s) (parse : List Byte → Option α)
    (q : Request) : (withArg parse f q s).Runs s := by
  unfold withArg
  split
  · exact answer_runs _
  · exact hf _

/-- An event whose effect is a run. -/
theorem take_run {f : State → State} (hf : CoreRun s.core (f s).core) (h : s.take f = .next t) : CoreRun s.core t.core :=
  take_keeps (P := fun u => CoreRun s.core u.core) (fun _ => hf) .refl h

/-- A request that is served is a run when its reply is. -/
theorem serve_run {k : RequestKind} {body : Request → State → Reply} (hbody : ∀ q u, (body q u).Runs u)
    (h : s.take (serve k body) = .next t) : CoreRun s.core t.core :=
  take_run (serve_keeps (P := fun u => CoreRun s.core u.core) (fun _ _ _ h => h)
    (fun q u run => ⟨run.trans (hbody q u).1, fun b v run' => run'.trans ((hbody q u).2 b v)⟩) k .refl) h

theorem receive_run (g : RxHeader) (ok : Bool) {f : State → State} (hf : ∀ u, CoreRun u.core (f u).core) (s : State) :
    CoreRun s.core (State.receive g ok f s).core := by
  unfold State.receive
  split
  · exact .refl
  · split
    · exact .refl
    · split
      · exact .refl
      · split
        · exact .refl
        · exact (run_of_eq (countPort_core s _)).trans (hf _)

theorem stationFrame_run (src : Addr) (subject : Byte) {f : CraneId → State → State}
    (hf : ∀ k u, CoreRun (State.core u) (f k u).core) (s : State) : CoreRun s.core (stationFrame src subject f s).core := by
  unfold stationFrame
  dsimp only
  split
  · split
    · exact .refl
    · split
      · exact (run_of_eq (State.core_modCrane_kept _ rfl)).trans (hf _ _)
      · exact run_of_eq (countCrane_core _ _ _)
  · exact .refl

theorem abandonLoad_core (cause : AbandonCause) (s : State) : (abandonLoad cause s).core = s.core := by
  unfold abandonLoad
  split <;> rfl

theorem abandonUnreported_core (cause : AbandonCause) (s : State) : (abandonUnreported cause s).core = s.core := by
  unfold abandonUnreported
  split
  · rw [modMgmt_core, abandonLoad_core]
  · rfl

theorem fromManager_core (q : Request) (s : State) : (fromManager q s).core = s.core := by
  have busy : ∀ u, (offerResponse q .busy false false .none u).1.core = u.core := by
    intro u
    unfold offerResponse
    dsimp only
    split <;> rfl
  unfold fromManager
  split
  · unfold takeRequest
    split
    · rfl
    · rw [busy, State.countMgmt_eq, modMgmt_core]
  · rfl

theorem linkComesUp_core (s : State) : s.linkComesUp.core = s.core := by
  unfold State.linkComesUp
  split <;> rfl

theorem discardFrame_core (h : RxHeader) (octets : List Byte) (s : State) : (State.discardFrame h octets s).core = s.core := by
  unfold State.discardFrame
  split
  · rfl
  · split <;> rfl

theorem linkLost_run (s : State) : CoreRun s.core (linkLost s).core := by
  unfold linkLost
  split
  · have lost := (drainLinkLoss_poolRun (s.modPort Port.loseLink)).core
    refine Relation.ReflTransGen.trans (b := (drainLinkLoss (s.modPort Port.loseLink)).core) lost (run_of_eq ?_)
    rw [refreshLeds_core, abandonUnreported_core]
  · exact .refl

theorem frameSent_run (s : State) : CoreRun s.core (frameSent s).core := by
  unfold frameSent
  split
  · exact .refl
  next c _ _ =>
    have report := (drainReport_poolRun (s.modPort fun p => p.countSent c)).core
    dsimp only
    split
    · exact report
    · exact .refl

theorem sealDueBatches_run (a b : Bool) (s : State) : CoreRun s.core (sealDueBatches a b s).core := by
  have sealed : ∀ u v, PoolRun v (sealByAge u v) := fun u v => (sealOpen_poolRun u .age v).trans (afterSeal_poolRun v _)
  unfold sealDueBatches
  split
  · have popped : s.popChoice.2.core = s.core := rfl
    split
    · exact (run_of_eq popped).trans ((sealed _ _).trans (sealed _ _)).core
    · exact (run_of_eq popped).trans ((sealed _ _).trans (sealed _ _)).core
  · exact (sealed _ _).core
  · exact (sealed _ _).core
  · exact .refl

theorem setParams_runs (q : Request) (s : State) : (setParams q s).Runs s := by
  unfold setParams
  split
  · exact ⟨.refl, fun _ _ => .refl⟩
  · exact ⟨.refl, fun _ t => (run_of_eq (modMgmt_core t _)).trans (sealDueBatches_run _ _ _)⟩

theorem loadBegin_runs (q : Request) (s : State) : (loadBegin q s).Runs s := by
  unfold loadBegin
  split
  · exact answerLoad_runs _ rfl
  · split
    · exact answerLoad_runs _ rfl
    · split
      · exact answerLoad_runs _ rfl
      · split
        · exact answerLoad_runs _ rfl
        · exact answerLoad_runs _ rfl

theorem refuseLoad_runs (st : Status) (s : State) : (refuseLoad st s).Runs s := answerLoad_runs _ (abandonLoad_core _ _)

theorem loadSegment_runs (q : Request) (s : State) : (loadSegment q s).Runs s := by
  unfold loadSegment
  split
  · exact answerLoad_runs _ rfl
  · split
    · exact answerLoad_runs _ rfl
    · split
      · exact refuseLoad_runs _ _
      · split
        · exact refuseLoad_runs _ _
        · exact answerLoad_runs _ rfl

theorem closeAndApply_runs (t : Transaction) (s : State) : (closeAndApply t s).Runs s := by
  unfold closeAndApply
  dsimp only
  split
  next => exact ⟨.refl, fun _ _ => .refl⟩
  next sound =>
    exact ⟨(applyLoad_run sound).trans (run_of_eq (modMgmt_core _ _)), fun _ u => (settle_run u).core⟩

theorem loadEnd_runs (q : Request) (s : State) : (loadEnd q s).Runs s := by
  unfold loadEnd
  split
  · split
    · exact answerLoad_runs _ rfl
    · split
      · exact refuseLoad_runs _ _
      · split
        · exact refuseLoad_runs _ _
        · split
          · exact refuseLoad_runs _ _
          · exact closeAndApply_runs _ _
  · exact answerLoad_runs _ rfl

theorem readCrane_runs (k : CraneId) (s : State) : (readCrane k s).Runs s := by
  unfold readCrane
  dsimp only
  split <;> exact answerData_runs _

theorem readGroup_runs (g : GroupId) (s : State) : (readGroup g s).Runs s := by
  unfold readGroup
  split <;> exact answerData_runs _

theorem clearCounters_run (a : Scope) (s : State) : CoreRun s.core (clearCounters s a).core := by
  cases a with
  | chain c => exact run_of_eq (countChain_core s c _)
  | coverage => exact foldl_run (fun t x => modCell_run t) _ (s.countCov fun _ => {})
  | crane k => exact run_of_eq ((show _ = (s.countCrane k fun _ => {}).core from rfl).trans (countCrane_core s k _))
  | reefer first n => exact foldl_run (fun t i => countReefer_run i _ t) _ s
  | _ => exact .refl

theorem readCounters_runs (a : Scope × Bool) (s : State) : (readCounters a s).Runs s := by
  refine ⟨?_, fun _ _ => .refl⟩
  unfold readCounters
  dsimp only
  split
  · exact clearCounters_run _ _
  · exact .refl

theorem clearExcursion_runs (i : ReeferId) (s : State) : (clearExcursionRequest i s).Runs s := by
  unfold clearExcursionRequest
  split
  · exact answer_runs _
  all_goals exact ⟨modReefer_run i _ s, fun _ _ => .refl⟩

theorem clearGroup_runs (g : GroupId) (s : State) : (clearGroupRequest g s).Runs s := by
  unfold clearGroupRequest
  split
  · exact answer_runs _
  · exact ⟨clearGroup_run g s, fun _ _ => .refl⟩

theorem releaseRequest_runs (k : CraneId) (s : State) : (releaseRequest k s).Runs s := by
  unfold releaseRequest
  split
  · exact answer_runs _
  · exact answer_runs _
  all_goals exact ⟨releaseCrane_run k s, fun _ t => (settle_run t).core⟩

theorem barRequest_runs (b : Bool) (x : CellId) (s : State) : (barRequest b x s).Runs s :=
  ⟨setBarred_run x b s, fun _ t => (settle_run t).core⟩

theorem enableRequest_runs (c : Chain) (s : State) : (enableRequest c s).Runs s := by
  unfold enableRequest
  split
  next state => exact ⟨enterState_run _ _ _ (.inr (.inl (by simp [state]))), fun _ _ => .refl⟩
  all_goals exact answer_runs _

/-! ### Restarts (R167) -/

theorem restartTraffic_core (taken : Bool) (s : State) : (restartTraffic taken s).core = s.core.restarted (reloadOf s) := by
  have cells : (restartTraffic taken s).cell = fun x => (s.cell x).restartTraffic := by
    funext x
    simp [restartTraffic, State.cell, Coverage.restartTraffic]
  have cranes : ∀ k, (restartTraffic taken s).crane k = (s.crane k).restartTraffic := by
    intro k
    simp [restartTraffic, State.crane]
  have rest : ∀ c : Crane, c.restartTraffic.core = c.core.restartTraffic := by
    intro c
    unfold Crane.restartTraffic
    cases h : c.defn <;> simp [Crane.core, h]
  unfold State.core Core.restarted
  simp only [cells, cranes, rest, Core.mk.injEq, true_and]
  refine ⟨?_, rfl, rfl, rfl⟩
  funext c
  cases c <;> rfl

theorem restartAll_core (taken : Bool) (s : State) : (restartAll taken s).core = (State.powerOn s.mgmt.strap).core := by
  unfold State.core
  simp only [Core.mk.injEq]
  refine ⟨rfl, rfl, ?_, rfl, rfl, rfl⟩
  funext c
  cases c <;> rfl

end Replies

/-! ### Every command -/

theorem tick_core (s : State) : s.tick.core = s.core := by
  unfold State.tick
  split
  · rfl
  · have cranes : ∀ k, (Crane.core (tabMap (fun c => { c with supervision := tickTimer c.supervision }) s.clu.cranes)[k]) =
        (s.crane k).core := by
      intro k
      simp [State.crane, Crane.core]
    unfold State.core
    simp only [Core.mk.injEq]
    refine ⟨rfl, funext cranes, ?_, rfl, rfl, rfl⟩
    funext c
    cases c <;> rfl

/-- Every command is a run of the steps of the part. -/
theorem exec_run (i : Instr) {s t : State} (h : exec i s = .next t) : CoreRun s.core t.core := by
  cases i with
  | resetNAssert => cases h; exact (CoreStep.fresh s.mgmt.strap).run
  | resetNRelease straps => cases h; exact (CoreStep.fresh straps).run
  | linkUp => exact take_run (run_of_eq (linkComesUp_core s)) h
  | linkLoss => exact take_run (linkLost_run s) h
  | frameSent => exact take_run (frameSent_run s) h
  | uplinkFrameDiscarded g octets => exact take_run (run_of_eq (discardFrame_core g octets s)) h
  | craneDown g subject payload =>
    exact take_run (receive_run _ _ (stationFrame_run _ _ fun k u => run_of_eq (takeCraneDown_core payload k u)) s) h
  | craneResume g subject =>
    exact take_run (receive_run _ _ (stationFrame_run _ _ fun k u => (takeResume_run k u).core) s) h
  | drainOpen g tag credit =>
    exact take_run (receive_run _ _ (fun u => (fromCollector_poolRun _ (takeOpen_poolRun tag credit) u).core) s) h
  | drainCheck g tag index crc =>
    exact take_run
      (receive_run _ _ (fun u => (fromCollector_poolRun _ (ofOpenDrain_poolRun tag (takeCheck_poolRun _ crc)) u).core) s) h
  | drainPause g tag =>
    exact take_run
      (receive_run _ _ (fun u => (fromCollector_poolRun _ (ofOpenDrain_poolRun tag takePause_poolRun) u).core) s) h
  | drainResume g tag =>
    exact take_run
      (receive_run _ _ (fun u => (fromCollector_poolRun _ (ofOpenDrain_poolRun tag takeDrainResume_poolRun) u).core) s) h
  | drainStop g tag =>
    exact take_run
      (receive_run _ _ (fun u => (fromCollector_poolRun _ (ofOpenDrain_poolRun tag takeStop_poolRun) u).core) s) h
  | mgmtRequest g id command data => exact take_run (receive_run _ _ (fun u => run_of_eq (fromManager_core _ u)) s) h
  | generalFrame g unit payload =>
    exact take_run (receive_run _ _ (fun u => run_of_eq (takeGeneralDown_core unit payload u)) s) h
  | cycleTimerExpiry c => exact take_run (cycleExpiry_run c s) h
  | backoffTimerExpiry c => exact take_run (backoffExpiry_run c s) h
  | stableTimerExpiry c => exact take_run (run_of_eq (stableExpiry_core c s)) h
  | signalLoss c => exact take_run (lineSilent_run c s) h
  | fillBlock c => exact take_run (onBlock_run (fun _ => .refl) s) h
  | openerReturned c => exact take_run (onBlock_run (fun _ => .refl) s) h
  | undeliveredDownlink x => exact take_run (onBlock_run (fun t => run_of_eq (countChain_core t _ _)) s) h
  | craneUp x radio seq payload =>
    exact take_run (uplinkBlock_run x _ (fun t => (takeCraneUp_run x radio seq payload t).core) s) h
  | reeferReport x r => exact take_run (uplinkBlock_run x _ (takeReport_run x r) s) h
  | generalUp x unit payload => exact take_run (uplinkBlock_run x _ (takeGeneralUp_run x unit payload) s) h
  | turnMarker c cycle records =>
    refine take_run (onBlock_run (fun t => ?_) s) h
    split
    · exact takeTurn_run c cycle records t
    · exact run_of_eq (countMalformed_core c 1 t)
  | abortMarker x => exact take_run (onBlock_run (takeAbort_run x) s) h
  | malformedBlock c b =>
    refine take_run (onBlock_run (fun t => ?_) s) h
    split
    · exact run_of_eq (countMalformed_core c 1 t)
    · exact .refl
  | supervisionTimerExpiry k => exact take_run (superviseExpiry_run k s).core h
  | handoverCountdownExpiry k =>
    exact take_run (f := fun u => settle (timeoutIfDue k u)) (LinkRun.core ((timeoutIfDue_run k s).link.trans (settle_run _))) h
  | failedTargetBarExpiry k => exact take_run (run_of_eq (barEndIfDue_core s k)) h
  | reportTick => exact take_run (reportTick_run s) h
  | missCharge i => exact take_run (missIfDue_run i s) h
  | generalAgeOut j => exact take_run (ageOutIfDue_run j s) h
  | sealTimeExpiry u =>
    exact take_run (f := fun v => afterSeal v (sealOpen u .age v))
      ((sealOpen_poolRun u .age s).trans (afterSeal_poolRun s _)).core h
  | checkTimerExpiry index => exact take_run (checkExpiry_poolRun index s).core h
  | pauseTimerExpiry => exact take_run (pauseExpiry_poolRun s).core h
  | transactionTimerExpiry => exact take_run (run_of_eq (abandonUnreported_core .timeout s)) h
  | identify => exact serve_run (fun q _ => withoutData_runs (answerData_runs _) q) h
  | readParams => exact serve_run (fun q _ => withoutData_runs (answerData_runs _) q) h
  | setParams => exact serve_run setParams_runs h
  | loadBegin => exact serve_run loadBegin_runs h
  | loadSegment => exact serve_run loadSegment_runs h
  | loadEnd => exact serve_run loadEnd_runs h
  | readCrane => exact serve_run (fun q u => withArg_runs (fun k => readCrane_runs k u) _ q) h
  | readCell => exact serve_run (fun q _ => withArg_runs (fun _ => answerData_runs _) _ q) h
  | readChain => exact serve_run (fun q _ => withArg_runs (fun _ => answerData_runs _) _ q) h
  | readReefer => exact serve_run (fun q _ => withArg_runs (fun _ => answerData_runs _) _ q) h
  | readGroup => exact serve_run (fun q u => withArg_runs (fun g => readGroup_runs g u) _ q) h
  | readBatches => exact serve_run (fun q _ => withoutData_runs (answerData_runs _) q) h
  | readDrain => exact serve_run (fun q _ => withoutData_runs (answerData_runs _) q) h
  | readCounters => exact serve_run (fun q u => withArg_runs (fun a => readCounters_runs a u) _ q) h
  | clearExcursion => exact serve_run (fun q u => withArg_runs (fun i => clearExcursion_runs i u) _ q) h
  | clearGroup => exact serve_run (fun q u => withArg_runs (fun g => clearGroup_runs g u) _ q) h
  | releaseCrane => exact serve_run (fun q u => withArg_runs (fun k => releaseRequest_runs k u) _ q) h
  | barCell => exact serve_run (fun q u => withArg_runs (fun x => barRequest_runs true x u) _ q) h
  | unbarCell => exact serve_run (fun q u => withArg_runs (fun x => barRequest_runs false x u) _ q) h
  | chainEnable => exact serve_run (fun q u => withArg_runs (fun c => enableRequest_runs c u) _ q) h
  | chainDisable =>
    exact serve_run (fun q u => withArg_runs (fun c => ⟨disableChain_run c u, fun _ _ => .refl⟩) _ q) h
  | restartTraffic =>
    refine serve_run (fun q u => withoutData_runs ⟨.refl, fun b t => ?_⟩ q) h
    rw [restartTraffic_core]
    exact (CoreStep.restarted _).run
  | restartAll =>
    refine serve_run (fun q u => withoutData_runs ⟨.refl, fun b t => ?_⟩ q) h
    rw [restartAll_core]
    exact (CoreStep.fresh _).run
  | unknownRequest =>
    exact take_run (takeUnknown_keeps (P := fun u => CoreRun s.core u.core) (fun _ _ _ h => h) .refl) h
  | rollcallLedBlink c =>
    refine take_run (run_of_eq ?_) h
    unfold rollcallBlink
    split
    · cases c <;> rfl
    · rfl

/-- Every step is a run of the steps of the part. -/
theorem step_run {s t : State} (h : step s = .next t) : CoreRun s.core t.core := by
  unfold step at h
  split at h
  next =>
    cases h
    exact run_of_eq (tick_core s)
  next c rest _ => exact exec_run c (s := { s with pending := rest }) h

/-- A law of the core that every step of the core keeps is kept by every step of the part. -/
theorem step_keeps_of_coreStep {P : Core → Prop} (keeps : ∀ a b, P a → CoreStep a b → P b) {s t : State} (h : P s.core)
    (hs : step s = .next t) : P t.core := by
  have run := step_run hs
  generalize s.core = a at h run
  generalize t.core = b at run
  induction run with
  | refl => exact h
  | tail _ last ih => exact keeps _ _ ih last

end Machine
end Sys2Proof
end

