-- ==== Sys2Proof/Proofs/TableLaws.lean ====
section
/-! PROOF of O8: the keyed tables stay canonical (log 7), and general records stay matched with their entries (R40). -/

namespace Sys2Proof
namespace Machine

/-! ### General records matched with their entries (R40) -/

/-- Each general record in use has its GENERAL entry, and each GENERAL entry its record. -/
def Matched (dir : List (Nat × DirTarget)) (gen : List (Nat × GeneralRec)) : Prop :=
  ∀ (n : Nat) (j : GeneralId),
    sparseFind dir n = some (.general j) ↔ ∃ r, sparseFind gen j.val = some r ∧ r.unit.toNat = n

theorem generalSound_iff (s : State) : GeneralSound s ↔ Matched s.core.directory s.core.general := Iff.rfl

section Matched

variable {dir : List (Nat × DirTarget)} {gen : List (Nat × GeneralRec)}

theorem matched_nil (sorted : sparseSorted dir) : Matched (dir.filter fun e => e.2.defined) [] := by
  intro n j
  rw [sparseFind_filter _ sorted]
  constructor
  · intro h
    obtain ⟨_, defined⟩ := Option.filter_eq_some_iff.1 h
    simp [DirTarget.defined] at defined
  · rintro ⟨r, found, _⟩
    simp [sparseFind] at found

/-- An entry that the law fixes: one of a record in use. -/
theorem Matched.entry (h : Matched dir gen) {j : GeneralId} {r : GeneralRec} (found : sparseFind gen j.val = some r) :
    sparseFind dir r.unit.toNat = some (.general j) := (h _ _).2 ⟨r, found, rfl⟩

theorem Matched.forgot (h : Matched dir gen) {n : Nat} {t : DirTarget} (found : sparseFind dir n = some t)
    (defined : t.defined = true) : Matched (sparseErase dir n) gen := by
  intro m i
  rw [sparseFind_erase]
  split
  next e =>
    subst e
    refine ⟨fun h => by simp at h, fun h' => ?_⟩
    cases found.symm.trans ((h m i).2 h')
    simp [DirTarget.defined] at defined
  next => exact h m i

theorem Matched.removed (h : Matched dir gen) {j : GeneralId} {r : GeneralRec} (found : sparseFind gen j.val = some r) :
    Matched (sparseErase dir r.unit.toNat) (sparseErase gen j.val) := by
  intro m i
  rw [sparseFind_erase, sparseFind_erase]
  by_cases apart : i = j
  · subst apart
    simp only [if_true]
    refine ⟨fun h' => ?_, fun ⟨_, absent, _⟩ => by simp at absent⟩
    split at h'
    · simp at h'
    next other =>
      obtain ⟨q, held, unit⟩ := (h m i).1 h'
      cases found.symm.trans held
      exact absurd unit.symm other
  · rw [if_neg fun e => apart (Fin.ext e)]
    split
    next e =>
      refine ⟨fun h' => by simp at h', fun h' => ?_⟩
      have entry := (h m i).2 h'
      rw [e, h.entry found] at entry
      exact absurd (DirTarget.general.inj (Option.some.inj entry)).symm apart
    next => exact h m i

theorem Matched.defined (h : Matched dir gen) {n : Nat} {t : DirTarget} (target : t.defined = true)
    (free : ∀ j, sparseFind dir n = some (.general j) → sparseFind gen j.val = none) :
    Matched (sparseInsert dir n t) gen := by
  intro m i
  rw [sparseFind_insert]
  split
  next e =>
    subst e
    refine ⟨fun h' => ?_, fun h' => ?_⟩
    · cases Option.some.inj h'
      simp [DirTarget.defined] at target
    · obtain ⟨r, found, unit⟩ := h'
      have absent := free i ((h m i).2 ⟨r, found, unit⟩)
      rw [found] at absent
      simp at absent
  next => exact h m i

theorem Matched.evicted (h : Matched dir gen) {n : Nat} {t : DirTarget} (target : t.defined = true) {j : GeneralId}
    {r : GeneralRec} (held : sparseFind dir n = some (.general j)) (found : sparseFind gen j.val = some r) :
    Matched (sparseInsert (sparseErase dir r.unit.toNat) n t) (sparseErase gen j.val) := by
  obtain ⟨q, found', unit⟩ := (h n j).1 held
  cases found.symm.trans found'
  refine (h.removed found).defined target fun i entry => ?_
  rw [sparseFind_erase, if_pos unit.symm] at entry
  simp at entry

theorem Matched.renewed (h : Matched dir gen) {j : GeneralId} {r : GeneralRec}
    (known : sparseFind dir r.unit.toNat = some (.general j) ∨ ∃ q, sparseFind gen j.val = some q ∧ q.unit = r.unit) :
    Matched dir (sparseInsert gen j.val r) := by
  have entry : sparseFind dir r.unit.toNat = some (.general j) := by
    obtain known | ⟨q, found, unit⟩ := known
    · exact known
    · rw [← unit]
      exact h.entry found
  intro m i
  rw [sparseFind_insert]
  split
  next e =>
    obtain rfl : i = j := Fin.ext e
    obtain ⟨q, found, unit⟩ := (h _ _).1 entry
    rw [h m i]
    simp [found, unit]
  next => exact h m i

theorem Matched.learned (h : Matched dir gen) (sorted : sparseSorted gen) {j : GeneralId} {r : GeneralRec}
    (unknown : sparseFind dir r.unit.toNat = none) (free : j.val = firstFree gen 0) :
    Matched (sparseInsert dir r.unit.toNat (.general j)) (sparseInsert gen j.val r) := by
  have absent : sparseFind gen j.val = none := by
    rw [free]
    exact (sparseFind_firstFree sorted 0 fun _ _ => Nat.zero_le _).1
  intro m i
  rw [sparseFind_insert, sparseFind_insert]
  by_cases same : i = j
  · subst same
    have none_else : ¬sparseFind dir m = some (.general i) := fun entry => by
      obtain ⟨q, found, _⟩ := (h m i).1 entry
      rw [absent] at found
      simp at found
    by_cases e : m = r.unit.toNat
    · simp [e]
    · simp [e, none_else, Ne.symm e]
  · have apart : i.val ≠ j.val := fun e => same (Fin.ext e)
    rw [if_neg apart]
    split
    next e =>
      refine ⟨fun entry => absurd (DirTarget.general.inj (Option.some.inj entry)).symm same, fun found => ?_⟩
      have entry := (h m i).2 found
      rw [e, unknown] at entry
      simp at entry
    next => exact h m i

end Matched

/-! ### Canonical tables (log 7) -/

/-- The tables of a core are in rising order, list numbers of their tables alone, and list no VACANT reefer. -/
structure Core.Tabled (a : Core) : Prop where
  directory : sparseSorted a.directory
  general : sparseSorted a.general
  generalIndex : ∀ e ∈ a.general, e.1 < 1024
  reefers : sparseSorted a.reefers
  reeferIndex : ∀ e ∈ a.reefers, e.1 < 4096
  reeferListed : ∀ e ∈ a.reefers, e.2 ≠ Reefer.vacant

theorem tablesSound_iff (s : State) : TablesSound s ↔ s.core.Tabled :=
  ⟨fun ⟨a, b, c, d, e, f⟩ => ⟨a, b, c, d, e, f⟩, fun ⟨a, b, c, d, e, f⟩ => ⟨a, b, c, d, e, f⟩⟩

namespace Core

variable {a b : Core}

theorem Tabled.of_eq (h : a.Tabled) (directory : b.directory = a.directory) (general : b.general = a.general)
    (reefers : b.reefers = a.reefers) : b.Tabled where
  directory := directory ▸ h.directory
  general := general ▸ h.general
  generalIndex := general ▸ h.generalIndex
  reefers := reefers ▸ h.reefers
  reeferIndex := reefers ▸ h.reeferIndex
  reeferListed := reefers ▸ h.reeferListed

theorem Tabled.setReefer (h : a.Tabled) (i : ReeferId) (r : Reefer) : (a.setReefer i r).Tabled := by
  unfold Core.setReefer
  split
  next =>
    exact { h with
      reefers := sparseSorted_erase h.reefers _
      reeferIndex := fun e he => h.reeferIndex e (mem_sparseErase he)
      reeferListed := fun e he => h.reeferListed e (mem_sparseErase he) }
  next listed =>
    refine { h with
      reefers := sparseSorted_insert h.reefers _ _, reeferIndex := fun e he => ?_, reeferListed := fun e he => ?_ }
    · obtain rfl | he := mem_sparseInsert he
      · exact i.isLt
      · exact h.reeferIndex e he
    · obtain rfl | he := mem_sparseInsert he
      · exact listed
      · exact h.reeferListed e he

theorem generalIndex_insert (h : ∀ e ∈ a.general, e.1 < 1024) (j : GeneralId) (r : GeneralRec) :
    ∀ e ∈ sparseInsert a.general j.val r, e.1 < 1024 := by
  intro e he
  obtain rfl | he := mem_sparseInsert he
  · exact j.isLt
  · exact h e he

theorem Tabled.tableStep (h : a.Tabled) (step : TableStep a b) : b.Tabled := by
  have erased : ∀ i, ∀ e ∈ sparseErase a.general i, e.1 < 1024 := fun _ e he => h.generalIndex e (mem_sparseErase he)
  cases step with
  | forgot n t _ _ => exact { h with directory := sparseSorted_erase h.directory _ }
  | removed j r _ =>
    exact { h with
      directory := sparseSorted_erase h.directory _, general := sparseSorted_erase h.general _, generalIndex := erased _ }
  | defined n t _ _ => exact { h with directory := sparseSorted_insert h.directory _ _ }
  | evicted n t _ j r _ _ =>
    exact { h with
      directory := sparseSorted_insert (sparseSorted_erase h.directory _) _ _
      general := sparseSorted_erase h.general _
      generalIndex := erased _ }
  | renewed j r _ =>
    exact { h with general := sparseSorted_insert h.general _ _, generalIndex := generalIndex_insert h.generalIndex j r }
  | learned j r _ _ =>
    exact { h with
      directory := sparseSorted_insert h.directory _ _
      general := sparseSorted_insert h.general _ _
      generalIndex := generalIndex_insert h.generalIndex j r }

/-- A defined reefer stays defined at a restart, and so is listed. -/
theorem restartTraffic_listed (reload : GroupId → Nat) {r : Reefer} (h : r.defn.isSome) :
    r.restartTraffic reload ≠ Reefer.vacant := by
  unfold Reefer.restartTraffic
  intro e
  cases defn : r.defn with
  | none => simp [defn] at h
  | some d =>
    rw [defn] at e
    have := congrArg Reefer.defn e
    simp [Reefer.vacant] at this

theorem Tabled.restarted (h : a.Tabled) (reload : GroupId → Nat) : (a.restarted reload).Tabled where
  directory := List.Pairwise.filter _ h.directory
  general := List.Pairwise.nil
  generalIndex := by simp [Core.restarted]
  reefers := List.Pairwise.map _ (fun _ _ lt => lt) (List.Pairwise.filter _ h.reefers)
  reeferIndex := by
    intro e he
    obtain ⟨d, hd, rfl⟩ := List.mem_map.1 he
    exact h.reeferIndex d (List.mem_filter.1 hd).1
  reeferListed := by
    intro e he
    obtain ⟨d, hd, rfl⟩ := List.mem_map.1 he
    exact restartTraffic_listed reload (List.mem_filter.1 hd).2

theorem fresh_tabled (strap : Byte) : (State.powerOn strap).core.Tabled where
  directory := List.Pairwise.nil
  general := List.Pairwise.nil
  generalIndex := by intro e he; cases he
  reefers := List.Pairwise.nil
  reeferIndex := by intro e he; cases he
  reeferListed := by intro e he; cases he

/-- No step breaks the canonical form of the tables. -/
theorem Tabled.step (h : a.Tabled) (step : CoreStep a b) : b.Tabled := by
  cases step with
  | link h' => exact h.of_eq h'.kept.directory h'.kept.general h'.kept.reefers
  | reefer i r => exact h.setReefer i r
  | table h' => exact h.tableStep h'
  | restarted reload => exact h.restarted reload
  | fresh strap => exact fresh_tabled strap
  | noted | status | missed | departed | entered | released | emptied | redefined | cellsLoaded => exact h.of_eq rfl rfl rfl

end Core

/-- No step of a directory or a general record breaks the match. -/
theorem Matched.tableStep {a b : Core} (h : Matched a.directory a.general) (sorted : sparseSorted a.general)
    (step : TableStep a b) : Matched b.directory b.general := by
  cases step with
  | forgot n t found defined => exact h.forgot found defined
  | removed j r found => exact h.removed found
  | defined n t target free => exact h.defined target free
  | evicted n t target j r held found => exact h.evicted target held found
  | renewed j r known => exact h.renewed known
  | learned j r unknown free => exact h.learned sorted unknown free

/-- No step breaks the match while the tables are canonical. -/
theorem Matched.step {a b : Core} (h : Matched a.directory a.general) (tabled : a.Tabled) (step : CoreStep a b) :
    Matched b.directory b.general := by
  cases step with
  | link h' => rwa [h'.kept.directory, h'.kept.general]
  | table h' => exact h.tableStep tabled.general h'
  | restarted reload => exact matched_nil tabled.directory
  | fresh strap => exact matched_nil (dir := []) List.Pairwise.nil
  | reefer i r => exact h
  | noted | status | missed | departed | entered | released | emptied | redefined | cellsLoaded => exact h

end Machine

open Machine

/-- Settles O8: the two laws are carried along the steps of the core, the match of general records with their entries
together with the rising order that makes the first free record free. -/
theorem stepKeepsTheTablesSound : Obligations.StepKeepsTheTablesSound := by
  have tabled : ∀ s t : State, TablesSound s → step s = .next t → TablesSound t := fun s t h hs =>
    (tablesSound_iff t).2 (step_keeps_of_coreStep (P := Core.Tabled) (fun _ _ h => h.step) ((tablesSound_iff s).1 h) hs)
  refine ⟨tabled, fun s t h matched hs => ?_⟩
  have both : t.core.Tabled ∧ Matched t.core.directory t.core.general :=
    step_keeps_of_coreStep (P := fun a => a.Tabled ∧ Matched a.directory a.general)
      (fun _ _ h step => ⟨h.1.step step, h.2.step h.1 step⟩) ⟨(tablesSound_iff s).1 h, (generalSound_iff s).1 matched⟩ hs
  exact (generalSound_iff t).2 both.2

end Sys2Proof
end

