-- ==== Sys2Proof/Proofs/CellLaws.lean ====
section
/-! PROOF of O11 and O34: how a status record moves the record of a cell (R26-R28), and the laws of the cell records (R23,
R25-R29), of positions and of budgets (R25) that no step breaks. -/

namespace Sys2Proof
namespace Machine

/-! ### A status record of a cell (R26-R28) -/

namespace Cell

/-- A cell with what a record reports, and its misses at 0. -/
def heard (q : StatusRecord) (r : Cell) : Cell := { r with quality := q.quality, backlog := q.backlog, missCount := 0 }

/-- A cell at a progress count. -/
def atProgress (n : Nat) (r : Cell) : Cell := { r with progress := n }

theorem rests_of_not_joined {r : Cell} (h : ¬(r.unit = .joining ∨ r.unit = .up ∨ r.unit = .fading)) :
    r.unit = .absent ∨ r.unit = .down := by
  cases unit : r.unit <;> simp [unit] at h ⊢

section TakeStatus

variable (p : Params) (q : StatusRecord) {r : Cell}

theorem takeStatus_absent (h : r.unit = .absent) :
    r.takeStatus p q = if q.join = true ∧ q.fault = false then (r.heard q).enter .joining else r.heard q := by
  simp [takeStatus, h, heard]

theorem takeStatus_down (h : r.unit = .down) :
    r.takeStatus p q = if q.fault = true then r.heard q else (r.heard q).enter .joining := by
  simp [takeStatus, h, heard]

theorem takeStatus_fault (h : r.unit = .joining ∨ r.unit = .up ∨ r.unit = .fading) (fault : q.fault = true) :
    r.takeStatus p q = (r.heard q).enterDown := by
  obtain h | h | h := h <;> simp [takeStatus, h, fault, heard]

theorem takeStatus_joining (h : r.unit = .joining) (good : q.fault = false) :
    r.takeStatus p q = if 3 ≤ r.progress + 1 then (r.heard q).enter .up else (r.heard q).atProgress (r.progress + 1) := by
  simp [takeStatus, advance, h, good, heard, atProgress, Config.joinCycles]

theorem takeStatus_up (h : r.unit = .up) (good : q.fault = false) :
    r.takeStatus p q =
      if p.fadeLevel ≤ q.quality.val then (r.heard q).atProgress 0
      else if 8 ≤ r.progress + 1 then (r.heard q).enter .fading else (r.heard q).atProgress (r.progress + 1) := by
  by_cases low : q.quality.val < p.fadeLevel
  · simp [takeStatus, advance, h, good, heard, atProgress, Config.fadeCycles, low, Nat.not_le.2 low]
  · simp [takeStatus, advance, h, good, heard, atProgress, low, Nat.not_lt.1 low]

theorem takeStatus_fading (h : r.unit = .fading) (good : q.fault = false) :
    r.takeStatus p q =
      if q.quality.val < p.recoverLevel then (r.heard q).atProgress 0
      else if 16 ≤ r.progress + 1 then (r.heard q).enter .up else (r.heard q).atProgress (r.progress + 1) := by
  by_cases low : q.quality.val < p.recoverLevel
  · simp [takeStatus, advance, h, good, heard, atProgress, low, Nat.not_le.2 low]
  · simp [takeStatus, advance, h, good, heard, atProgress, Config.recoverCycles, low, Nat.not_lt.1 low]

end TakeStatus

/-! ### What a change of the unit state leaves of a cell -/

/-- A status record leaves the definition, the claims and the flags of a cell. -/
theorem takeStatus_kept (p : Params) (q : StatusRecord) (r : Cell) : r.takeStatus p q =
    { r with
      unit := (r.takeStatus p q).unit, quality := (r.takeStatus p q).quality, backlog := (r.takeStatus p q).backlog
      progress := (r.takeStatus p q).progress, missCount := (r.takeStatus p q).missCount } := by
  unfold takeStatus advance
  cases r.unit <;> simp only <;> split_ifs <;> rfl

/-- A miss leaves the definition, the claims and the flags of a cell. -/
theorem takeMiss_kept (p : Params) (r : Cell) : r.takeMiss p =
    { r with
      unit := (r.takeMiss p).unit, progress := (r.takeMiss p).progress, missCount := (r.takeMiss p).missCount
      statusMisses := (r.takeMiss p).statusMisses } := by
  by_cases joined : r.unit = .joining ∨ r.unit = .up ∨ r.unit = .fading
  · rw [takeMiss_charged joined]
    split <;> rfl
  · rw [takeMiss_spared (rests_of_not_joined joined)]

/-- The departure of its chain leaves the definition, the claims and the flags of a cell. -/
theorem depart_kept (r : Cell) : r.depart =
    { r with unit := r.depart.unit, progress := r.depart.progress, missCount := r.depart.missCount } := by
  unfold depart
  cases r.unit <;> rfl

/-- A definition leaves the claims and the flags of a cell. -/
theorem define_kept (fitted : Bool) (budget : Nat) (position : Fin 8) (r : Cell) : r.define fitted budget position =
    { r with
      fitted := fitted, budget := budget, position := position, unit := (r.define fitted budget position).unit
      progress := (r.define fitted budget position).progress, missCount := (r.define fitted budget position).missCount
      quality := (r.define fitted budget position).quality, backlog := (r.define fitted budget position).backlog } := by
  unfold define
  dsimp only
  split <;> rfl

end Cell

/-! ### The law of a cell record (R25-R28) -/

namespace CellSound

variable {r : Cell}

/-- A cell that has joined is fitted. -/
theorem fitted_of_unit (h : CellSound r) (joined : r.unit ≠ .absent) : r.fitted = true := by
  by_contra unfitted
  exact joined (h.unfitted (Bool.eq_false_iff.2 unfitted)).1

theorem heard (h : CellSound r) (fitted : r.fitted = true) (q : StatusRecord) : CellSound (r.heard q) where
  unfitted unfitted := by cases fitted.symm.trans unfitted
  quiet rests := ⟨(h.quiet rests).1, rfl⟩
  joining := h.joining
  up := h.up
  fading := h.fading
  budget := h.budget

theorem enter (h : CellSound r) (fitted : r.fitted = true) {st : UnitState} (joined : st ≠ .absent ∧ st ≠ .down) :
    CellSound (r.enter st) where
  unfitted unfitted := by cases fitted.symm.trans unfitted
  quiet rests := absurd rests (by simp [Cell.enter, joined])
  joining _ := Nat.zero_lt_succ _
  up _ := Nat.zero_lt_succ _
  fading _ := Nat.zero_lt_succ _
  budget := h.budget

theorem enterDown (h : CellSound r) (fitted : r.fitted = true) : CellSound r.enterDown where
  unfitted unfitted := by cases fitted.symm.trans unfitted
  quiet _ := ⟨rfl, rfl⟩
  joining _ := Nat.zero_lt_succ _
  up _ := Nat.zero_lt_succ _
  fading _ := Nat.zero_lt_succ _
  budget := h.budget

theorem atProgress (h : CellSound r) (fitted : r.fitted = true) {n : Nat} (joined : r.unit ≠ .absent ∧ r.unit ≠ .down)
    (joining : r.unit = .joining → n < 3) (up : r.unit = .up → n < 8) (fading : r.unit = .fading → n < 16) :
    CellSound (r.atProgress n) where
  unfitted unfitted := by cases fitted.symm.trans unfitted
  quiet rests := absurd rests (by simp [Cell.atProgress, joined])
  joining := joining
  up := up
  fading := fading
  budget := h.budget

/-- A record taken for a fitted cell leaves its law. -/
theorem takeStatus (h : CellSound r) (fitted : r.fitted = true) (p : Params) (q : StatusRecord) :
    CellSound (r.takeStatus p q) := by
  have heard := h.heard fitted q
  have enter := fun {st : UnitState} => heard.enter fitted (st := st)
  cases unit : r.unit with
  | absent =>
    rw [Cell.takeStatus_absent p q unit]
    split
    · exact enter (by decide)
    · exact heard
  | down =>
    rw [Cell.takeStatus_down p q unit]
    split
    · exact heard
    · exact enter (by decide)
  | joining =>
    cases fault : q.fault with
    | true => exact Cell.takeStatus_fault p q (.inl unit) fault ▸ heard.enterDown fitted
    | false =>
      rw [Cell.takeStatus_joining p q unit fault]
      split
      · exact enter (by decide)
      · exact heard.atProgress fitted (by simp [Cell.heard, unit]) (by omega) (by simp [Cell.heard, unit])
          (by simp [Cell.heard, unit])
  | up =>
    have atProgress := fun {n : Nat} (lt : n < 8) => heard.atProgress fitted (n := n) (by simp [Cell.heard, unit])
      (by simp [Cell.heard, unit]) (fun _ => lt) (by simp [Cell.heard, unit])
    cases fault : q.fault with
    | true => exact Cell.takeStatus_fault p q (.inr (.inl unit)) fault ▸ heard.enterDown fitted
    | false =>
      rw [Cell.takeStatus_up p q unit fault]
      split
      · exact atProgress (by decide)
      · split
        · exact enter (by decide)
        · exact atProgress (by omega)
  | fading =>
    have atProgress := fun {n : Nat} (lt : n < 16) => heard.atProgress fitted (n := n) (by simp [Cell.heard, unit])
      (by simp [Cell.heard, unit]) (by simp [Cell.heard, unit]) (fun _ => lt)
    cases fault : q.fault with
    | true => exact Cell.takeStatus_fault p q (.inr (.inr unit)) fault ▸ heard.enterDown fitted
    | false =>
      rw [Cell.takeStatus_fading p q unit fault]
      split
      · exact atProgress (by decide)
      · split
        · exact enter (by decide)
        · exact atProgress (by omega)

/-- A miss charged leaves the law of a cell. -/
theorem takeMiss (h : CellSound r) (p : Params) : CellSound (r.takeMiss p) := by
  by_cases joined : r.unit = .joining ∨ r.unit = .up ∨ r.unit = .fading
  · have fitted : r.fitted = true := h.fitted_of_unit fun e => by simp [e] at joined
    rw [Cell.takeMiss_charged joined]
    split
    · have down := h.enterDown fitted
      exact ⟨down.unfitted, down.quiet, down.joining, down.up, down.fading, down.budget⟩
    · have started : CellSound (r.atProgress 0) := h.atProgress fitted
        (by obtain e | e | e := joined <;> simp [e]) (by simp) (by simp) (by simp)
      refine ⟨started.unfitted, fun rests => ?_, started.joining, started.up, started.fading, started.budget⟩
      obtain e | e | e := joined <;> simp [e] at rests
  · rw [Cell.takeMiss_spared (Cell.rests_of_not_joined joined)]
    exact h

/-- The departure of a chain leaves the law of a cell. -/
theorem depart (h : CellSound r) : CellSound r.depart := by
  by_cases joined : r.Joined
  · rw [Cell.depart_joined joined]
    exact h.enterDown (h.fitted_of_unit joined.1)
  · rwa [Cell.depart_other joined]

/-- A cell that is ABSENT with nothing heard and no counts. -/
theorem of_absent (unit : r.unit = .absent) (heard : r.quality = 0 ∧ r.backlog = 0)
    (counts : r.progress = 0 ∧ r.missCount = 0) (budget : r.budget ≤ 64) : CellSound r where
  unfitted _ := ⟨unit, heard⟩
  quiet _ := counts
  joining joined := by simp [unit] at joined
  up joined := by simp [unit] at joined
  fading joined := by simp [unit] at joined
  budget := budget

/-- A definition leaves the law of a cell when its budget is in range. -/
theorem define (h : CellSound r) (fitted : Bool) (position : Fin 8) {budget : Nat} (range : budget ≤ 64) :
    CellSound (r.define fitted budget position) := by
  unfold Cell.define
  dsimp only
  split
  · exact of_absent rfl ⟨rfl, rfl⟩ ⟨rfl, rfl⟩ range
  next keeps =>
    refine ⟨fun unfitted => h.unfitted ?_, h.quiet, h.joining, h.up, h.fading, range⟩
    cases was : r.fitted
    · rfl
    · simp_all

theorem restartTraffic (h : CellSound r) : CellSound r.restartTraffic :=
  of_absent rfl ⟨rfl, rfl⟩ ⟨rfl, rfl⟩ h.budget

end CellSound

/-! ### The unit state after each change (R29) -/

namespace Cell

/-- A cell that carries blocks: UP or FADING. -/
def Carries (r : Cell) : Prop := r.unit = .up ∨ r.unit = .fading

theorem takeMiss_carries {p : Params} {r : Cell} (h : (r.takeMiss p).Carries) : r.Carries := by
  by_cases joined : r.unit = .joining ∨ r.unit = .up ∨ r.unit = .fading
  · rw [takeMiss_charged joined] at h
    split at h
    · simp [Carries] at h
    · exact h
  · rwa [takeMiss_spared (Cell.rests_of_not_joined joined)] at h

theorem not_carries_depart (r : Cell) : ¬r.depart.Carries := by
  by_cases joined : r.Joined
  · simp [depart_joined joined, Carries]
  · rw [depart_other joined]
    simp only [Joined, not_and_or, not_not] at joined
    obtain unit | unit := joined <;> simp [Carries, unit]

theorem define_carries {fitted : Bool} {budget : Nat} {position : Fin 8} {r : Cell}
    (h : (r.define fitted budget position).Carries) : r.Carries := by
  unfold define at h
  dsimp only at h
  split at h
  · simp [Carries, becomeUnfitted] at h
  · exact h

end Cell

/-! ### The laws of the cells -/

namespace Core

variable {a b : Core}

/-- Every cell is sound, and a cell carries blocks only while its chain is RUNNING (R29). -/
def CellsKept (a : Core) : Prop :=
  ∀ x, CellSound (a.cells x) ∧ ((a.cells x).Carries → a.chains (chainOf x) = .running)

/-- A cell that is set keeps the laws of the cells when it keeps its own. -/
theorem CellsKept.setCell (h : a.CellsKept) {x : CellId} {r : Cell} (sound : CellSound r)
    (carries : r.Carries → a.chains (chainOf x) = .running) : (a.setCell x r).CellsKept := by
  intro y
  by_cases e : y = x
  · subst e
    rw [setCell_same]
    exact ⟨sound, carries⟩
  · rw [setCell_ne _ e]
    exact h y

theorem CellsKept.setChain (h : a.CellsKept) {c : Chain} {st : ChainState}
    (still : st = .running ∨ a.chains c ≠ .running
      ∨ ∀ x, chainOf x = c → (a.cells x).unit ≠ .up ∧ (a.cells x).unit ≠ .fading) : (a.setChain c st).CellsKept := by
  intro x
  refine ⟨(h x).1, fun carries => ?_⟩
  have was := (h x).2 carries
  by_cases e : chainOf x = c
  · subst e
    rw [setChain_same]
    obtain running | left | silent := still
    · exact running
    · exact absurd was left
    · obtain ⟨up, fading⟩ := silent x rfl
      exact absurd carries (not_or.2 ⟨up, fading⟩)
  · rw [setChain_ne _ e]
    exact was

theorem CellsKept.cellsLoaded (h : a.CellsKept) {cells : CellId → Cell} (loaded : CellsLoaded a cells) :
    CellsKept { a with cells := cells } := by
  intro x
  obtain ⟨fitted, budget, position, cell, range⟩ := loaded.cell x
  have range : budget ≤ 64 := by
    obtain same | within := range
    · exact same ▸ (h x).1.budget
    · exact within.1
  have sound := (h x).1.define fitted position range
  dsimp only
  rw [cell]
  exact ⟨⟨sound.unfitted, sound.quiet, sound.joining, sound.up, sound.fading, sound.budget⟩,
    fun carries => (h x).2 (Cell.define_carries carries)⟩

theorem CellsKept.link (h : a.CellsKept) (kept : LinkKept a b) : b.CellsKept := by
  intro x
  have sound := (h x).1
  rw [kept.cell x, kept.chains]
  exact ⟨⟨sound.unfitted, sound.quiet, sound.joining, sound.up, sound.fading, sound.budget⟩, (h x).2⟩

theorem powerOn_cell (strap : Byte) (x : CellId) :
    (State.powerOn strap).cell x = { position := ⟨x.val % 8, Nat.mod_lt _ (by decide)⟩ } := by
  change Coverage.reset.cells[x] = _
  revert x
  decide

theorem fresh_cellsKept (strap : Byte) : (State.powerOn strap).core.CellsKept := by
  intro x
  rw [State.core_cells, powerOn_cell]
  exact ⟨.of_absent rfl ⟨rfl, rfl⟩ ⟨rfl, rfl⟩ (Nat.zero_le _), by simp [Cell.Carries]⟩

/-- No step breaks the laws of the cells. -/
theorem CellsKept.step (h : a.CellsKept) (step : CoreStep a b) : b.CellsKept := by
  cases step with
  | link h' => exact h.link h'.kept
  | noted x r kept =>
    have sound := (h x).1
    refine h.setCell ?_ ?_
    · rw [kept]
      exact ⟨sound.unfitted, sound.quiet, sound.joining, sound.up, sound.fading, sound.budget⟩
    · rw [kept]
      exact (h x).2
  | status x p q fitted running => exact h.setCell ((h x).1.takeStatus fitted p q) fun _ => running
  | missed x p => exact h.setCell ((h x).1.takeMiss p) fun carries => (h x).2 (Cell.takeMiss_carries carries)
  | departed x => exact h.setCell (h x).1.depart fun carries => absurd carries (Cell.not_carries_depart _)
  | entered c st still => exact h.setChain still
  | released k cells released =>
    intro x
    have sound := (h x).1
    have cell := released.cell x
    change CellSound (cells x) ∧ ((cells x).Carries → _)
    rw [cell]
    exact ⟨⟨sound.unfitted, sound.quiet, sound.joining, sound.up, sound.fading, sound.budget⟩, (h x).2⟩
  | cellsLoaded cells loaded => exact h.cellsLoaded loaded
  | table h' => cases h' <;> exact h
  | restarted reload =>
    refine fun x => ⟨(h x).1.restartTraffic, fun carries => ?_⟩
    simp [Cell.Carries, Core.restarted, Cell.restartTraffic] at carries
  | fresh strap => exact fresh_cellsKept strap
  | emptied | redefined | reefer => exact h

/-! ### Positions and budgets (R25) -/

/-- The positions of a chain's cells differ, and their budgets are within the chain's slots. -/
def Ringed (a : Core) : Prop :=
  ∀ c, ((cellsOf c).map fun x => (a.cells x).position).Nodup
    ∧ ((cellsOf c).map fun x => (a.cells x).budget).sum ≤ Config.chainBudget

theorem Ringed.of_eq (h : a.Ringed)
    (cell : ∀ x, (b.cells x).position = (a.cells x).position ∧ (b.cells x).budget = (a.cells x).budget) : b.Ringed := by
  have positions : (fun x => (b.cells x).position) = fun x => (a.cells x).position := funext fun x => (cell x).1
  have budgets : (fun x => (b.cells x).budget) = fun x => (a.cells x).budget := funext fun x => (cell x).2
  intro c
  rw [positions, budgets]
  exact h c

theorem Ringed.setCell (h : a.Ringed) {x : CellId} {r : Cell} (position : r.position = (a.cells x).position)
    (budget : r.budget = (a.cells x).budget) : (a.setCell x r).Ringed := by
  refine h.of_eq fun y => ?_
  by_cases e : y = x
  · subst e
    rw [setCell_same]
    exact ⟨position, budget⟩
  · rw [setCell_ne _ e]
    exact ⟨rfl, rfl⟩

theorem fresh_ringed (strap : Byte) : (State.powerOn strap).core.Ringed := by
  intro c
  simp only [State.core_cells, powerOn_cell]
  cases c <;> decide

/-- No step breaks the law of positions and budgets. -/
theorem Ringed.step (h : a.Ringed) (step : CoreStep a b) : b.Ringed := by
  cases step with
  | link h' => exact h.of_eq fun x => by rw [h'.kept.cell x]; exact ⟨rfl, rfl⟩
  | noted x r kept => exact h.setCell (by rw [kept]) (by rw [kept])
  | status x p q _ _ => exact h.setCell (by rw [Cell.takeStatus_kept]) (by rw [Cell.takeStatus_kept])
  | missed x p => exact h.setCell (by rw [Cell.takeMiss_kept]) (by rw [Cell.takeMiss_kept])
  | departed x => exact h.setCell (by rw [Cell.depart_kept]) (by rw [Cell.depart_kept])
  | released k cells released =>
    refine h.of_eq fun x => ?_
    change (cells x).position = _ ∧ (cells x).budget = _
    rw [released.cell x]
    exact ⟨rfl, rfl⟩
  | cellsLoaded cells loaded => exact fun c => ⟨loaded.positions c, loaded.budgets c⟩
  | table h' => cases h' <;> exact h
  | fresh strap => exact fresh_ringed strap
  | restarted reload => exact h
  | entered | emptied | redefined | reefer => exact h

end Core

end Machine

open Machine

/-- Settles O11: the laws of the cells and the law of positions and budgets are carried along the steps of the core. -/
theorem stepKeepsTheCellsSound : Obligations.StepKeepsTheCellsSound :=
  ⟨fun _ _ h hs => step_keeps_of_coreStep (P := Core.CellsKept) (fun _ _ h => h.step) h hs,
    fun _ _ h hs => step_keeps_of_coreStep (P := Core.Ringed) (fun _ _ h => h.step) h hs⟩

end Sys2Proof
end

