-- ==== Sys2Proof/Proofs/StatusRecords.lean ====
section
/-! PROOF of O34: a status record and a status miss move a cell's unit state (R26-R28), each as one event of the cell (R31,
R34). -/

namespace Sys2Proof
namespace Machine
namespace Cell

section TakeStatus

variable (p : Params) (q : StatusRecord)

/-- A record enters a unit state, takes the cell DOWN, or leaves its unit state at a progress count. -/
theorem takeStatus_moves (r : Cell) : (∃ st, r.takeStatus p q = (r.heard q).enter st)
    ∨ r.takeStatus p q = (r.heard q).enterDown ∨ ∃ n, r.takeStatus p q = (r.heard q).atProgress n := by
  have entered : ∀ st, (∃ st', (r.heard q).enter st = (r.heard q).enter st')
      ∨ (r.heard q).enter st = (r.heard q).enterDown ∨ ∃ n, (r.heard q).enter st = (r.heard q).atProgress n :=
    fun st => .inl ⟨st, rfl⟩
  have stayed : ∀ n, (∃ st, (r.heard q).atProgress n = (r.heard q).enter st)
      ∨ (r.heard q).atProgress n = (r.heard q).enterDown ∨ ∃ m, (r.heard q).atProgress n = (r.heard q).atProgress m :=
    fun n => .inr (.inr ⟨n, rfl⟩)
  cases unit : r.unit with
  | absent =>
    rw [takeStatus_absent p q unit]
    split
    exacts [entered _, stayed r.progress]
  | down =>
    rw [takeStatus_down p q unit]
    split
    exacts [stayed r.progress, entered _]
  | joining =>
    cases fault : q.fault with
    | true => exact .inr (.inl (takeStatus_fault p q (.inl unit) fault))
    | false =>
      rw [takeStatus_joining p q unit fault]
      split
      exacts [entered _, stayed _]
  | up =>
    cases fault : q.fault with
    | true => exact .inr (.inl (takeStatus_fault p q (.inr (.inl unit)) fault))
    | false =>
      rw [takeStatus_up p q unit fault]
      split_ifs
      exacts [stayed _, entered _, stayed _]
  | fading =>
    cases fault : q.fault with
    | true => exact .inr (.inl (takeStatus_fault p q (.inr (.inr unit)) fault))
    | false =>
      rw [takeStatus_fading p q unit fault]
      split_ifs
      exacts [stayed _, entered _, stayed _]

/-- A unit state entered starts its progress at 0 (R27). -/
theorem takeStatus_entered {r : Cell} (h : (r.takeStatus p q).unit ≠ r.unit) : (r.takeStatus p q).progress = 0 := by
  obtain ⟨st, e⟩ | e | ⟨n, e⟩ := takeStatus_moves p q r
  · rw [e]
    rfl
  · rw [e]
    rfl
  · rw [e] at h
    exact absurd rfl h

end TakeStatus

end Cell

end Machine

open Machine

/-- Settles O34: a status record unit state by unit state, a miss by what it is charged to, and each as the event of its
cell. -/
theorem statusRecordMovesTheCell : Obligations.StatusRecordMovesTheCell := by
  refine ⟨fun p q r sound => ?_, fun p r => ⟨Cell.takeMiss_spared, fun joined => ?_⟩, fun x q s => ?_⟩
  · obtain ⟨quality, backlog, missCount⟩ := r.takeStatus_reported p q
    refine ⟨quality, backlog, missCount, Cell.takeStatus_entered p q, fun unit => ?_, fun unit => ?_,
      fun absent down fault => ?_, fun unit good => ?_, fun unit good => ?_, fun unit good => ?_⟩
    · rw [Cell.takeStatus_absent p q unit]
      split
      next joins => simp [Cell.enter, joins]
      next stays => simp [Cell.heard, unit, stays]
    · rw [Cell.takeStatus_down p q unit]
      split
      next fault => simp [Cell.heard, unit, fault]
      next good => simp [Cell.enter, good]
    · rw [Cell.takeStatus_fault p q (by cases unit : r.unit <;> simp_all) fault]
      rfl
    · have short : r.progress < 3 := sound.joining unit
      rw [Cell.takeStatus_joining p q unit good]
      by_cases last : r.progress = 2
      · rw [if_pos last, if_pos (by omega)]
        rfl
      · rw [if_neg last, if_neg (by omega)]
        exact ⟨unit, rfl⟩
    · have short : r.progress < 8 := sound.up unit
      rw [Cell.takeStatus_up p q unit good]
      by_cases well : p.fadeLevel ≤ q.quality.val
      · rw [if_pos well, if_pos well]
        exact ⟨unit, rfl⟩
      · rw [if_neg well, if_neg well]
        by_cases last : r.progress = 7
        · rw [if_pos last, if_pos (by omega)]
          rfl
        · rw [if_neg last, if_neg (by omega)]
          exact ⟨unit, rfl⟩
    · have short : r.progress < 16 := sound.fading unit
      rw [Cell.takeStatus_fading p q unit good]
      by_cases low : q.quality.val < p.recoverLevel
      · rw [if_pos low, if_pos low]
        exact ⟨unit, rfl⟩
      · rw [if_neg low, if_neg low]
        by_cases last : r.progress = 15
        · rw [if_pos last, if_pos (by omega)]
          rfl
        · rw [if_neg last, if_neg (by omega)]
          exact ⟨unit, rfl⟩
  · rw [Cell.takeMiss_charged joined]
    exact ⟨fun short => if_neg (by omega), fun long => if_pos long⟩
  · refine ⟨fun unfitted => ?_, fun fitted => ?_, ?_⟩
    · rw [statusRecord, if_neg (by simp [unfitted])]
      rfl
    · rw [statusRecord, if_pos fitted]
      exact coverageEvent_cellEvent x (fun t => t.modCell x (Cell.takeStatus t.params q)) s
    · exact coverageEvent_cellEvent x (fun t => t.modCell x (Cell.takeMiss t.params)) s

end Sys2Proof
end

