-- ==== Sys2Proof/Proofs/ClaimLaws.lean ====
section
/-! PROOF of O13: the reservation law (R32) and the shadow law (R33) are kept by every step. Each says that a cell's count is a
total over the cranes, and a step that changes one crane moves the count by the difference of that crane's share. -/

namespace Sys2Proof
namespace Machine

/-! ### Cranes at rest claim nothing (R45) -/

/-- A target is held in HANDOVER alone, and a crane at rest holds no anchor and no shadow. -/
structure Crane.Quiet (c : Crane) : Prop where
  target : c.target ≠ none → c.state = .handover
  rest : ¬c.Live → c.anchor = none ∧ c.shadow = []

namespace Crane.Quiet

variable {c : Crane}

theorem untargeted (h : c.Quiet) (other : c.state ≠ .handover) : c.target = none := by
  by_contra held
  exact other (h.target held)

theorem of_sound (h : CraneSound c) : c.core.Quiet where
  target held := h.target.1 (Option.isSome_iff_ne_none.2 held)
  rest rests := by
    have still : c.state = .vacant ∨ c.state = .idle := by
      simp only [Crane.Live, Crane.core, not_and_or, not_not] at rests
      exact rests
    refine ⟨?_, h.shadowless still⟩
    by_contra held
    have moving := h.anchor.1 (Option.isSome_iff_ne_none.2 held)
    obtain e | e := still <;> simp [e] at moving

/-- A crane in one of the three live states, with a target in HANDOVER alone. -/
theorem of_live (live : c.Live) (target : c.target ≠ none → c.state = .handover) : c.Quiet :=
  ⟨target, fun rests => absurd live rests⟩

/-- A crane record without an anchor, a target and a shadow. -/
theorem of_bare (anchor : c.anchor = none) (target : c.target = none) (shadow : c.shadow = []) : c.Quiet :=
  ⟨fun held => absurd target held, fun _ => ⟨anchor, shadow⟩⟩

end Crane.Quiet

namespace Core

variable {a b : Core}

/-- Every crane that rests claims nothing. -/
def Rested (a : Core) : Prop := ∀ k, (a.cranes k).Quiet

theorem Rested.setCrane (h : a.Rested) {k : CraneId} {c : Crane} (quiet : c.Quiet) : (a.setCrane k c).Rested := by
  intro j
  by_cases e : j = k
  · subst e
    rwa [setCrane_same]
  · rw [setCrane_ne _ e]
    exact h j

theorem live_of_state {c : Crane} (h : c.state = .linked ∨ c.state = .handover ∨ c.state = .lost) : c.Live := by
  obtain e | e | e := h <;> simp [Crane.Live, e]

theorem Rested.handStep (h : a.Rested) (step : HandStep a b) : b.Rested := by
  cases step with
  | started k x linked room => exact h.setCrane (.of_live (live_of_state (.inr (.inl rfl))) fun _ => rfl)
  | failed k x st target state =>
    have handover := (h k).target (by simp [target])
    refine h.setCrane (.of_live (live_of_state ?_) fun held => absurd rfl held)
    obtain linked | same := state
    · exact .inl linked
    · exact .inr (.inl (same.trans handover))

theorem Rested.linkStep (h : a.Rested) (step : LinkStep a b) : b.Rested := by
  cases step with
  | hand h' => exact h.handStep h'
  | raised x => exact h
  | contact k x idle room =>
    exact h.setCrane (.of_live (live_of_state (.inl rfl)) fun held => absurd ((h k).untargeted (by simp [idle])) held)
  | completed k x t state anchor target =>
    exact h.setCrane (.of_live (live_of_state (.inl rfl)) fun held => absurd rfl held)
  | led k x y state anchor room =>
    exact h.setCrane (.of_live (live_of_state (.inl state)) (h k).target)
  | stood k st live state untargeted =>
    have target : (a.cranes k).target = none := untargeted.elim id (h k).untargeted
    refine h.setCrane (.of_live (live_of_state (state.imp_right .inr)) fun held => absurd target held)
  | shadowed k x live outside => exact h.setCrane (.of_live live (h k).target)
  | unshadowed k x inside =>
    refine h.setCrane ⟨(h k).target, fun rests => ?_⟩
    have shadow := ((h k).rest rests).2
    rw [shadow] at inside
    exact absurd inside (by simp)

theorem restartTraffic_bare (c : Crane) :
    c.restartTraffic.anchor = none ∧ c.restartTraffic.target = none ∧ c.restartTraffic.shadow = [] := by
  unfold Crane.restartTraffic
  split <;> exact ⟨rfl, rfl, rfl⟩

theorem powerOn_crane (strap : Byte) (k : CraneId) : (State.powerOn strap).core.cranes k = {} := by
  change (CraneLink.reset.cranes[k]).core = {}
  revert k
  decide

theorem Rested.step (h : a.Rested) (step : CoreStep a b) : b.Rested := by
  cases step with
  | link h' => exact h.linkStep h'
  | released k cells _ => exact Rested.setCrane (a := { a with cells := cells }) h (.of_bare rfl rfl rfl)
  | emptied k d st _ _ => exact h.setCrane (.of_bare rfl rfl rfl)
  | redefined k d _ => exact h.setCrane ⟨(h k).target, (h k).rest⟩
  | restarted reload =>
    intro k
    obtain ⟨anchor, target, shadow⟩ := restartTraffic_bare (a.cranes k)
    exact .of_bare anchor target shadow
  | fresh strap =>
    intro k
    rw [powerOn_crane]
    exact .of_bare rfl rfl rfl
  | table h' => cases h' <;> exact h
  | noted | status | missed | departed | entered | cellsLoaded | reefer => exact h

/-! ### Totals over the cranes -/

/-- The total of the cranes' shares. -/
def total (a : Core) (share : Crane → Nat) : Nat := (allCranes.map fun k => share (a.cranes k)).sum

theorem total_congr (h : b.cranes = a.cranes) (share : Crane → Nat) : b.total share = a.total share := by
  unfold total
  rw [h]

theorem total_split (a : Core) (share : Crane → Nat) (k : CraneId) :
    a.total share = share (a.cranes k) + ((allCranes.erase k).map fun j => share (a.cranes j)).sum :=
  (List.sum_map_erase _ (mem_allCranes k)).symm

theorem share_le_total (a : Core) (share : Crane → Nat) (k : CraneId) : share (a.cranes k) ≤ a.total share := by
  rw [total_split a share k]
  exact Nat.le_add_right _ _

/-- A crane that is set moves a total by the difference of its share. -/
theorem total_setCrane (a : Core) (share : Crane → Nat) (k : CraneId) (c : Crane) :
    (a.setCrane k c).total share + share (a.cranes k) = a.total share + share c := by
  have others : (allCranes.erase k).map (fun j => share ((a.setCrane k c).cranes j)) =
      (allCranes.erase k).map fun j => share (a.cranes j) := by
    refine List.map_congr_left fun j hj => ?_
    rw [setCrane_ne _ (allCranes_nodup.mem_erase_iff.1 hj).1]
  rw [total_split _ share k, total_split a share k, others, setCrane_same]
  omega

theorem total_eq_zero {share : Crane → Nat} (h : ∀ k, share (a.cranes k) = 0) : a.total share = 0 := by
  simp [total, h]

/-! ### The reservation law (R32) -/

/-- The slots a crane holds on a cell. -/
def slots (x : CellId) (c : Crane) : Nat :=
  (if c.anchor = some x then c.reservation else 0) + (if c.target = some x then c.reservation else 0)

/-- The slots of a crane whose definition stands are those of its anchor and target. -/
theorem slots_of_defn {c d : Crane} (h : d.defn = c.defn) (x : CellId) : slots x d =
    (if d.anchor = some x then c.reservation else 0) + (if d.target = some x then c.reservation else 0) := by
  have same : d.reservation = c.reservation := congrArg (fun e => (e.map CraneDef.reservation).getD 0) h
  rw [slots, same]

theorem slots_bare {c : Crane} (anchor : c.anchor = none) (target : c.target = none) (x : CellId) : slots x c = 0 := by
  simp [slots, anchor, target]

/-- Every cell's reserved slots are those the cranes hold on it, within its budget. -/
def Reserved (a : Core) : Prop := ∀ x, (a.cells x).reserved = a.total (slots x) ∧ (a.cells x).reserved ≤ (a.cells x).budget

/-- The law while no crane changes what it holds. -/
theorem Reserved.still (h : a.Reserved) (cranes : b.cranes = a.cranes)
    (cells : ∀ x, (b.cells x).reserved = (a.cells x).reserved
      ∧ ((b.cells x).budget = (a.cells x).budget ∨ (a.cells x).reserved ≤ (b.cells x).budget)) : b.Reserved := by
  intro x
  obtain ⟨reserved, budget⟩ := cells x
  obtain ⟨sum, within⟩ := h x
  rw [total_congr cranes, reserved]
  exact ⟨sum, budget.elim (fun same => same ▸ within) id⟩

/-- The law while one crane changes what it holds: each cell's slots move by the difference. -/
theorem Reserved.moved (h : a.Reserved) {k : CraneId} {c : Crane} (cranes : b.cranes = (a.setCrane k c).cranes)
    (cells : ∀ x, (b.cells x).reserved + slots x (a.cranes k) = (a.cells x).reserved + slots x c
      ∧ (b.cells x).reserved ≤ (b.cells x).budget) : b.Reserved := by
  intro x
  obtain ⟨reserved, within⟩ := cells x
  have moved := total_setCrane a (slots x) k c
  refine ⟨?_, within⟩
  rw [total_congr cranes]
  rw [(h x).1] at reserved
  omega

/-- The law while one crane changes its anchor or its target, its definition standing. -/
theorem Reserved.rehung (h : a.Reserved) {k : CraneId} {c : Crane} (cranes : b.cranes = (a.setCrane k c).cranes)
    (defn : c.defn = (a.cranes k).defn)
    (cells : ∀ x, (b.cells x).reserved + slots x (a.cranes k) = (a.cells x).reserved
        + ((if c.anchor = some x then (a.cranes k).reservation else 0)
          + (if c.target = some x then (a.cranes k).reservation else 0))
      ∧ (b.cells x).reserved ≤ (b.cells x).budget) : b.Reserved :=
  h.moved cranes fun x => by
    rw [slots_of_defn defn]
    exact cells x

/-- The law while a crane keeps what it holds. -/
theorem Reserved.crane (h : a.Reserved) {k : CraneId} {c : Crane} (same : ∀ x, slots x c = slots x (a.cranes k)) :
    (a.setCrane k c).Reserved :=
  h.moved rfl fun x => ⟨by rw [same x]; rfl, (h x).2⟩

/-- The law while a cell keeps its slots and its budget. -/
theorem Reserved.setCell (h : a.Reserved) {x : CellId} {r : Cell} (reserved : r.reserved = (a.cells x).reserved)
    (budget : r.budget = (a.cells x).budget) : (a.setCell x r).Reserved := by
  refine h.still rfl fun y => ?_
  by_cases e : y = x
  · subst e
    rw [setCell_same]
    exact ⟨reserved, .inl budget⟩
  · rw [setCell_ne _ e]
    exact ⟨rfl, .inl rfl⟩

theorem Reserved.shade (h : a.Reserved) (x : CellId) (n : Nat) : (a.shade x n).Reserved := h.setCell rfl rfl

theorem slots_le_reserved (h : a.Reserved) (k : CraneId) (x : CellId) : slots x (a.cranes k) ≤ (a.cells x).reserved :=
  (h x).1 ▸ share_le_total a (slots x) k

/-! ### Claims of slots -/

theorem claim_reserved (a : Core) (x : CellId) (n : Nat) (y : CellId) :
    ((a.claim x n).cells y).reserved = (a.cells y).reserved + (if x = y then n else 0) := by
  unfold claim
  by_cases e : y = x
  · subst e
    simp
  · rw [setCell_ne _ e, if_neg (Ne.symm e)]
    rfl

theorem release_reserved (a : Core) (x : CellId) (n : Nat) (y : CellId) :
    ((a.release x n).cells y).reserved = (a.cells y).reserved - (if x = y then n else 0) := by
  unfold release
  by_cases e : y = x
  · subst e
    simp
  · rw [setCell_ne _ e, if_neg (Ne.symm e)]
    rfl

theorem claim_budget (a : Core) (x : CellId) (n : Nat) (y : CellId) : ((a.claim x n).cells y).budget = (a.cells y).budget := by
  rw [(LinkKept.claim a x n).cell y]

theorem release_budget (a : Core) (x : CellId) (n : Nat) (y : CellId) :
    ((a.release x n).cells y).budget = (a.cells y).budget := by
  rw [(LinkKept.release a x n).cell y]

/-- The slots of a cell with room, once claimed, are within its budget. -/
theorem Room.within {x : CellId} {n : Nat} (h : a.Room x n) (law : a.Reserved) (y : CellId) :
    (a.cells y).reserved + (if x = y then n else 0) ≤ (a.cells y).budget := by
  have within := (law y).2
  split
  next e =>
    subst e
    have room := h.2
    omega
  next => exact within

theorem Reserved.handStep (h : a.Reserved) (rested : a.Rested) (step : HandStep a b) : b.Reserved := by
  cases step with
  | started k x linked room =>
    have target := (rested k).untargeted (by simp [linked])
    refine h.rehung rfl rfl fun y => ?_
    change ((a.claim x _).cells y).reserved + _ = _ ∧ ((a.claim x _).cells y).reserved ≤ ((a.claim x _).cells y).budget
    rw [claim_reserved, claim_budget]
    refine ⟨?_, room.within h y⟩
    simp only [slots, target, reduceCtorEq, if_false, Option.some.injEq]
    omega
  | failed k x st target state =>
    refine h.rehung rfl rfl fun y => ?_
    change ((a.release x _).cells y).reserved + _ = _
      ∧ ((a.release x _).cells y).reserved ≤ ((a.release x _).cells y).budget
    have held := slots_le_reserved h k y
    have within := (h y).2
    rw [release_reserved, release_budget]
    simp only [slots, target, reduceCtorEq, if_false, Option.some.injEq] at held ⊢
    omega

theorem Reserved.linkStep (h : a.Reserved) (rested : a.Rested) (step : LinkStep a b) : b.Reserved := by
  cases step with
  | hand h' => exact h.handStep rested h'
  | raised x => exact h.setCell rfl rfl
  | contact k x idle room =>
    have target := (rested k).untargeted (by simp [idle])
    have anchor := ((rested k).rest (by simp [Crane.Live, idle])).1
    refine h.rehung rfl rfl fun y => ?_
    change ((a.claim x _).cells y).reserved + _ = _ ∧ ((a.claim x _).cells y).reserved ≤ ((a.claim x _).cells y).budget
    rw [claim_reserved, claim_budget]
    refine ⟨?_, room.within h y⟩
    simp only [slots, target, anchor, reduceCtorEq, if_false, Option.some.injEq]
    omega
  | completed k x t state anchor target =>
    refine h.rehung rfl rfl fun y => ?_
    change ((a.release x _).cells y).reserved + _ = _
      ∧ ((a.release x _).cells y).reserved ≤ ((a.release x _).cells y).budget
    have held := slots_le_reserved h k y
    have within := (h y).2
    rw [release_reserved, release_budget]
    simp only [slots, target, anchor, reduceCtorEq, if_false, Option.some.injEq] at held ⊢
    omega
  | led k x y state anchor room =>
    refine h.rehung rfl rfl fun z => ?_
    change (((a.claim y _).release x _).cells z).reserved + _ = _
      ∧ (((a.claim y _).release x _).cells z).reserved ≤ (((a.claim y _).release x _).cells z).budget
    have held := slots_le_reserved h k z
    have within := room.within h z
    rw [release_reserved, release_budget, claim_reserved, claim_budget]
    simp only [slots, anchor, Option.some.injEq] at held ⊢
    omega
  | stood k st _ _ _ => exact h.crane fun x => slots_of_defn (c := a.cranes k) rfl x
  | shadowed k x _ _ | unshadowed k x _ =>
    exact (h.shade x _).crane (k := k) fun y => slots_of_defn (c := a.cranes k) rfl y

/-- No step breaks the reservation law while the cranes at rest claim nothing. -/
theorem Reserved.step (h : a.Reserved) (rested : a.Rested) (step : CoreStep a b) : b.Reserved := by
  cases step with
  | link h' => exact h.linkStep rested h'
  | noted x r kept => exact h.setCell (by rw [kept]) (by rw [kept])
  | status x p q _ _ => exact h.setCell (by rw [Cell.takeStatus_kept]) (by rw [Cell.takeStatus_kept])
  | missed x p => exact h.setCell (by rw [Cell.takeMiss_kept]) (by rw [Cell.takeMiss_kept])
  | departed x => exact h.setCell (by rw [Cell.depart_kept]) (by rw [Cell.depart_kept])
  | released k cells released =>
    refine h.moved rfl fun x => ?_
    change (cells x).reserved + _ = _ ∧ (cells x).reserved ≤ (cells x).budget
    have held := slots_le_reserved h k x
    have within := (h x).2
    have handover : (a.cranes k).state = .handover ∧ (a.cranes k).target = some x ↔ (a.cranes k).target = some x :=
      and_iff_right_of_imp fun target => (rested k).target (by simp [target])
    rw [released.cell x, slots_bare (c := { defn := (a.cranes k).defn, state := .idle }) rfl rfl]
    simp only [slots, handover] at held ⊢
    omega
  | emptied k d st rests _ =>
    have target := (rested k).untargeted fun e => rests (live_of_state (.inr (.inl e)))
    exact h.crane fun x => (slots_bare rfl rfl x).trans (slots_bare ((rested k).rest rests).1 target x).symm
  | redefined k d same =>
    refine h.crane fun x => ?_
    by_cases live : (a.cranes k).Live
    · simp only [slots]
      rw [← same live]
      rfl
    · have target := (rested k).untargeted fun e => live (live_of_state (.inr (.inl e)))
      have anchor := ((rested k).rest live).1
      exact (slots_bare (c := { a.cranes k with defn := some d }) anchor target x).trans (slots_bare anchor target x).symm
  | cellsLoaded cells loaded =>
    refine h.still rfl fun x => ?_
    obtain ⟨fitted, budget, position, cell, range⟩ := loaded.cell x
    change (cells x).reserved = _ ∧ ((cells x).budget = _ ∨ _ ≤ (cells x).budget)
    rw [cell, Cell.define_kept]
    exact ⟨rfl, range.imp id And.right⟩
  | restarted reload =>
    intro x
    refine ⟨(total_eq_zero fun k => ?_).symm, Nat.zero_le _⟩
    obtain ⟨anchor, target, _⟩ := restartTraffic_bare (a.cranes k)
    exact slots_bare anchor target x
  | fresh strap =>
    intro x
    rw [total_eq_zero fun k => by rw [powerOn_crane]; exact slots_bare rfl rfl x, State.core_cells, powerOn_cell]
    exact ⟨rfl, Nat.le_refl _⟩
  | table h' => cases h' <;> exact h
  | entered | reefer => exact h

/-! ### The shadow law (R33) -/

/-- The share of a crane in a cell's shadow count. -/
def shades (x : CellId) (c : Crane) : Nat := if x ∈ c.shadow then 1 else 0

theorem shades_bare {c : Crane} (h : c.shadow = []) (x : CellId) : shades x c = 0 := by
  simp [shades, h]

/-- Every cell's shadow count is the number of cranes whose shadow set contains it, and no set lists a cell twice. -/
structure Shadowed (a : Core) : Prop where
  count : ∀ x, (a.cells x).shadowCount = a.total (shades x)
  once : ∀ k, (a.cranes k).shadow.Nodup

/-- The law while no crane changes its shadow set. -/
theorem Shadowed.still (h : a.Shadowed) (cranes : b.cranes = a.cranes)
    (cells : ∀ x, (b.cells x).shadowCount = (a.cells x).shadowCount) : b.Shadowed where
  count x := by rw [cells, h.count, total_congr cranes]
  once k := by
    rw [cranes]
    exact h.once k

/-- The law while one crane changes its shadow set: each cell's count moves by the difference. -/
theorem Shadowed.moved (h : a.Shadowed) {k : CraneId} {c : Crane} (cranes : b.cranes = (a.setCrane k c).cranes)
    (once : c.shadow.Nodup)
    (cells : ∀ x, (b.cells x).shadowCount + shades x (a.cranes k) = (a.cells x).shadowCount + shades x c) : b.Shadowed where
  count x := by
    have moved := total_setCrane a (shades x) k c
    have count := cells x
    rw [total_congr cranes]
    rw [h.count] at count
    omega
  once j := by
    rw [cranes]
    by_cases e : j = k
    · subst e
      rwa [setCrane_same]
    · rw [setCrane_ne _ e]
      exact h.once j

/-- The law while a crane keeps its shadow set. -/
theorem Shadowed.crane (h : a.Shadowed) {k : CraneId} {c : Crane} (cranes : b.cranes = (a.setCrane k c).cranes)
    (same : c.shadow = (a.cranes k).shadow) (cells : ∀ x, (b.cells x).shadowCount = (a.cells x).shadowCount) :
    b.Shadowed :=
  h.moved cranes (same ▸ h.once k) fun x => by rw [cells x, shades, shades, same]

/-- The law while a cell keeps its shadow count. -/
theorem Shadowed.setCell (h : a.Shadowed) {x : CellId} {r : Cell} (count : r.shadowCount = (a.cells x).shadowCount) :
    (a.setCell x r).Shadowed := by
  refine h.still rfl fun y => ?_
  by_cases e : y = x
  · subst e
    rwa [setCell_same]
  · rw [setCell_ne _ e]

theorem claim_shadowCount (a : Core) (x : CellId) (n : Nat) (y : CellId) :
    ((a.claim x n).cells y).shadowCount = (a.cells y).shadowCount := by
  unfold claim
  by_cases e : y = x
  · subst e
    simp
  · rw [setCell_ne _ e]

theorem release_shadowCount (a : Core) (x : CellId) (n : Nat) (y : CellId) :
    ((a.release x n).cells y).shadowCount = (a.cells y).shadowCount := by
  unfold release
  by_cases e : y = x
  · subst e
    simp
  · rw [setCell_ne _ e]

theorem shade_shadowCount (a : Core) (x : CellId) (n : Nat) (y : CellId) :
    ((a.shade x n).cells y).shadowCount = if y = x then n else (a.cells y).shadowCount := by
  unfold shade
  by_cases e : y = x
  · subst e
    simp
  · rw [setCell_ne _ e, if_neg e]

theorem Shadowed.linkStep (h : a.Shadowed) (step : LinkStep a b) : b.Shadowed := by
  cases step with
  | hand h' =>
    cases h' with
    | started k x _ _ => exact h.crane (k := k) rfl rfl (claim_shadowCount a x _)
    | failed k x _ _ _ => exact h.crane (k := k) rfl rfl (release_shadowCount a x _)
  | raised x => exact h.setCell rfl
  | contact k x _ _ => exact h.crane (k := k) rfl rfl (claim_shadowCount a x _)
  | completed k x _ _ _ _ => exact h.crane (k := k) rfl rfl (release_shadowCount a x _)
  | led k x y _ _ _ =>
    exact h.crane (k := k) rfl rfl fun z => (release_shadowCount _ x _ z).trans (claim_shadowCount a y _ z)
  | stood k _ _ _ _ => exact h.crane (k := k) rfl rfl fun _ => rfl
  | shadowed k x _ outside =>
    refine h.moved rfl (sortCells_nodup _) fun y => ?_
    refine (congrArg (· + _) (shade_shadowCount a x _ y)).trans ?_
    by_cases e : y = x
    · subst e
      simp [shades, outside]
    · simp [shades, e]
  | unshadowed k x inside =>
    refine h.moved rfl ((h.once k).filter _) fun y => ?_
    refine (congrArg (· + _) (shade_shadowCount a x _ y)).trans ?_
    by_cases e : y = x
    · subst e
      have counted := h.count y ▸ share_le_total a (shades y) k
      simp only [shades, inside, if_true] at counted
      simp [shades, inside]
      omega
    · simp [shades, e]

/-- No step breaks the shadow law while the cranes at rest claim nothing. -/
theorem Shadowed.step (h : a.Shadowed) (rested : a.Rested) (step : CoreStep a b) : b.Shadowed := by
  cases step with
  | link h' => exact h.linkStep h'
  | noted x r kept => exact h.setCell (by rw [kept])
  | status x p q _ _ => exact h.setCell (by rw [Cell.takeStatus_kept])
  | missed x p => exact h.setCell (by rw [Cell.takeMiss_kept])
  | departed x => exact h.setCell (by rw [Cell.depart_kept])
  | released k cells released =>
    refine h.moved rfl List.nodup_nil fun x => ?_
    change (cells x).shadowCount + _ = _
    have counted := h.count x ▸ share_le_total a (shades x) k
    rw [released.cell x, shades_bare (c := { defn := (a.cranes k).defn, state := .idle }) rfl]
    simp only [shades] at counted ⊢
    omega
  | emptied k d st rests _ => exact h.crane (k := k) rfl ((rested k).rest rests).2.symm fun _ => rfl
  | redefined k d _ => exact h.crane (k := k) rfl rfl fun _ => rfl
  | cellsLoaded cells loaded =>
    refine h.still rfl fun x => ?_
    obtain ⟨fitted, budget, position, cell, _⟩ := loaded.cell x
    change (cells x).shadowCount = _
    rw [cell, Cell.define_kept]
  | restarted reload =>
    refine ⟨fun x => (total_eq_zero fun k => shades_bare (restartTraffic_bare (a.cranes k)).2.2 x).symm, fun k => ?_⟩
    change (a.cranes k).restartTraffic.shadow.Nodup
    rw [(restartTraffic_bare (a.cranes k)).2.2]
    exact List.nodup_nil
  | fresh strap =>
    refine ⟨fun x => ?_, fun k => ?_⟩
    · rw [total_eq_zero fun k => by rw [powerOn_crane]; exact shades_bare rfl x, State.core_cells, powerOn_cell]
    · rw [powerOn_crane]
      exact List.nodup_nil
  | table h' => cases h' <;> exact ⟨h.count, h.once⟩
  | entered | reefer => exact ⟨h.count, h.once⟩

end Core

/-! ### The laws of a state in its core -/

theorem rested_of_sound {s : State} (h : CranesSound s) : s.core.Rested := fun k => .of_sound (h k)

theorem reservationsSound_iff (s : State) : ReservationsSound s ↔ s.core.Reserved := Iff.rfl

/-- The length of a filtered list as a total. -/
theorem filter_length_eq_sum {α : Type} (p : α → Bool) (l : List α) :
    (l.filter p).length = (l.map fun k => if p k = true then 1 else 0).sum := by
  induction l with
  | nil => rfl
  | cons k l ih =>
    by_cases h : p k = true
    · simp [h, ih, Nat.add_comm]
    · simp [h, ih]

theorem shadowsSound_iff (s : State) : ShadowsSound s ↔ s.core.Shadowed := by
  have counts : ∀ x, (allCranes.filter fun k => (s.crane k).shadow.contains x).length = s.core.total (Core.shades x) := by
    intro x
    rw [filter_length_eq_sum]
    refine congrArg List.sum (List.map_congr_left fun k _ => ?_)
    simp only [List.contains_iff_mem]
    rfl
  unfold ShadowsSound
  simp only [counts]
  exact ⟨fun ⟨count, once⟩ => ⟨count, once⟩, fun ⟨count, once⟩ => ⟨count, once⟩⟩

end Machine

open Machine

/-- Settles O13: the reservation law and the shadow law, each carried along the steps of the core together with what rests
claiming nothing. -/
theorem stepKeepsTheClaimsSound : Obligations.StepKeepsTheClaimsSound := by
  refine ⟨fun s t cranes h hs => ?_, fun s t cranes h hs => ?_⟩
  · have both : t.core.Rested ∧ t.core.Reserved :=
      step_keeps_of_coreStep (P := fun a => a.Rested ∧ a.Reserved)
        (fun _ _ h step => ⟨h.1.step step, h.2.step h.1 step⟩) ⟨rested_of_sound cranes, (reservationsSound_iff s).1 h⟩ hs
    exact (reservationsSound_iff t).2 both.2
  · have both : t.core.Rested ∧ t.core.Shadowed :=
      step_keeps_of_coreStep (P := fun a => a.Rested ∧ a.Shadowed)
        (fun _ _ h step => ⟨h.1.step step, h.2.step h.1 step⟩) ⟨rested_of_sound cranes, (shadowsSound_iff s).1 h⟩ hs
    exact (shadowsSound_iff t).2 both.2

end Sys2Proof
end

