-- ==== Sys2Proof/Proofs/GeneralUnits.lean ====
section
/-! PROOF of O36: a GENERAL-UP block refreshes its sender, learns it into the lowest free record, or counts it (R40, R41). -/

namespace Sys2Proof
namespace Machine

/-! ### The lowest free record (R40) -/

section FirstFree

variable {α : Type} {l : List (Nat × α)}

/-- Every number below the lowest free one is used. -/
theorem sparseFind_below_firstFree (n : Nat) {i : Nat} (low : n ≤ i) (below : i < firstFree l n) :
    sparseFind l i ≠ none := by
  induction l generalizing n with
  | nil =>
    simp only [firstFree] at below
    omega
  | cons e l ih =>
    obtain ⟨j, w⟩ := e
    simp only [firstFree] at below
    split at below
    next used =>
      subst used
      simp only [sparseFind]
      split
      · simp
      · exact ih (j + 1) (by omega) below
    next => omega

/-- The lowest free number is the free one below which all are used. -/
theorem firstFree_eq (sorted : sparseSorted l) {j : Nat} (free : sparseFind l j = none)
    (used : ∀ i, i < j → sparseFind l i ≠ none) : firstFree l 0 = j := by
  have free' := (sparseFind_firstFree sorted 0 fun _ _ => Nat.zero_le _).1
  rcases lt_trichotomy (firstFree l 0) j with below | same | above
  · exact absurd free' (used _ below)
  · exact same
  · exact absurd free (sparseFind_below_firstFree 0 (Nat.zero_le _) above)

/-- A table is full when no number within it is free. -/
theorem full_iff (sorted : sparseSorted l) (n : Nat) :
    (∀ j : Fin n, sparseFind l j.val ≠ none) ↔ ¬firstFree l 0 < n := by
  refine ⟨fun full free => ?_, fun full j => ?_⟩
  · exact full ⟨_, free⟩ (sparseFind_firstFree sorted 0 fun _ _ => Nat.zero_le _).1
  · exact sparseFind_below_firstFree 0 (Nat.zero_le _) (by omega)

end FirstFree

/-! ### A sender heard (R41) -/

section Hear

variable {x : CellId} {unit : Addr} {s : State}

theorem hearGeneral_known {j : GeneralId} (known : dirFind s unit = some (.general j)) :
    hearGeneral x unit s = s.setGeneral (sparseInsert s.cov.general j.val { unit := unit, cell := x, age := 0 }) := by
  simp [hearGeneral, known]

theorem hearGeneral_defined {t : DirTarget} (known : dirFind s unit = some t) (defined : t.defined = true) :
    hearGeneral x unit s = s.countCov fun k => { k with fromDefined := k.fromDefined + 1 } := by
  cases t with
  | general j => simp [DirTarget.defined] at defined
  | crane k => simp [hearGeneral, known]
  | reefer i => simp [hearGeneral, known]

theorem hearGeneral_learned {j : GeneralId} (unknown : dirFind s unit = none)
    (on : s.params.features.generalLearning = true) (free : firstFree s.cov.general 0 = j.val) :
    hearGeneral x unit s =
      (dirSet unit (.general j)
        (s.setGeneral (sparseInsert s.cov.general j.val { unit := unit, cell := x, age := 0 }))).countCov fun k =>
          { k with learned := k.learned + 1 } := by
  have within : j.val < Config.generalUnits := j.isLt
  simp [hearGeneral, unknown, learnGeneral, within, on, free]

theorem hearGeneral_notLearned (unknown : dirFind s unit = none)
    (refused : s.params.features.generalLearning = false ∨ ¬firstFree s.cov.general 0 < 1024) :
    hearGeneral x unit s =
      s.countCov (CoverageCounters.notLearned (!s.params.features.generalLearning)
        (!decide (firstFree s.cov.general 0 < 1024))) := by
  by_cases free : firstFree s.cov.general 0 < 1024
  · have off : s.params.features.generalLearning = false := refused.resolve_right (not_not_intro free)
    simp [hearGeneral, unknown, learnGeneral, Config.generalUnits, free, off]
  · simp [hearGeneral, unknown, learnGeneral, Config.generalUnits, free]

/-- A sender heard shows in the directory, the general records and the counters alone. -/
theorem hearGeneral_frame (x : CellId) (unit : Addr) (s : State) : hearGeneral x unit s =
    { s with
      cov :=
        { s.cov with
          directory := (hearGeneral x unit s).cov.directory, general := (hearGeneral x unit s).cov.general
          counters := (hearGeneral x unit s).cov.counters } } := by
  unfold hearGeneral
  split
  · rfl
  · unfold learnGeneral
    dsimp only
    split
    · split <;> rfl
    · rfl
  all_goals rfl

end Hear

/-! ### The block (R41) -/

theorem takeGeneralUp_oversize {payload : List Byte} (long : 1484 < payload.length) (x : CellId) (unit : Addr) (s : State) :
    takeGeneralUp x unit payload s = s.countCov fun k => { k with oversize := k.oversize + 1 } := if_pos long

theorem takeGeneralUp_offered {payload : List Byte} (fits : payload.length ≤ 1484) (x : CellId) (unit : Addr) (s : State) :
    takeGeneralUp x unit payload s =
      { hearGeneral x unit s with
        port := (s.port.offer .generalUp
          { dst := 0xFFFFFFFFFFFF#48, src := s.mgmtAddress, etherType := s.params.quayType
            content := .general unit payload }).1 } := by
  unfold takeGeneralUp
  rw [if_neg (by simp only [Config.generalUpPayload]; omega)]
  dsimp only [State.offer, State.frame, State.mgmtAddress, State.params]
  rw [hearGeneral_frame]
  rfl

/-- A dispatched block touches the chain of its cell and the cell. -/
theorem dispatched_keeps (s : State) (x : CellId) : (s.dispatched x).port = s.port ∧ (s.dispatched x).mgmt = s.mgmt
    ∧ (s.dispatched x).cov = { s.cov with cells := (s.dispatched x).cov.cells } := by
  unfold State.dispatched State.lineHeard State.modChain
  cases chainOf x <;> exact ⟨rfl, rfl, rfl⟩

end Machine

open Machine

/-- Settles O36: what hearing the sender does in each case of the directory, and the frame offered after it. -/
theorem generalUnitIsLearnedOrRefreshed : Obligations.GeneralUnitIsLearnedOrRefreshed := by
  intro x unit payload s dispatched tables filled d
  have taken : exec (.generalUp x unit payload) s = .next (takeGeneralUp x unit payload d) := by
    refine (State.take_awake dispatched.awake _).trans ?_
    rw [decide_eq_true filled, uplinkBlock_dispatched dispatched]
  obtain ⟨port, mgmt, cov⟩ := dispatched_keeps s x
  have directory : d.cov.directory = s.cov.directory := (congrArg Coverage.directory cov).trans rfl
  have general : d.cov.general = s.cov.general := (congrArg Coverage.general cov).trans rfl
  have counters : d.cov.counters = s.cov.counters := (congrArg Coverage.counters cov).trans rfl
  have params : d.params = s.params := congrArg Mgmt.params mgmt
  have find : dirFind d unit = dirFind s unit := congrArg (sparseFind · unit.toNat) directory
  refine ⟨fun long => ?_, fun fits => ⟨_, taken, ?_⟩⟩
  · rw [taken, takeGeneralUp_oversize long]
  rw [takeGeneralUp_offered fits]
  dsimp only
  refine ⟨?_, fun j known => ?_, fun unknown on j free used => ?_, fun unknown refused => ?_, fun i known => ?_,
    fun i known => ?_, ?_⟩
  · rw [hearGeneral_frame]
    dsimp only
    rw [cov]
  · rw [hearGeneral_known (find.trans known)]
    refine ⟨directory, counters, sparseFind_insert_same .., fun i apart => ?_⟩
    rw [← general]
    exact sparseFind_insert_ne _ apart _
  · have first : firstFree d.cov.general 0 = j.val := by
      rw [general]
      exact firstFree_eq tables.general free used
    rw [hearGeneral_learned (find.trans unknown) (by rw [params, on]) first]
    refine ⟨sparseFind_insert_same .., sparseFind_insert_same .., fun i apart => ?_, ?_⟩
    · rw [← general]
      exact sparseFind_insert_ne _ apart _
    · rw [← counters]
      rfl
  · have full := full_iff tables.general 1024
    rw [full] at refused ⊢
    rw [hearGeneral_notLearned (find.trans unknown) (by rw [params, general]; exact refused)]
    refine ⟨directory, general, fun on => ?_, fun off => ?_, fun room => ?_, fun none => ?_⟩
    · rw [← counters]
      simp [State.countCov, CoverageCounters.notLearned, params, on]
    · rw [← counters]
      simp [State.countCov, CoverageCounters.notLearned, params, off]
    · rw [← counters]
      simp only [not_not] at room
      simp [State.countCov, CoverageCounters.notLearned, general, room]
    · rw [← counters]
      simp [State.countCov, CoverageCounters.notLearned, general, none]
  · rw [hearGeneral_defined (find.trans known) rfl, ← counters]
    rfl
  · rw [hearGeneral_defined (find.trans known) rfl, ← counters]
    rfl
  · rw [port, params]
    unfold State.mgmtAddress
    rw [mgmt]

end Sys2Proof
end

