-- ==== Sys2Proof/Proofs/BarredCells.lean ====
section
/-! PROOF of O58: BAR-CELL and UNBAR-CELL set the barred flag of a cell as one event of the cell, and what follows is taken
after the answer (R30, R31, R34; log 9). -/

namespace Sys2Proof
namespace Machine

/-- A cell set to the record it holds leaves the state. -/
theorem State.modCell_same {s : State} {x : CellId} {f : Cell → Cell} (h : f (s.cell x) = s.cell x) : s.modCell x f = s := by
  have held : s.cov.cells.set x (f s.cov.cells[x]) = s.cov.cells := by
    rw [show f s.cov.cells[x] = s.cov.cells[x] from h]
    exact Vector.set_getElem_self _
  unfold State.modCell
  rw [held]

/-- An event that changes nothing raises no flag and hands nothing on. -/
theorem coverageEvent_same {s : State} {x : CellId} {f : State → State} (h : f s = s) : coverageEvent x f s = s := by
  simp [coverageEvent, h, flagRaised]

/-- A barred flag set to what it holds leaves the state. -/
theorem setBarred_same {s : State} {x : CellId} {b : Bool} (h : (s.cell x).barred = b) : setBarred x b s = s := by
  subst h
  exact coverageEvent_same (State.modCell_same rfl)

/-- A barred flag set is one event of the cell. -/
theorem setBarred_event (s : State) (x : CellId) (b : Bool) :
    CellEvent x s (s.modCell x fun r => { r with barred := b }) (setBarred x b s) :=
  coverageEvent_cellEvent x (fun t => t.modCell x fun r => { r with barred := b }) s

/-- The cells once a barred flag is set: the flag alone, and the change flag raised when it changes. -/
theorem setBarred_cell (s : State) (x : CellId) (b : Bool) :
    (setBarred x b s).cell x = { s.cell x with barred := b, changed := ((setBarred x b s).cell x).changed }
      ∧ (∀ y, y ≠ x → (setBarred x b s).cell y = s.cell y)
      ∧ ((s.cell x).barred ≠ b → ((setBarred x b s).cell x).changed = true) := by
  have event := setBarred_event s x b
  refine ⟨?_, fun y apart => ?_, fun differs => ?_⟩
  · have cell := event.cell
    rwa [State.cell_modCell] at cell
  · rw [event.others y apart, State.cell_modCell_ne _ apart]
  · refine event.flag.2 (.inr (.inr (.inl ?_)))
    rwa [State.cell_modCell]

/-- A bar request at the head of the queue: the flag is set, the answer is OK, and what follows is taken then. -/
theorem serve_bars {s : State} {k : RequestKind} {q : Request} {rest : List Request} (h : HeadIs s k q rest)
    (alone : k.continuesLoad = false) {x : CellId} (data : q.data = [BitVec.ofNat 8 x.val]) (b : Bool) :
    s.take (serve k (withArg (octetBelow 16) (barRequest b))) =
      .next (settle ((setBarred x b (s.taking q rest)).answered q .ok s.abandonedFlag false .none)) := by
  rw [State.take_awake h.awake, serve_head h, alone]
  obtain ⟨taken, executed⟩ := executeHead_interleaves q rest (withArg (octetBelow 16) (barRequest b)) s
  rw [Bool.not_false, executed, withArg_some (by rw [data]; exact octetBelow_ofNat (by decide) x)]
  rfl

/-- Either bar command at the head of the queue. -/
theorem exec_bars {s : State} {q : Request} {rest : List Request} {x : CellId} {b : Bool}
    (h : HeadIs s (if b then .barCell else .unbarCell) q rest) (data : q.data = [BitVec.ofNat 8 x.val]) :
    exec (if b then .barCell else .unbarCell) s =
      .next (settle ((setBarred x b (s.taking q rest)).answered q .ok s.abandonedFlag false .none)) := by
  cases b with
  | true => exact serve_bars (k := .barCell) h rfl data true
  | false => exact serve_bars (k := .unbarCell) h rfl data false

end Machine

open Machine

/-- Settles O58: the event sets the flag, and what is taken after the answer touches no cell but for claims and change flags
raised. -/
theorem barAndUnbarSetTheFlag : Obligations.BarAndUnbarSetTheFlag := by
  intro q rest x barred s head data settled row u
  obtain ⟨cell, others, raised⟩ := setBarred_cell u x barred
  have answered : ∀ y, ((setBarred x barred u).answered q .ok s.abandonedFlag false .none).cell y =
      (setBarred x barred u).cell y := fun _ => rfl
  have kept := (settle_run ((setBarred x barred u).answered q .ok s.abandonedFlag false .none)).kept
  have stands := kept.cell
  have flag := kept.flag
  simp only [State.core_cells, answered] at stands flag
  refine ⟨_, exec_bars head data, ?_, ?_, ?_, ?_, ?_, fun y apart => ?_, fun differs => ?_, fun same => ?_,
    setBarred x barred u, setBarred_event u x barred, rfl⟩
  · obtain ⟨p, cov, clu, ev, follows⟩ := settle_linkOnly ((setBarred x barred u).answered q .ok s.abandonedFlag false .none)
    obtain ⟨_, _, _, _, bars⟩ := setBarred_linkOnly x barred u
    refine ⟨p, cov, clu, ev, ?_⟩
    rw [follows, bars]
    rfl
  · rw [stands, cell]
  · rw [stands, cell]
    rfl
  · rw [stands, cell]
    rfl
  · rw [stands, cell]
    rfl
  · rw [stands, others y apart]
    rfl
  · exact flag x (raised differs)
  · rw [setBarred_same (s := u) same]
    exact settle_of_no_events settled

end Sys2Proof
end

