-- ==== Sys2Proof/Proofs/ReportTicks.lean ====
section
/-! PROOF of O39: the report tick visits each listed reefer once, a visit reaches of another reefer its batch reference alone,
and so a reefer after the tick is what its own visit makes of it (R105-R107); and likewise the general records (R42). -/

namespace Sys2Proof
namespace Machine

/-! ### The numbers a keyed table lists -/

section Listed

variable {α : Type} {l : List (Nat × α)} {n : Nat}

/-- The numbers below a bound that a keyed list uses, in its order. -/
def listed (n : Nat) (l : List (Nat × α)) : List (Fin n) :=
  l.filterMap fun e => if h : e.1 < n then some ⟨e.1, h⟩ else none

theorem State.reeferIds_eq (s : State) : s.reeferIds = listed 4096 s.ree.reefers := rfl

theorem State.generalIds_eq (s : State) : s.generalIds = listed 1024 s.cov.general := rfl

theorem listed_nodup (sorted : sparseSorted l) : (listed n l).Nodup := by
  refine List.Pairwise.filterMap _ (fun a b lt x hx y hy => ?_) sorted
  simp only [Option.dite_none_right_eq_some, Option.some.injEq] at hx hy
  obtain ⟨_, rfl⟩ := hx
  obtain ⟨_, rfl⟩ := hy
  exact fun e => absurd (congrArg Fin.val e) (Nat.ne_of_lt lt)

theorem mem_listed {i : Fin n} {v : α} (found : sparseFind l i.val = some v) : i ∈ listed n l :=
  List.mem_filterMap.2 ⟨(i.val, v), mem_of_sparseFind found, by simp⟩

end Listed

/-- A reefer that is not VACANT is listed. -/
theorem mem_reeferIds {s : State} {i : ReeferId} (h : (s.reefer i).state ≠ .vacant) : i ∈ s.reeferIds := by
  cases found : sparseFind s.ree.reefers i.val with
  | some r =>
    rw [State.reeferIds_eq]
    exact mem_listed found
  | none => exact absurd (by simp [State.reefer, found, Reefer.vacant]) h

/-! ### What a visit leaves of another reefer (R114) -/

/-- The pool and the reefers alone change, the groups stand, and of reefer `i` its batch reference at most. -/
structure Apart (i : ReeferId) (s t : State) : Prop where
  only : PoolOnly s t
  groups : t.ree.groups = s.ree.groups
  reefer : t.reefer i = { s.reefer i with ref := (t.reefer i).ref }

section Apart

variable {i j : ReeferId}

theorem Apart.refl (s : State) : Apart i s s := ⟨.refl s, rfl, rfl⟩

theorem Apart.trans {s t u : State} (h : Apart i s t) (g : Apart i t u) : Apart i s u :=
  ⟨h.only.trans g.only, g.groups.trans h.groups, by rw [g.reefer, h.reefer]⟩

theorem PoolRun.apart {s t : State} (h : PoolRun s t) : Apart i s t := ⟨h.only, h.groups, h.reefer i⟩

theorem modReefer_apart (h : i ≠ j) (f : Reefer → Reefer) (s : State) : Apart i s (s.modReefer j f) :=
  ⟨modReefer_poolOnly j f s, rfl, by rw [State.reefer_modReefer_ne _ h]⟩

theorem enterSilent_apart (h : i ≠ j) (d : ReeferDef) (s : State) : Apart i s (enterSilent j d s) := by
  have placed : ∀ e u, Apart i u (placeEntry e .urgent u).1 := fun e u => (placeEntry_poolRun e .urgent u).apart
  unfold enterSilent
  dsimp only
  split
  · exact (modReefer_apart h _ _).trans (placed _ _)
  · exact ((modReefer_apart h _ _).trans (placed _ _)).trans (modReefer_apart h _ _)

theorem chargeMiss_apart (h : i ≠ j) (d : ReeferDef) (g : GroupDef) (s : State) : Apart i s (chargeMiss j d g s) := by
  unfold chargeMiss
  split
  · exact modReefer_apart h _ _
  · dsimp only
    split
    · exact (modReefer_apart h _ _).trans (enterSilent_apart h _ _)
    · exact modReefer_apart h _ _

theorem missIfDue_apart (h : i ≠ j) (s : State) : Apart i s (missIfDue j s) := by
  unfold missIfDue
  split
  · split
    · exact .refl s
    · split
      · exact (modReefer_apart h _ _).trans (chargeMiss_apart h _ _ _)
      · exact .refl s
  · exact .refl s

theorem tickReefer_apart (h : i ≠ j) (s : State) : Apart i s (tickReefer s j) := by
  unfold tickReefer
  split
  · exact (modReefer_apart h _ _).trans (missIfDue_apart h _)
  all_goals exact .refl s

theorem tickReefers_apart {l : List ReeferId} (h : i ∉ l) (s : State) : Apart i s (l.foldl tickReefer s) := by
  induction l generalizing s with
  | nil => exact .refl s
  | cons j l ih =>
    obtain ⟨here, later⟩ := not_or.1 (mt List.mem_cons.2 h)
    exact (tickReefer_apart here s).trans (ih later _)

/-- A reefer visited once is what its own visit makes of it, but for its batch reference. -/
theorem tickReefers_visited {l : List ReeferId} (once : l.Nodup) (h : i ∈ l) (s : State) :
    ∃ u, Apart i s u ∧ Apart i (tickReefer u i) (l.foldl tickReefer s) := by
  obtain ⟨before, after, rfl⟩ := List.append_of_mem h
  have once' := List.nodup_middle.1 once
  obtain ⟨outside, -⟩ := List.nodup_cons.1 once'
  obtain ⟨notBefore, notAfter⟩ := not_or.1 (mt List.mem_append.2 outside)
  rw [List.foldl_append, List.foldl_cons]
  exact ⟨_, tickReefers_apart notBefore s, tickReefers_apart notAfter _⟩

end Apart

/-! ### A reefer's own visit (R105-R107) -/

section Visit

variable {i : ReeferId} {d : ReeferDef} {g : GroupDef} {s : State}

theorem servingUsable_eq_false (s : State) (r : Reefer) :
    servingUsable s r = false ↔ ∀ x, r.cell = some x → ¬usable s x = true := by
  unfold servingUsable
  cases r.cell <;> simp

/-- A reefer that enters SILENT: its state and its count, and what the pool's answer leaves of its reference and of what it is
owed. -/
theorem enterSilent_reefer (i : ReeferId) (d : ReeferDef) (s : State) : ∃ ref owed, (enterSilent i d s).reefer i =
      { s.reefer i with
        state := .silent, ref := ref, owed := owed
        counters := { (s.reefer i).counters with silences := (s.reefer i).counters.silences + 1 } }
    ∧ ((s.reefer i).owed = true → owed = true) := by
  have placed := fun e u => (placeEntry_poolRun e .urgent u).reefer i
  unfold enterSilent
  dsimp only
  split
  · exact ⟨_, _, by rw [placed, State.reefer_modReefer], id⟩
  · exact ⟨_, true, by rw [State.reefer_modReefer, placed, State.reefer_modReefer], fun _ => rfl⟩

/-- A miss is masked behind a serving cell that is not usable while the feature is on (R106). -/
def Masked (s : State) (r : Reefer) : Prop :=
  s.params.features.missMasking = true ∧ ∀ x, r.cell = some x → ¬usable s x = true

theorem masked_iff (s : State) (r : Reefer) :
    (s.params.features.missMasking && !servingUsable s r) = true ↔ Masked s r := by
  rw [Bool.and_eq_true, Bool.not_eq_true', servingUsable_eq_false]
  rfl

theorem chargeMiss_masked (h : Masked s (s.reefer i)) : (chargeMiss i d g s).reefer i =
    { s.reefer i with
      masked := min ((s.reefer i).masked + 1) 255
      counters := { (s.reefer i).counters with maskedMisses := (s.reefer i).counters.maskedMisses + 1 } } := by
  rw [chargeMiss, if_pos ((masked_iff _ _).2 h), State.reefer_modReefer]
  rfl

/-- A miss counted against a reefer (R106). -/
def Reefer.missed (r : Reefer) : Reefer :=
  { r with miss := min (r.miss + 1) 15, counters := { r.counters with misses := r.counters.misses + 1 } }

theorem chargeMiss_unmasked (h : ¬Masked s (s.reefer i)) : chargeMiss i d g s =
    if g.silentLimit ≤ min ((s.reefer i).miss + 1) 15 then enterSilent i d (s.modReefer i Reefer.missed)
    else s.modReefer i Reefer.missed := by
  rw [chargeMiss, if_neg (mt (masked_iff _ _).1 h)]
  dsimp only
  rw [State.reefer_modReefer]
  rfl

/-- A visit of a reefer whose age stays short of the interval. -/
theorem tickReefer_young (reporting : (s.reefer i).state = .reporting) (defn : (s.reefer i).defn = some d)
    (group : (s.group d.group).defn = some g) (young : (s.reefer i).age + 1 < g.interval) :
    (tickReefer s i).reefer i = { s.reefer i with age := (s.reefer i).age + 1 } := by
  have group' : ((s.modReefer i fun r => { r with age := r.age + 1 }).group d.group).defn = some g := group
  simp [tickReefer, missIfDue, reporting, defn, group', Nat.not_le.2 young]

/-- A visit of a reefer whose miss is due: its age is back at 0, and the miss is charged. -/
theorem tickReefer_due (reporting : (s.reefer i).state = .reporting) (defn : (s.reefer i).defn = some d)
    (group : (s.group d.group).defn = some g) (due : g.interval ≤ (s.reefer i).age + 1) :
    ∃ u, tickReefer s i = chargeMiss i d g u ∧ u.reefer i = { s.reefer i with age := 0 } ∧ PoolOnly s u := by
  have group' : ((s.modReefer i fun r => { r with age := r.age + 1 }).group d.group).defn = some g := group
  refine ⟨(s.modReefer i fun r => { r with age := r.age + 1 }).modReefer i fun r => { r with age := 0 }, ?_, ?_,
    (modReefer_poolOnly _ _ _).trans (modReefer_poolOnly _ _ _)⟩
  · simp [tickReefer, missIfDue, reporting, defn, group', due]
  · simp

theorem tickReefer_other (h : (s.reefer i).state ≠ .reporting) : tickReefer s i = s := by
  unfold tickReefer
  split
  next reporting => exact absurd reporting h
  all_goals rfl

theorem Masked.of_poolOnly {t : State} {r q : Reefer} (h : PoolOnly s t) (cell : q.cell = r.cell) :
    Masked t q ↔ Masked s r := by
  obtain ⟨_, _, _, _, rfl⟩ := h
  unfold Masked
  rw [cell]
  rfl

/-- A due visit, masked. -/
theorem tickReefer_masked (reporting : (s.reefer i).state = .reporting) (defn : (s.reefer i).defn = some d)
    (group : (s.group d.group).defn = some g) (due : g.interval ≤ (s.reefer i).age + 1) (masked : Masked s (s.reefer i)) :
    (tickReefer s i).reefer i =
      { s.reefer i with
        age := 0, masked := min ((s.reefer i).masked + 1) 255
        counters := { (s.reefer i).counters with maskedMisses := (s.reefer i).counters.maskedMisses + 1 } } := by
  obtain ⟨u, visit, reefer, only⟩ := tickReefer_due reporting defn group due
  have masked' : Masked u (u.reefer i) := (Masked.of_poolOnly only (by rw [reefer])).2 masked
  rw [visit, chargeMiss_masked masked', reefer]

/-- A due visit, the miss counted short of the silent limit. -/
theorem tickReefer_counted (reporting : (s.reefer i).state = .reporting) (defn : (s.reefer i).defn = some d)
    (group : (s.group d.group).defn = some g) (due : g.interval ≤ (s.reefer i).age + 1)
    (unmasked : ¬Masked s (s.reefer i)) (short : min ((s.reefer i).miss + 1) 15 < g.silentLimit) :
    (tickReefer s i).reefer i = { (s.reefer i).missed with age := 0 } := by
  obtain ⟨u, visit, reefer, only⟩ := tickReefer_due reporting defn group due
  have unmasked' : ¬Masked u (u.reefer i) := mt (Masked.of_poolOnly only (by rw [reefer])).1 unmasked
  rw [visit, chargeMiss_unmasked unmasked', reefer, if_neg (Nat.not_le.2 short), State.reefer_modReefer, reefer]
  rfl

/-- A due visit, the miss counted up to the silent limit. -/
theorem tickReefer_silent (reporting : (s.reefer i).state = .reporting) (defn : (s.reefer i).defn = some d)
    (group : (s.group d.group).defn = some g) (due : g.interval ≤ (s.reefer i).age + 1)
    (unmasked : ¬Masked s (s.reefer i)) (long : g.silentLimit ≤ min ((s.reefer i).miss + 1) 15) :
    ∃ ref owed, (tickReefer s i).reefer i =
        { s.reefer i with
          state := .silent, age := 0, miss := min ((s.reefer i).miss + 1) 15, ref := ref, owed := owed
          counters := { (s.reefer i).counters with
            misses := (s.reefer i).counters.misses + 1, silences := (s.reefer i).counters.silences + 1 } }
      ∧ ((s.reefer i).owed = true → owed = true) := by
  obtain ⟨u, visit, reefer, only⟩ := tickReefer_due reporting defn group due
  have unmasked' : ¬Masked u (u.reefer i) := mt (Masked.of_poolOnly only (by rw [reefer])).1 unmasked
  obtain ⟨ref, owed, silent, owes⟩ := enterSilent_reefer i d (u.modReefer i Reefer.missed)
  rw [State.reefer_modReefer, reefer] at silent owes
  rw [visit, chargeMiss_unmasked unmasked', reefer, if_pos long]
  exact ⟨ref, owed, silent, owes⟩

/-- A due visit leaves the age at 0. -/
theorem tickReefer_age (reporting : (s.reefer i).state = .reporting) (defn : (s.reefer i).defn = some d)
    (group : (s.group d.group).defn = some g) (due : g.interval ≤ (s.reefer i).age + 1) :
    ((tickReefer s i).reefer i).age = 0 := by
  by_cases masked : Masked s (s.reefer i)
  · rw [tickReefer_masked reporting defn group due masked]
  · rcases Nat.lt_or_ge (min ((s.reefer i).miss + 1) 15) g.silentLimit with short | long
    · rw [tickReefer_counted reporting defn group due masked short]
    · obtain ⟨ref, owed, silent, -⟩ := tickReefer_silent reporting defn group due masked long
      rw [silent]

end Visit

/-! ### The general records (R42) -/

/-- The Coverage Unit alone changes. -/
def CovOnly (s t : State) : Prop := t = { s with cov := t.cov }

section General

variable {j : GeneralId} {s : State}

theorem CovOnly.trans {s t u : State} (h : CovOnly s t) (g : CovOnly t u) : CovOnly s u := by
  unfold CovOnly at *
  rw [g, h]

theorem CovOnly.params {s t : State} (h : CovOnly s t) : t.params = s.params := by
  unfold CovOnly at h
  rw [h]
  rfl

theorem CovOnly.reefer {s t : State} (h : CovOnly s t) (i : ReeferId) : t.reefer i = s.reefer i := by
  unfold CovOnly at h
  rw [h]
  rfl

theorem ageOutIfDue_old {r : GeneralRec} (found : sparseFind s.cov.general j.val = some r) (old : s.params.ageOutS ≤ r.age) :
    ageOutIfDue j s =
      { s with
        cov :=
          { s.cov with
            directory := sparseErase s.cov.directory r.unit.toNat, general := sparseErase s.cov.general j.val
            counters := { s.cov.counters with agedOut := s.cov.counters.agedOut + 1 } } } := by
  simp [ageOutIfDue, found, old, removeGeneral, dirErase, State.setGeneral, State.countCov]

theorem ageOutIfDue_young {r : GeneralRec} (found : sparseFind s.cov.general j.val = some r) (young : r.age < s.params.ageOutS) :
    ageOutIfDue j s = s := by
  simp [ageOutIfDue, found, Nat.not_le.2 young]

/-- A visit of a general record: one second older, and removed at the age-out. -/
theorem tickGeneral_found {r : GeneralRec} (found : sparseFind s.cov.general j.val = some r) :
    CovOnly s (tickGeneral s j) ∧ ∀ i, sparseFind (tickGeneral s j).cov.general i =
      if i = j.val then (if s.params.ageOutS ≤ r.age + 1 then none else some { r with age := r.age + 1 })
      else sparseFind s.cov.general i := by
  have visit : tickGeneral s j =
      ageOutIfDue j (s.setGeneral (sparseInsert s.cov.general j.val { r with age := r.age + 1 })) := by
    simp [tickGeneral, found]
  have older : sparseFind (s.setGeneral (sparseInsert s.cov.general j.val { r with age := r.age + 1 })).cov.general j.val =
      some { r with age := r.age + 1 } := sparseFind_insert_same ..
  by_cases old : s.params.ageOutS ≤ r.age + 1
  · rw [visit, ageOutIfDue_old older old]
    refine ⟨rfl, fun i => ?_⟩
    rw [if_pos old]
    dsimp only [State.setGeneral]
    rw [sparseFind_erase, sparseFind_insert]
    split <;> rfl
  · rw [visit, ageOutIfDue_young older (Nat.lt_of_not_le old)]
    refine ⟨rfl, fun i => ?_⟩
    rw [if_neg old]
    exact sparseFind_insert ..

theorem tickGeneral_free (found : sparseFind s.cov.general j.val = none) : tickGeneral s j = s := by
  simp [tickGeneral, found]

theorem tickGeneral_covOnly (s : State) (j : GeneralId) : CovOnly s (tickGeneral s j) := by
  cases found : sparseFind s.cov.general j.val with
  | none => rw [tickGeneral_free found]; rfl
  | some r => exact (tickGeneral_found found).1

theorem tickGeneral_ne (s : State) {i j : GeneralId} (h : i ≠ j) :
    sparseFind (tickGeneral s j).cov.general i.val = sparseFind s.cov.general i.val := by
  cases found : sparseFind s.cov.general j.val with
  | none => rw [tickGeneral_free found]
  | some r => rw [(tickGeneral_found found).2, if_neg fun e => h (Fin.ext e)]

theorem tickGenerals_covOnly (l : List GeneralId) (s : State) : CovOnly s (l.foldl tickGeneral s) := by
  induction l generalizing s with
  | nil => rfl
  | cons j l ih => exact (tickGeneral_covOnly s j).trans (ih _)

theorem tickGenerals_outside {l : List GeneralId} (h : j ∉ l) (s : State) :
    sparseFind (l.foldl tickGeneral s).cov.general j.val = sparseFind s.cov.general j.val := by
  induction l generalizing s with
  | nil => rfl
  | cons i l ih =>
    obtain ⟨here, later⟩ := not_or.1 (mt List.mem_cons.2 h)
    exact (ih later _).trans (tickGeneral_ne s here)

/-- A general record visited once is what its own visit makes of it. -/
theorem tickGenerals_visited {l : List GeneralId} (once : l.Nodup) (h : j ∈ l) {r : GeneralRec}
    (found : sparseFind s.cov.general j.val = some r) :
    sparseFind (l.foldl tickGeneral s).cov.general j.val =
      if s.params.ageOutS ≤ r.age + 1 then none else some { r with age := r.age + 1 } := by
  obtain ⟨before, after, rfl⟩ := List.append_of_mem h
  obtain ⟨outside, -⟩ := List.nodup_cons.1 (List.nodup_middle.1 once)
  obtain ⟨notBefore, notAfter⟩ := not_or.1 (mt List.mem_append.2 outside)
  have params : (before.foldl tickGeneral s).params = s.params := (tickGenerals_covOnly before s).params
  rw [List.foldl_append, List.foldl_cons, tickGenerals_outside notAfter,
    (tickGeneral_found ((tickGenerals_outside notBefore s).trans found)).2, if_pos rfl, params]

end General

/-! ### The report tick -/

/-- The reefers' part of the report tick. -/
def tickReefers (s : State) : State := s.reeferIds.foldl tickReefer s

theorem reportTick_eq (s : State) : reportTick s = (tickReefers s).generalIds.foldl tickGeneral (tickReefers s) := rfl

theorem tickReefers_poolOnly (s : State) : PoolOnly s (tickReefers s) := .foldl tickReefer_poolOnly _ s

theorem reportTick_covOnly (s : State) : CovOnly (tickReefers s) (reportTick s) := tickGenerals_covOnly _ _

theorem reportTick_reefer (s : State) (i : ReeferId) : (reportTick s).reefer i = (tickReefers s).reefer i :=
  (reportTick_covOnly s).reefer i

/-- A visit as the commands of its parts: MISS-CHARGE on the reefer one second older. -/
theorem tickReefer_eq_exec {s : State} (awake : s.held = false) (i : ReeferId) : tickReefer s i =
    if (s.reefer i).state = .reporting then
      match exec (.missCharge i) (s.modReefer i fun r => { r with age := r.age + 1 }) with
      | .next w => w
      | _ => s
    else s := by
  by_cases reporting : (s.reefer i).state = .reporting
  · have charged : exec (.missCharge i) (s.modReefer i fun r => { r with age := r.age + 1 }) =
        .next (missIfDue i (s.modReefer i fun r => { r with age := r.age + 1 })) :=
      State.take_awake (s := s.modReefer i fun r => { r with age := r.age + 1 }) awake _
    rw [if_pos reporting, charged]
    simp [tickReefer, reporting]
  · rw [if_neg reporting, tickReefer_other reporting]

/-- The visits in index order, each as MISS-CHARGE. -/
theorem tickReefers_eq_exec {s : State} (awake : s.held = false) (l : List ReeferId) : l.foldl tickReefer s =
    l.foldl (fun v i =>
      if (v.reefer i).state = .reporting then
        match exec (.missCharge i) (v.modReefer i fun r => { r with age := r.age + 1 }) with
        | .next w => w
        | _ => v
      else v) s := by
  induction l generalizing s with
  | nil => rfl
  | cons i l ih =>
    have awake' : (tickReefer s i).held = false := by
      obtain ⟨_, _, _, _, visit⟩ := tickReefer_poolOnly s i
      rw [visit, ← awake]
    rw [List.foldl_cons, List.foldl_cons, ih awake', tickReefer_eq_exec awake]

/-- A reefer that is not REPORTING is left but for its batch reference. -/
theorem tickReefers_other {s : State} (once : s.reeferIds.Nodup) {i : ReeferId} (h : (s.reefer i).state ≠ .reporting) :
    Apart i s (tickReefers s) := by
  by_cases mem : i ∈ s.reeferIds
  · obtain ⟨u, before, after⟩ := tickReefers_visited once mem s
    rw [tickReefer_other (by rwa [before.reefer])] at after
    exact before.trans after
  · exact tickReefers_apart mem s

end Machine

open Machine

/-- Settles O39: each reefer by its own visit, and each general record by its own. -/
theorem reportTickAgesTheRecords : Obligations.ReportTickAgesTheRecords := by
  refine ⟨fun s awake tables => ?_, fun j r s awake found => ⟨fun old => ?_, fun young => ?_⟩⟩
  · have once : s.reeferIds.Nodup := by
      rw [State.reeferIds_eq]
      exact listed_nodup tables.reefers
    have visited : ∀ i d g, (s.reefer i).defn = some d → (s.group d.group).defn = some g →
        (s.reefer i).state = .reporting → ∃ u, Apart i s u ∧ (u.reefer i).defn = some d ∧ (u.group d.group).defn = some g
          ∧ (u.reefer i).state = .reporting ∧ (Masked u (u.reefer i) ↔ Masked s (s.reefer i))
          ∧ (reportTick s).reefer i =
            { (tickReefer u i).reefer i with ref := ((reportTick s).reefer i).ref } := by
      intro i d g defn group reporting
      obtain ⟨u, before, after⟩ := tickReefers_visited once (mem_reeferIds (i := i) (by simp [reporting])) s
      refine ⟨u, before, by rwa [before.reefer], ?_, by rwa [before.reefer],
        Masked.of_poolOnly before.only (by rw [before.reefer]), ?_⟩
      · rw [State.group, before.groups]
        exact group
      · rw [reportTick_reefer]
        exact after.reefer
    refine ⟨reportTick s, State.take_awake awake _, ?_, fun i d g defn group reporting => ?_,
      fun i d g defn group reporting due => ?_, ⟨tickReefers s, reportTick_covOnly s, tickReefers_eq_exec awake _⟩,
      fun i other => ?_, fun j r found => ?_⟩
    · obtain ⟨_, _, _, _, reefers⟩ := tickReefers_poolOnly s
      have general : reportTick s = { tickReefers s with cov := (reportTick s).cov } := reportTick_covOnly s
      rw [reefers] at general
      exact ⟨_, _, _, _, _, general⟩
    · obtain ⟨u, before, defn', group', reporting', -, after⟩ := visited i d g defn group reporting
      rw [after]
      have age : (u.reefer i).age = (s.reefer i).age := by rw [before.reefer]
      rcases Nat.lt_or_ge ((s.reefer i).age + 1) g.interval with young | due
      · rw [tickReefer_young reporting' defn' group' (by rwa [age]), if_neg (Nat.not_le.2 young), before.reefer]
        exact ⟨rfl, fun _ => ⟨reporting, rfl⟩⟩
      · refine ⟨?_, fun young => absurd due (Nat.not_le.2 young)⟩
        rw [if_pos due]
        exact tickReefer_age reporting' defn' group' (by rwa [age])
    · obtain ⟨u, before, defn', group', reporting', mask, after⟩ := visited i d g defn group reporting
      have age : (u.reefer i).age = (s.reefer i).age := by rw [before.reefer]
      have miss : (u.reefer i).miss = (s.reefer i).miss := by rw [before.reefer]
      have due' : g.interval ≤ (u.reefer i).age + 1 := by rwa [age]
      refine ⟨fun masked => ?_, fun unmasked short => ?_, fun unmasked long => ?_⟩
      · rw [tickReefer_masked reporting' defn' group' due' (mask.2 masked), before.reefer] at after
        exact after
      · rw [tickReefer_counted reporting' defn' group' due' (mt mask.1 unmasked) (by rwa [miss]), before.reefer] at after
        exact after
      · obtain ⟨ref, owed, silent, owes⟩ :=
          tickReefer_silent reporting' defn' group' due' (mt mask.1 unmasked) (by rwa [miss])
        rw [silent, before.reefer] at after
        rw [before.reefer] at owes
        rw [after]
        exact ⟨rfl, owes⟩
    · rw [reportTick_reefer, (tickReefers_other once other).reefer]
      exact ⟨rfl, rfl⟩
    · obtain ⟨_, _, _, _, reefers⟩ := tickReefers_poolOnly s
      have same : (tickReefers s).cov = s.cov := by rw [reefers]
      have params : (tickReefers s).params = s.params := by rw [reefers]; rfl
      have found' : sparseFind (tickReefers s).cov.general j.val = some r := by rwa [same]
      have ids : (tickReefers s).generalIds = listed 1024 s.cov.general := by rw [State.generalIds_eq, same]
      rw [reportTick_eq, ids, ← params]
      exact tickGenerals_visited (listed_nodup tables.general) (mem_listed found) found'
  · exact (State.take_awake awake _).trans (congrArg _ (ageOutIfDue_old found old))
  · exact (State.take_awake awake _).trans (congrArg _ (ageOutIfDue_young found young))

end Sys2Proof
end

