-- ==== Sys2Proof/Proofs/FollowedCranes.lean ====
section
/-! SUPPORT. What handover and the events that follow do to a crane record: which fields they never touch, that a crane in LINKED
or HANDOVER stays in one of the two, and that the laws of R45 stand. -/

namespace Sys2Proof
namespace Machine

/-! ### A crane record under handover and what follows it -/

namespace Crane

/-- A crane whose link stands: LINKED or HANDOVER. -/
def OnLink (c : Crane) : Prop := c.state = .linked ∨ c.state = .handover

/-- A crane record with all that handover and what follows it may change set aside. -/
def steady (c : Crane) : Crane :=
  { c with
    state := .vacant, target := none, countdown := 0, bar := none, deferred := false, progress := 0, shadow := []
    holds := [], keeps := [], queue := []
    counters := { c.counters with
      undeliverable := 0, holdsWithdrawn := 0, starts := 0, failures := 0, deferrals := 0, noticesWithdrawn := 0 } }

/-- What the laws of a crane record speak of (R45). -/
def ties (c : Crane) : Crane :=
  { defn := c.defn, oldHoldOff := c.oldHoldOff, state := c.state, anchor := c.anchor, target := c.target
    shadow := c.shadow, supervision := c.supervision }

theorem sound_ties (c : Crane) : CraneSound c.ties ↔ CraneSound c :=
  ⟨fun ⟨a, b, d, e, f, g, h⟩ => ⟨a, b, d, e, f, g, h⟩, fun ⟨a, b, d, e, f, g, h⟩ => ⟨a, b, d, e, f, g, h⟩⟩

theorem sound_of_ties {c d : Crane} (same : d.ties = c.ties) (h : CraneSound c) : CraneSound d :=
  (sound_ties d).1 (same ▸ (sound_ties c).2 h)

/-- What handover and the events that follow it may make of a crane record. -/
structure Followed (c d : Crane) : Prop where
  steady : d.steady = c.steady
  state : d.state = c.state ∨ d.OnLink ∧ c.OnLink
  sound : CraneSound c → CraneSound d

namespace Followed

variable {c d e : Crane}

theorem refl (c : Crane) : Followed c c := ⟨rfl, .inl rfl, id⟩

theorem trans (h : Followed c d) (g : Followed d e) : Followed c e where
  steady := g.steady.trans h.steady
  state := by
    obtain same | ⟨on, was⟩ := g.state
    · obtain same' | ⟨on', was'⟩ := h.state
      · exact .inl (same.trans same')
      · exact .inr ⟨by rwa [OnLink, same], was'⟩
    · obtain same' | ⟨-, was'⟩ := h.state
      · exact .inr ⟨on, by rwa [OnLink, same'] at was⟩
      · exact .inr ⟨on, was'⟩
  sound := g.sound ∘ h.sound

/-- A change that no law of the record speaks of. -/
theorem quiet (steady : d.steady = c.steady) (ties : d.ties = c.ties) : Followed c d :=
  ⟨steady, .inl (congrArg Crane.state ties :), sound_of_ties ties⟩

theorem onLink (h : Followed c d) (on : c.OnLink) : d.OnLink := by
  obtain same | ⟨on', -⟩ := h.state
  · rwa [OnLink, same]
  · exact on'

theorem live (h : Followed c d) (live : c.Live) : d.Live := by
  obtain same | ⟨on, -⟩ := h.state
  · rwa [Live, same]
  · obtain e | e := on <;> simp [Live, e]

end Followed
end Crane

/-- Handover and the events that follow it lead from one state to the other, as far as the crane records show. -/
def CranesFollow (s t : State) : Prop := ∀ j, (s.crane j).Followed (t.crane j)

namespace CranesFollow

variable {s t u : State}

theorem refl (s : State) : CranesFollow s s := fun _ => .refl _

theorem trans (h : CranesFollow s t) (g : CranesFollow t u) : CranesFollow s u := fun j => (h j).trans (g j)

theorem foldl {α : Type} {f : State → α → State} (h : ∀ s a, CranesFollow s (f s a)) (l : List α) (s : State) :
    CranesFollow s (l.foldl f s) := by
  induction l generalizing s with
  | nil => exact .refl s
  | cons a l ih => exact (h s a).trans (ih _)

theorem of_clu (h : t.clu = s.clu) : CranesFollow s t := fun j => by
  rw [State.crane_congr h]
  exact .refl _

/-- One crane changed as handover may change it. -/
theorem modCrane {k : CraneId} {f : Crane → Crane} (h : (s.crane k).Followed (f (s.crane k))) :
    CranesFollow s (s.modCrane k f) := fun j => by
  by_cases e : j = k
  · subst e
    rwa [State.crane_modCrane]
  · rw [State.crane_modCrane_ne _ e]
    exact .refl _

/-- One crane changed in what no law speaks of. -/
theorem quiet (s : State) (k : CraneId) (f : Crane → Crane) (steady : ∀ c, (f c).steady = c.steady := by intro; rfl)
    (ties : ∀ c, (f c).ties = c.ties := by intro; rfl) : CranesFollow s (s.modCrane k f) :=
  modCrane (.quiet (steady _) (ties _))

end CranesFollow

theorem PortOnly.clu {s t : State} (h : PortOnly s t) : t.clu = s.clu := by
  obtain ⟨_, rfl⟩ := h
  rfl

theorem noticeCrane_follows (s : State) (k : CraneId) (n : Notice) : CranesFollow s (s.noticeCrane k n) :=
  .of_clu (noticeCrane_portOnly s k n).clu

/-! ### Claims and withdrawals (R32, R57, R68, R81) -/

theorem reserveClaim_clu (x : CellId) (n : Nat) (s : State) : (reserveClaim x n s).1.clu = s.clu := by
  unfold reserveClaim
  split <;> rfl

theorem releaseClaim_clu (x : CellId) (n : Nat) (s : State) : (releaseClaim x n s).clu = s.clu := rfl

theorem withdrawNotices_follows (p : PendingNotice → Bool) (s : State) : CranesFollow s (withdrawNotices p s) := fun j => by
  rw [withdrawNotices_crane]
  exact .quiet rfl rfl

theorem withdrawCraneNotices_follows (k : CraneId) (s : State) : CranesFollow s (withdrawCraneNotices k s) :=
  withdrawNotices_follows _ s

/-! ### Handover (R77-R90) -/

/-- A LINKED crane with a target other than its anchor is in HANDOVER (R80). -/
theorem Crane.Followed.started {c : Crane} (linked : c.state = .linked) {x : CellId} (apart : c.anchor ≠ some x) (n : Nat) :
    c.Followed { c with target := some x, countdown := n, deferred := false, progress := 0, state := .handover } where
  steady := rfl
  state := .inr ⟨.inr rfl, .inl linked⟩
  sound h :=
    { defined := by
        have defined := h.defined
        rw [linked] at defined
        exact ⟨nofun, fun e => by cases defined.2 e⟩
      anchor := iff_of_true (h.anchor.2 (.inl linked)) (.inr (.inl rfl))
      target := iff_of_true rfl rfl
      apart := fun _ same => apart same.symm
      supervised := iff_of_true (h.supervised.2 (.inl linked)) (.inr (.inl rfl))
      shadowless := nofun
      holdOff := fun n old => ⟨.inr (.inl rfl), (h.holdOff n old).2⟩ }

/-- A crane in HANDOVER whose target is given up is LINKED on its anchor (R85). -/
theorem Crane.Followed.failed {c : Crane} (busy : c.state = .handover) (bar : Option (CellId × Nat)) :
    c.Followed { c with bar := bar, target := none, countdown := 0, state := .linked } where
  steady := rfl
  state := .inr ⟨.inl rfl, .inr busy⟩
  sound h :=
    { defined := by
        have defined := h.defined
        rw [busy] at defined
        exact ⟨nofun, fun e => by cases defined.2 e⟩
      anchor := iff_of_true (h.anchor.2 (.inr (.inl busy))) (.inl rfl)
      target := iff_of_false nofun nofun
      apart := nofun
      supervised := iff_of_true (h.supervised.2 (.inr (.inl busy))) (.inl rfl)
      shadowless := nofun
      holdOff := fun n old => ⟨.inl rfl, (h.holdOff n old).2⟩ }

theorem startHandover_follows {k : CraneId} {x : CellId} {s : State} (linked : (s.crane k).state = .linked)
    (apart : (s.crane k).anchor ≠ some x) : CranesFollow s (startHandover k x s) := by
  have started : CranesFollow s (s.modCrane k fun c =>
      { c with
        target := some x, countdown := s.params.handoverLimit, deferred := false, progress := 0, state := .handover }) :=
    .modCrane (.started linked apart _)
  unfold startHandover
  dsimp only
  refine (started.trans ?_).trans (.quiet _ k _)
  split
  · exact .refl _
  · exact fun _ => .refl _

theorem deferHandover_follows (k : CraneId) (tried : List CellId) (s : State) :
    CranesFollow s (deferHandover k tried s) := by
  unfold deferHandover
  dsimp only
  split
  · exact .refl s
  · exact ((CranesFollow.quiet s k _).trans (noticeCrane_follows _ _ _)).trans (.quiet _ k _)

theorem attemptStart_follows (k : CraneId) {l : List CellId} (tried : List CellId) {s : State}
    (linked : (s.crane k).state = .linked) (apart : ∀ x ∈ l, (s.crane k).anchor ≠ some x) :
    CranesFollow s (attemptStart k l tried s) := by
  induction l generalizing tried s with
  | nil => exact deferHandover_follows k tried s
  | cons x l ih =>
    have clu := reserveClaim_clu x (s.crane k).reservation s
    have linked' : ((reserveClaim x (s.crane k).reservation s).1.crane k).state = .linked := by
      rwa [State.crane_congr clu]
    have apart' : ∀ y ∈ x :: l, ((reserveClaim x (s.crane k).reservation s).1.crane k).anchor ≠ some y := by
      rwa [State.crane_congr clu]
    unfold attemptStart
    dsimp only
    refine (CranesFollow.of_clu clu).trans ?_
    split
    · exact startHandover_follows linked' (apart' x List.mem_cons_self)
    · exact ih _ linked' fun y hy => apart' y (List.mem_cons_of_mem _ hy)

/-- No candidate is the crane's anchor (R76). -/
theorem anchor_ne_of_candidate {s : State} {k : CraneId} {l : List CellId} :
    ∀ x ∈ l.filter (candidate s k), (s.crane k).anchor ≠ some x := by
  intro x hx
  have taken := (List.mem_filter.1 hx).2
  simp only [candidate, Bool.and_eq_true, bne_iff_ne] at taken
  exact taken.1.2

theorem holdOff_follows (k : CraneId) (b : Bool) {ahead : List CellId} {s : State} (linked : (s.crane k).state = .linked)
    (apart : ∀ x ∈ ahead, (s.crane k).anchor ≠ some x) : CranesFollow s (holdOff k b ahead s) := by
  unfold holdOff
  dsimp only
  split
  · exact (CranesFollow.quiet s k _).trans
      (attemptStart_follows k [] (by rwa [State.crane_modCrane]) (by rwa [State.crane_modCrane]))
  · exact (CranesFollow.quiet s k _).trans (.quiet _ k _)

theorem evaluate_follows (k : CraneId) (b : Bool) (s : State) : CranesFollow s (evaluate k b s) := by
  unfold evaluate
  dsimp only
  split
  next linked _ =>
    split
    · split
      · exact .refl s
      · split
        · split
          · exact .quiet s k _
          · exact holdOff_follows k b linked anchor_ne_of_candidate
        · exact attemptStart_follows k [] linked anchor_ne_of_candidate
    · exact attemptStart_follows k [] linked anchor_ne_of_candidate
  next => exact .refl s

theorem failHandover_follows {k : CraneId} (cause : FailCause) {s : State} (busy : (s.crane k).state = .handover) :
    CranesFollow s (failHandover k cause s) := by
  unfold failHandover
  split
  · exact .refl s
  next t target =>
    dsimp only
    have withdrawn : CranesFollow s
        (withdrawCraneNotices k ((releaseClaim t (s.crane k).reservation s).modCrane k (Crane.withdraw (· == t)))) :=
      ((CranesFollow.of_clu (releaseClaim_clu _ _ _)).trans (.quiet _ k _)).trans (withdrawCraneNotices_follows k _)
    have still : ((withdrawCraneNotices k
        ((releaseClaim t (s.crane k).reservation s).modCrane k (Crane.withdraw (· == t)))).crane k).state = .handover := by
      rw [withdrawCraneNotices, withdrawNotices_crane, State.crane_modCrane]
      exact busy
    exact (((withdrawn.trans (.modCrane (.failed still _))).trans (noticeCrane_follows _ _ _)).trans
      (.quiet _ k _)).trans (evaluate_follows _ _ _)

theorem timeoutIfDue_follows (k : CraneId) (s : State) : CranesFollow s (timeoutIfDue k s) := by
  unfold timeoutIfDue
  split
  next due => exact failHandover_follows _ due.1
  next => exact .refl s

theorem barEndIfDue_follows (k : CraneId) (s : State) : CranesFollow s (barEndIfDue k s) := by
  unfold barEndIfDue
  split
  · exact .quiet s k _
  · exact .refl s
  · exact .refl s

theorem barStep_follows (c : Chain) (k : CraneId) (s : State) : CranesFollow s (barStep c k s) := by
  unfold barStep
  split
  · split
    · exact (CranesFollow.quiet s k _).trans (barEndIfDue_follows _ _)
    · exact .refl s
  · exact .refl s

theorem countdownStep_follows (c : Chain) (k : CraneId) (s : State) : CranesFollow s (countdownStep c k s) := by
  unfold countdownStep
  split
  · split
    · exact (CranesFollow.quiet s k _).trans (timeoutIfDue_follows _ _)
    · exact .refl s
  · exact .refl s

theorem openerSent_follows (c : Chain) (s : State) : CranesFollow s (openerSent c s) :=
  (CranesFollow.foldl (fun t k => barStep_follows c k t) _ s).trans
    (CranesFollow.foldl (fun t k => countdownStep_follows c k t) _ _)

theorem chainLeftVisit_follows (c : Chain) (k : CraneId) (s : State) : CranesFollow s (chainLeftVisit c k s) := by
  unfold chainLeftVisit
  split
  next busy _ =>
    split
    · exact failHandover_follows _ busy
    · exact .refl s
  next => exact .refl s

theorem chainLeftWord_follows (c : Chain) (s : State) : CranesFollow s (chainLeftWord c s) :=
  (((CranesFollow.foldl (fun t k => .quiet t k _) _ s).trans (CranesFollow.foldl (fun t k => .quiet t k _) _ _)).trans
    (withdrawNotices_follows _ _)).trans (CranesFollow.foldl (fun t k => chainLeftVisit_follows c k t) _ _)

/-! ### The events that follow (R75) -/

theorem takeLinkEvent_follows (s : State) (e : CluEvent) : CranesFollow s (takeLinkEvent s e) := by
  cases e with
  | usability x =>
    refine CranesFollow.foldl (fun t k => ?_) _ s
    unfold sweepVisit
    split
    next busy _ =>
      split
      · exact .refl t
      · exact failHandover_follows _ busy
    next => exact evaluate_follows _ _ _
    next => exact .refl t
  | room x =>
    refine CranesFollow.foldl (fun t k => ?_) _ s
    split
    · exact evaluate_follows _ _ _
    · exact .refl t
  | mapChange => exact .refl s

theorem setEvents_follows (ev : List CluEvent) (s : State) : CranesFollow s { s with events := ev } := fun _ => .refl _

theorem settleLink_follows (n : Nat) (s : State) : CranesFollow s (settleLink n s) := by
  induction n generalizing s with
  | zero => exact .refl s
  | succ n ih =>
    unfold settleLink
    split
    · exact .refl s
    · exact ((setEvents_follows [] s).trans (CranesFollow.foldl takeLinkEvent_follows _ _)).trans (ih _)

/-- A live crane may shadow any cells. -/
theorem Crane.Followed.shadows {c : Crane} (live : c.Live) (l : List CellId) : c.Followed { c with shadow := l } where
  steady := rfl
  state := .inl rfl
  sound h :=
    { h with shadowless := fun rests => (by obtain e | e := rests; exacts [absurd e live.1, absurd e live.2]) }

theorem shadowAdd_follows {k : CraneId} (x : CellId) {s : State} (live : (s.crane k).Live) :
    CranesFollow s (shadowAdd k x s) := by
  refine CranesFollow.trans ?_ (.of_clu (coverageEvent_clu x _ s))
  exact (CranesFollow.of_clu (t := s.modCell x fun r => { r with shadowCount := r.shadowCount + 1 }) rfl).trans
    (.modCrane (.shadows live _))

theorem shadowRemove_follows {k : CraneId} (x : CellId) {s : State} (live : (s.crane k).Live) :
    CranesFollow s (shadowRemove k x s) := by
  refine CranesFollow.trans ?_ (.of_clu (coverageEvent_clu x _ s))
  exact (CranesFollow.of_clu (t := s.modCell x fun r => { r with shadowCount := r.shadowCount - 1 }) rfl).trans
    (.modCrane (.shadows live _))

section MoveShadow

variable {k : CraneId} {after : State → State} (quiet : ∀ s, CranesFollow s (after s))

include quiet

/-- A fold of claims of a live crane, with what is taken after each. -/
theorem claims_follow {claim : CellId → State → State}
    (follows : ∀ x s, (State.crane s k).Live → CranesFollow s (claim x s)) (l : List CellId) {s : State}
    (live : (s.crane k).Live) : CranesFollow s (l.foldl (fun t x => after (claim x t)) s) := by
  induction l generalizing s with
  | nil => exact .refl s
  | cons x l ih =>
    have first := (follows x s live).trans (quiet _)
    exact first.trans (ih ((first k).live live))

theorem moveShadow_follows (new : List CellId) {s : State} (live : (s.crane k).Live) :
    CranesFollow s (moveShadow k new after s) := by
  have removed := claims_follow quiet (k := k) (fun x _ => shadowRemove_follows x)
    ((sortCells (s.crane k).shadow).filter fun x => !new.contains x) live
  exact removed.trans (claims_follow quiet (fun x _ => shadowAdd_follows x) _ ((removed k).live live))

end MoveShadow

theorem mapVisit_follows (k : CraneId) (s : State) : CranesFollow s (mapVisit k s) := by
  have moved : (s.crane k).Live → CranesFollow s
      (moveShadow k (shadowSet s (s.crane k).band (s.crane k).boom) (settleLink settleRounds) s) :=
    moveShadow_follows (settleLink_follows _) _
  unfold mapVisit
  split
  case h_1 state => exact moved (by simp [Crane.Live, state])
  case h_2 state => exact moved (by simp [Crane.Live, state])
  case h_3 state => exact moved (by simp [Crane.Live, state])
  all_goals exact .refl s

theorem takeCluEvent_follows (s : State) (e : CluEvent) : CranesFollow s (takeCluEvent s e) := by
  cases e with
  | usability x => exact takeLinkEvent_follows s (.usability x)
  | room x => exact takeLinkEvent_follows s (.room x)
  | mapChange =>
    exact (CranesFollow.foldl (fun t k => mapVisit_follows k t) _ s).trans
      (CranesFollow.foldl (fun t k => evaluate_follows k false t) _ _)

/-- What follows an event does to each crane what handover may do. -/
theorem settle_follows (s : State) : CranesFollow s (settle s) := by
  unfold settle
  generalize settleRounds = n
  induction n generalizing s with
  | zero => exact .refl s
  | succ n ih =>
    unfold settleN
    split
    · exact .refl s
    · exact ((setEvents_follows [] s).trans (CranesFollow.foldl takeCluEvent_follows _ _)).trans (ih _)

end Machine
end Sys2Proof
end

