-- ==== Sys2Proof/Proofs/SettledEvents.lean ====
section
/-! SUPPORT. What the operations of handover hand to the Crane Link Unit (R31, R32, R75): evaluations hand on nothing, failures
hand on room notices alone, and so what follows an event comes to an end with nothing left (log 9). -/

namespace Sys2Proof
namespace Machine

/-! ### What hands on nothing -/

/-- Two states have the same events handed on. -/
def EventsKept (s t : State) : Prop := t.events = s.events

namespace EventsKept

theorem refl (s : State) : EventsKept s s := rfl

theorem trans {s t u : State} (h : EventsKept s t) (g : EventsKept t u) : EventsKept s u := Eq.trans g h

theorem foldl {α : Type} {f : State → α → State} {l : List α} (h : ∀ a ∈ l, ∀ s, EventsKept s (f s a)) (s : State) :
    EventsKept s (l.foldl f s) := by
  induction l generalizing s with
  | nil => exact .refl s
  | cons a l ih => exact (h a List.mem_cons_self s).trans (ih (fun b hb => h b (List.mem_cons_of_mem _ hb)) _)

end EventsKept

theorem PortOnly.events {s t : State} (h : PortOnly s t) : EventsKept s t := by
  obtain ⟨_, rfl⟩ := h
  rfl

theorem PoolOnly.events {s t : State} (h : PoolOnly s t) : EventsKept s t := by
  obtain ⟨_, _, _, _, rfl⟩ := h
  rfl

theorem modCrane_eventsKept (s : State) (k : CraneId) (f : Crane → Crane) : EventsKept s (s.modCrane k f) := rfl

theorem noticeCrane_events (s : State) (k : CraneId) (n : Notice) : EventsKept s (s.noticeCrane k n) :=
  (noticeCrane_portOnly s k n).events

theorem reserveClaim_events (x : CellId) (n : Nat) (s : State) : EventsKept s (reserveClaim x n s).1 := by
  unfold reserveClaim
  split <;> rfl

theorem withdrawNotices_events (p : PendingNotice → Bool) (s : State) : EventsKept s (withdrawNotices p s) := by
  obtain ⟨cranes, withdrawn⟩ := withdrawNotices_frame p s
  rw [withdrawn]
  rfl

theorem startHandover_events (k : CraneId) (x : CellId) (s : State) : EventsKept s (startHandover k x s) := by
  unfold startHandover
  dsimp only
  split <;> rfl

theorem deferHandover_events (k : CraneId) (tried : List CellId) (s : State) : EventsKept s (deferHandover k tried s) := by
  unfold deferHandover
  dsimp only
  split
  · rfl
  · exact ((modCrane_eventsKept s k _).trans (noticeCrane_events _ _ _)).trans (modCrane_eventsKept _ k _)

theorem attemptStart_events (k : CraneId) (l tried : List CellId) (s : State) :
    EventsKept s (attemptStart k l tried s) := by
  induction l generalizing tried s with
  | nil => exact deferHandover_events k tried s
  | cons x l ih =>
    unfold attemptStart
    dsimp only
    split
    · exact (reserveClaim_events _ _ _).trans (startHandover_events _ _ _)
    · exact (reserveClaim_events _ _ _).trans (ih _ _)

theorem holdOff_events (k : CraneId) (b : Bool) (ahead : List CellId) (s : State) :
    EventsKept s (holdOff k b ahead s) := by
  unfold holdOff
  dsimp only
  split
  · exact EventsKept.trans rfl (attemptStart_events _ _ _ _)
  · rfl

/-- An evaluation hands on nothing. -/
theorem evaluate_events (k : CraneId) (b : Bool) (s : State) : EventsKept s (evaluate k b s) := by
  unfold evaluate
  dsimp only
  split
  · split
    · split
      · rfl
      · split
        · split
          · rfl
          · exact holdOff_events _ _ _ _
        · exact attemptStart_events _ _ _ _
    · exact attemptStart_events _ _ _ _
  · rfl

/-! ### What hands on room notices alone -/

/-- An event that is a notice of room. -/
def CluEvent.IsRoom (e : CluEvent) : Prop := ∃ x, e = .room x

/-- Nothing but notices of room has been handed on. -/
def RoomsOnly (s : State) : Prop := ∀ e ∈ s.events, e.IsRoom

theorem EventsKept.rooms {s t : State} (h : EventsKept s t) (rooms : RoomsOnly s) : RoomsOnly t := by
  unfold RoomsOnly
  rwa [h]

theorem foldl_rooms {α : Type} {f : State → α → State} (h : ∀ s a, RoomsOnly s → RoomsOnly (f s a)) (l : List α)
    {s : State} (rooms : RoomsOnly s) : RoomsOnly (l.foldl f s) := by
  induction l generalizing s with
  | nil => exact rooms
  | cons a l ih => exact ih (h _ _ rooms)

theorem releaseClaim_rooms (x : CellId) (n : Nat) {s : State} (rooms : RoomsOnly s) : RoomsOnly (releaseClaim x n s) := by
  intro e he
  rw [releaseClaim, State.push_events, List.mem_append, List.mem_singleton] at he
  obtain he | rfl := he
  · exact rooms e he
  · exact ⟨x, rfl⟩

/-- A failure hands on one notice of room, for the slots of its target (R32, R85). -/
theorem failHandover_rooms (k : CraneId) (cause : FailCause) {s : State} (rooms : RoomsOnly s) :
    RoomsOnly (failHandover k cause s) := by
  unfold failHandover
  split
  · exact rooms
  next t _ =>
    dsimp only
    refine (evaluate_events k false _).rooms ((modCrane_eventsKept _ k _).rooms ((noticeCrane_events _ _ _).rooms
      ((modCrane_eventsKept _ k _).rooms ((withdrawNotices_events _ _).rooms ((modCrane_eventsKept _ k _).rooms ?_)))))
    exact releaseClaim_rooms t _ rooms

theorem sweepVisit_rooms (k : CraneId) {s : State} (rooms : RoomsOnly s) : RoomsOnly (sweepVisit k s) := by
  unfold sweepVisit
  split
  · split
    · exact rooms
    · exact failHandover_rooms _ _ rooms
  · exact (evaluate_events _ _ _).rooms rooms
  · exact rooms

theorem roomNotice_events (s : State) : EventsKept s (roomNotice s) := by
  refine EventsKept.foldl (fun k _ t => ?_) s
  split
  · exact evaluate_events _ _ _
  · rfl

/-- A usability change hands on notices of room alone, and a notice of room nothing. -/
theorem takeLinkEvent_rooms (s : State) (e : CluEvent) (rooms : RoomsOnly s) : RoomsOnly (takeLinkEvent s e) := by
  cases e with
  | usability x => exact foldl_rooms (fun _ k => sweepVisit_rooms k) _ rooms
  | room x => exact (roomNotice_events s).rooms rooms
  | mapChange => exact rooms

theorem takeLinkEvent_room {e : CluEvent} (room : e.IsRoom) (s : State) : EventsKept s (takeLinkEvent s e) := by
  obtain ⟨x, rfl⟩ := room
  exact roomNotice_events s

/-! ### What follows comes to an end -/

theorem roomsOnly_nil (s : State) : RoomsOnly { s with events := [] } := nofun

theorem settleLink_nil {s : State} (h : s.events = []) (n : Nat) : settleLink n s = s := by
  cases n with
  | zero => rfl
  | succ n => simp [settleLink, h]

/-- A round in which only notices of room are taken empties the list. -/
theorem settleLink_rooms {s : State} (rooms : RoomsOnly s) (n : Nat) : (settleLink (n + 1) s).events = [] := by
  unfold settleLink
  split
  next empty => exact List.isEmpty_iff.1 empty
  next =>
    have taken : (s.events.foldl takeLinkEvent { s with events := [] }).events = [] :=
      EventsKept.foldl (fun e he => takeLinkEvent_room (rooms e he)) { s with events := [] }
    rw [settleLink_nil taken, taken]

/-- Two rounds empty the list of usability changes and notices of room. -/
theorem settleLink_events (s : State) : (settleLink settleRounds s).events = [] := by
  unfold settleRounds settleLink
  split
  next empty => exact List.isEmpty_iff.1 empty
  next => exact settleLink_rooms (foldl_rooms takeLinkEvent_rooms _ (roomsOnly_nil s)) 1

/-- The shadow claims of a map change leave nothing of what they hand on, and what stood before them or nothing (R53). -/
theorem moveShadow_rooms (k : CraneId) (new : List CellId) {s : State} (rooms : RoomsOnly s) :
    RoomsOnly (moveShadow k new (settleLink settleRounds) s) := by
  have empties : ∀ t, RoomsOnly (settleLink settleRounds t) := fun t e he => by
    rw [settleLink_events] at he
    cases he
  exact foldl_rooms (fun _ _ _ => empties _) _ (foldl_rooms (fun _ _ _ => empties _) _ rooms)

theorem mapVisit_rooms (k : CraneId) {s : State} (rooms : RoomsOnly s) : RoomsOnly (mapVisit k s) := by
  unfold mapVisit
  split
  case h_4 => exact rooms
  case h_5 => exact rooms
  all_goals exact moveShadow_rooms k _ rooms

theorem takeCluEvent_rooms (s : State) (e : CluEvent) (rooms : RoomsOnly s) : RoomsOnly (takeCluEvent s e) := by
  cases e with
  | usability x => exact takeLinkEvent_rooms s (.usability x) rooms
  | room x => exact takeLinkEvent_rooms s (.room x) rooms
  | mapChange =>
    exact foldl_rooms (fun t k => (evaluate_events k false t).rooms) _
      (foldl_rooms (fun _ k => mapVisit_rooms k) _ rooms)

theorem takeCluEvent_room {e : CluEvent} (room : e.IsRoom) (s : State) : EventsKept s (takeCluEvent s e) := by
  obtain ⟨x, rfl⟩ := room
  exact roomNotice_events s

theorem settleN_nil {s : State} (h : s.events = []) (n : Nat) : settleN n s = s := by
  cases n with
  | zero => rfl
  | succ n => simp [settleN, h]

theorem settleN_rooms {s : State} (rooms : RoomsOnly s) (n : Nat) : (settleN (n + 1) s).events = [] := by
  unfold settleN
  split
  next empty => exact List.isEmpty_iff.1 empty
  next =>
    have taken : (s.events.foldl takeCluEvent { s with events := [] }).events = [] :=
      EventsKept.foldl (fun e he => takeCluEvent_room (rooms e he)) { s with events := [] }
    rw [settleN_nil taken, taken]

/-- Whatever has been handed on, nothing is left once it has been settled: the first round leaves notices of room alone, and
the second nothing (log 9). -/
theorem settle_events (s : State) : (settle s).events = [] := by
  unfold settle settleRounds settleN
  split
  next empty => exact List.isEmpty_iff.1 empty
  next => exact settleN_rooms (foldl_rooms takeCluEvent_rooms _ (roomsOnly_nil s)) 1

end Machine
end Sys2Proof
end

