-- ==== Sys2Proof/Proofs/HeldCranes.lean ====
section
/-! SUPPORT. The Crane Link Unit keeps the laws of the crane records (R45): arrivals, supervision, resume and release, each with
the events that follow it. -/

namespace Sys2Proof
namespace Machine

/-! ### What keeps the laws of the cranes -/

/-- No crane that was sound has ceased to be. -/
def CranesHold (s t : State) : Prop := ∀ k, CraneSound (s.crane k) → CraneSound (t.crane k)

/-- What the laws of a crane speak of stands in every record. -/
def CranesTied (s t : State) : Prop := ∀ k, (t.crane k).ties = (s.crane k).ties

theorem CranesFollow.holds {s t : State} (h : CranesFollow s t) : CranesHold s t := fun k => (h k).sound

theorem CranesTied.holds {s t : State} (h : CranesTied s t) : CranesHold s t := fun k => Crane.sound_of_ties (h k)

namespace CranesTied

variable {s t u : State}

theorem refl (s : State) : CranesTied s s := fun _ => rfl

theorem trans (h : CranesTied s t) (g : CranesTied t u) : CranesTied s u := fun k => (g k).trans (h k)

theorem of_clu (h : t.clu = s.clu) : CranesTied s t := fun k => by rw [State.crane_congr h]

theorem foldl {α : Type} {f : State → α → State} (h : ∀ s a, CranesTied s (f s a)) (l : List α) (s : State) :
    CranesTied s (l.foldl f s) := by
  induction l generalizing s with
  | nil => exact .refl s
  | cons a l ih => exact (h s a).trans (ih _)

/-- One crane changed in what no law speaks of. -/
theorem quiet (s : State) (k : CraneId) (f : Crane → Crane) (ties : ∀ c, (f c).ties = c.ties := by intro; rfl) :
    CranesTied s (s.modCrane k f) := fun j => by
  by_cases e : j = k
  · subst e
    rw [State.crane_modCrane, ties]
  · rw [State.crane_modCrane_ne _ e]

theorem noticeCrane (s : State) (k : CraneId) (n : Notice) : CranesTied s (s.noticeCrane k n) :=
  .of_clu (noticeCrane_portOnly s k n).clu

theorem withdrawNotices (p : PendingNotice → Bool) (s : State) : CranesTied s (withdrawNotices p s) := fun j => by
  rw [withdrawNotices_crane]
  rfl

theorem releaseClaim (x : CellId) (n : Nat) (s : State) : CranesTied s (releaseClaim x n s) := .of_clu rfl

end CranesTied

namespace CranesHold

variable {s t u : State}

theorem refl (s : State) : CranesHold s s := fun _ => id

theorem trans (h : CranesHold s t) (g : CranesHold t u) : CranesHold s u := fun k => g k ∘ h k

theorem of_clu (h : t.clu = s.clu) : CranesHold s t := (CranesTied.of_clu h).holds

/-- One crane changed soundly. -/
theorem modCrane {k : CraneId} {f : Crane → Crane} (h : CraneSound (s.crane k) → CraneSound (f (s.crane k))) :
    CranesHold s (s.modCrane k f) := fun j => by
  by_cases e : j = k
  · subst e
    rwa [State.crane_modCrane]
  · rw [State.crane_modCrane_ne _ e]
    exact id

end CranesHold

/-- What the laws of the cranes speak of stands, but for one crane, in whose record it has become `c`. -/
structure CraneTied (k : CraneId) (c : Crane) (s t : State) : Prop where
  crane : (t.crane k).ties = c
  others : ∀ j, j ≠ k → (t.crane j).ties = (s.crane j).ties

namespace CraneTied

variable {k : CraneId} {c : Crane} {s t u : State}

theorem start (s : State) (k : CraneId) : CraneTied k (s.crane k).ties s s := ⟨rfl, fun _ _ => rfl⟩

theorem tied (h : CraneTied k c s t) (g : CranesTied t u) : CraneTied k c s u :=
  ⟨(g k).trans h.crane, fun j e => (g j).trans (h.others j e)⟩

theorem mod (h : CraneTied k c s t) (g : Crane → Crane) {f : Crane → Crane}
    (ties : ∀ d, (f d).ties = g d.ties := by intro; rfl) : CraneTied k (g c) s (t.modCrane k f) where
  crane := by rw [State.crane_modCrane, ties, h.crane]
  others j e := by rw [State.crane_modCrane_ne _ e, h.others j e]

/-- The laws hold when they hold of what the one record has become. -/
theorem holds (h : CraneTied k c s t) (sound : CraneSound (s.crane k).ties → CraneSound c) : CranesHold s t := fun j was => by
  by_cases e : j = k
  · subst e
    refine (Crane.sound_ties _).1 ?_
    rw [h.crane]
    exact sound ((Crane.sound_ties _).2 was)
  · exact Crane.sound_of_ties (h.others j e) was

end CraneTied

/-- Every crane stands with its laws, and if all that had been handed on was taken, it is again (R75; log 9). -/
structure LinksKept (s t : State) : Prop where
  cranes : CranesHold s t
  events : s.events = [] → t.events = []

namespace LinksKept

variable {s t u : State}

theorem refl (s : State) : LinksKept s s := ⟨.refl s, id⟩

theorem trans (h : LinksKept s t) (g : LinksKept t u) : LinksKept s u := ⟨h.cranes.trans g.cranes, g.events ∘ h.events⟩

theorem foldl {α : Type} {f : State → α → State} (h : ∀ s a, LinksKept s (f s a)) (l : List α) (s : State) :
    LinksKept s (l.foldl f s) := by
  induction l generalizing s with
  | nil => exact .refl s
  | cons a l ih => exact (h s a).trans (ih _)

/-- The Crane Link Unit and what has been handed to it stand. -/
theorem stand (clu : t.clu = s.clu) (events : EventsKept s t) : LinksKept s t := ⟨.of_clu clu, Eq.trans events⟩

theorem tied (h : CranesTied s t) (events : EventsKept s t) : LinksKept s t := ⟨h.holds, Eq.trans events⟩

theorem modCrane_tied (s : State) (k : CraneId) (f : Crane → Crane) (ties : ∀ c, (f c).ties = c.ties := by intro; rfl) :
    LinksKept s (s.modCrane k f) := .tied (.quiet s k f ties) (modCrane_eventsKept s k f)

theorem countCrane (s : State) (k : CraneId) (f : CraneCounters → CraneCounters) : LinksKept s (s.countCrane k f) :=
  .modCrane_tied s k _

theorem noticeCrane (s : State) (k : CraneId) (n : Notice) : LinksKept s (s.noticeCrane k n) :=
  .stand (noticeCrane_portOnly s k n).clu (noticeCrane_events s k n)

end LinksKept

/-- What follows an event leaves nothing handed on, and keeps what the event kept of the cranes. -/
theorem CranesHold.settled {s t : State} (h : CranesHold s t) : LinksKept s (settle t) :=
  ⟨h.trans (settle_follows t).holds, fun _ => settle_events t⟩

/-! ### One record -/

namespace CraneSound

variable {c : Crane}

/-- A crane is in HANDOVER exactly with a target. -/
theorem untargeted (h : CraneSound c) (still : c.state ≠ .handover) : c.target = none := by
  have target := mt h.target.1 still
  simpa using target

/-- A crane that is not VACANT is defined. -/
theorem defn_ne_none (h : CraneSound c) (there : c.state ≠ .vacant) : c.defn ≠ none := mt h.defined.2 there

/-- The record of an IDLE crane at its first contact (R49). -/
theorem contacted (h : CraneSound c) (idle : c.state = .idle) (x : CellId) (n : Nat) :
    CraneSound { c with state := .linked, anchor := some x, supervision := startTimer n } where
  defined := iff_of_false nofun (h.defn_ne_none (by simp [idle]))
  anchor := iff_of_true rfl (.inl rfl)
  target := iff_of_false (by simp [h.untargeted, idle]) nofun
  apart := fun target => by simp [h.untargeted, idle] at target
  supervised := iff_of_true rfl (.inl rfl)
  shadowless := nofun
  holdOff := fun n old => ⟨.inl rfl, (h.holdOff n old).2⟩

/-- A crane on its link whose link goes on in another of its three states, without a target (R83, R66, R69). -/
theorem moves (h : CraneSound c) (live : c.state = .linked ∨ c.state = .handover ∨ c.state = .lost) {st : CraneState}
    (state : st = .linked ∨ st = .lost) {anchor : Option CellId} (there : anchor.isSome) :
    CraneSound { c with state := st, target := none, anchor := anchor } where
  defined := iff_of_false (by obtain rfl | rfl := state <;> nofun) (h.defn_ne_none (by obtain e | e | e := live <;> simp [e]))
  anchor := iff_of_true there (by simp [or_left_comm, state])
  target := iff_of_false nofun (by obtain rfl | rfl := state <;> nofun)
  apart := nofun
  supervised := iff_of_true (h.supervised.2 live) (by simp [or_left_comm, state])
  shadowless := by obtain rfl | rfl := state <;> nofun
  holdOff := fun n old => ⟨by simp [or_left_comm, state], (h.holdOff n old).2⟩

/-- A position report brings a raised hold-off into use (R47). -/
theorem reported (h : CraneSound c) : CraneSound c.reported :=
  { h with holdOff := fun n old => h.holdOff n (by
      unfold Crane.reported at old
      dsimp only at old
      split at old
      · exact old
      · cases old) }

/-- A timer of a live crane that runs on (R61). -/
theorem restarted (h : CraneSound c) (live : c.state = .linked ∨ c.state = .handover ∨ c.state = .lost) (n : Nat) :
    CraneSound { c with supervision := startTimer n } :=
  { h with supervised := iff_of_true rfl live }

/-- A crane at rest (R45, R71). -/
theorem atRest (h : CraneSound c) (there : c.state ≠ .vacant) (k : CraneCounters) :
    CraneSound { defn := c.defn, state := .idle, counters := k } where
  defined := iff_of_false nofun (h.defn_ne_none there)
  anchor := iff_of_false nofun nofun
  target := iff_of_false nofun nofun
  apart := nofun
  supervised := iff_of_false nofun nofun
  shadowless := fun _ => rfl
  holdOff := nofun

/-- A VACANT crane at its reset values, or an IDLE one with a definition (R44). -/
theorem vacant : CraneSound {} := by constructor <;> simp

theorem idle (d : CraneDef) : CraneSound { defn := some d, state := .idle } := by constructor <;> simp

end CraneSound

theorem Crane.live_iff {c : Crane} : c.Live ↔ c.state = .linked ∨ c.state = .handover ∨ c.state = .lost := by
  unfold Crane.Live
  cases c.state <;> simp

/-! ### Uplink blocks (R48-R52) -/

theorem forwardUp_kept (k : CraneId) (seq : U16) (payload : List Byte) (s : State) :
    LinksKept s (forwardUp k seq payload s) := by
  unfold forwardUp
  split
  · exact .refl s
  · dsimp only
    have offered : ∀ f, LinksKept s (s.offer .craneUp f).1 := fun f =>
      .stand (offer_portOnly s _ f).clu (offer_portOnly s _ f).events
    split
    · exact (offered _).trans (.modCrane_tied _ k _)
    · exact offered _

theorem takePosition_holds {k : CraneId} (word : U16) {s : State} (live : (s.crane k).Live) :
    CranesHold s (takePosition k word s) := by
  have reported : CranesHold s (s.modCrane k Crane.reported) := .modCrane CraneSound.reported
  have live0 : ((s.modCrane k Crane.reported).crane k).Live := by rwa [State.crane_modCrane]
  unfold takePosition
  dsimp only
  refine reported.trans ?_
  generalize s.modCrane k Crane.reported = s0 at live0
  have moved : ∀ b : Bool, CranesHold s0
      (if b = true then
        moveShadow k (shadowSet s0 (positionBand word) (positionBoom word)) id
          (s0.modCrane k fun c => { c with band := positionBand word, boom := positionBoom word })
      else s0) := by
    intro b
    split
    · have placed : CranesTied s0 (s0.modCrane k fun c => { c with band := positionBand word, boom := positionBoom word }) :=
        .quiet s0 k _
      exact placed.holds.trans (moveShadow_follows (fun u => .refl u) _ (by rwa [State.crane_modCrane])).holds
    · exact .refl s0
  split
  · exact (moved _).trans (evaluate_follows _ _ _).holds
  · exact moved _

theorem refuseContact_kept (k : CraneId) (x : CellId) (cause : NoRoomCause) (s : State) :
    LinksKept s (refuseContact k x cause s) :=
  (LinksKept.modCrane_tied s k _).trans (.noticeCrane _ _ _)

theorem reserveClaim_kept (x : CellId) (n : Nat) (s : State) : LinksKept s (reserveClaim x n s).1 :=
  .stand (reserveClaim_clu x n s) (reserveClaim_events x n s)

theorem firstContact_holds {k : CraneId} (x : CellId) (seq : U16) (payload : List Byte) {s : State}
    (idle : (s.crane k).state = .idle) : CranesHold s (firstContact k x seq payload s) := by
  unfold firstContact
  dsimp only
  split
  · have claimed := reserveClaim_kept x (s.crane k).reservation s
    have clu := reserveClaim_clu x (s.crane k).reservation s
    split
    · refine claimed.cranes.trans ?_
      have idle' : ((reserveClaim x (s.crane k).reservation s).1.crane k).state = .idle := by rwa [State.crane_congr clu]
      generalize (reserveClaim x (s.crane k).reservation s).1 = s0 at idle'
      generalize hl : s0.modCrane k _ = s1
      have linked : CranesHold s0 s1 := by
        rw [← hl]
        exact .modCrane fun h => Crane.sound_of_ties (c := { s0.crane k with
          state := .linked, anchor := some x, supervision := startTimer (((s0.crane k).defn.map CraneDef.interval).getD 0) })
          rfl (h.contacted idle' x _)
      have live : ((forwardUp k seq payload s1).core.cranes k).Live := by
        rw [forwardUp_core, State.core_cranes, ← hl, State.crane_modCrane]
        exact ⟨nofun, nofun⟩
      exact (linked.trans (forwardUp_kept _ _ _ _).cranes).trans (takePosition_holds _ live)
    · exact claimed.cranes.trans (refuseContact_kept _ _ _ _).cranes
  · exact (refuseContact_kept _ _ _ _).cranes

theorem strayArrival_kept (k : CraneId) (accepted : Bool) (s : State) : LinksKept s (strayArrival k accepted s) := by
  unfold strayArrival
  split
  · exact .modCrane_tied s k _
  · exact .refl s

theorem completeHandover_holds {k : CraneId} {a t : CellId} {s : State} (busy : (s.crane k).state = .handover) :
    CranesHold s (completeHandover k a t s) := by
  have released := (CraneTied.start s k).tied (.releaseClaim a (s.crane k).reservation s)
  have moved := released.mod (fun c => { c with anchor := some t, target := none })
    (f := fun c => { c with anchor := some t, target := none, countdown := 0 })
  have linked := (moved.tied (.withdrawNotices (fun n => n.crane == k) _)).mod (fun c => { c with state := .linked })
    (f := fun c => { c with state := .linked })
  have noticed := (linked.tied (.noticeCrane _ k (.handoverDone k .planned (some a) (some t) (s.crane k).band))).tied
    (.quiet _ k fun c => { c with counters := { c.counters with done := c.counters.done + 1 } })
  exact noticed.holds fun h => h.moves (.inr (.inl busy)) (.inl rfl) rfl

theorem craneLedMove_holds {k : CraneId} {a x : CellId} {s : State} (linked : (s.crane k).state = .linked) :
    CranesHold s (craneLedMove k a x s) := by
  have moved := (CraneTied.start s k).mod (fun c => { c with anchor := some x }) (f := fun c => { c with anchor := some x })
  have released := moved.tied (.releaseClaim a (s.crane k).reservation _)
  have cleared := released.tied (.quiet _ k fun c => { c with deferred := false, progress := 0 })
  have noticed := (cleared.tied (.noticeCrane _ k (.handoverDone k .craneLed (some a) (some x) (s.crane k).band))).tied
    (.quiet _ k fun c => { c with counters := { c.counters with craneLed := c.counters.craneLed + 1 } })
  refine noticed.holds fun h => Crane.sound_of_ties ?_ (h.moves (.inl linked) (.inl rfl) (anchor := some x) rfl)
  have target : (s.crane k).ties.target = none := h.untargeted (by simp [Crane.ties, linked])
  have state : (s.crane k).ties.state = .linked := linked
  simp only [Crane.ties] at target state ⊢
  simp only [target, state]

theorem arrival_holds (k : CraneId) (x : CellId) (accepted : Bool) (s : State) : CranesHold s (arrival k x accepted s) := by
  unfold arrival
  split
  next busy _ _ =>
    split
    · exact completeHandover_holds busy
    · split
      · exact .refl s
      · exact (strayArrival_kept _ _ _).cranes
  next linked _ =>
    split
    · exact .refl s
    · unfold otherArrival
      dsimp only
      split
      · have claimed := reserveClaim_kept x (s.crane k).reservation s
        split
        · refine claimed.cranes.trans (craneLedMove_holds ?_)
          rwa [State.crane_congr (reserveClaim_clu x _ s)]
        · exact claimed.cranes.trans (strayArrival_kept _ _ _).cranes
      · exact (strayArrival_kept _ _ _).cranes
  next => exact .refl s

theorem liveBlock_holds {k : CraneId} (x : CellId) (seq : U16) (payload : List Byte) {s : State} (live : (s.crane k).Live) :
    CranesHold s (liveBlock k x seq payload s) := by
  have heard : CranesTied s (s.modCrane k fun c =>
      { c with craneHeard := true, counters := { c.counters with uplinkBlocks := c.counters.uplinkBlocks + 1 } }) :=
    .quiet s k _
  have live1 : ((s.modCrane k fun c =>
      { c with craneHeard := true, counters := { c.counters with uplinkBlocks := c.counters.uplinkBlocks + 1 } }).crane
        k).Live := by rwa [State.crane_modCrane]
  unfold liveBlock
  dsimp only
  refine heard.holds.trans ?_
  generalize (s.modCrane k fun c =>
      { c with craneHeard := true, counters := { c.counters with uplinkBlocks := c.counters.uplinkBlocks + 1 } }) = s1
    at live1
  split
  · generalize hw : (s1.modCrane k fun c => _) = s2
    have marked : CranesTied s1 s2 := by
      rw [← hw]
      exact .quiet s1 k _
    have live2 : ((forwardUp k seq payload s2).core.cranes k).Live := by
      rw [forwardUp_core, State.core_cranes, ← hw, State.crane_modCrane]
      exact live1
    exact ((marked.holds.trans (forwardUp_kept _ _ _ _).cranes).trans (takePosition_holds _ live2)).trans
      (arrival_holds _ _ _ _)
  · exact (CranesTied.quiet s1 k _).holds.trans (arrival_holds _ _ _ _)
  · exact (CranesTied.quiet s1 k _).holds.trans (arrival_holds _ _ _ _)

theorem takeCraneUp_kept (x : CellId) (radio : Addr) (seq : U16) (payload : List Byte) (s : State) :
    LinksKept s (takeCraneUp x radio seq payload s) := by
  have unknown : LinksKept s { s with clu := { s.clu with unknownCrane := s.clu.unknownCrane + 1 } } :=
    .tied (fun _ => rfl) rfl
  have alive : ∀ k, (s.crane k).Live → LinksKept s (settle (liveBlock k x seq payload s)) := fun k live =>
    (liveBlock_holds x seq payload live).settled
  unfold takeCraneUp
  dsimp only
  split
  · exact unknown
  · split
    case h_1 => exact unknown
    case h_2 idle => exact (firstContact_holds x seq payload idle).settled
    case h_3 state => exact alive _ (by simp [Crane.Live, state])
    case h_4 state => exact alive _ (by simp [Crane.Live, state])
    case h_5 state => exact alive _ (by simp [Crane.Live, state])

/-! ### Station frames (R54, R55, R69, R70) -/

theorem stationFrame_kept (src : Addr) (subject : Byte) {f : CraneId → State → State}
    (hf : ∀ k s, LinksKept s (f k s)) (s : State) : LinksKept s (stationFrame src subject f s) := by
  have unknown : LinksKept s { s with clu := { s.clu with unknownSubject := s.clu.unknownSubject + 1 } } :=
    .tied (fun _ => rfl) rfl
  unfold stationFrame
  dsimp only
  split
  · split
    · exact unknown
    · split
      · exact (LinksKept.modCrane_tied s _ _).trans (hf _ _)
      · exact .modCrane_tied s _ _
  · exact unknown

theorem Crane.enqueue_ties (e : DownEntry) (c : Crane) : (c.enqueue e).ties = c.ties := by
  unfold Crane.enqueue
  split <;> rfl

theorem takeCraneDown_kept (payload : List Byte) (k : CraneId) (s : State) : LinksKept s (takeCraneDown payload k s) := by
  have joins : LinksKept s (match linkCells s k with
      | [] => s.countCrane k fun c => { c with noDestination := c.noDestination + 1 }
      | dests => s.modCrane k (Crane.enqueue { payload := payload, dests := dests })) := by
    split
    · exact .modCrane_tied s k _
    · exact .modCrane_tied s k _ (Crane.enqueue_ties _)
  unfold takeCraneDown
  split
  · exact .modCrane_tied s k _
  · split
    · exact joins
    · exact joins
    all_goals exact .modCrane_tied s k _

theorem refuseResume_kept (k : CraneId) (cause : ResumeRefusal) (s : State) : LinksKept s (refuseResume k cause s) := by
  unfold refuseResume
  dsimp only
  exact (LinksKept.noticeCrane s k _).trans (.countCrane _ k _)

theorem resume_holds {k : CraneId} {s : State} (lost : (s.crane k).state = .lost) : CranesHold s (resume k s) := by
  have linked := (CraneTied.start s k).mod (fun c => { c with state := .linked })
    (f := fun c => { (c.withdrawHolds fun _ => true) with lost := {}, state := .linked })
  have noticed := (linked.tied (.noticeCrane _ k (.craneResumed k (s.crane k).anchor))).tied
    (.quiet _ k fun c => { c with counters := { c.counters with resumes := c.counters.resumes + 1 } })
  refine CranesHold.trans (noticed.holds fun h => ?_) (evaluate_follows k false _).holds
  have anchor : (s.crane k).ties.anchor.isSome := h.anchor.2 (.inr (.inr lost))
  refine Crane.sound_of_ties ?_ (h.moves (.inr (.inr lost)) (.inl rfl) anchor)
  have target : (s.crane k).ties.target = none := h.untargeted (by simp [Crane.ties, lost])
  simp only [Crane.ties] at target ⊢
  simp only [target]

theorem takeResume_kept (k : CraneId) (s : State) : LinksKept s (takeResume k s) := by
  unfold takeResume
  dsimp only
  split
  next lost =>
    split
    · exact (resume_holds lost).settled
    · exact refuseResume_kept _ _ _
  all_goals exact refuseResume_kept _ _ _

/-! ### Supervision (R61-R67) -/

theorem restartSupervision_kept {k : CraneId} {s : State} (live : (s.crane k).Live) :
    LinksKept s (restartSupervision k s) :=
  ⟨.modCrane fun h => h.restarted (Crane.live_iff.1 live) _, id⟩

theorem keepDecision_tied (k : CraneId) (s : State) : CranesTied s (keepDecision k s) := by
  unfold keepDecision
  dsimp only
  split
  · exact .quiet s k _
  · exact .refl s

theorem abandonHandover_tied {k : CraneId} {c : Crane} {s u : State} (h : CraneTied k c u s) (t : CellId) :
    CraneTied k { c with target := none } u (abandonHandover k t s) := by
  have withdrawn := (h.tied (.releaseClaim t (s.crane k).reservation s)).tied (.quiet _ k (Crane.withdraw (· == t)))
  have given := (withdrawn.tied (.withdrawNotices (fun n => n.crane == k) _)).mod (fun c => { c with target := none })
    (f := fun c => { c with target := none, countdown := 0 })
  exact (given.tied (.noticeCrane _ k (.handoverFailed k .lost (s.crane k).anchor (some t) none))).tied
    (.quiet _ k fun c => { c with counters := { c.counters with failures := c.counters.failures + 1 } })

theorem enterLost_tied {k : CraneId} {c : Crane} {s u : State} (h : CraneTied k c u s) (reasons : LostReasons)
    (abandoned : Option CellId) : CraneTied k { c with state := .lost } u (enterLost k reasons abandoned s) := by
  have flushed := (h.tied (.quiet _ k fun c =>
    { c with
      queue := [], counters := { c.counters with flushed := c.counters.flushed + BitVec.ofNat 32 c.queue.length } })).tied
    (.quiet _ k fun c => { c with keeps := [] })
  have lost := (flushed.tied (.withdrawNotices (fun n => n.crane == k) _)).mod (fun c => { c with state := .lost })
    (f := fun c => { c with deferred := false, progress := 0, state := .lost, lost := reasons })
  unfold enterLost
  dsimp only
  exact ((lost.tied (.quiet _ k _)).tied (.noticeCrane _ k _)).tied (.quiet _ k _)

theorem superviseLive_holds {k : CraneId} {s : State} (on : (s.crane k).OnLink) : CranesHold s (superviseLive k s) := by
  have counted : CranesTied s ((keepDecision k s).modCrane k Crane.countMisses) := (keepDecision_tied k s).trans (.quiet _ k _)
  unfold superviseLive
  dsimp only
  generalize (keepDecision k s).modCrane k Crane.countMisses = s1 at counted
  have on1 : (s1.crane k).OnLink := by
    have state : (s1.crane k).state = (s.crane k).state := (congrArg Crane.state (counted k) :)
    rwa [Crane.OnLink, state]
  have live : (s1.crane k).ties.state = .linked ∨ (s1.crane k).ties.state = .handover ∨ (s1.crane k).ties.state = .lost :=
    on1.imp id .inl
  refine counted.holds.trans ?_
  split
  · have lost : CraneSound (s1.crane k).ties → CraneSound { (s1.crane k).ties with target := none, state := .lost } := fun h =>
      Crane.sound_of_ties rfl (h.moves live (.inr rfl) (h.anchor.2 live))
    split
    next t _ =>
      exact (enterLost_tied (abandonHandover_tied (.start s1 k) t) _ _).holds lost
    next target =>
      refine (enterLost_tied (.start s1 k) _ _).holds fun h => Crane.sound_of_ties ?_ (lost h)
      simp only [Crane.ties, target]
  · exact .refl s1

theorem superviseLost_kept (k : CraneId) (s : State) : LinksKept s (superviseLost k s) := by
  unfold superviseLost
  dsimp only
  exact (LinksKept.modCrane_tied s k Crane.countMisses).trans (.modCrane_tied _ k _)

theorem superviseExpiry_kept (k : CraneId) (s : State) : LinksKept s (superviseExpiry k s) := by
  have supervised : (s.crane k).OnLink → LinksKept s (settle (superviseLive k (restartSupervision k s))) := by
    intro on
    have live : (s.crane k).Live := Crane.live_iff.2 (on.imp id .inl)
    refine ((restartSupervision_kept live).cranes.trans (superviseLive_holds ?_)).settled
    rw [restartSupervision, State.crane_modCrane]
    exact on
  unfold superviseExpiry
  split
  case h_1 state => exact supervised (.inl state)
  case h_2 state => exact supervised (.inr state)
  case h_3 state => exact (restartSupervision_kept (by simp [Crane.Live, state])).trans (superviseLost_kept _ _)
  all_goals exact .refl s

/-! ### Release (R71) -/

theorem targetReleased_tied (k : CraneId) (s : State) : CranesTied s (targetReleased k s) := by
  unfold targetReleased
  split
  · exact (CranesTied.releaseClaim _ _ s).trans (.withdrawNotices _ _)
  · exact .refl s

theorem slotsReleased_tied (k : CraneId) (s : State) : CranesTied s (slotsReleased k s) := by
  unfold slotsReleased
  split
  · exact (targetReleased_tied k s).trans (.releaseClaim _ _ _)
  · exact targetReleased_tied k s

/-- What a live crane gives up at its release leaves every crane what handover may make of it. -/
theorem allReleased_follows {k : CraneId} {s : State} (live : ((slotsReleased k s).crane k).Live) :
    CranesFollow (slotsReleased k s) (allReleased k s) :=
  claims_follow (after := id) (fun u => .refl u) (fun x _ => shadowRemove_follows x) _ live

theorem releaseCrane_holds {k : CraneId} {s : State} (live : (s.crane k).Live) : CranesHold s (releaseCrane k s) := by
  have slots := slotsReleased_tied k s
  have live' : ((slotsReleased k s).crane k).Live := by
    have state : ((slotsReleased k s).crane k).state = (s.crane k).state := (congrArg Crane.state (slots k) :)
    rwa [Crane.Live, state]
  have released := allReleased_follows live'
  have rests : CranesHold (allReleased k s) (releaseCrane k s) := .modCrane fun h => h.atRest ((released k).live live').1 _
  exact (slots.holds.trans released.holds).trans rests

end Machine
end Sys2Proof
end

