-- ==== Sys2Proof/Proofs/CranesSound.lean ====
section
/-! O12: every step keeps the laws of the crane records (R45) and leaves nothing handed to the Crane Link Unit untaken (R75). A
record keeps its laws under each change the Crane Link Unit makes; every other command leaves what the laws speak of. -/

namespace Sys2Proof
namespace Machine

namespace LinksKept

variable {s t : State}

/-! ### What leaves the Crane Link Unit alone -/

theorem modChain (s : State) (c : Chain) (f : ChainRec → ChainRec) : LinksKept s (s.modChain c f) :=
  .stand (State.modChain_clu s c f) (by cases c <;> rfl)

theorem countChain (s : State) (c : Chain) (f : ChainCounters → ChainCounters) : LinksKept s (s.countChain c f) :=
  .modChain s c _

theorem modCell (s : State) (x : CellId) (f : Cell → Cell) : LinksKept s (s.modCell x f) := .stand rfl rfl

theorem ofPort (h : PortOnly s t) : LinksKept s t := .stand h.clu h.events

theorem ofPool (h : PoolOnly s t) : LinksKept s t := by
  obtain ⟨_, _, _, _, rfl⟩ := h
  exact .stand rfl rfl

/-- A change of the port and of the Management Unit. -/
theorem portMgmt (s : State) (p : Port) (m : Mgmt) : LinksKept s { s with port := p, mgmt := m } := .stand rfl rfl

end LinksKept

/-- A cell's own change and what it hands on leave every crane. -/
theorem coverageEvent_holds {x : CellId} {f : State → State} {s : State} (h : (f s).clu = s.clu) :
    CranesHold s (coverageEvent x f s) :=
  .of_clu ((coverageEvent_clu x f s).trans h)

/-! ### Frames, the port and the tables -/

section Frames

variable (s : State)

theorem receive_kept (g : RxHeader) (ok : Bool) {f : State → State} (hf : ∀ u, LinksKept u (f u)) :
    LinksKept s (State.receive g ok f s) := by
  have counted : ∀ k : PortCounters → PortCounters, LinksKept s (s.countPort k) := fun k => .portMgmt s _ _
  unfold State.receive
  split
  · exact .refl s
  · split
    · exact counted _
    · split
      · exact counted _
      · split
        · exact counted _
        · exact (counted _).trans (hf _)

theorem discardFrame_kept (h : RxHeader) (octets : List Byte) : LinksKept s (State.discardFrame h octets s) := by
  unfold State.discardFrame
  split
  · exact .refl s
  · split <;> exact .portMgmt s _ _

theorem linkComesUp_kept : LinksKept s s.linkComesUp := by
  unfold State.linkComesUp
  split
  · exact .refl s
  · exact .stand rfl rfl

theorem abandonLoad_kept (cause : AbandonCause) : LinksKept s (abandonLoad cause s) := by
  unfold abandonLoad
  split
  · exact .portMgmt s _ _
  · exact .refl s

theorem abandonUnreported_kept (cause : AbandonCause) : LinksKept s (abandonUnreported cause s) := by
  unfold abandonUnreported
  split
  · exact (abandonLoad_kept s cause).trans (.portMgmt _ _ _)
  · exact .refl s

theorem linkLost_kept : LinksKept s (linkLost s) := by
  unfold linkLost
  split
  · have lost : LinksKept s (drainLinkLoss (s.modPort Port.loseLink)) :=
      LinksKept.trans (.portMgmt s _ _) (.ofPool (drainLinkLoss_poolOnly _))
    exact (lost.trans (abandonUnreported_kept _ .linkLoss)).trans (.stand rfl rfl)
  · exact .refl s

theorem frameSent_kept : LinksKept s (frameSent s) := by
  unfold frameSent
  split
  · exact .refl s
  next c _ _ =>
    have counted : LinksKept s (s.modPort fun p => p.countSent c) := .portMgmt s _ _
    dsimp only
    split
    · exact (counted.trans (.ofPool (drainReport_poolOnly _))).trans (.portMgmt _ _ _)
    · exact counted.trans (.portMgmt _ _ _)

theorem fromManager_kept (q : Request) : LinksKept s (fromManager q s) := by
  unfold fromManager
  split
  · unfold takeRequest
    split
    · exact .portMgmt s _ _
    · unfold offerResponse
      dsimp only
      split <;> exact .portMgmt s _ _
  · exact .portMgmt s _ _

theorem takeGeneralDown_kept (unit : Addr) (payload : List Byte) : LinksKept s (takeGeneralDown unit payload s) := by
  have counted : ∀ f, LinksKept s (s.countCov f) := fun f => .stand rfl rfl
  have offered : ∀ x, LinksKept s (offerGeneralDown x unit payload s) := by
    intro x
    unfold offerGeneralDown
    dsimp only
    split <;> exact .modChain s _ _
  unfold takeGeneralDown
  split
  · split
    · exact counted _
    · split
      · exact offered _
      · exact counted _
  all_goals exact counted _

theorem dirForget_kept (a : Addr) (t : DirTarget) : LinksKept s (dirForget a t s) := by
  unfold dirForget
  split
  · exact .stand rfl rfl
  · exact .refl s

theorem removeGeneral_kept (j : GeneralId) : LinksKept s (removeGeneral j s) := by
  unfold removeGeneral
  split
  · exact .refl s
  · exact .stand rfl rfl

theorem dirDefine_kept (a : Addr) (t : DirTarget) : LinksKept s (dirDefine a t s) := by
  unfold dirDefine
  split
  · exact (removeGeneral_kept s _).trans (.stand rfl rfl)
  all_goals exact .stand rfl rfl

theorem moveEntry_kept (old : Option Addr) (new : Addr) (t : DirTarget) : LinksKept s (moveEntry old new t s) := by
  unfold moveEntry
  split
  · exact dirDefine_kept s _ _
  · split
    · exact .refl s
    · exact (dirForget_kept s _ _).trans (dirDefine_kept _ _ _)

theorem ageOutIfDue_kept (j : GeneralId) : LinksKept s (ageOutIfDue j s) := by
  unfold ageOutIfDue
  split
  · exact .refl s
  · split
    · exact (removeGeneral_kept s _).trans (.stand rfl rfl)
    · exact .refl s

theorem tickGeneral_kept (j : GeneralId) : LinksKept s (tickGeneral s j) := by
  unfold tickGeneral
  split
  · exact .refl s
  next r _ =>
    have older : LinksKept s (s.setGeneral (sparseInsert s.cov.general j.val { r with age := r.age + 1 })) := .stand rfl rfl
    exact older.trans (ageOutIfDue_kept _ _)

theorem reportTick_kept : LinksKept s (reportTick s) :=
  (LinksKept.foldl (fun t i => .ofPool (tickReefer_poolOnly t i)) _ s).trans (LinksKept.foldl tickGeneral_kept _ _)

theorem takeGeneralUp_kept (x : CellId) (unit : Addr) (payload : List Byte) :
    LinksKept s (takeGeneralUp x unit payload s) := by
  have learnt : LinksKept s (learnGeneral x unit s) := by
    unfold learnGeneral
    dsimp only
    split
    · split <;> exact .stand rfl rfl
    · exact .stand rfl rfl
  have heard : LinksKept s (hearGeneral x unit s) := by
    unfold hearGeneral
    split
    · exact .stand rfl rfl
    · exact learnt
    all_goals exact .stand rfl rfl
  unfold takeGeneralUp
  split
  · exact .stand rfl rfl
  · exact heard.trans (.ofPort (offer_portOnly _ _ _))

end Frames

/-! ### The Chain Controllers -/

section Chains

variable (c : Chain) (s : State)

theorem cycleEnd_kept (cause : CycleEndCause) : LinksKept s (cycleEnd c cause s) :=
  .stand (congrArg State.clu (cycleEnd_frame c cause s) :) (congrArg State.events (cycleEnd_frame c cause s) :)

theorem enterState_kept (cause : ChainCause) (new : ChainState) (abortCell : Option CellId) (f : ChainRec → ChainRec) :
    LinksKept s (enterState c cause new abortCell f s) :=
  .stand (congrArg State.clu (enterState_frame c cause new abortCell f s) :)
    (congrArg State.events (enterState_frame c cause new abortCell f s) :)

/-- A block offered to a downlink whose taking leaves what the laws of the cranes speak of. -/
theorem Build.offer_tied (cap : Nat) (b : DownBlock) {commit : State → State} (u : Build)
    (tied : CranesTied u.st (commit u.st)) : CranesTied u.st (u.offer cap b commit).st := by
  obtain same | taken := u.offer_st cap b commit
  · rw [same]
    exact .refl _
  · rw [taken]
    exact tied.trans (.of_clu rfl)

theorem foldl_build_tied {α : Type} {f : Build → α → Build} (h : ∀ u a, CranesTied u.st (f u a).st) (l : List α)
    (u : Build) : CranesTied u.st (l.foldl f u).st := by
  induction l generalizing u with
  | nil => exact .refl _
  | cons a l ih => exact (h u a).trans (ih _)

/-- No law of a crane speaks of what it gives up for a block that it offers (R13). -/
theorem craneOffer_ties {c : Chain} {k : CraneId} {s : State} {b : DownBlock} {f : Crane → Crane}
    (h : craneOffer c k s = some (b, f)) (r : Crane) : (f r).ties = r.ties := by
  unfold craneOffer at h
  dsimp only at h
  split at h
  · obtain ⟨-, rfl⟩ := Prod.mk.inj (Option.some.inj h)
    rfl
  · split at h
    · cases h
    · split at h
      · cases h
      · obtain ⟨-, rfl⟩ := Prod.mk.inj (Option.some.inj h)
        rfl

theorem buildCranes_tied (cap n : Nat) (u : Build) : CranesTied u.st (buildCranes cap c n u).st := by
  induction n generalizing u with
  | zero => exact .refl _
  | succ n ih =>
    unfold buildCranes
    split
    · exact .refl _
    · split
      · exact .refl _
      next k b f offered =>
        have given : CranesTied u.st (u.st.modCrane k f) := .quiet _ k f (craneOffer_ties (firstOffer_some offered))
        exact (u.offer_tied cap b (given.trans (.of_clu (State.modChain_clu _ _ _)))).trans (ih _)

theorem buildGeneral_tied (cap : Nat) (q : List GeneralDown) (u : Build) :
    CranesTied u.st (buildGeneral cap c q u).st := by
  induction q generalizing u with
  | nil => exact .refl _
  | cons g rest ih =>
    rw [buildGeneral_cons]
    split
    · exact .refl _
    · split
      · exact (u.offer_tied cap _ (.of_clu (State.modChain_clu _ _ _))).trans (ih _)
      · have passed : CranesTied u.st (u.passFrame c rest).st := .of_clu (State.modChain_clu _ _ _)
        exact passed.trans (ih _)

theorem buildDownlink_tied : CranesTied s (buildDownlink c s).st := by
  have holds := foldl_build_tied (f := buildHolds (effectiveCapacity s.params) c)
    (fun u k => foldl_build_tied (fun v e => v.offer_tied _ _ (.quiet _ k _)) _ u) allCranes
    { st := s, used := 0, blocks := [], full := false }
  have notices : ∀ u, CranesTied u.st (buildNotices (effectiveCapacity s.params) c u).st := fun u =>
    foldl_build_tied (fun v n => v.offer_tied _ _ fun _ => rfl) _ u
  exact ((holds.trans (notices _)).trans (buildCranes_tied c _ _ _)).trans (buildGeneral_tied c _ _ _)

theorem sendCycle_kept : LinksKept s (sendCycle c s) := by
  have built : CranesTied s (cycleBuild c s).st := by
    unfold cycleBuild
    split
    · exact .refl s
    · exact buildDownlink_tied c s
  have placed : CranesTied s (cyclePlaced c s) := built.trans (.of_clu (State.modChain_clu _ _ _))
  rw [sendCycle_eq]
  exact (placed.holds.trans (openerSent_follows c _).holds).settled

theorem departed_clu : (departed c s).clu = s.clu := (congrArg State.clu (departed_left c s).frame :)

theorem leaveRunning_kept : LinksKept s (leaveRunning c s) := by
  have departs : CranesHold s (departed c s) := .of_clu (departed_clu c s)
  have ordered : CranesHold s (if s.choices.head? = some true then settle (departed c s) else departed c s) := by
    split
    · exact departs.settled.cranes
    · exact departs
  rw [leaveRunning_eq]
  exact (ordered.trans (chainLeftWord_follows c _).holds).settled.trans (cycleEnd_kept _ _ _)

theorem breakChain_kept (cause : ChainCause) (abortCell : Option CellId) : LinksKept s (breakChain c cause abortCell s) :=
  (leaveRunning_kept c s).trans (enterState_kept _ _ _ _ _ _)

theorem missed_kept (f : ChainRec → ChainRec) :
    LinksKept s (cycleEnd c .missedTurn ((countMissed c s).modChain c f)) :=
  (LinksKept.trans (.modChain s c _) (.modChain _ c f)).trans (cycleEnd_kept c _ .missedTurn)

theorem rollcallExpiry_kept : LinksKept s (rollcallExpiry c s) := by
  unfold rollcallExpiry
  split
  · exact sendCycle_kept c s
  · dsimp only
    have ended := missed_kept c s
    split
    · exact (ended _).trans (enterState_kept _ _ _ _ _ _)
    · exact (ended _).trans (sendCycle_kept _ _)

theorem runningExpiry_kept : LinksKept s (runningExpiry c s) := by
  unfold runningExpiry
  split
  · exact sendCycle_kept c s
  · dsimp only
    have ended := missed_kept c s
    split
    · exact (ended _).trans (breakChain_kept _ _ _ _)
    · exact (ended _).trans (sendCycle_kept _ _)

theorem cycleExpiry_kept : LinksKept s (cycleExpiry c s) := by
  have timed := LinksKept.modChain s c fun r => { r with cycleTimer := s.params.cyclePeriod }
  unfold cycleExpiry
  dsimp only
  split
  · exact timed.trans (cycleEnd_kept _ _ _)
  · exact timed.trans (cycleEnd_kept _ _ _)
  · exact timed.trans (rollcallExpiry_kept _ _)
  · exact timed.trans (runningExpiry_kept _ _)

theorem backoffExpiry_kept : LinksKept s (backoffExpiry c s) := by
  unfold backoffExpiry
  split
  · exact (LinksKept.modChain s c _).trans (enterState_kept _ _ _ _ _ _)
  · exact .refl s

theorem stableExpiry_kept : LinksKept s (stableExpiry c s) := by
  unfold stableExpiry
  split
  · exact .modChain s c _
  · exact .refl s

theorem lineSilent_kept : LinksKept s (lineSilent c s) := by
  unfold lineSilent
  split
  · exact (LinksKept.modChain s c _).trans (breakChain_kept _ _ _ _)
  · exact .refl s

theorem disableChain_kept : LinksKept s (disableChain c s) := by
  unfold disableChain
  split
  · exact .refl s
  · exact (leaveRunning_kept c s).trans (enterState_kept _ _ _ _ _ _)
  all_goals exact enterState_kept _ _ _ _ _ _

theorem rollcallBlink_kept : LinksKept s (rollcallBlink c s) := by
  unfold rollcallBlink
  split
  · cases c <;> exact .stand rfl rfl
  · exact .refl s

/-! ### The returning stream -/

theorem onBlock_kept {f : State → State} (hf : ∀ u, LinksKept u (f u)) : LinksKept s (onBlock c f s) := by
  unfold onBlock
  split
  · exact .refl s
  · exact (LinksKept.modChain s c _).trans (hf _)

theorem countMalformed_kept (n : Nat) : LinksKept s (countMalformed c n s) := .countChain s c _

theorem staleTurn_kept (records : Nat) : LinksKept s (staleTurn c records s) := .countChain s c _

theorem uplinkBlock_kept (x : CellId) (ok : Bool) {f : State → State} (hf : ∀ u, LinksKept u (f u)) :
    LinksKept s (uplinkBlock x ok f s) := by
  refine onBlock_kept _ s fun u => ?_
  split
  · exact countMalformed_kept _ u 1
  · split
    · exact (LinksKept.modCell u x _).trans (hf _)
    · exact .modChain u _ _

theorem statusRecord_kept (x : CellId) (q : StatusRecord) : LinksKept s (settle (statusRecord x q s)) := by
  refine CranesHold.settled ?_
  unfold statusRecord
  split
  · exact coverageEvent_holds rfl
  · exact .of_clu rfl

theorem statusMiss_kept (x : CellId) : LinksKept s (settle (statusMiss x s)) := CranesHold.settled (coverageEvent_holds rfl)

theorem handTurn_kept (qs : List (CellId × StatusRecord)) : LinksKept s (handTurn c qs s) := by
  have heard := LinksKept.foldl (fun t (p : CellId × StatusRecord) => statusRecord_kept t p.1 p.2) qs s
  unfold handTurn
  dsimp only
  generalize qs.foldl _ s = t at heard
  exact (heard.trans (LinksKept.foldl (fun t x => statusMiss_kept t x) _ t)).trans (cycleEnd_kept _ _ _)

theorem rollcallTurn_kept (qs : List (CellId × StatusRecord)) : LinksKept s (rollcallTurn c qs s) := by
  have judged := LinksKept.modChain s c fun r =>
    { r with
      goodTurns := r.goodTurns + 1, rollcallTurns := r.rollcallTurns + 1, heard := sortCells (qs.map Prod.fst) }
  unfold rollcallTurn
  dsimp only
  split
  · exact (judged.trans (enterState_kept _ _ _ _ _ _)).trans (handTurn_kept _ _ _)
  · split
    · exact judged.trans (enterState_kept _ _ _ _ _ _)
    · exact judged

theorem takeTurn_kept (cycle : Byte) (records : List StatusRecord) : LinksKept s (takeTurn c cycle records s) := by
  unfold takeTurn
  split
  · dsimp only
    have taken := (LinksKept.modChain s c fun r =>
      { r with awaited := none, counters := { r.counters with returnedTurns := r.counters.returnedTurns + 1 } }).trans
        (.modChain _ c fun r => { r with counters := { r.counters with
          malformed := r.counters.malformed + BitVec.ofNat 32 (records.length - (standingRecords c records []).length) } })
    split
    · exact (taken.trans (.modChain _ c _)).trans (handTurn_kept _ _ _)
    · exact taken.trans (rollcallTurn_kept _ _ _)
    · exact taken
    · exact taken
  · exact staleTurn_kept c s _

theorem takeAbort_kept (x : CellId) : LinksKept s (takeAbort x s) := by
  have noted := LinksKept.modChain s (chainOf x) (ChainRec.noteAbort x)
  unfold takeAbort
  dsimp only
  split
  · exact noted.trans (breakChain_kept _ _ _ _)
  · exact noted.trans (.modChain _ _ _)
  · exact noted
  · exact noted

end Chains

/-! ### Loads (R25, R37, R47, R93, R96) -/

/-- An entry of a load gives a crane a sound record (R47): of a live crane that has a raised hold-off the one before it is in
use. -/
theorem CraneSound.loaded {c : Crane} (h : CraneSound c) (d : CraneDef) : CraneSound (c.loaded d) := by
  have redefined : c.state = .linked ∨ c.state = .handover ∨ c.state = .lost → CraneSound (c.redefine d) := fun live =>
    { h with
      defined := iff_of_false (Crane.live_iff.2 live).1 nofun
      holdOff := fun n old => by
        simp only [Crane.redefine] at old
        split at old
        next raised =>
          obtain rfl := Option.some.inj old
          exact ⟨live, d, rfl, raised⟩
        next => cases old }
  unfold Crane.loaded
  split
  next => exact .idle d
  next idle =>
    have unused : ∀ n, c.oldHoldOff ≠ some n := fun n old => by simpa [idle] using (h.holdOff n old).1
    exact { h with defined := iff_of_false (by simp [idle]) nofun, holdOff := fun n old => absurd old (unused n) }
  next state => exact redefined (.inl state)
  next state => exact redefined (.inr (.inl state))
  next state => exact redefined (.inr (.inr state))

theorem applyCrane_kept (s : State) (e : CraneEntry) : LinksKept s (applyCrane s e) := by
  have emptied : ∀ k, LinksKept s (s.modCrane k fun _ => {}) := fun k => ⟨.modCrane fun _ => .vacant, id⟩
  unfold applyCrane
  split
  · exact .refl s
  next k _ =>
    dsimp only
    split
    · have loaded : LinksKept s (s.modCrane k (Crane.loaded e.defn)) := ⟨.modCrane fun h => h.loaded _, id⟩
      exact loaded.trans (moveEntry_kept _ _ _ _)
    · split
      · exact (emptied k).trans (dirForget_kept _ _ _)
      · exact emptied k
      all_goals exact .refl s

theorem applyReefer_kept (s : State) (e : ReeferEntry) : LinksKept s (applyReefer s e) := by
  unfold applyReefer
  split
  · exact .refl s
  next i _ =>
    split
    · unfold dropReefer
      split
      · exact .refl s
      · exact (LinksKept.ofPool (((removeLive_poolOnly _ _).trans (leaveGroup_poolOnly _ _)).trans
          (setReefer_poolOnly _ _ _))).trans (dirForget_kept _ _ _)
    · split
      · exact .refl s
      next g _ =>
        split
        · exact .ofPool (regroupReefer_poolOnly _ _ _ _)
        · have joined : PoolOnly s (joinGroup g (leaveGroup (s.reefer i).defn (removeLive i s))) :=
            ((removeLive_poolOnly _ _).trans (leaveGroup_poolOnly _ _)).trans (modGroup_poolOnly _ _ _)
          exact (LinksKept.ofPool (joined.trans (setReefer_poolOnly _ _ _))).trans (moveEntry_kept _ _ _ _)

/-- The cranes stand by a load of any table; what it hands on is still to be taken. -/
theorem applyLoad_holds (t : Table) (content : List Byte) (s : State) : CranesHold s (applyLoad t content s) := by
  have cells : ∀ (l : List CellEntry) u, CranesHold u (l.foldl applyCell u) := by
    intro l
    induction l with
    | nil => exact .refl
    | cons e l ih =>
      intro u
      refine CranesHold.trans ?_ (ih _)
      unfold applyCell
      split
      · exact coverageEvent_holds rfl
      · exact .refl u
  cases t with
  | cranes => exact (LinksKept.foldl applyCrane_kept _ s).cranes
  | cells => exact cells _ s
  | coverage => exact .of_clu rfl
  | reefers => exact (LinksKept.foldl applyReefer_kept _ s).cranes
  | groups => exact (LinksKept.ofPool (PoolOnly.foldl applyGroup_poolOnly _ s)).cranes

/-! ### Requests (R155-R167) -/

/-- A reply, once its response has been offered and what follows it has been done, keeps the cranes. -/
def Reply.Links (s : State) (r : Reply) : Prop := ∀ b p m, LinksKept s (r.after b { r.st with port := p, mgmt := m })

section Replies

variable {s t : State}

theorem Reply.Links.of {r : Reply} (st : LinksKept s r.st) (after : ∀ b t, LinksKept t (r.after b t)) : r.Links s :=
  fun b p m => (st.trans (.portMgmt _ p m)).trans (after b _)

/-- A reply that keeps the cranes, with what its effects hand on taken after the response. -/
theorem Reply.Links.settled {r : Reply} (st : CranesHold s r.st) (after : ∀ b t, r.after b t = settle t) : r.Links s :=
  fun b p m => by
    rw [after]
    exact (st.trans (LinksKept.portMgmt r.st p m).cranes).settled

theorem answer_links (st : Status) : (answer st s).Links s := .of (.refl s) fun _ t => .refl t

theorem answerData_links (d : ResponseData) : (answerData d s).Links s := .of (.refl s) fun _ t => .refl t

theorem answerLoad_links (st : Status) (h : LinksKept s t) : (answerLoad st t).Links s := .of h fun _ u => .refl u

theorem withoutData_links {f : State → Reply} (hf : (f s).Links s) (q : Request) : (withoutData f q s).Links s := by
  unfold withoutData
  split
  · exact hf
  · exact answer_links _

theorem withArg_links {α : Type} {f : α → State → Reply} (hf : ∀ a, (f a s).Links s) (parse : List Byte → Option α)
    (q : Request) : (withArg parse f q s).Links s := by
  unfold withArg
  split
  · exact answer_links _
  · exact hf _

theorem executeHead_kept {body : Request → State → Reply} (hbody : ∀ q u, (body q u).Links u) (interleaves : Bool)
    (q : Request) (rest : List Request) (s : State) : LinksKept s (executeHead interleaves q rest body s) := by
  cases interleaves with
  | true =>
    obtain ⟨taken, executed⟩ := executeHead_interleaves q rest body s
    rw [executed]
    exact (LinksKept.portMgmt s s.port _).trans (hbody q (s.taking q rest) _ _ _)
  | false =>
    obtain ⟨taken, executed⟩ := executeHead_continues q rest body s
    rw [executed]
    exact (LinksKept.portMgmt s s.port _).trans (hbody q (s.takingLoad q rest) _ _ _)

theorem serve_kept {body : Request → State → Reply} (hbody : ∀ q u, (body q u).Links u) (k : RequestKind) (s : State) :
    LinksKept s (serve k body s) := by
  unfold serve
  split
  · exact .refl s
  · split
    · exact executeHead_kept hbody _ _ _ s
    · exact .refl s

theorem takeUnknown_kept (s : State) : LinksKept s (takeUnknown s) := by
  unfold takeUnknown
  split
  · exact .refl s
  · split
    · exact executeHead_kept (fun _ _ => answer_links _) _ _ _ s
    · exact .refl s

end Replies

section Bodies

variable (s : State)

theorem sealDueBatches_kept (a b : Bool) : LinksKept s (sealDueBatches a b s) := by
  have popped : LinksKept s s.popChoice.2 := .stand rfl rfl
  have sealed : ∀ u v, LinksKept v (sealByAge u v) := fun u v => .ofPool (sealByAge_poolOnly u v)
  unfold sealDueBatches
  split
  · split
    · exact popped.trans ((sealed _ _).trans (sealed _ _))
    · exact popped.trans ((sealed _ _).trans (sealed _ _))
  · exact sealed _ _
  · exact sealed _ _
  · exact .refl s

theorem setParams_links (q : Request) : (setParams q s).Links s := by
  unfold setParams
  split
  · exact .of (.refl s) fun _ t => .refl t
  · exact .of (.refl s) fun _ t => LinksKept.trans (.portMgmt t _ _) (sealDueBatches_kept _ _ _)

theorem loadBegin_links (q : Request) : (loadBegin q s).Links s := by
  unfold loadBegin
  split
  · exact answerLoad_links _ (.refl s)
  · split
    · exact answerLoad_links _ (.refl s)
    · split
      · exact answerLoad_links _ (.refl s)
      · split
        · exact answerLoad_links _ (.refl s)
        · exact answerLoad_links _ (.portMgmt s _ _)

theorem refuseLoad_links (st : Status) : (refuseLoad st s).Links s := answerLoad_links _ (abandonLoad_kept s _)

theorem loadSegment_links (q : Request) : (loadSegment q s).Links s := by
  unfold loadSegment
  split
  · exact answerLoad_links _ (.refl s)
  · split
    · exact answerLoad_links _ (.refl s)
    · split
      · exact refuseLoad_links s _
      · split
        · exact refuseLoad_links s _
        · exact answerLoad_links _ (.portMgmt s _ _)

theorem closeAndApply_links (t : Transaction) : (closeAndApply t s).Links s := by
  unfold closeAndApply
  dsimp only
  split
  · exact .of (.portMgmt s _ _) fun _ u => .refl u
  · exact .settled ((applyLoad_holds _ _ s).trans (.of_clu rfl)) fun _ _ => rfl

theorem loadEnd_links (q : Request) : (loadEnd q s).Links s := by
  unfold loadEnd
  split
  · split
    · exact answerLoad_links _ (.refl s)
    · split
      · exact refuseLoad_links s _
      · split
        · exact refuseLoad_links s _
        · split
          · exact refuseLoad_links s _
          · exact closeAndApply_links s _
  · exact answerLoad_links _ (.refl s)

theorem readCrane_links (k : CraneId) : (readCrane k s).Links s := by
  unfold readCrane
  dsimp only
  split <;> exact answerData_links _

theorem readGroup_links (g : GroupId) : (readGroup g s).Links s := by
  unfold readGroup
  split <;> exact answerData_links _

theorem clearCounters_kept (a : Scope) : LinksKept s (clearCounters s a) := by
  cases a with
  | chain c => exact .countChain s c fun _ => {}
  | coverage =>
    have counted : LinksKept s (s.countCov fun _ => {}) := .stand rfl rfl
    exact counted.trans (LinksKept.foldl (fun t x => .modCell t x _) _ _)
  | crane k =>
    have cleared : CranesTied s (s.countCrane k fun _ => {}) := .quiet s k _
    exact .tied cleared rfl
  | reefer first n =>
    exact (LinksKept.ofPool (PoolOnly.foldl (fun t i => modReefer_poolOnly i _ t) _ s)).trans (.stand rfl rfl)
  | port => exact .portMgmt s _ _
  | pool => exact .stand rfl rfl
  | drain => exact .stand rfl rfl
  | management => exact .portMgmt s _ _

theorem readCounters_links (a : Scope × Bool) : (readCounters a s).Links s := by
  refine .of ?_ fun _ t => .refl t
  unfold readCounters
  dsimp only
  split
  · exact clearCounters_kept s _
  · exact .refl s

theorem clearExcursion_poolOnly (i : ReeferId) : PoolOnly s (clearExcursion i s) := modReefer_poolOnly i _ s

theorem clearExcursion_links (i : ReeferId) : (clearExcursionRequest i s).Links s := by
  unfold clearExcursionRequest
  split
  · exact answer_links _
  all_goals exact .of (.ofPool (clearExcursion_poolOnly s i)) fun _ t => .refl t

theorem clearGroup_links (g : GroupId) : (clearGroupRequest g s).Links s := by
  unfold clearGroupRequest
  split
  · exact answer_links _
  · exact .of (.ofPool (clearGroup_poolOnly g s)) fun _ t => .refl t

theorem releaseRequest_links (k : CraneId) : (releaseRequest k s).Links s := by
  have released : (s.crane k).Live →
      Reply.Links s { st := releaseCrane k s, data := .stateBefore (s.crane k).state, after := fun _ t => settle t } :=
    fun live => .settled (releaseCrane_holds live) fun _ _ => rfl
  unfold releaseRequest
  split
  · exact answer_links _
  · exact answer_links _
  next state => exact released (by simp [Crane.Live, state])
  next state => exact released (by simp [Crane.Live, state])
  next state => exact released (by simp [Crane.Live, state])

theorem barRequest_links (b : Bool) (x : CellId) : (barRequest b x s).Links s :=
  .settled (coverageEvent_holds rfl) fun _ _ => rfl

theorem enableRequest_links (c : Chain) : (enableRequest c s).Links s := by
  unfold enableRequest
  split
  · exact .of (enterState_kept _ _ _ _ _ _) fun _ t => .refl t
  all_goals exact answer_links _

end Bodies

/-! ### Restarts and time (R44, R167, log 1) -/

theorem CraneSound.restartTraffic (c : Crane) : CraneSound c.restartTraffic := by
  unfold Crane.restartTraffic
  split
  · exact .vacant
  · exact .idle _

theorem restartTraffic_kept (taken : Bool) (s : State) : LinksKept s (restartTraffic taken s) where
  cranes k _ := by
    have record : (restartTraffic taken s).crane k = (s.crane k).restartTraffic := by simp [restartTraffic, State.crane]
    rw [record]
    exact .restartTraffic _
  events _ := rfl

/-- A part at power-on, whatever its port, its chains and its drain. -/
theorem LinksKept.fresh {s t : State} (clu : t.clu = CraneLink.reset) (events : t.events = []) : LinksKept s t where
  cranes k _ := by
    have record : t.crane k = {} := by simp [State.crane, clu, CraneLink.reset]
    rw [record]
    exact .vacant
  events _ := events

theorem tick_kept (s : State) : LinksKept s s.tick := by
  unfold State.tick
  split
  · exact .refl s
  · refine ⟨fun k h => ?_, id⟩
    have record : (State.refreshLeds
        { s with
          time := s.time.tick
          chainN := s.chainN.tick
          chainS := s.chainS.tick
          clu := { s.clu with cranes := tabMap (fun c => { c with supervision := tickTimer c.supervision }) s.clu.cranes }
          pool := { s.pool with batches := tabMap Batch.tick s.pool.batches }
          drain := s.drain.tick
          mgmt := { s.mgmt with timer := tickTimer s.mgmt.timer } }).crane k =
        { s.crane k with supervision := tickTimer (s.crane k).supervision } := by
      simp [State.crane]
    rw [record]
    exact { h with supervised := by simpa [tickTimer] using h.supervised }

/-! ### Every command -/

/-- The effect of an event that keeps the cranes. -/
theorem take_kept {s t : State} {f : State → State} (hf : ∀ u, LinksKept u (f u)) (h : s.take f = .next t) :
    LinksKept s t :=
  take_keeps (P := LinksKept s) (fun _ => hf s) (.refl s) h

/-- A request that is served keeps the cranes when its reply does. -/
theorem serve_take_kept {s t : State} {k : RequestKind} {body : Request → State → Reply}
    (hbody : ∀ q u, (body q u).Links u) (h : s.take (serve k body) = .next t) : LinksKept s t :=
  take_kept (serve_kept hbody k) h

theorem exec_kept (i : Instr) {s t : State} (h : exec i s = .next t) : LinksKept s t := by
  have ofDrain : ∀ {f : State → State} (g : RxHeader), (∀ u, PoolOnly u (f u)) → ∀ u,
      LinksKept u (State.receive g true (fromCollector g.src f) u) := fun g hf u =>
    receive_kept u g true fun v => .ofPool (fromCollector_poolOnly _ hf v)
  cases i with
  | resetNAssert => cases h; exact .fresh rfl rfl
  | resetNRelease straps => cases h; exact .fresh rfl rfl
  | linkUp => exact take_kept linkComesUp_kept h
  | linkLoss => exact take_kept linkLost_kept h
  | frameSent => exact take_kept frameSent_kept h
  | uplinkFrameDiscarded g octets => exact take_kept (discardFrame_kept · g octets) h
  | craneDown g subject payload =>
    exact take_kept (receive_kept · _ _ (stationFrame_kept _ _ (takeCraneDown_kept payload))) h
  | craneResume g subject => exact take_kept (receive_kept · _ _ (stationFrame_kept _ _ takeResume_kept)) h
  | drainOpen g tag credit => exact take_kept (ofDrain g (takeOpen_poolOnly tag credit)) h
  | drainCheck g tag index crc => exact take_kept (ofDrain g (ofOpenDrain_poolOnly tag (takeCheck_poolOnly _ crc))) h
  | drainPause g tag => exact take_kept (ofDrain g (ofOpenDrain_poolOnly tag takePause_poolOnly)) h
  | drainResume g tag => exact take_kept (ofDrain g (ofOpenDrain_poolOnly tag takeDrainResume_poolOnly)) h
  | drainStop g tag => exact take_kept (ofDrain g (ofOpenDrain_poolOnly tag takeStop_poolOnly)) h
  | mgmtRequest g id command data => exact take_kept (receive_kept · _ _ fun u => fromManager_kept u _) h
  | generalFrame g unit payload => exact take_kept (receive_kept · _ _ fun u => takeGeneralDown_kept u unit payload) h
  | cycleTimerExpiry c => exact take_kept (cycleExpiry_kept c) h
  | backoffTimerExpiry c => exact take_kept (backoffExpiry_kept c) h
  | stableTimerExpiry c => exact take_kept (stableExpiry_kept c) h
  | signalLoss c => exact take_kept (lineSilent_kept c) h
  | fillBlock c => exact take_kept (onBlock_kept c · .refl) h
  | openerReturned c => exact take_kept (onBlock_kept c · .refl) h
  | undeliveredDownlink x => exact take_kept (onBlock_kept _ · fun u => .modChain u _ _) h
  | craneUp x radio seq payload => exact take_kept (uplinkBlock_kept · x _ (takeCraneUp_kept x radio seq payload)) h
  | reeferReport x r => exact take_kept (uplinkBlock_kept · x _ fun u => .ofPool (takeReport_poolOnly x r u)) h
  | generalUp x unit payload => exact take_kept (uplinkBlock_kept · x _ fun u => takeGeneralUp_kept u x unit payload) h
  | turnMarker c cycle records =>
    refine take_kept (onBlock_kept c · fun u => ?_) h
    split
    · exact takeTurn_kept c u cycle records
    · exact countMalformed_kept c u 1
  | abortMarker x => exact take_kept (onBlock_kept _ · fun u => takeAbort_kept u x) h
  | malformedBlock c b =>
    refine take_kept (onBlock_kept c · fun u => ?_) h
    split
    · exact countMalformed_kept c u 1
    · exact .refl u
  | supervisionTimerExpiry k => exact take_kept (superviseExpiry_kept k) h
  | handoverCountdownExpiry k =>
    exact take_kept (f := fun u => settle (timeoutIfDue k u)) (fun u => (timeoutIfDue_follows k u).holds.settled) h
  | failedTargetBarExpiry k =>
    refine take_kept (fun u => ⟨(barEndIfDue_follows k u).holds, fun e => ?_⟩) h
    unfold barEndIfDue
    split <;> exact e
  | reportTick => exact take_kept reportTick_kept h
  | missCharge i => exact take_kept (fun u => .ofPool (missIfDue_poolOnly i u)) h
  | generalAgeOut j => exact take_kept (ageOutIfDue_kept · j) h
  | sealTimeExpiry u =>
    exact take_kept (f := fun v => afterSeal v (sealOpen u .age v)) (fun v => .ofPool (sealByAge_poolOnly u v)) h
  | checkTimerExpiry index => exact take_kept (fun u => .ofPool (checkExpiry_poolOnly index u)) h
  | pauseTimerExpiry => exact take_kept (fun u => .ofPool (pauseExpiry_poolOnly u)) h
  | transactionTimerExpiry => exact take_kept (abandonUnreported_kept · .timeout) h
  | identify => exact serve_take_kept (fun q _ => withoutData_links (answerData_links _) q) h
  | readParams => exact serve_take_kept (fun q _ => withoutData_links (answerData_links _) q) h
  | setParams => exact serve_take_kept (fun q u => setParams_links u q) h
  | loadBegin => exact serve_take_kept (fun q u => loadBegin_links u q) h
  | loadSegment => exact serve_take_kept (fun q u => loadSegment_links u q) h
  | loadEnd => exact serve_take_kept (fun q u => loadEnd_links u q) h
  | readCrane => exact serve_take_kept (fun q u => withArg_links (readCrane_links u) _ q) h
  | readCell => exact serve_take_kept (fun q _ => withArg_links (fun _ => answerData_links _) _ q) h
  | readChain => exact serve_take_kept (fun q _ => withArg_links (fun _ => answerData_links _) _ q) h
  | readReefer => exact serve_take_kept (fun q _ => withArg_links (fun _ => answerData_links _) _ q) h
  | readGroup => exact serve_take_kept (fun q u => withArg_links (readGroup_links u) _ q) h
  | readBatches => exact serve_take_kept (fun q _ => withoutData_links (answerData_links _) q) h
  | readDrain => exact serve_take_kept (fun q _ => withoutData_links (answerData_links _) q) h
  | readCounters => exact serve_take_kept (fun q u => withArg_links (readCounters_links u) _ q) h
  | clearExcursion => exact serve_take_kept (fun q u => withArg_links (clearExcursion_links u) _ q) h
  | clearGroup => exact serve_take_kept (fun q u => withArg_links (clearGroup_links u) _ q) h
  | releaseCrane => exact serve_take_kept (fun q u => withArg_links (releaseRequest_links u) _ q) h
  | barCell => exact serve_take_kept (fun q u => withArg_links (barRequest_links u true) _ q) h
  | unbarCell => exact serve_take_kept (fun q u => withArg_links (barRequest_links u false) _ q) h
  | chainEnable => exact serve_take_kept (fun q u => withArg_links (enableRequest_links u) _ q) h
  | chainDisable =>
    exact serve_take_kept (fun q u => withArg_links (fun c => .of (disableChain_kept c u) fun _ t => .refl t) _ q) h
  | restartTraffic => exact serve_take_kept (fun q u => withoutData_links (.of (.refl u) restartTraffic_kept) q) h
  | restartAll =>
    exact serve_take_kept (fun q u => withoutData_links (.of (.refl u) fun _ _ => .fresh rfl rfl) q) h
  | unknownRequest => exact take_kept takeUnknown_kept h
  | rollcallLedBlink c => exact take_kept (rollcallBlink_kept c) h

theorem step_kept {s t : State} (h : step s = .next t) : LinksKept s t := by
  unfold step at h
  split at h
  next =>
    cases h
    exact tick_kept s
  next c rest _ =>
    have rested : LinksKept s { s with pending := rest } := .stand rfl rfl
    exact rested.trans (exec_kept c h)

end Machine

open Machine

/-- Settles O12: no quarter of a millisecond and no command breaks the laws of a crane record or leaves an event untaken. -/
theorem stepKeepsTheCranesSound : Obligations.StepKeepsTheCranesSound :=
  ⟨fun _ _ sound stepped k => (step_kept stepped).cranes k (sound k), fun _ _ settled stepped => (step_kept stepped).events settled⟩

end Sys2Proof
end

