-- ==== Sys2Proof/Proofs/StationFrames.lean ====
section
/-! O21 and O22: the checks of frames from stations and from the collector (R54, R128), and what an accepted CRANE-DOWN frame
does (R55). -/

namespace Sys2Proof
namespace Machine

/-! ### The checks of a frame (R54, R128) -/

section Checks

variable {s : State} {f : State → State}

/-- A frame that reaches its block is taken as its effect there. -/
theorem take_receive {h : RxHeader} (reaches : Reaches s h) {ok : Bool} (long : ok = true) (f : State → State) :
    s.take (State.receive h ok f) = .next (f s.received) := by
  rw [State.take_awake reaches.awake, long, receive_reaches reaches]

/-- A subject that is no crane, or an undefined one (R54). -/
theorem stationFrame_unknown {subject : Byte} (unknown : 12 ≤ subject.toNat
      ∨ ∃ k : CraneId, subject.toNat = k.val ∧ (s.crane k).defn = none)
    (src : Addr) (f : CraneId → State → State) : stationFrame src subject f s =
      { s with clu := { s.clu with unknownSubject := s.clu.unknownSubject + 1 } } := by
  unfold stationFrame
  dsimp only
  split
  next within =>
    obtain outside | ⟨k, named, undefined⟩ := unknown
    · omega
    · have same : (⟨subject.toNat, within⟩ : CraneId) = k := Fin.ext named
      rw [same, undefined]
  next => rfl

/-- The subject of a frame is a defined crane: its station is checked, and heard (R54). -/
theorem stationFrame_defined {subject : Byte} {k : CraneId} {d : CraneDef} (named : subject.toNat = k.val)
    (defn : (s.crane k).defn = some d) (src : Addr) (f : CraneId → State → State) : stationFrame src subject f s =
      if d.station = src then
        f k (s.modCrane k fun c =>
          { c with
            stationHeard := true
            counters := { c.counters with stationFrames := c.counters.stationFrames + 1 } })
      else s.countCrane k fun c => { c with badSource := c.badSource + 1 } := by
  have within : subject.toNat < 12 := named ▸ k.isLt
  have same : (⟨subject.toNat, within⟩ : CraneId) = k := Fin.ext named
  unfold stationFrame
  dsimp only
  rw [dif_pos within, same, defn]

theorem fromCollector_other {src : Addr} (other : s.params.collector ≠ some src) (f : State → State) :
    fromCollector src f s = s.countDrain fun k => { k with badSource := k.badSource + 1 } := if_neg other

theorem fromCollector_own {src : Addr} (own : s.params.collector = some src) (f : State → State) :
    fromCollector src f s = f s := if_pos own

theorem ofOpenDrain_closed (closed : s.drain.state = .closed) (tag : U16) (f : State → State) :
    ofOpenDrain tag f s = s.countDrain fun k => { k with noDrain := k.noDrain + 1 } := if_pos closed

theorem ofOpenDrain_wrong {tag : U16} (opened : s.drain.state ≠ .closed) (wrong : s.drain.tag ≠ some tag)
    (f : State → State) : ofOpenDrain tag f s = s.countDrain fun k => { k with wrongTag := k.wrongTag + 1 } := by
  rw [ofOpenDrain, if_neg opened, if_neg wrong]

end Checks

/-! ### An accepted CRANE-DOWN frame (R55, R58) -/

section CraneDown

variable {s : State} {k : CraneId} {payload : List Byte}

/-- The cells that a link runs through, in the terms of R55. -/
theorem linkCells_eq (s : State) (k : CraneId) : linkCells s k =
    ((s.crane k).anchor.toList ++ (if (s.crane k).state = .handover then (s.crane k).target.toList else [])).filter fun x =>
      (s.cell x).unit ≠ .down := by
  simp [linkCells, isDown]

theorem takeCraneDown_oversize (long : 1020 < payload.length) : takeCraneDown payload k s =
    s.countCrane k fun c => { c with oversize := c.oversize + 1 } := if_pos long

theorem takeCraneDown_unlinked (short : payload.length ≤ 1020) (off : (s.crane k).state = .idle ∨ (s.crane k).state = .lost) :
    takeCraneDown payload k s = s.countCrane k fun c => { c with notLinked := c.notLinked + 1 } := by
  rw [takeCraneDown, if_neg (show ¬Config.craneDownPayload < payload.length from not_lt.2 short)]
  obtain off | off := off <;> rw [off]

/-- A frame for a crane on its link is for the cells of the link. -/
theorem takeCraneDown_linked (short : payload.length ≤ 1020) (on : (s.crane k).OnLink) : takeCraneDown payload k s =
    if linkCells s k = [] then s.countCrane k fun c => { c with noDestination := c.noDestination + 1 }
    else s.modCrane k (Crane.enqueue { payload := payload, dests := linkCells s k }) := by
  rw [takeCraneDown, if_neg (show ¬Config.craneDownPayload < payload.length from not_lt.2 short)]
  obtain on | on := on
  all_goals
    rw [on]
    cases linkCells s k <;> simp

end CraneDown

/-- An accepted station frame is handed on with its station heard (R54). -/
theorem stationFrame_accepted {s : State} {h : RxHeader} {subject : Byte} {k : CraneId} (from_ : FromStation s h subject k)
    (f : CraneId → State → State) : stationFrame h.src subject f s.received = f k (s.stationHeard k) := by
  obtain ⟨d, defn, station⟩ := Option.map_eq_some_iff.1 from_.station
  exact (stationFrame_defined (s := s.received) from_.named defn h.src f).trans (if_pos station)

end Machine

open Machine

/-- Settles O21: each frame reaches its block, and fails there the check that is named. -/
theorem stationAndCollectorFramesAreChecked : Obligations.StationAndCollectorFramesAreChecked := by
  refine ⟨fun h subject payload s reaches long => ⟨fun unknown => ?_, fun k d named defn other => ?_⟩,
    fun h tag credit index crc s reaches => ⟨fun other => ?_, fun own => ?_⟩⟩
  · have refused := fun f => stationFrame_unknown (s := s.received) unknown h.src f
    exact ⟨(take_receive reaches (by simpa using long) _).trans (congrArg _ (refused _)),
      (take_receive reaches rfl _).trans (congrArg _ (refused _))⟩
  · have refused := fun f => (stationFrame_defined (s := s.received) named defn h.src f).trans (if_neg other)
    exact ⟨(take_receive reaches (by simpa using long) _).trans (congrArg _ (refused _)),
      (take_receive reaches rfl _).trans (congrArg _ (refused _))⟩
  · have refused := fun f => fromCollector_other (s := s.received) other f
    have checked := fun f => (take_receive reaches rfl (fromCollector h.src f)).trans (congrArg _ (refused f))
    simp only [List.forall_mem_cons, List.not_mem_nil, false_imp_iff, implies_true, and_true]
    exact ⟨checked _, checked _, checked _, checked _, checked _⟩
  · have handed := fun f => fromCollector_own (s := s.received) own f
    have checked := fun f => (take_receive reaches rfl (fromCollector h.src f)).trans (congrArg _ (handed f))
    simp only [List.forall_mem_cons, List.not_mem_nil, false_imp_iff, implies_true, and_true]
    have closed := fun f (closed : s.drain.state = .closed) =>
      (checked _).trans (congrArg _ (ofOpenDrain_closed (s := s.received) closed tag f))
    have wrong := fun f (opened : s.drain.state ≠ .closed) (wrong : s.drain.tag ≠ some tag) =>
      (checked _).trans (congrArg _ (ofOpenDrain_wrong (s := s.received) opened wrong f))
    exact ⟨⟨closed _, wrong _⟩, ⟨closed _, wrong _⟩, ⟨closed _, wrong _⟩, ⟨closed _, wrong _⟩⟩

/-- Settles O22: an accepted frame is judged by its length, the crane's state, and the room of its queue. -/
theorem craneDownIsQueuedForItsCells : Obligations.CraneDownIsQueuedForItsCells := by
  intro h subject payload k s from_ long c dests after
  let v := s.stationHeard k
  have heard : v.crane k = { c with
      stationHeard := true, counters := { c.counters with stationFrames := c.counters.stationFrames + 1 } } :=
    State.crane_modCrane _ _ _
  have taken : exec (.craneDown h subject payload) s = .next (takeCraneDown payload k v) :=
    (take_receive from_.toReaches (by simpa using long) _).trans (congrArg _ (stationFrame_accepted from_ _))
  have state : (v.crane k).state = c.state := by rw [heard]
  have cells : linkCells v k = dests := by
    rw [linkCells_eq, heard]
    rfl
  have queue : (v.crane k).queue = c.queue := by rw [heard]
  refine ⟨fun oversize => ?_, fun short off => ?_, fun short on => ⟨fun none => ?_, fun some room => ?_, fun some full => ?_⟩⟩
  · exact taken.trans (congrArg _ (takeCraneDown_oversize oversize))
  · exact taken.trans (congrArg _ (takeCraneDown_unlinked short (by rwa [state])))
  all_goals
    rw [← state] at on
    have joins := takeCraneDown_linked (s := v) (k := k) short on
    rw [cells] at joins
  · exact taken.trans (congrArg _ (joins.trans (if_pos none)))
  · rw [if_neg some] at joins
    refine taken.trans (congrArg _ (joins.trans (State.modCrane_congr ?_)))
    rw [Crane.enqueue, queue, if_neg (show ¬Config.craneQueueCapacity ≤ c.queue.length from not_le.2 room)]
  · rw [if_neg some] at joins
    refine taken.trans (congrArg _ (joins.trans (State.modCrane_congr ?_)))
    rw [Crane.enqueue, queue, if_pos (show Config.craneQueueCapacity ≤ c.queue.length from full)]

end Sys2Proof
end

