-- ==== Sys2Proof/Proofs/RestingCranes.lean ====
section
/-! SUPPORT. Which crane records an operation can reach: an evaluation or a failure its own crane's alone, and what follows an
event no crane at rest. -/

namespace Sys2Proof
namespace Machine

/-! ### One crane's record alone -/

/-- Every crane's record but one's stands. -/
def OnlyCrane (k : CraneId) (s t : State) : Prop := ∀ j, j ≠ k → t.crane j = s.crane j

namespace OnlyCrane

variable {k : CraneId} {s t u : State}

theorem refl (k : CraneId) (s : State) : OnlyCrane k s s := fun _ _ => rfl

theorem trans (h : OnlyCrane k s t) (g : OnlyCrane k t u) : OnlyCrane k s u := fun j e => (g j e).trans (h j e)

theorem foldl {α : Type} {f : State → α → State} (h : ∀ s a, OnlyCrane k s (f s a)) (l : List α) (s : State) :
    OnlyCrane k s (l.foldl f s) := by
  induction l generalizing s with
  | nil => exact .refl k s
  | cons a l ih => exact (h s a).trans (ih _)

theorem of_clu (h : t.clu = s.clu) : OnlyCrane k s t := fun j _ => by rw [State.crane_congr h]

theorem modCrane (s : State) (k : CraneId) (f : Crane → Crane) : OnlyCrane k s (s.modCrane k f) := fun _ e =>
  State.crane_modCrane_ne _ e _

theorem countCrane (s : State) (k : CraneId) (f : CraneCounters → CraneCounters) : OnlyCrane k s (s.countCrane k f) :=
  modCrane s k _

theorem noticeCrane (s : State) (k : CraneId) (n : Notice) : OnlyCrane k s (s.noticeCrane k n) :=
  of_clu (noticeCrane_portOnly s k n).clu

theorem releaseClaim (k : CraneId) (x : CellId) (n : Nat) (s : State) : OnlyCrane k s (releaseClaim x n s) := of_clu rfl

theorem reserveClaim (k : CraneId) (x : CellId) (n : Nat) (s : State) : OnlyCrane k s (reserveClaim x n s).1 :=
  of_clu (reserveClaim_clu x n s)

theorem queueNotices (k : CraneId) (a x : CellId) (s : State) : OnlyCrane k s (queueNotices k a x s) := fun _ _ => rfl

/-- The notice blocks of a crane that are withdrawn are counted for it alone (R81). -/
theorem withdrawCraneNotices (k : CraneId) (s : State) : OnlyCrane k s (withdrawCraneNotices k s) := fun j e => by
  have none : (s.clu.notices.filter fun n => decide (n.crane = j) && (n.crane == k)) = [] := by
    simp only [List.filter_eq_nil_iff, Bool.and_eq_true, decide_eq_true_eq, beq_iff_eq, not_and]
    rintro n - rfl
    exact e
  rw [Machine.withdrawCraneNotices, withdrawNotices_crane, none]
  simp [Crane.noticesGone]

end OnlyCrane

theorem startHandover_only (k : CraneId) (x : CellId) (s : State) : OnlyCrane k s (startHandover k x s) := by
  unfold startHandover
  dsimp only
  split
  · exact (OnlyCrane.modCrane s k _).trans (.countCrane _ k _)
  · exact ((OnlyCrane.modCrane s k _).trans (.queueNotices k _ x _)).trans (.countCrane _ k _)

theorem deferHandover_only (k : CraneId) (tried : List CellId) (s : State) : OnlyCrane k s (deferHandover k tried s) := by
  unfold deferHandover
  dsimp only
  split
  · exact .refl k s
  · exact ((OnlyCrane.modCrane s k _).trans (.noticeCrane _ k _)).trans (.countCrane _ k _)

theorem attemptStart_only (k : CraneId) (l tried : List CellId) (s : State) : OnlyCrane k s (attemptStart k l tried s) := by
  induction l generalizing tried s with
  | nil => exact deferHandover_only k tried s
  | cons x l ih =>
    unfold attemptStart
    dsimp only
    split
    · exact (OnlyCrane.reserveClaim k x _ s).trans (startHandover_only _ _ _)
    · exact (OnlyCrane.reserveClaim k x _ s).trans (ih _ _)

theorem evaluate_only (k : CraneId) (b : Bool) (s : State) : OnlyCrane k s (evaluate k b s) := by
  unfold evaluate
  dsimp only
  split
  · split
    · split
      · exact .refl k s
      · split
        · split
          · exact .modCrane s k _
          · unfold holdOff
            dsimp only
            split
            · exact (OnlyCrane.modCrane s k _).trans (attemptStart_only _ _ _ _)
            · exact (OnlyCrane.modCrane s k _).trans (.modCrane _ k _)
        · exact attemptStart_only _ _ _ _
    · exact attemptStart_only _ _ _ _
  · exact .refl k s

theorem failHandover_only (k : CraneId) (cause : FailCause) (s : State) : OnlyCrane k s (failHandover k cause s) := by
  unfold failHandover
  split
  · exact .refl k s
  next t _ =>
    dsimp only
    have withdrawn := ((OnlyCrane.releaseClaim k t (s.crane k).reservation s).trans
      (.modCrane _ k (Crane.withdraw (· == t)))).trans (.withdrawCraneNotices k _)
    exact (((withdrawn.trans (.modCrane _ k _)).trans (.noticeCrane _ k _)).trans (.countCrane _ k _)).trans
      (evaluate_only _ _ _)

theorem shadowAdd_only (k : CraneId) (x : CellId) (s : State) : OnlyCrane k s (shadowAdd k x s) := fun j e => by
  rw [shadowAdd, State.crane_congr (coverageEvent_clu x _ s), State.crane_modCrane_ne _ e]
  rfl

theorem shadowRemove_only (k : CraneId) (x : CellId) (s : State) : OnlyCrane k s (shadowRemove k x s) := fun j e => by
  rw [shadowRemove, State.crane_congr (coverageEvent_clu x _ s), State.crane_modCrane_ne _ e]
  rfl

/-! ### Cranes at rest -/

/-- The records of the cranes at rest stand. -/
def RestStands (s t : State) : Prop := ∀ k, ¬(s.crane k).Live → t.crane k = s.crane k

namespace RestStands

variable {s t u : State}

theorem refl (s : State) : RestStands s s := fun _ _ => rfl

theorem trans (h : RestStands s t) (g : RestStands t u) : RestStands s u := fun k rests =>
  (g k (by rwa [h k rests])).trans (h k rests)

theorem foldl {α : Type} {f : State → α → State} (h : ∀ s a, RestStands s (f s a)) (l : List α) (s : State) :
    RestStands s (l.foldl f s) := by
  induction l generalizing s with
  | nil => exact .refl s
  | cons a l ih => exact (h s a).trans (ih _)

/-- A change of one live crane's record. -/
theorem of_only {k : CraneId} (only : OnlyCrane k s t) (live : (s.crane k).Live) : RestStands s t := fun j rests =>
  only j fun e => rests (e ▸ live)

end RestStands

theorem evaluate_rests (k : CraneId) (b : Bool) (s : State) : RestStands s (evaluate k b s) := by
  by_cases linked : (s.crane k).state = .linked
  · exact .of_only (evaluate_only k b s) (by simp [Crane.Live, linked])
  · have stays : evaluate k b s = s := by
      unfold evaluate
      dsimp only
      split
      next linked' _ => exact absurd linked' linked
      next => rfl
    rw [stays]
    exact .refl s

theorem sweepVisit_rests (k : CraneId) (s : State) : RestStands s (sweepVisit k s) := by
  unfold sweepVisit
  split
  next busy _ =>
    split
    · exact .refl s
    · exact .of_only (failHandover_only _ _ _) (by simp [Crane.Live, busy])
  next => exact evaluate_rests _ _ _
  next => exact .refl s

theorem takeLinkEvent_rests (s : State) (e : CluEvent) : RestStands s (takeLinkEvent s e) := by
  cases e with
  | usability x => exact RestStands.foldl (fun t k => sweepVisit_rests k t) _ s
  | room x =>
    refine RestStands.foldl (fun t k => ?_) _ s
    split
    · exact evaluate_rests _ _ _
    · exact .refl t
  | mapChange => exact .refl s

theorem setEvents_rests (ev : List CluEvent) (s : State) : RestStands s { s with events := ev } := fun _ _ => rfl

theorem settleLink_rests (n : Nat) (s : State) : RestStands s (settleLink n s) := by
  induction n generalizing s with
  | zero => exact .refl s
  | succ n ih =>
    unfold settleLink
    split
    · exact .refl s
    · exact ((setEvents_rests [] s).trans (RestStands.foldl takeLinkEvent_rests _ _)).trans (ih _)

/-- The shadow claims of a live crane leave it live and reach no crane at rest. -/
theorem shadowClaims_rest {k : CraneId} {claim : CellId → State → State} {after : State → State}
    (quiet : ∀ s, CranesFollow s (after s) ∧ RestStands s (after s))
    (claims : ∀ x s, (State.crane s k).Live → CranesFollow s (claim x s) ∧ OnlyCrane k s (claim x s)) (l : List CellId)
    {s : State} (live : (s.crane k).Live) : RestStands s (l.foldl (fun t x => after (claim x t)) s) := by
  induction l generalizing s with
  | nil => exact .refl s
  | cons x l ih =>
    obtain ⟨follows, only⟩ := claims x s live
    obtain ⟨follows', rests⟩ := quiet (claim x s)
    exact ((RestStands.of_only only live).trans rests).trans (ih (((follows.trans follows') k).live live))

theorem mapVisit_rests (k : CraneId) (s : State) : RestStands s (mapVisit k s) := by
  have settles : ∀ u, CranesFollow u (settleLink settleRounds u) ∧ RestStands u (settleLink settleRounds u) := fun u =>
    ⟨settleLink_follows _ u, settleLink_rests _ u⟩
  have moved : (s.crane k).Live → RestStands s
      (moveShadow k (shadowSet s (s.crane k).band (s.crane k).boom) (settleLink settleRounds) s) := by
    intro live
    have left := claims_follow (k := k) (fun u => (settles u).1) (fun x u => shadowRemove_follows x)
      ((sortCells (s.crane k).shadow).filter fun x => !(shadowSet s (s.crane k).band (s.crane k).boom).contains x) live
    exact (shadowClaims_rest settles (fun x u live => ⟨shadowRemove_follows x live, shadowRemove_only k x u⟩) _ live).trans
      (shadowClaims_rest settles (fun x u live => ⟨shadowAdd_follows x live, shadowAdd_only k x u⟩) _
        ((left k).live live))
  unfold mapVisit
  split
  case h_1 state => exact moved (by simp [Crane.Live, state])
  case h_2 state => exact moved (by simp [Crane.Live, state])
  case h_3 state => exact moved (by simp [Crane.Live, state])
  all_goals exact .refl s

theorem takeCluEvent_rests (s : State) (e : CluEvent) : RestStands s (takeCluEvent s e) := by
  cases e with
  | usability x => exact takeLinkEvent_rests s (.usability x)
  | room x => exact takeLinkEvent_rests s (.room x)
  | mapChange =>
    exact (RestStands.foldl (fun t k => mapVisit_rests k t) _ s).trans
      (RestStands.foldl (fun t k => evaluate_rests k false t) _ _)

/-- What follows an event reaches no crane at rest. -/
theorem settle_rests (s : State) : RestStands s (settle s) := by
  unfold settle
  generalize settleRounds = n
  induction n generalizing s with
  | zero => exact .refl s
  | succ n ih =>
    unfold settleN
    split
    · exact .refl s
    · exact ((setEvents_rests [] s).trans (RestStands.foldl takeCluEvent_rests _ _)).trans (ih _)

end Machine
end Sys2Proof
end

