-- ==== Sys2Proof/Proofs/ReleasedCranes.lean ====
section
/-! O57: the release of a crane gives up all that it claims and takes it to IDLE (R71), and what follows leaves it there. -/

namespace Sys2Proof
namespace Machine

/-! ### What claims and withdrawals can change (R32, R33, R81) -/

/-- Nothing but the cells, the crane records, the pending notice blocks and what is handed on has changed. -/
def ClaimsOnly (s t : State) : Prop := ∃ cells cranes notices events, t =
  { s with cov := { s.cov with cells := cells }, clu := { s.clu with cranes := cranes, notices := notices }, events := events }

namespace ClaimsOnly

variable {s t u : State}

theorem refl (s : State) : ClaimsOnly s s := ⟨_, _, _, _, rfl⟩

theorem trans (h : ClaimsOnly s t) (g : ClaimsOnly t u) : ClaimsOnly s u := by
  obtain ⟨_, _, _, _, rfl⟩ := h
  obtain ⟨_, _, _, _, rfl⟩ := g
  exact ⟨_, _, _, _, rfl⟩

theorem foldl {α : Type} {f : State → α → State} (h : ∀ s a, ClaimsOnly s (f s a)) (l : List α) (s : State) :
    ClaimsOnly s (l.foldl f s) := by
  induction l generalizing s with
  | nil => exact .refl s
  | cons a l ih => exact (h s a).trans (ih _)

/-- A frame as an equation. -/
theorem eq (h : ClaimsOnly s t) : t =
    { s with
      cov := { s.cov with cells := t.cov.cells }
      clu := { s.clu with cranes := t.clu.cranes, notices := t.clu.notices }, events := t.events } := by
  obtain ⟨_, _, _, _, rfl⟩ := h
  rfl

theorem modCrane (s : State) (k : CraneId) (f : Crane → Crane) : ClaimsOnly s (s.modCrane k f) := ⟨_, _, _, _, rfl⟩

theorem countCrane (s : State) (k : CraneId) (f : CraneCounters → CraneCounters) : ClaimsOnly s (s.countCrane k f) :=
  modCrane s k _

theorem modCell (s : State) (x : CellId) (f : Cell → Cell) : ClaimsOnly s (s.modCell x f) := ⟨_, _, _, _, rfl⟩

theorem releaseClaim (x : CellId) (n : Nat) (s : State) : ClaimsOnly s (releaseClaim x n s) := ⟨_, _, _, _, rfl⟩

theorem withdrawNotices (p : PendingNotice → Bool) (s : State) : ClaimsOnly s (withdrawNotices p s) := by
  obtain ⟨cranes, withdrawn⟩ := withdrawNotices_frame p s
  exact ⟨_, _, _, _, withdrawn⟩

/-- An event of one cell raises its change flag and hands on a usability change, besides its own change. -/
theorem coverageEvent (x : CellId) {f : State → State} (h : ClaimsOnly s (f s)) : ClaimsOnly s (coverageEvent x f s) := by
  have flagged : ∀ b : Bool, ClaimsOnly s (if b = true then (f s).modCell x fun r => { r with changed := true } else f s) := by
    intro b
    split
    · exact h.trans (.modCell _ _ _)
    · exact h
  unfold Machine.coverageEvent
  dsimp only
  split
  · exact (flagged _).trans ⟨_, _, _, _, rfl⟩
  · exact flagged _

theorem shadowAdd (k : CraneId) (x : CellId) (s : State) : ClaimsOnly s (shadowAdd k x s) :=
  .coverageEvent x ((ClaimsOnly.modCell s x _).trans (.modCrane _ k _))

theorem shadowRemove (k : CraneId) (x : CellId) (s : State) : ClaimsOnly s (shadowRemove k x s) :=
  .coverageEvent x ((ClaimsOnly.modCell s x _).trans (.modCrane _ k _))

end ClaimsOnly

theorem withdrawCraneNotices_notices (k : CraneId) (s : State) : (withdrawCraneNotices k s).clu.notices =
    s.clu.notices.filter fun m => decide (m.crane ≠ k) := by
  obtain ⟨cranes, withdrawn⟩ := withdrawNotices_frame (fun n => n.crane == k) s
  rw [withdrawCraneNotices, withdrawn]
  refine List.filter_congr fun n _ => ?_
  by_cases e : n.crane = k <;> simp [e]

/-! ### A release, step by step (R71) -/

section Release

variable (k : CraneId) (s : State)

/-- What a release has given up of slots: claims alone. -/
theorem slotsReleased_claims : ClaimsOnly s (slotsReleased k s) := by
  have target : ClaimsOnly s (targetReleased k s) := by
    unfold targetReleased
    split
    · exact (ClaimsOnly.releaseClaim _ _ s).trans (.withdrawNotices _ _)
    · exact .refl s
  unfold slotsReleased
  split
  · exact target.trans (.releaseClaim _ _ _)
  · exact target

theorem slotsReleased_only : OnlyCrane k s (slotsReleased k s) := by
  have target : OnlyCrane k s (targetReleased k s) := by
    unfold targetReleased
    split
    · exact (OnlyCrane.releaseClaim k _ _ s).trans (.withdrawCraneNotices k _)
    · exact .refl k s
  unfold slotsReleased
  split
  · exact target.trans (.releaseClaim k _ _ _)
  · exact target

/-- The slots given up, the record of the crane has at most counted its withdrawn notice blocks. -/
theorem slotsReleased_crane : ∃ n, (slotsReleased k s).crane k = (s.crane k).noticesGone n := by
  have target : ∃ n, (targetReleased k s).crane k = (s.crane k).noticesGone n := by
    unfold targetReleased
    split
    · exact ⟨_, withdrawNotices_crane _ _ k⟩
    · exact ⟨0, by simp [Crane.noticesGone]⟩
  unfold slotsReleased
  split
  · exact target
  · exact target

/-- The pending notice blocks of a crane in HANDOVER are withdrawn with its target. -/
theorem slotsReleased_notices (busy : (s.crane k).state = .handover) (target : (s.crane k).target ≠ none) :
    (slotsReleased k s).clu.notices = s.clu.notices.filter fun m => decide (m.crane ≠ k) := by
  obtain ⟨x, target⟩ := Option.ne_none_iff_exists'.1 target
  have released : targetReleased k s = withdrawCraneNotices k (releaseClaim x (s.crane k).reservation s) := by
    simp [targetReleased, busy, target]
  have notices : (targetReleased k s).clu.notices = s.clu.notices.filter fun m => decide (m.crane ≠ k) := by
    rw [released, withdrawCraneNotices_notices]
    rfl
  unfold slotsReleased
  split
  · exact notices
  · exact notices

theorem allReleased_claims : ClaimsOnly s (allReleased k s) :=
  (slotsReleased_claims k s).trans (ClaimsOnly.foldl (fun t x => .shadowRemove k x t) _ _)

theorem allReleased_only : OnlyCrane k s (allReleased k s) :=
  (slotsReleased_only k s).trans (OnlyCrane.foldl (fun t x => shadowRemove_only k x t) _ _)

/-- The shadow claims of a crane, given up, leave all of its record but its shadow set, and the pending notice blocks. -/
theorem shadowsRemoved_record (l : List CellId) :
    (∃ shadow, (l.foldl (fun t x => shadowRemove k x t) s).crane k = { s.crane k with shadow := shadow })
      ∧ (l.foldl (fun t x => shadowRemove k x t) s).clu.notices = s.clu.notices := by
  induction l generalizing s with
  | nil => exact ⟨⟨_, rfl⟩, rfl⟩
  | cons x l ih =>
    obtain ⟨⟨shadow, record⟩, notices⟩ := ih (shadowRemove k x s)
    have first : (shadowRemove k x s).clu.notices = s.clu.notices := by
      rw [shadowRemove, coverageEvent_clu]
      rfl
    rw [List.foldl_cons, record, notices, shadowRemove_crane]
    exact ⟨⟨shadow, rfl⟩, first⟩

/-- The record of a released crane (R71): IDLE, with every other field but the definition and the counters at rest. -/
theorem releaseCrane_crane : ∃ counters, (releaseCrane k s).crane k =
      { defn := (s.crane k).defn, state := .idle, counters := counters }
    ∧ counters.releases = (s.crane k).counters.releases + 1
    ∧ counters.failures = (s.crane k).counters.failures
    ∧ counters.flushed = (s.crane k).counters.flushed + BitVec.ofNat 32 (s.crane k).queue.length
    ∧ counters.holdsWithdrawn = (s.crane k).counters.holdsWithdrawn + BitVec.ofNat 32 (s.crane k).holds.length := by
  obtain ⟨n, slots⟩ := slotsReleased_crane k s
  obtain ⟨⟨shadow, record⟩, -⟩ := shadowsRemoved_record k (slotsReleased k s) (sortCells (s.crane k).shadow)
  have given : (allReleased k s).crane k = { (s.crane k).noticesGone n with shadow := shadow } := by
    rw [← slots]
    exact record
  have released : (releaseCrane k s).crane k = _ := State.crane_modCrane (allReleased k s) k _
  rw [given] at released
  exact ⟨_, released, rfl, rfl, rfl, by simp [Crane.withdrawHolds, Crane.noticesGone]⟩

/-- The cells once a crane is released: its slots and its shadow claims given up. -/
theorem releaseCrane_cell (y : CellId) :
    ((releaseCrane k s).cell y).reserved = (s.cell y).reserved
        - (if (s.crane k).state = .handover ∧ (s.crane k).target = some y then (s.crane k).reservation else 0)
        - (if (s.crane k).anchor = some y then (s.crane k).reservation else 0)
      ∧ ((releaseCrane k s).cell y).shadowCount = (s.cell y).shadowCount - (if y ∈ (s.crane k).shadow then 1 else 0) := by
  obtain ⟨-, slots⟩ := slotsReleased_core k s
  obtain ⟨-, shadows, -⟩ := shadowsReleased k (sortCells_nodup (s.crane k).shadow) (slotsReleased k s)
  have cell : (releaseCrane k s).cell y = _ := shadows y
  rw [cell, slots y]
  simp [mem_sortCells]

end Release

/-! ### The request (R71) -/

theorem releaseRequest_off {s : State} {k : CraneId} (off : (s.crane k).state = .vacant ∨ (s.crane k).state = .idle) :
    releaseRequest k s = answer .state s := by
  unfold releaseRequest
  obtain off | off := off <;> rw [off]

theorem releaseRequest_live {s : State} {k : CraneId} (live : (s.crane k).Live) : releaseRequest k s =
    { st := releaseCrane k s, data := .stateBefore (s.crane k).state, after := fun _ t => settle t } := by
  unfold releaseRequest
  split
  next vacant => exact absurd vacant live.1
  next idle => exact absurd idle live.2
  all_goals
    next state => rw [state]

/-- A release at the head of the queue of a live crane: it is released, the answer is OK, and what follows is taken then. -/
theorem exec_releases {s : State} {q : Request} {rest : List Request} {k : CraneId} (h : HeadIs s .releaseCrane q rest)
    (data : q.data = [BitVec.ofNat 8 k.val]) (live : (s.crane k).Live) : exec .releaseCrane s =
      .next (settle ((releaseCrane k (s.taking q rest)).answered q .ok s.abandonedFlag false
        (.stateBefore (s.crane k).state))) := by
  have body : withArg (octetBelow 12) releaseRequest q (s.taking q rest) =
      { st := releaseCrane k (s.taking q rest), data := .stateBefore (s.crane k).state, after := fun _ t => settle t } := by
    rw [withArg_some (by rw [data]; exact octetBelow_ofNat (by decide) k)]
    exact releaseRequest_live live
  have taken := State.take_awake h.awake (serve .releaseCrane (withArg (octetBelow 12) releaseRequest))
  obtain ⟨_, executed⟩ := executeHead_interleaves q rest (withArg (octetBelow 12) releaseRequest) s
  refine taken.trans (congrArg _ ?_)
  rw [serve_head h]
  refine executed.trans ?_
  rw [body]

end Machine

open Machine

/-- Settles O57: the release gives up what the crane claims, and what is taken after the answer reaches no crane at rest. -/
theorem releaseReturnsTheCraneToIdle : Obligations.ReleaseReturnsTheCraneToIdle := by
  intro q rest k s head data _ u c
  refine ⟨fun off => ?_, fun live => ?_⟩
  · refine serve_status head rfl (body := withArg (octetBelow 12) releaseRequest) ?_
    rw [withArg_some (by rw [data]; exact octetBelow_ofNat (by decide) k)]
    exact releaseRequest_off off
  · obtain ⟨counters, record, releases, failures, flushed, holds⟩ := releaseCrane_crane k u
    have only : OnlyCrane k u (releaseCrane k u) := (allReleased_only k u).trans (.modCrane _ k _)
    have frame : ClaimsOnly u (releaseCrane k u) := (allReleased_claims k u).trans ⟨_, _, _, _, rfl⟩
    generalize hv : releaseCrane k u = v at record only frame
    have rests : (settle (v.answered q .ok s.abandonedFlag false (.stateBefore c.state))).crane k = v.crane k := by
      refine settle_rests _ k ?_
      have idle : ((v.answered q .ok s.abandonedFlag false (.stateBefore c.state)).crane k).state = .idle :=
        congrArg Crane.state record
      exact fun live => live.2 idle
    obtain ⟨p, cov, clu, ev, follows⟩ := settle_linkOnly (v.answered q .ok s.abandonedFlag false (.stateBefore c.state))
    refine ⟨_, hv ▸ exec_releases head data (Crane.live_iff.2 live), ⟨p, cov, clu, ev, ?_⟩, ?_, ?_, ?_, ?_, ?_, ?_, ?_, v,
      rfl, frame.eq, only, rests.symm, fun busy target => ?_, fun y => ?_⟩
    · rw [follows, frame.eq]
      rfl
    · rw [rests, record]
      rfl
    · rw [rests, record]
      exact releases
    · rw [rests, record]
      exact failures
    · rw [rests, record]
      exact flushed
    · rw [rests, record]
      exact holds
    · rw [follows, frame.eq]
      rfl
    · rw [follows, frame.eq]
      rfl
    · rw [← hv]
      exact (shadowsRemoved_record k (slotsReleased k u) _).2.trans (slotsReleased_notices k u busy target)
    · rw [← hv]
      exact releaseCrane_cell k u y

end Sys2Proof
end

