-- ==== Sys2Proof/Proofs/ShadowMoves.lean ====
section
/-! SUPPORT. A crane's shadow set moved to a new one, claim by claim (R33, R52): each cell is claimed once at most, and so what
each claim does to the cell's flag and hands on is what the whole move makes of its usability (R31, R34). -/

namespace Sys2Proof
namespace Machine

/-- No change of a crane reaches a cell. -/
@[simp] theorem State.cell_modCrane (s : State) (k : CraneId) (f : Crane → Crane) (x : CellId) :
    (s.modCrane k f).cell x = s.cell x := rfl

/-! ### What usability of a cell depends on (R31) -/

/-- Two states agree on all that usability of a cell depends on. -/
structure FitAlike (y : CellId) (s t : State) : Prop where
  unit : (t.cell y).unit = (s.cell y).unit
  barred : (t.cell y).barred = (s.cell y).barred
  count : (t.cell y).shadowCount = (s.cell y).shadowCount
  defn : ∀ j, (t.crane j).defn = (s.crane j).defn
  shadow : ∀ j, y ∈ (t.crane j).shadow ↔ y ∈ (s.crane j).shadow

namespace FitAlike

variable {y : CellId} {s t u : State}

theorem fit (h : FitAlike y s t) : Fit t y ↔ Fit s y := by
  simp only [Fit, h.unit, h.barred, h.count]

theorem fitFor (h : FitAlike y s t) (j : CraneId) : FitFor t j y ↔ FitFor s j y := by
  simp only [FitFor, h.unit, h.barred, h.count, h.shadow j]

theorem differs_left (h : FitAlike y s t) : FitDiffers t u y ↔ FitDiffers s u y := by
  simp only [FitDiffers, h.fit, h.fitFor, h.defn]

theorem differs_right (h : FitAlike y s t) : FitDiffers u t y ↔ FitDiffers u s y := by
  simp only [FitDiffers, h.fit, h.fitFor, h.defn]

end FitAlike

/-- A usability change of a cell is handed on between two states (R31). -/
def fitTold (s u : State) (y : CellId) : Bool := decide (usabilityView s y ≠ usabilityView u y)

theorem fitTold_iff (s u : State) (y : CellId) : fitTold s u y = true ↔ FitDiffers s u y := by
  rw [fitTold, decide_eq_true_iff, usabilityView_ne]

/-! ### Claims of one crane on different cells -/

/-- Shadow claims of a crane on some cells, each of them claimed once: what they leave of the state, and what they do to change
flags and hand on, in the order of the claims (R31, R33, R34). -/
structure ShadowsMoved (k : CraneId) (claimed : List CellId) (s t : State) : Prop where
  frame : t = { s with
    cov := { s.cov with cells := t.cov.cells }, clu := { s.clu with cranes := t.clu.cranes }, events := t.events }
  others : OnlyCrane k s t
  crane : t.crane k = { s.crane k with shadow := (t.crane k).shadow }
  cell : ∀ y, t.cell y = { s.cell y with shadowCount := (t.cell y).shadowCount, changed := (t.cell y).changed }
  stands : ∀ y, y ∉ claimed → t.cell y = s.cell y ∧ (y ∈ (t.crane k).shadow ↔ y ∈ (s.crane k).shadow)
  flag : ∀ y, (t.cell y).changed = true ↔ (s.cell y).changed = true ∨ ¬(Fit s y ↔ Fit t y)
  told : t.events = s.events ++ (claimed.filter (fitTold s t)).map CluEvent.usability

namespace ShadowsMoved

variable {k : CraneId} {l m : List CellId} {s t u : State}

/-- A cell not claimed is as usable as before. -/
theorem alike (h : ShadowsMoved k l s t) {y : CellId} (hy : y ∉ l) : FitAlike y s t := by
  obtain ⟨cell, shadow⟩ := h.stands y hy
  refine ⟨by rw [cell], by rw [cell], by rw [cell], fun j => ?_, fun j => ?_⟩
  · by_cases e : j = k
    · subst e
      rw [h.crane]
    · rw [h.others j e]
  · by_cases e : j = k
    · subst e
      exact shadow
    · rw [h.others j e]

theorem refl (k : CraneId) (s : State) : ShadowsMoved k [] s s :=
  ⟨rfl, .refl k s, rfl, fun _ => rfl, fun _ _ => ⟨rfl, .rfl⟩, by simp, by simp⟩

/-- Claims on some cells, and after them claims on others. -/
theorem append (h : ShadowsMoved k l s t) (g : ShadowsMoved k m t u) (apart : ∀ y ∈ l, y ∉ m) :
    ShadowsMoved k (l ++ m) s u where
  frame := by rw [g.frame, h.frame]
  others := h.others.trans g.others
  crane := by rw [g.crane, h.crane]
  cell y := by rw [g.cell, h.cell]
  stands y hy := by
    obtain ⟨before, after⟩ := not_or.1 (mt List.mem_append.2 hy)
    obtain ⟨cell, shadow⟩ := h.stands y before
    obtain ⟨cell', shadow'⟩ := g.stands y after
    exact ⟨cell'.trans cell, shadow'.trans shadow⟩
  flag y := by
    by_cases hy : y ∈ m
    · have before := h.alike fun there => apart y there hy
      rw [g.flag, before.fit, (h.stands y fun there => apart y there hy).1]
    · rw [(g.stands y hy).1, (g.alike hy).fit, h.flag]
  told := by
    have first : l.filter (fitTold s u) = l.filter (fitTold s t) := List.filter_congr fun y hy => by
      rw [Bool.eq_iff_iff, fitTold_iff, fitTold_iff, (g.alike (apart y hy)).differs_right]
    have second : m.filter (fitTold s u) = m.filter (fitTold t u) := List.filter_congr fun y hy => by
      rw [Bool.eq_iff_iff, fitTold_iff, fitTold_iff, (h.alike fun there => apart y there hy).differs_left]
    rw [g.told, h.told, List.filter_append, List.map_append, first, second, List.append_assoc]

/-- One claim: an event of its cell, in which the crane's shadow set and the cell's shadow count change. -/
theorem claim {x : CellId} {f : State → State}
    (claimed : ∃ (count : Nat → Nat) (shadow : List CellId → List CellId), f s = (s.modCell x fun r => { r with shadowCount := count r.shadowCount }).modCrane k fun c =>
      { c with shadow := shadow c.shadow })
    (inside : ∀ y, y ≠ x → (y ∈ ((f s).crane k).shadow ↔ y ∈ (s.crane k).shadow)) :
    ShadowsMoved k [x] s (coverageEvent x f s) := by
  obtain ⟨count, shadow, hf⟩ := claimed
  have event := coverageEvent_cellEvent x f s
  generalize coverageEvent x f s = t at event
  have crane : ∀ j, t.crane j = (f s).crane j := fun j => by rw [event.frame]; rfl
  have own : (f s).cell x = { s.cell x with shadowCount := count (s.cell x).shadowCount } := by
    rw [hf, State.cell_modCrane, State.cell_modCell]
  have kept : ∀ y, y ≠ x → t.cell y = s.cell y := fun y hy => by
    rw [event.others y hy, hf, State.cell_modCrane, State.cell_modCell_ne _ hy]
  have alike : FitAlike x (f s) t :=
    ⟨by rw [event.cell], by rw [event.cell], by rw [event.cell], fun j => by rw [crane], fun j => by rw [crane]⟩
  have others : OnlyCrane k s t := fun j hj => by
    rw [crane, hf, State.crane_modCrane_ne _ hj]
    rfl
  have record : t.crane k = { s.crane k with shadow := (t.crane k).shadow } := by
    rw [crane, hf, State.crane_modCrane]
    rfl
  constructor
  case frame =>
    rw [event.frame, hf]
    rfl
  case others => exact others
  case crane => exact record
  case cell =>
    intro y
    by_cases hy : y = x
    · subst hy
      rw [event.cell, own]
    · rw [kept y hy]
  case stands =>
    intro y hy
    rw [List.mem_singleton] at hy
    exact ⟨kept y hy, by rw [crane]; exact inside y hy⟩
  case flag =>
    intro y
    by_cases hy : y = x
    · subst hy
      rw [event.flag, own, alike.fit]
      simp
    · have same : Fit t y ↔ Fit s y := by simp only [Fit, kept y hy]
      rw [kept y hy, same]
      simp
  case told =>
    have events : (f s).events = s.events := by
      rw [hf]
      rfl
    have same : fitTold s t x = true ↔ FitDiffers s (f s) x := (fitTold_iff s t x).trans alike.differs_right
    by_cases here : FitDiffers s (f s) x
    · rw [event.told here, events]
      simp [same.2 here]
    · rw [event.untold here, events]
      simp [mt same.1 here]

end ShadowsMoved

section Claims

variable (k : CraneId) (x : CellId) (s : State)

theorem shadowAdd_moved : ShadowsMoved k [x] s (shadowAdd k x s) :=
  .claim (f := fun t => (t.modCell x fun r => { r with shadowCount := r.shadowCount + 1 }).modCrane k fun c =>
      { c with shadow := sortCells (x :: c.shadow) }) ⟨(· + 1), fun l => sortCells (x :: l), rfl⟩ fun y hy => by
    rw [State.crane_modCrane]
    simp only [mem_sortCells, List.mem_cons, hy, false_or]
    rfl

theorem shadowRemove_moved : ShadowsMoved k [x] s (shadowRemove k x s) :=
  .claim (f := fun t => (t.modCell x fun r => { r with shadowCount := r.shadowCount - 1 }).modCrane k fun c =>
      { c with shadow := c.shadow.filter (· != x) }) ⟨(· - 1), fun l => l.filter (· != x), rfl⟩ fun y hy => by
    rw [State.crane_modCrane]
    simp only [List.mem_filter, bne_iff_ne, ne_eq, hy, not_false_eq_true, and_true]
    rfl

theorem shadowAdd_count (y : CellId) : ((shadowAdd k x s).cell y).shadowCount =
    (s.cell y).shadowCount + (if y = x then 1 else 0) := by
  have event := coverageEvent_cellEvent x (fun t =>
    (t.modCell x fun r => { r with shadowCount := r.shadowCount + 1 }).modCrane k fun c =>
      { c with shadow := sortCells (x :: c.shadow) }) s
  have added : ∀ z, ((s.modCell x fun r => { r with shadowCount := r.shadowCount + 1 }).modCrane k fun c =>
      { c with shadow := sortCells (x :: c.shadow) }).cell z =
        (s.modCell x fun r => { r with shadowCount := r.shadowCount + 1 }).cell z := fun _ => rfl
  by_cases h : y = x
  · subst h
    rw [shadowAdd, event.cell, added, State.cell_modCell, if_pos rfl]
  · rw [shadowAdd, event.others y h, added, State.cell_modCell_ne _ h, if_neg h, Nat.add_zero]

end Claims

section Folds

variable (k : CraneId)

/-- The cells that leave a shadow set, claimed one after the other. -/
theorem shadowsRemoved_moved {l : List CellId} (once : l.Nodup) (s : State) :
    let t := l.foldl (fun t x => shadowRemove k x t) s
    ShadowsMoved k l s t ∧ ∀ y, (y ∈ (t.crane k).shadow ↔ y ∈ (s.crane k).shadow ∧ y ∉ l)
      ∧ (t.cell y).shadowCount = (s.cell y).shadowCount - (if y ∈ l then 1 else 0) := by
  induction l generalizing s with
  | nil => exact ⟨.refl k s, fun y => by simp⟩
  | cons x l ih =>
    obtain ⟨apart, once'⟩ := List.nodup_cons.1 once
    obtain ⟨moved, after⟩ := ih once' (shadowRemove k x s)
    refine ⟨(shadowRemove_moved k x s).append moved (by simpa using apart), fun y => ?_⟩
    obtain ⟨inside, count⟩ := after y
    rw [List.foldl_cons, inside, count, shadowRemove_crane, shadowRemove_cell]
    refine ⟨by simp [and_assoc], ?_⟩
    by_cases e : y = x
    · subst e
      simp [apart]
    · simp [e]

/-- The cells that enter a shadow set, claimed one after the other. -/
theorem shadowsAdded_moved {l : List CellId} (once : l.Nodup) (s : State) :
    let t := l.foldl (fun t x => shadowAdd k x t) s
    ShadowsMoved k l s t ∧ ∀ y, (y ∈ (t.crane k).shadow ↔ y ∈ (s.crane k).shadow ∨ y ∈ l)
      ∧ (t.cell y).shadowCount = (s.cell y).shadowCount + (if y ∈ l then 1 else 0) := by
  induction l generalizing s with
  | nil => exact ⟨.refl k s, fun y => by simp⟩
  | cons x l ih =>
    obtain ⟨apart, once'⟩ := List.nodup_cons.1 once
    obtain ⟨moved, after⟩ := ih once' (shadowAdd k x s)
    refine ⟨(shadowAdd_moved k x s).append moved (by simpa using apart), fun y => ?_⟩
    obtain ⟨inside, count⟩ := after y
    rw [List.foldl_cons, inside, count, shadowAdd_crane, shadowAdd_count]
    refine ⟨by simp [or_assoc, or_left_comm], ?_⟩
    by_cases e : y = x
    · subst e
      simp [apart]
    · simp [e]

end Folds

/-! ### The whole move (R52) -/

/-- The cells of one list that are not in another, in ascending number. -/
def cellsBeyond (l m : List CellId) : List CellId := allCells.filter fun y => decide (y ∈ l ∧ y ∉ m)

theorem mem_cellsBeyond {l m : List CellId} {y : CellId} : y ∈ cellsBeyond l m ↔ y ∈ l ∧ y ∉ m := by
  simp [cellsBeyond, mem_allCells]

theorem cellsBeyond_nodup (l m : List CellId) : (cellsBeyond l m).Nodup := List.Nodup.filter _ (by decide)

theorem sortCells_beyond (l m : List CellId) : (sortCells l).filter (fun x => !m.contains x) = cellsBeyond l m := by
  simp [sortCells, cellsBeyond, List.filter_filter, Bool.and_comm]

/-- The cells of a sorted set, taken with its own order. -/
theorem sortCells_sortCells (l : List CellId) : sortCells (sortCells l) = sortCells l := by
  refine List.filter_congr fun x _ => ?_
  simp

/-- The whole move of a crane's shadow set to a sorted one: the cells that leave it, then those that enter it, each claimed
once. -/
theorem moveShadow_moved (k : CraneId) {new : List CellId} (sorted : sortCells new = new) (s : State) :
    let t := moveShadow k new id s
    ShadowsMoved k (cellsBeyond (s.crane k).shadow new ++ cellsBeyond new (s.crane k).shadow) s t
      ∧ ∀ y, (y ∈ (t.crane k).shadow ↔ y ∈ new)
        ∧ (t.cell y).shadowCount =
          (if y ∈ (s.crane k).shadow ∧ y ∉ new then (s.cell y).shadowCount - 1
            else if y ∉ (s.crane k).shadow ∧ y ∈ new then (s.cell y).shadowCount + 1 else (s.cell y).shadowCount) := by
  obtain ⟨left, stay⟩ := shadowsRemoved_moved k (cellsBeyond_nodup (s.crane k).shadow new) s
  generalize hm : (cellsBeyond (s.crane k).shadow new).foldl (fun t x => shadowRemove k x t) s = m at left stay
  obtain ⟨entered, all⟩ := shadowsAdded_moved k (cellsBeyond_nodup new (s.crane k).shadow) m
  have whole : moveShadow k new id s =
      (cellsBeyond new (s.crane k).shadow).foldl (fun t x => shadowAdd k x t) m := by
    rw [← hm, ← sortCells_beyond, ← sortCells_beyond, sorted]
    rfl
  rw [whole]
  refine ⟨left.append entered fun y out into => ?_, fun y => ?_⟩
  · exact (mem_cellsBeyond.1 out).2 (mem_cellsBeyond.1 into).1
  · rw [(all y).1, (all y).2, (stay y).1, (stay y).2]
    simp only [mem_cellsBeyond]
    by_cases old : y ∈ (s.crane k).shadow <;> by_cases fresh : y ∈ new <;> simp [old, fresh]

end Machine
end Sys2Proof
end

