-- ==== Sys2Proof/Proofs/PositionWords.lean ====
section
/-! SUPPORT. A position word taken (R52): what it makes of the crane's record, its shadow set and the cells, before the
evaluation that its report brings. -/

namespace Sys2Proof
namespace Machine

/-! ### The word (11.3) -/

theorem positionBand_val (word : U16) : (positionBand word).map Fin.val =
    if word.toNat / 512 < 64 then some (word.toNat / 512) else none := by
  unfold positionBand
  split
  · rfl
  · rfl

theorem positionBand_isSome (word : U16) : (positionBand word).isSome = decide (word.toNat / 512 < 64) := by
  unfold positionBand
  split
  next within => simp [within]
  next beyond => simp [beyond]

theorem positionBoom_eq (word : U16) : positionBoom word =
    if word.toNat / 128 % 4 = 0 then .raised else if word.toNat / 128 % 4 = 1 then .lowered else .unknown := by
  unfold positionBoom
  split
  next raised => simp [raised]
  next lowered => simp [lowered]
  next other other' => rw [if_neg other, if_neg other']

theorem positionBoom_lowered (word : U16) : positionBoom word = .lowered ↔ word.toNat / 128 % 4 = 1 := by
  rw [positionBoom_eq]
  split_ifs with raised lowered <;> simp [*]

/-- The cells a position shadows (R52): those of its band while the boom is LOWERED. -/
theorem mem_shadowSet {s : State} {band : Option BandId} {boom : Boom} {y : CellId} : y ∈ shadowSet s band boom ↔
    boom = .lowered ∧ ∃ b, band = some b ∧ y ∈ (s.bandEntry b).shadow := by
  unfold shadowSet
  split
  · simp
  next other =>
    simp only [List.not_mem_nil, false_iff, not_and, not_exists]
    rintro lowered b band -
    exact other b band lowered

theorem shadowSet_sorted (s : State) (band : Option BandId) (boom : Boom) :
    sortCells (shadowSet s band boom) = shadowSet s band boom := by
  unfold shadowSet
  split
  · exact sortCells_sortCells _
  · rfl

/-! ### What a position report changes of its crane (R47, R52) -/

/-- The record of a crane with the position of a word. -/
def Crane.placed (word : U16) (c : Crane) : Crane :=
  { c.reported with band := positionBand word, boom := positionBoom word }

/-- A word brings the position that is known (R52). -/
def Crane.stays (word : U16) (c : Crane) : Bool := c.band == positionBand word && c.boom == positionBoom word

theorem Crane.stays_iff {word : U16} {c : Crane} :
    c.stays word = true ↔ positionBand word = c.band ∧ positionBoom word = c.boom := by
  rw [Crane.stays, Bool.and_eq_true, beq_iff_eq, beq_iff_eq]
  exact and_congr eq_comm eq_comm

/-- The state in which a position report is handed to handover: the shadow set has moved with the position. -/
def positionPlaced (k : CraneId) (word : U16) (s : State) : State :=
  if (s.crane k).stays word then s.modCrane k (Crane.placed word)
  else moveShadow k (shadowSet s (positionBand word) (positionBoom word)) id (s.modCrane k (Crane.placed word))

theorem Crane.placed_of_stays {word : U16} {c : Crane} (stays : c.stays word = true) : c.placed word = c.reported := by
  obtain ⟨band, boom⟩ := Crane.stays_iff.1 stays
  rw [Crane.placed, band, boom]
  rfl

/-- The position taken, and the evaluation that its report brings (R52, R75). -/
theorem takePosition_eq (k : CraneId) (word : U16) (s : State) : takePosition k word s =
    if (positionBand word).isSome || !(s.crane k).stays word then
      evaluate k (positionBand word).isSome (positionPlaced k word s)
    else positionPlaced k word s := by
  have changed : ((s.crane k).band != positionBand word || (s.crane k).boom != positionBoom word) =
      !(s.crane k).stays word := by
    simp [Crane.stays, bne, Bool.not_and]
  have shadow : shadowSet (s.modCrane k Crane.reported) = shadowSet s := rfl
  have placed : (s.modCrane k Crane.reported).modCrane k (fun c =>
      { c with band := positionBand word, boom := positionBoom word }) = s.modCrane k (Crane.placed word) :=
    State.modCrane_modCrane _ _ _ _
  unfold takePosition positionPlaced
  dsimp only
  rw [Bool.or_assoc, changed, shadow, placed]
  cases stays : (s.crane k).stays word with
  | true => rw [State.modCrane_congr (Crane.placed_of_stays stays)]; rfl
  | false => rfl

section Placed

variable (k : CraneId) (word : U16) (s : State)

/-- The position of a word taken: the record holds it, and the shadow set has moved claim by claim. -/
theorem positionPlaced_moved :
    let u := positionPlaced k word s
    ShadowsMoved k (cellsBeyond (s.crane k).shadow (u.crane k).shadow ++ cellsBeyond (u.crane k).shadow (s.crane k).shadow)
        (s.modCrane k (Crane.placed word)) u
      ∧ ((s.crane k).stays word = false → ∀ y,
        (y ∈ (u.crane k).shadow ↔ y ∈ shadowSet s (positionBand word) (positionBoom word))
        ∧ (u.cell y).shadowCount =
          (if y ∈ (s.crane k).shadow ∧ y ∉ (u.crane k).shadow then (s.cell y).shadowCount - 1
            else if y ∉ (s.crane k).shadow ∧ y ∈ (u.crane k).shadow then (s.cell y).shadowCount + 1
            else (s.cell y).shadowCount)) := by
  have old : ((s.modCrane k (Crane.placed word)).crane k).shadow = (s.crane k).shadow := by
    rw [State.crane_modCrane]
    rfl
  unfold positionPlaced
  cases stays : (s.crane k).stays word with
  | true =>
    have none : cellsBeyond (s.crane k).shadow (s.crane k).shadow = [] := by simp [cellsBeyond]
    rw [if_pos rfl]
    dsimp only
    rw [old, none]
    exact ⟨.refl k _, nofun⟩
  | false =>
    obtain ⟨moved, after⟩ := moveShadow_moved k (shadowSet_sorted s (positionBand word) (positionBoom word))
      (s.modCrane k (Crane.placed word))
    rw [if_neg Bool.false_ne_true]
    generalize moveShadow k _ id _ = u at moved after
    rw [old] at moved after
    have inside : ∀ y, y ∈ (u.crane k).shadow ↔ y ∈ shadowSet s (positionBand word) (positionBoom word) := fun y => (after y).1
    refine ⟨?_, fun _ y => ⟨inside y, ?_⟩⟩
    · simpa only [cellsBeyond, inside] using moved
    · simpa only [inside, State.cell_modCrane] using (after y).2

/-- Where the report leaves the crane: all of its record stands but for the position, the shadow set and the hold-off in use
(R47, R52). -/
theorem positionPlaced_crane : (positionPlaced k word s).crane k =
    { (s.crane k).placed word with shadow := ((positionPlaced k word s).crane k).shadow } := by
  obtain ⟨moved, -⟩ := positionPlaced_moved k word s
  have record := moved.crane
  rwa [State.crane_modCrane] at record

/-- Usability stood as it was when the record alone was changed. -/
theorem placed_alike (y : CellId) : FitAlike y s (s.modCrane k (Crane.placed word)) := by
  have same : ∀ j, ((s.modCrane k (Crane.placed word)).crane j).defn = (s.crane j).defn
      ∧ ((s.modCrane k (Crane.placed word)).crane j).shadow = (s.crane j).shadow := by
    intro j
    by_cases e : j = k
    · subst e
      rw [State.crane_modCrane]
      exact ⟨rfl, rfl⟩
    · rw [State.crane_modCrane_ne _ e]
      exact ⟨rfl, rfl⟩
  exact ⟨rfl, rfl, rfl, fun j => (same j).1, fun j => by rw [(same j).2]⟩

end Placed

end Machine
end Sys2Proof
end

