-- ==== Sys2Proof/Proofs/FirstContacts.lean ====
section
/-! O24: the first contact of an IDLE crane (R49), the forwarding of its blocks (R51), and its position words (R52). -/

namespace Sys2Proof
namespace Machine

/-! ### A dispatched block (R18a, R48) -/

/-- A dispatched block leaves the cranes, what is handed on, the time and every cell's claims as they stood. -/
structure BlockDispatched (x : CellId) (s t : State) : Prop where
  clu : t.clu = s.clu
  events : t.events = s.events
  time : t.time = s.time
  port : t.port = s.port
  mgmt : t.mgmt = s.mgmt
  cov : t.cov = { s.cov with cells := t.cov.cells }
  cell : ∀ y, t.cell y = { s.cell y with uplinkBlocks := (t.cell y).uplinkBlocks }

theorem dispatched_block (s : State) (x : CellId) : BlockDispatched x s (s.dispatched x) := by
  obtain ⟨port, mgmt, cov⟩ := dispatched_keeps s x
  refine ⟨State.modChain_clu s _ _, ?_, ?_, port, mgmt, cov, fun y => ?_⟩
  · unfold State.dispatched State.lineHeard State.modChain
    cases chainOf x <;> rfl
  · unfold State.dispatched State.lineHeard State.modChain
    cases chainOf x <;> rfl
  · by_cases e : y = x
    · subst e
      rw [State.dispatched, State.cell_modCell, State.lineHeard, State.cell_modChain]
    · rw [State.dispatched, State.cell_modCell_ne _ e, State.lineHeard, State.cell_modChain]

/-- A CRANE-UP block that is dispatched reaches the Crane Link Unit. -/
theorem exec_craneUp {s : State} {x : CellId} (dispatched : Dispatched s x) {payload : List Byte} (long : 2 ≤ payload.length)
    (radio : Addr) (seq : U16) :
    exec (.craneUp x radio seq payload) s = .next (takeCraneUp x radio seq payload (s.dispatched x)) := by
  refine (State.take_awake dispatched.awake _).trans ?_
  rw [decide_eq_true long, uplinkBlock_dispatched dispatched]

theorem BlockDispatched.dirCrane {x : CellId} {s t : State} (h : BlockDispatched x s t) (a : Addr) :
    dirCrane t a = dirCrane s a := by
  have directory : t.cov.directory = s.cov.directory := by rw [h.cov]
  rw [Machine.dirCrane, Machine.dirCrane, dirFind, dirFind, directory]

/-- What a crane notice leaves of the port depends on the crane's definition, the port, the Management Unit and the time. -/
theorem craneNoticed_congr {s t : State} {k : CraneId} (defn : (t.crane k).defn = (s.crane k).defn) (port : t.port = s.port)
    (mgmt : t.mgmt = s.mgmt) (time : t.time = s.time) (n : Notice) : t.craneNoticed k n = s.craneNoticed k n := by
  simp only [State.craneNoticed, State.controllerNoticed, State.noticeFrame, State.params, State.mgmtAddress, defn, port,
    mgmt, time]

/-! ### Forwarding (R51) -/

/-- The record of a crane whose block has been offered toward its station, and was taken or not (R51). -/
def Crane.forwarded (taken : Bool) (c : Crane) : Crane :=
  { c with counters := { c.counters with forwarded := c.counters.forwarded + (if taken then 1 else 0) } }

theorem Crane.forwarded_false (c : Crane) : c.forwarded false = c := by simp [Crane.forwarded]

/-- A block of a defined crane is offered to the crane-up queue toward its station, and counted when it is taken. -/
theorem forwardUp_eq {s : State} {k : CraneId} {d : CraneDef} (defn : (s.crane k).defn = some d) (seq : U16)
    (payload : List Byte) :
    let o := s.port.offer .craneUp
      { dst := d.station, src := s.mgmtAddress, etherType := s.params.quayType, content := .craneUp k seq payload }
    forwardUp k seq payload s = { s.modCrane k (Crane.forwarded o.2) with port := o.1 } := by
  intro o
  have unfolded : forwardUp k seq payload s =
      if o.2 then (State.countCrane { s with port := o.1 } k fun c => { c with forwarded := c.forwarded + 1 })
      else { s with port := o.1 } := by
    rw [forwardUp, defn]
    rfl
  rw [unfolded]
  cases o.2 with
  | true => rfl
  | false =>
    have same : s.modCrane k (Crane.forwarded false) = s := State.modCrane_self (Crane.forwarded_false _)
    rw [same]
    rfl

/-- Forwarding touches no field of a crane's record but a counter. -/
theorem forwardUp_crane (k : CraneId) (seq : U16) (payload : List Byte) (s : State) : ∃ taken,
    (forwardUp k seq payload s).crane k = (s.crane k).forwarded taken := by
  cases defn : (s.crane k).defn with
  | none =>
    rw [forwardUp, defn]
    exact ⟨false, (Crane.forwarded_false _).symm⟩
  | some d =>
    rw [forwardUp_eq defn]
    exact ⟨_, State.crane_modCrane s k _⟩

/-! ### A position taken, and what follows (R52, R75) -/

/-- The evaluation of a position report makes of the crane what handover may. -/
theorem takePosition_followed (k : CraneId) (word : U16) (s : State) :
    ((positionPlaced k word s).crane k).Followed ((takePosition k word s).crane k) := by
  rw [takePosition_eq]
  split
  · exact evaluate_follows _ _ _ k
  · exact .refl _

/-- What a block that is forwarded and its position leave of the crane's record, whatever follows: all but the counter of
forwarded blocks, the position, the hold-off in use, and what handover may change (R51, R52, R75). -/
theorem forwarded_followed (k : CraneId) (seq : U16) (payload : List Byte) (word : U16) (s : State) : ∃ taken shadow,
    Crane.Followed { ((s.crane k).forwarded taken).placed word with shadow := shadow }
      ((takePosition k word (forwardUp k seq payload s)).crane k) := by
  obtain ⟨taken, forwarded⟩ := forwardUp_crane k seq payload s
  have followed := takePosition_followed k word (forwardUp k seq payload s)
  rw [positionPlaced_crane, forwarded] at followed
  exact ⟨taken, _, followed⟩

/-! ### First contact (R49) -/

section FirstContact

variable {s : State} {k : CraneId} {x : CellId}

/-- The record of an IDLE crane whose first contact has been granted a cell. -/
def Crane.contacted (x : CellId) (seq : U16) (interval : Nat) (c : Crane) : Crane :=
  { c with
    state := .linked, anchor := some x, craneHeard := true, stationHeard := true, craneMiss := 0, stationMiss := 0
    supervision := some (interval * 4), window := some { base := seq, marks := 1#64 } }

/-- A crane that shadows nothing finds a cell usable exactly when it is. -/
theorem usableFor_of_shadowless (none : (s.crane k).shadow = []) (x : CellId) : usableFor s k x = usable s x := by
  simp [usableFor, usable, contribution, none]

theorem firstContact_granted {d : CraneDef} (defn : (s.crane k).defn = some d) (fit : usableFor s k x = true)
    (room : RoomFor s k x) (seq : U16) (payload : List Byte) : firstContact k x seq payload s =
      takePosition k (positionWord payload) (forwardUp k seq payload
        ((s.modCell x fun r => { r with reserved := r.reserved + d.reservation }).modCrane k
          (Crane.contacted x seq d.interval))) := by
  have reservation : (s.crane k).reservation = d.reservation := by rw [Crane.reservation, defn]; rfl
  rw [firstContact, if_pos fit, reserveClaim_granted room, reservation]
  dsimp only
  rw [if_pos rfl]
  have linked : (s.modCell x fun r => { r with reserved := r.reserved + d.reservation }).modCrane k (fun c =>
      { c with
        state := .linked, anchor := some x, craneHeard := true, stationHeard := true, craneMiss := 0, stationMiss := 0
        supervision := startTimer ((c.defn.map CraneDef.interval).getD 0), window := some (Window.start seq) }) =
      (s.modCell x fun r => { r with reserved := r.reserved + d.reservation }).modCrane k
        (Crane.contacted x seq d.interval) := by
    have interval : ((s.crane k).defn.map CraneDef.interval).getD 0 = d.interval := by
      rw [defn]
      rfl
    refine State.modCrane_congr ?_
    dsimp only [Crane.contacted]
    rw [show (s.modCell x fun r => { r with reserved := r.reserved + d.reservation }).crane k = s.crane k from rfl, interval]
    rfl
  rw [linked]

/-- A first contact refused: the notice and the counters, and nothing else (R32, R49). -/
structure ContactRefused (k : CraneId) (x : CellId) (cause : NoRoomCause) (s t : State) : Prop where
  events : t.events = s.events
  crane : t.crane k =
    { s.crane k with
      counters := { (s.crane k).counters with
        firstContactRefused := (s.crane k).counters.firstContactRefused + 1 } }
  cell : ∀ y, t.cell y = s.cell y
  port : t.port = s.craneNoticed k (.craneNoRoom k cause x)

theorem refuseContact_refused (k : CraneId) (x : CellId) (cause : NoRoomCause) (s : State) :
    ContactRefused k x cause s (refuseContact k x cause s) := by
  let u := s.countCrane k fun c => { c with firstContactRefused := c.firstContactRefused + 1 }
  have record : u.crane k = { s.crane k with counters := { (s.crane k).counters with
      firstContactRefused := (s.crane k).counters.firstContactRefused + 1 } } := State.crane_modCrane _ _ _
  have noticed : refuseContact k x cause s = { u with port := u.craneNoticed k (.craneNoRoom k cause x) } :=
    noticeCrane_noticed _ _ _
  have port : u.craneNoticed k (.craneNoRoom k cause x) = s.craneNoticed k (.craneNoRoom k cause x) :=
    craneNoticed_congr (s := s) (t := u) (congrArg Crane.defn record :) rfl rfl rfl _
  rw [noticed, port]
  exact ⟨rfl, record, fun _ => rfl, rfl⟩

theorem firstContact_refused (refused : ¬(usableFor s k x = true ∧ RoomFor s k x)) (seq : U16) (payload : List Byte) :
    ContactRefused k x (if usableFor s k x then .noRoom else .notUsable) s (firstContact k x seq payload s) := by
  by_cases fit : usableFor s k x = true
  · have claim := reserveClaim_refused fun room => refused ⟨fit, room⟩
    rw [firstContact, if_pos fit, claim, if_pos fit]
    obtain ⟨events, crane, cell, port⟩ := refuseContact_refused k x .noRoom
      (s.countCov fun c => { c with reserveRefusals := c.reserveRefusals + 1 })
    exact ⟨events, crane, cell, port.trans (craneNoticed_congr rfl rfl rfl rfl _)⟩
  · rw [firstContact, if_neg fit, if_neg fit]
    exact refuseContact_refused k x .notUsable s

end FirstContact

/-! ### The parts of O24 -/

/-- The first contact of a crane at rest, and what follows it. -/
theorem takeCraneUp_idle {s : State} {radio : Addr} {k : CraneId} (named : dirCrane s radio = some k)
    (idle : (s.crane k).state = .idle) (x : CellId) (seq : U16) (payload : List Byte) :
    takeCraneUp x radio seq payload s = settle (firstContact k x seq payload s) := by
  simp [takeCraneUp, named, idle]

theorem takeCraneUp_unknown {s : State} {radio : Addr} (unknown : dirCrane s radio = none) (x : CellId) (seq : U16)
    (payload : List Byte) : takeCraneUp x radio seq payload s =
      { s with clu := { s.clu with unknownCrane := s.clu.unknownCrane + 1 } } := by
  simp [takeCraneUp, unknown]

/-- What handover and the events that follow never touch of a crane's record is that of the contact. -/
theorem contacted_followed {c : Crane} {x : CellId} {seq : U16} {interval : Nat} {taken : Bool} {word : U16}
    {shadow : List CellId} {e : Crane}
    (h : Crane.Followed { ((c.contacted x seq interval).forwarded taken).placed word with shadow := shadow } e) :
    (e.state = .linked ∨ e.state = .handover)
      ∧ e.anchor = some x ∧ e.window = some { base := seq, marks := 1#64 }
      ∧ e.craneHeard = true ∧ e.stationHeard = true ∧ e.craneMiss = 0 ∧ e.stationMiss = 0
      ∧ e.supervision = some (interval * 4) :=
  ⟨h.onLink (.inl rfl), (congrArg Crane.anchor h.steady :), (congrArg Crane.window h.steady :),
    (congrArg Crane.craneHeard h.steady :), (congrArg Crane.stationHeard h.steady :),
    (congrArg Crane.craneMiss h.steady :), (congrArg Crane.stationMiss h.steady :),
    (congrArg Crane.supervision h.steady :)⟩

end Machine

open Machine

/-- Settles O24: a first contact is granted or refused as R49 has it, forwarded, and its position taken claim by claim. -/
theorem firstContactLinksTheCrane : Obligations.FirstContactLinksTheCrane := by
  refine ⟨?contact, ?unknown, fun k seq payload d s defn => forwardUp_eq defn seq payload, ?position⟩
  case contact =>
    intro x radio seq payload k d s dispatched settled sound long named idle defn room
    have block := dispatched_block s x
    have taken := exec_craneUp dispatched long radio seq
    have frame := takeCraneUp_linkOnly x radio seq payload (s.dispatched x)
    generalize s.dispatched x = m at block taken frame
    have crane : m.crane k = s.crane k := State.crane_congr block.clu k
    rw [takeCraneUp_idle ((block.dirCrane radio).trans named) (by rw [crane]; exact idle)] at taken frame
    have shadowless : (m.crane k).shadow = [] := by
      rw [crane]
      exact (sound k).shadowless (.inr idle)
    have usable_m : usableFor m k x = usable s x := by
      rw [usableFor_of_shadowless shadowless, usable, usable, block.cell]
    have room_m : RoomFor m k x ↔ room := by
      have reservation : (m.crane k).reservation = d.reservation := by
        rw [crane, Crane.reservation, defn]
        rfl
      rw [RoomFor, block.cell, reservation]
      exact and_iff_right dispatched.fitted
    refine ⟨_, taken, frame, fun fit roomy => ?_, fun refused => ?_⟩
    · rw [firstContact_granted (by rw [crane]; exact defn) (usable_m.trans fit) (room_m.2 roomy)]
      obtain ⟨sent, shadow, followed⟩ := forwarded_followed k seq payload (positionWord payload)
        ((m.modCell x fun r => { r with reserved := r.reserved + d.reservation }).modCrane k
          (Crane.contacted x seq d.interval))
      rw [State.crane_modCrane] at followed
      obtain ⟨state, anchor, window, craneHeard, stationHeard, craneMiss, stationMiss, supervision⟩ :=
        contacted_followed (followed.trans (settle_follows _ k))
      exact ⟨state, anchor, window, craneHeard, stationHeard, craneMiss, stationMiss, supervision, _, rfl, rfl⟩
    · obtain ⟨events, record, cell, port⟩ := firstContact_refused (s := m) (k := k) (x := x)
        (by rwa [usable_m, room_m]) seq payload
      rw [settle_of_no_events (events.trans (block.events.trans settled)), record, cell, block.cell, port, usable_m, crane]
      exact ⟨rfl, rfl, craneNoticed_congr (congrArg Crane.defn crane) block.port block.mgmt block.time _⟩
  case unknown =>
    intro x radio seq payload s dispatched long unknown
    have block := dispatched_block s x
    rw [exec_craneUp dispatched long, takeCraneUp_unknown ((block.dirCrane radio).trans unknown), block.clu]
  case position =>
    intro k word s c band boom
    obtain ⟨moved, moves⟩ := positionPlaced_moved k word s
    have record := positionPlaced_crane k word s
    have taken := takePosition_eq k word s
    have unmoved : c.stays word = true → positionPlaced k word s = s.modCrane k Crane.reported := fun stays =>
      (if_pos stays).trans (State.modCrane_congr (Crane.placed_of_stays stays))
    generalize positionPlaced k word s = u at moved moves record taken unmoved
    have bandIs : (u.crane k).band = positionBand word := (congrArg Crane.band record :)
    have boomIs : (u.crane k).boom = positionBoom word := (congrArg Crane.boom record :)
    have stays : c.stays word = true ↔ (u.crane k).band = c.band ∧ (u.crane k).boom = c.boom := by
      rw [bandIs, boomIs]
      exact Crane.stays_iff
    have alike := placed_alike k word s
    refine ⟨u, ?_, ?_, ?_, fun band boom => unmoved (stays.2 ⟨band, boom⟩), ?_, fun y => ⟨moved.cell y, ?_⟩, ?_, ?_, ?_,
      fun moves' y => ?_⟩
    · rw [bandIs, positionBand_val]
    · rw [boomIs, positionBoom_eq]
    · have report : ((positionBand word).isSome || !c.stays word) = true ↔
          band < 64 ∨ (u.crane k).band ≠ c.band ∨ (u.crane k).boom ≠ c.boom := by
        rw [Bool.or_eq_true, positionBand_isSome, decide_eq_true_iff, Bool.not_eq_true', ← Bool.not_eq_true, stays, not_and_or]
      have passed : evaluate k (positionBand word).isSome u = evaluate k (band < 64) u := by rw [positionBand_isSome]
      exact taken.trans (if_congr report passed rfl)
    · rw [moved.frame]
      rfl
    · rw [moved.flag, (alike y).fit]
      rfl
    · refine ⟨fitTold s u, fitTold_iff s u, ?_⟩
      have told : fitTold (s.modCrane k (Crane.placed word)) u = fitTold s u := by
        funext y
        rw [Bool.eq_iff_iff, fitTold_iff, fitTold_iff, (alike y).differs_left]
      have entered : cellsBeyond (u.crane k).shadow c.shadow =
          allCells.filter fun y => decide (y ∉ c.shadow ∧ y ∈ (u.crane k).shadow) :=
        List.filter_congr fun y _ => decide_eq_decide.2 and_comm
      rw [moved.told, told, entered]
      rfl
    · exact fun j other => (moved.others j other).trans (State.crane_modCrane_ne _ other _)
    · rw [bandIs, boomIs]
      exact record
    · obtain ⟨inside, count⟩ := moves (by rwa [← Bool.not_eq_true, stays]) y
      refine ⟨?_, count⟩
      rw [inside, mem_shadowSet, positionBoom_lowered, bandIs]

end Sys2Proof
end

