-- ==== Sys2Proof/Proofs/Arrivals.lean ====
section
/-! SUPPORT. The cell of arrival of a block, judged by handover: a handover completed (R83), a crane-led move (R87), or a stray. -/

namespace Sys2Proof
namespace Machine

/-! ### A move told and counted (R72, R83, R87) -/

/-- A notice of a crane after claims alone, and a count: the port holds the copies, and nothing else is touched. -/
structure MoveTold (k : CraneId) (n : Notice) (s v : State) : Prop where
  frame : v =
    { s with
      port := s.craneNoticed k n, cov := { s.cov with cells := v.cov.cells }
      clu := { s.clu with cranes := v.clu.cranes, notices := v.clu.notices }, events := v.events }
  others : OnlyCrane k s v

/-- What has changed by claims of one crane is told as that crane's notice. -/
theorem moveTold {k : CraneId} {s m : State} (claims : ClaimsOnly s m) (only : OnlyCrane k s m)
    (defn : (m.crane k).defn = (s.crane k).defn) (n : Notice) (f : CraneCounters → CraneCounters) :
    MoveTold k n s ((m.noticeCrane k n).countCrane k f) where
  frame := by
    have port : m.craneNoticed k n = s.craneNoticed k n := by
      refine craneNoticed_congr defn ?_ ?_ ?_ n
      all_goals rw [claims.eq]
    have told : m.noticeCrane k n = { m with port := s.craneNoticed k n } := port ▸ noticeCrane_noticed m k n
    obtain ⟨_, _, _, _, rfl⟩ := claims
    rw [told]
    rfl
  others := (only.trans (.noticeCrane m k n)).trans (.countCrane _ k f)

/-- A notice and a count after claims: the cells, the pending notice blocks and what is handed on stand, and of the crane's
record all but the counters. -/
theorem told_kept (k : CraneId) (n : Notice) (f : CraneCounters → CraneCounters) (m : State) :
    let v := (m.noticeCrane k n).countCrane k f
    (∀ y, v.cell y = m.cell y) ∧ v.clu.notices = m.clu.notices ∧ v.events = m.events
      ∧ v.crane k = { m.crane k with counters := f (m.crane k).counters } := by
  rw [noticeCrane_noticed]
  exact ⟨fun _ => rfl, rfl, rfl, State.crane_modCrane _ k _⟩

section

variable {k : CraneId} {a x : CellId} {s : State}

/-! ### A handover completed (R83) -/

/-- The record of a crane whose handover is completed, its pending notice blocks withdrawn. -/
def Crane.completed (x : CellId) (withdrawn : Nat) (c : Crane) : Crane :=
  { c with
    anchor := some x, target := none, countdown := 0, state := .linked
    counters := { c.counters with
      done := c.counters.done + 1, noticesWithdrawn := c.counters.noticesWithdrawn + BitVec.ofNat 32 withdrawn } }

theorem completeHandover_told (k : CraneId) (a x : CellId) (s : State) :
    let v := completeHandover k a x s
    MoveTold k (.handoverDone k .planned (some a) (some x) (s.crane k).band) s v
      ∧ v.events = s.events ++ [.room a]
      ∧ (∀ y, v.cell y = { s.cell y with reserved := (s.cell y).reserved - (if a = y then (s.crane k).reservation else 0) })
      ∧ v.clu.notices = (s.clu.notices.filter fun m => decide (m.crane ≠ k))
      ∧ v.crane k = (s.crane k).completed x (s.clu.notices.filter fun m => decide (m.crane = k)).length := by
  let placed : State := (releaseClaim a (s.crane k).reservation s).modCrane k fun c =>
    { c with anchor := some x, target := none, countdown := 0 }
  let m : State := (withdrawCraneNotices k placed).modCrane k fun c => { c with state := .linked }
  have claims : ClaimsOnly s m :=
    (((ClaimsOnly.releaseClaim a _ s).trans (.modCrane _ k _)).trans (.withdrawNotices _ _)).trans (.modCrane _ k _)
  have only : OnlyCrane k s m :=
    (((OnlyCrane.releaseClaim k a _ s).trans (.modCrane _ k _)).trans (.withdrawCraneNotices k _)).trans (.modCrane _ k _)
  have record : m.crane k =
      { (s.crane k).noticesGone (s.clu.notices.filter fun n => decide (n.crane = k)).length with
        anchor := some x, target := none, countdown := 0, state := .linked } := by
    have own : (fun n : PendingNotice => decide (n.crane = k) && n.crane == k) = fun n => decide (n.crane = k) := by
      funext n
      by_cases e : n.crane = k <;> simp [e]
    have withdrawn : (withdrawCraneNotices k placed).crane k = (placed.crane k).noticesGone
        (s.clu.notices.filter fun n => decide (n.crane = k)).length := by
      rw [← own]
      exact withdrawNotices_crane _ placed k
    have moved : placed.crane k = { s.crane k with anchor := some x, target := none, countdown := 0 } :=
      State.crane_modCrane _ k _
    rw [State.crane_modCrane, withdrawn, moved]
    rfl
  have notices : m.clu.notices = s.clu.notices.filter fun n => decide (n.crane ≠ k) := withdrawCraneNotices_notices k placed
  have kept : m.events = s.events ++ [.room a] := withdrawNotices_events _ placed
  have cells : ∀ y, m.cell y = (releaseClaim a (s.crane k).reservation s).cell y := by
    intro y
    obtain ⟨_, withdrawn⟩ := withdrawNotices_frame (fun n => n.crane == k) placed
    rw [State.cell_modCrane, withdrawCraneNotices, withdrawn]
    rfl
  have told := moveTold claims only (by rw [record]; rfl) (.handoverDone k .planned (some a) (some x) (s.crane k).band)
    fun c => { c with done := c.done + 1 }
  obtain ⟨cell, pending, handed, crane⟩ := told_kept k (.handoverDone k .planned (some a) (some x) (s.crane k).band)
    (fun c => { c with done := c.done + 1 }) m
  refine ⟨told, handed.trans kept, fun y => ?_, pending.trans notices, crane.trans ?_⟩
  · exact ((cell y).trans (cells y)).trans (releaseClaim_cell a _ s y)
  · rw [record]
    rfl

/-! ### A crane-led move (R87) -/

/-- The record of a crane whose anchor has moved to the cell that heard it. -/
def Crane.led (x : CellId) (c : Crane) : Crane :=
  { c with
    anchor := some x, deferred := false, progress := 0, counters := { c.counters with craneLed := c.counters.craneLed + 1 } }

theorem craneLedMove_told (k : CraneId) (a x : CellId) (s : State) :
    let v := craneLedMove k a x s
    MoveTold k (.handoverDone k .craneLed (some a) (some x) (s.crane k).band) s v
      ∧ v.events = s.events ++ [.room a]
      ∧ (∀ y, v.cell y = { s.cell y with reserved := (s.cell y).reserved - (if a = y then (s.crane k).reservation else 0) })
      ∧ v.clu.notices = s.clu.notices
      ∧ v.crane k = (s.crane k).led x := by
  let anchored : State := s.modCrane k fun c => { c with anchor := some x }
  let m : State := (releaseClaim a (s.crane k).reservation anchored).modCrane k fun c =>
    { c with deferred := false, progress := 0 }
  have claims : ClaimsOnly s m := ((ClaimsOnly.modCrane s k _).trans (.releaseClaim a _ _)).trans (.modCrane _ k _)
  have only : OnlyCrane k s m := ((OnlyCrane.modCrane s k _).trans (.releaseClaim k a _ _)).trans (.modCrane _ k _)
  have record : m.crane k = { s.crane k with anchor := some x, deferred := false, progress := 0 } := by
    have moved : anchored.crane k = { s.crane k with anchor := some x } := State.crane_modCrane s k _
    rw [State.crane_modCrane, State.crane_congr (releaseClaim_clu a _ anchored), moved]
  have told := moveTold claims only (by rw [record]) (.handoverDone k .craneLed (some a) (some x) (s.crane k).band)
    fun c => { c with craneLed := c.craneLed + 1 }
  obtain ⟨cell, pending, handed, crane⟩ := told_kept k (.handoverDone k .craneLed (some a) (some x) (s.crane k).band)
    (fun c => { c with craneLed := c.craneLed + 1 }) m
  refine ⟨told, handed, fun y => ?_, pending, crane.trans ?_⟩
  · exact (cell y).trans (releaseClaim_cell a _ anchored y)
  · rw [record]
    rfl

/-- A crane-led move is made on the state in which its claim stands (R32, R87). -/
theorem MoveTold.after_claim {n : Notice} {v : State} (f : Cell → Cell) (h : MoveTold k n (s.modCell x f) v) :
    MoveTold k n s v where
  frame := h.frame
  others := h.others

/-! ### A stray (R83, R87) -/

/-- The record of a crane heard through a cell that is none of its own. -/
def Crane.strayed (accepted : Bool) (c : Crane) : Crane :=
  if accepted then { c with counters := { c.counters with stray := c.counters.stray + 1 } } else c

theorem strayArrival_eq (k : CraneId) (accepted : Bool) (s : State) :
    strayArrival k accepted s = s.modCrane k (Crane.strayed accepted) := by
  cases accepted with
  | true => rfl
  | false => exact (State.modCrane_self rfl).symm

/-! ### Which of them a block is (R48, R83, R87) -/

theorem arrival_off (linked : (s.crane k).state ≠ .linked) (busy : (s.crane k).state ≠ .handover) (x : CellId)
    (accepted : Bool) : arrival k x accepted s = s := by
  unfold arrival
  split
  next state _ _ => exact absurd state busy
  next state _ => exact absurd state linked
  next => rfl

theorem arrival_handover (busy : (s.crane k).state = .handover) (anchor : (s.crane k).anchor = some a) {t : CellId}
    (target : (s.crane k).target = some t) (x : CellId) (accepted : Bool) : arrival k x accepted s =
      if x = t then completeHandover k a t s else if x = a then s else strayArrival k accepted s := by
  rw [arrival, busy, anchor, target]

theorem arrival_linked (linked : (s.crane k).state = .linked) (anchor : (s.crane k).anchor = some a) (x : CellId)
    (accepted : Bool) : arrival k x accepted s = if x = a then s else otherArrival k a x accepted s := by
  rw [arrival, linked, anchor]

/-- A block leads its crane to another cell (R87): the window accepted it, the feature is on, and the cell is ranked and
usable for the crane. -/
def Leads (s : State) (k : CraneId) (x : CellId) (accepted : Bool) : Prop :=
  accepted = true ∧ s.params.features.craneLed = true ∧ x ∈ s.rankedCells k ∧ FitFor s k x

theorem leads_iff {accepted : Bool} : (accepted && s.params.features.craneLed && (ranked s k).contains x && usableFor s k x)
    = true ↔ Leads s k x accepted := by
  rw [ranked_eq, Leads, Bool.and_eq_true, Bool.and_eq_true, Bool.and_eq_true, List.contains_iff_mem, usableFor_iff]
  tauto

theorem otherArrival_stray {accepted : Bool} (stays : ¬Leads s k x accepted) :
    otherArrival k a x accepted s = strayArrival k accepted s := by
  rw [otherArrival, if_neg (mt leads_iff.1 stays)]

theorem otherArrival_led {accepted : Bool} (leads : Leads s k x accepted) (room : RoomFor s k x) :
    otherArrival k a x accepted s =
      craneLedMove k a x (s.modCell x fun r => { r with reserved := r.reserved + (s.crane k).reservation }) := by
  rw [otherArrival, if_pos (leads_iff.2 leads), reserveClaim_granted room]
  rfl

theorem otherArrival_full {accepted : Bool} (leads : Leads s k x accepted) (full : ¬RoomFor s k x) :
    otherArrival k a x accepted s =
      strayArrival k accepted (s.countCov fun c => { c with reserveRefusals := c.reserveRefusals + 1 }) := by
  rw [otherArrival, if_pos (leads_iff.2 leads), reserveClaim_refused full]
  rfl

end

end Machine
end Sys2Proof
end

