-- ==== Sys2Proof/Proofs/JudgedBlocks.lean ====
section
/-! SUPPORT. A block of a live crane: its number judged against the window (R50), and what that leaves in the crane's record
through all that follows (R48). -/

namespace Sys2Proof
namespace Machine

/-! ### The window (R50) -/

section Window

variable {w : Window} {seq : U16}

/-- A number is newer than the base of a window. -/
def Window.Newer (w : Window) (seq : U16) : Prop := 1 ≤ (seq - w.base).toNat ∧ (seq - w.base).toNat ≤ 32767

theorem Window.judge_newer (newer : w.Newer seq) : w.judge seq =
    ({ base := seq
       marks := if 64 ≤ (seq - w.base).toNat then 1#64 else (w.marks <<< (seq - w.base).toNat) ||| 1#64 }, .accepted) :=
  if_pos newer

/-- The marks once the base has moved: the new base, and the old marks that many places on. -/
theorem getLsbD_moved (marks : BitVec 64) (d : Nat) {i : Nat} (within : i < 64) :
    (if 64 ≤ d then 1#64 else (marks <<< d) ||| 1#64).getLsbD i =
      (decide (i = 0) || decide (d ≤ i) && marks.getLsbD (i - d)) := by
  have base : (1#64).getLsbD i = decide (i = 0) := by simp [BitVec.getLsbD_one]
  split
  next far =>
    have beyond : decide (d ≤ i) = false := decide_eq_false (by omega)
    rw [base, beyond, Bool.false_and, Bool.or_false]
  next =>
    have order : (!decide (i < d)) = decide (d ≤ i) := by simp [← decide_not]
    rw [BitVec.getLsbD_or, BitVec.getLsbD_shiftLeft, base, decide_eq_true within, Bool.true_and, order, Bool.or_comm]

theorem Window.judge_unmarked (newer : ¬w.Newer seq) (near : (w.base - seq).toNat < 64)
    (unmarked : w.marks.getLsbD (w.base - seq).toNat = false) :
    w.judge seq = ({ w with marks := w.marks ||| (1#64 <<< (w.base - seq).toNat) }, .accepted) := by
  refine (if_neg newer).trans ((if_neg (Nat.not_le.2 near)).trans (if_neg ?_))
  rw [newerBy, unmarked]
  exact Bool.false_ne_true

/-- The marks once one place is marked. -/
theorem getLsbD_marked (marks : BitVec 64) (d : Nat) {i : Nat} (within : i < 64) :
    (marks ||| (1#64 <<< d)).getLsbD i = (decide (i = d) || marks.getLsbD i) := by
  have place : (1#64 <<< d).getLsbD i = decide (i = d) := by
    rw [BitVec.getLsbD_shiftLeft, BitVec.getLsbD_one, Bool.eq_iff_iff]
    simp only [Bool.and_eq_true, Bool.not_eq_true', decide_eq_true_iff, decide_eq_false_iff_not]
    omega
  rw [BitVec.getLsbD_or, place, Bool.or_comm]

theorem Window.judge_marked (newer : ¬w.Newer seq) (near : (w.base - seq).toNat < 64)
    (marked : w.marks.getLsbD (w.base - seq).toNat = true) : w.judge seq = (w, .duplicate) :=
  (if_neg newer).trans ((if_neg (Nat.not_le.2 near)).trans (if_pos marked))

theorem Window.judge_old (newer : ¬w.Newer seq) (far : 64 ≤ (w.base - seq).toNat) : w.judge seq = (w, .stale) :=
  (if_neg newer).trans (if_pos far)

/-- A number that is marked in the window is not newer than its base: the base itself is 0 older, and one up to 32767 newer is
at least 32769 older. -/
theorem Window.not_newer (near : (w.base - seq).toNat < 64) : ¬w.Newer seq := by
  unfold Window.Newer
  bv_omega

/-- Only an accepted number changes the window. -/
theorem Window.judge_refused (refused : (w.judge seq).2 ≠ .accepted) : (w.judge seq).1 = w := by
  by_cases newer : w.Newer seq
  · exact absurd (by rw [Window.judge_newer newer]) refused
  · rcases Nat.lt_or_ge (w.base - seq).toNat 64 with near | far
    · cases marked : w.marks.getLsbD (w.base - seq).toNat with
      | false => exact absurd (by rw [Window.judge_unmarked newer near marked]) refused
      | true => rw [Window.judge_marked newer near marked]
    · rw [Window.judge_old newer far]

end Window

/-! ### What stands in the record of a crane once its block is judged (R48, R50) -/

/-- What a block of a live crane leaves in its record, besides its position and what handover makes of it. -/
def Crane.uplink (c : Crane) : Crane :=
  { craneHeard := c.craneHeard, window := c.window
    counters :=
      { uplinkBlocks := c.counters.uplinkBlocks, duplicates := c.counters.duplicates, stale := c.counters.stale
        forwarded := c.counters.forwarded } }

theorem Crane.Followed.uplink {c d : Crane} (h : c.Followed d) : d.uplink = c.uplink :=
  (congrArg Crane.uplink h.steady :)

/-- The arrival of a block is not one of the things that the window or the heard flag records. -/
theorem arrival_uplink (k : CraneId) (x : CellId) (accepted : Bool) (s : State) :
    ((arrival k x accepted s).crane k).uplink = (s.crane k).uplink := by
  have stray : ∀ t : State, ((strayArrival k accepted t).crane k).uplink = (t.crane k).uplink := by
    intro t
    rw [strayArrival_eq, State.crane_modCrane]
    cases accepted with
    | true => rfl
    | false => rfl
  unfold arrival
  split
  next a t _ _ _ =>
    split
    · obtain ⟨-, -, -, -, record⟩ := completeHandover_told k a t s
      rw [record]
      rfl
    · split
      · rfl
      · exact stray s
  next a _ _ =>
    split
    · rfl
    · by_cases leads : Leads s k x accepted
      · by_cases room : RoomFor s k x
        · obtain ⟨-, -, -, -, record⟩ := craneLedMove_told k a x
            (s.modCell x fun r => { r with reserved := r.reserved + (s.crane k).reservation })
          rw [otherArrival_led leads room, record]
          rfl
        · rw [otherArrival_full leads room]
          exact stray _
      · rw [otherArrival_stray leads]
        exact stray s
  next => rfl

/-! ### A block of a live crane (R48) -/

/-- A block of a crane is heard and counted, and a change that depends on its judgement is made. -/
def blockHeard (k : CraneId) (f : Crane → Crane) (s : State) : State :=
  s.modCrane k fun c =>
    f { c with craneHeard := true, counters := { c.counters with uplinkBlocks := c.counters.uplinkBlocks + 1 } }

/-- The record of a crane whose block has been heard and judged. -/
def Crane.judged (w : Window) (seq : U16) (c : Crane) : Crane :=
  { c with
    craneHeard := true, window := some (w.judge seq).1
    counters := { c.counters with
      uplinkBlocks := c.counters.uplinkBlocks + 1
      duplicates := c.counters.duplicates + (if (w.judge seq).2 = .duplicate then 1 else 0)
      stale := c.counters.stale + (if (w.judge seq).2 = .stale then 1 else 0) } }

section LiveBlock

variable {k : CraneId} {w : Window} {seq : U16} {s : State}

theorem liveBlock_accepted (window : (s.crane k).window = some w) {v : Window} (accepted : w.judge seq = (v, .accepted))
    (x : CellId) (payload : List Byte) : liveBlock k x seq payload s =
      arrival k x true (takePosition k (positionWord payload)
        (forwardUp k seq payload (blockHeard k (fun c => { c with window := some v }) s))) := by
  rw [liveBlock, window, Option.map_some, Option.getD_some, accepted]
  dsimp only
  rw [State.modCrane_modCrane]
  rfl

theorem liveBlock_duplicate (window : (s.crane k).window = some w) (duplicate : w.judge seq = (w, .duplicate)) (x : CellId)
    (payload : List Byte) : liveBlock k x seq payload s =
      arrival k x false (blockHeard k
        (fun c => { c with counters := { c.counters with duplicates := c.counters.duplicates + 1 } }) s) := by
  rw [liveBlock, window, Option.map_some, Option.getD_some, duplicate]
  dsimp only
  rw [State.countCrane, State.modCrane_modCrane]
  rfl

theorem liveBlock_stale (window : (s.crane k).window = some w) (stale : w.judge seq = (w, .stale)) (x : CellId)
    (payload : List Byte) : liveBlock k x seq payload s =
      arrival k x false (blockHeard k
        (fun c => { c with counters := { c.counters with stale := c.counters.stale + 1 } }) s) := by
  rw [liveBlock, window, Option.map_some, Option.getD_some, stale]
  dsimp only
  rw [State.countCrane, State.modCrane_modCrane]
  rfl

/-- What a block leaves in the record of its crane: the judgement of its number, and a frame forwarded when it was accepted. -/
theorem liveBlock_uplink (window : (s.crane k).window = some w) (x : CellId) (payload : List Byte) : ∃ taken,
    ((liveBlock k x seq payload s).crane k).uplink = (((s.crane k).judged w seq).forwarded taken).uplink
      ∧ ((w.judge seq).2 ≠ .accepted → taken = false) := by
  rcases judged : w.judge seq with ⟨v, verdict⟩
  have unchanged : verdict ≠ .accepted → v = w := by
    intro refused
    have same := Window.judge_refused (w := w) (seq := seq) (by rwa [judged])
    rwa [judged] at same
  cases verdict with
  | accepted =>
    obtain ⟨taken, shadow, followed⟩ := forwarded_followed k seq payload (positionWord payload)
      (blockHeard k (fun c => { c with window := some v }) s)
    refine ⟨taken, ?_, fun refused => absurd rfl refused⟩
    rw [liveBlock_accepted window judged, arrival_uplink, followed.uplink, blockHeard, State.crane_modCrane]
    simp [Crane.uplink, Crane.forwarded, Crane.judged, Crane.placed, Crane.reported, judged]
  | duplicate =>
    obtain rfl := unchanged nofun
    refine ⟨false, ?_, fun _ => rfl⟩
    rw [liveBlock_duplicate window judged, arrival_uplink, blockHeard, State.crane_modCrane]
    simp [Crane.uplink, Crane.forwarded, Crane.judged, judged, window]
  | stale =>
    obtain rfl := unchanged nofun
    refine ⟨false, ?_, fun _ => rfl⟩
    rw [liveBlock_stale window judged, arrival_uplink, blockHeard, State.crane_modCrane]
    simp [Crane.uplink, Crane.forwarded, Crane.judged, judged, window]

end LiveBlock

end Machine
end Sys2Proof
end

