-- ==== Sys2Proof/Proofs/LiveBlocks.lean ====
section
/-! O25: the blocks of a live crane: the judgement of their numbers (R50), the frames that are not forwarded twice (R51), and the
cell of their arrival (R48, R83, R87). -/

namespace Sys2Proof
namespace Machine

/-! ### What notices leave of the crane-up queue (R147, R148) -/

/-- No frame waits in the crane-up queue of an UP link that could be sending it. -/
def NoneWaits (p : Port) : Prop := p.link = .up → p.tx = none → p.craneUpQ = []

/-- The crane-up queue stands, and no frame of it has gone to the transmitter. -/
structure CraneUpStands (p q : Port) : Prop where
  link : q.link = p.link
  queue : q.craneUpQ = p.craneUpQ
  sends : ∀ f, q.tx = some (.craneUp, f) → p.tx = some (.craneUp, f)
  idle : q.tx = none → p.tx = none

namespace CraneUpStands

variable {p q r : Port}

theorem refl (p : Port) : CraneUpStands p p := ⟨rfl, rfl, fun _ => id, id⟩

theorem trans (h : CraneUpStands p q) (g : CraneUpStands q r) : CraneUpStands p r :=
  ⟨g.link.trans h.link, g.queue.trans h.queue, fun f => h.sends f ∘ g.sends f, h.idle ∘ g.idle⟩

theorem waits (h : CraneUpStands p q) (waits : NoneWaits p) : NoneWaits q := fun up idle =>
  h.queue.trans (waits (h.link.symm.trans up) (h.idle idle))

/-- While no frame waits, the arbiter chooses none of the crane-up queue. -/
theorem choose (waits : NoneWaits p) : CraneUpStands p p.choose := by
  by_cases busy : p.tx = none
  case neg =>
    rw [choose_busy busy]
    exact .refl p
  cases up : p.link with
  | down =>
    rw [choose_down up]
    exact .refl p
  | up =>
  obtain none | ⟨c, f, rest, -, queue, chosen⟩ := choose_cases p
  · rw [none]
    exact .refl p
  · have other : c ≠ .craneUp := by
      rintro rfl
      have none : p.craneUpQ = [] := waits up busy
      exact absurd (queue.symm.trans none) (List.cons_ne_nil f rest)
    have stays : p.choose.craneUpQ = p.craneUpQ := by
      rw [chosen]
      cases c with
      | craneUp => exact absurd rfl other
      | control => rfl
      | drain => rfl
      | generalUp => rfl
    have tx : p.choose.tx = some (c, f) := by rw [chosen]
    refine ⟨(choose_link p).1, stays, fun g sent => ?_, fun _ => busy⟩
    exact absurd (congrArg Prod.fst (Option.some.inj (tx.symm.trans sent))) other

/-- An offer of the control class neither adds to the crane-up queue nor sends from it. -/
theorem offer (waits : NoneWaits p) (f : TxFrame) : CraneUpStands p (p.offer .control f).1 := by
  unfold Port.offer
  split
  · exact ⟨rfl, rfl, fun _ => id, id⟩
  · split
    · exact ⟨rfl, rfl, fun _ => id, id⟩
    · have queued : CraneUpStands p ((p.setQueue .control (p.queue .control ++ [f])).countClass .control fun k =>
          { k with queued := k.queued + 1 }) := ⟨rfl, rfl, fun _ => id, id⟩
      exact queued.trans (.choose (queued.waits waits))

theorem noticed (waits : NoneWaits p) (f : TxFrame) : CraneUpStands p (p.noticed f) :=
  have offered := offer waits f
  ⟨offered.link, offered.queue, offered.sends, offered.idle⟩

end CraneUpStands

/-- Crane-link moves offer notices alone. -/
theorem LinkMoves.craneUpStands {s t : State} (moves : LinkMoves s t) (waits : NoneWaits s.port) :
    CraneUpStands s.port t.port := by
  induction moves with
  | refl s => exact .refl _
  | trans _ _ ih ih' => exact (ih waits).trans (ih' ((ih waits).waits waits))
  | noticed s f => exact .noticed waits f
  | suppressed s => exact ⟨rfl, rfl, fun _ => id, id⟩
  | cell s x reserved shadow flag => exact .refl _
  | crane s k f defn => exact .refl _
  | count s f => exact .refl _
  | notices s l => exact .refl _
  | events s l => exact .refl _

/-! ### An arrival is made of such moves (R83, R87) -/

theorem completeHandover_linkMoves (k : CraneId) (a t : CellId) (s : State) : LinkMoves s (completeHandover k a t s) := by
  unfold completeHandover
  dsimp only
  refine LinkMoves.trans ?_ (countCrane_moves k _ _)
  refine LinkMoves.trans ?_ (noticeCrane_moves _ k _)
  refine LinkMoves.trans ?_ (.crane _ k _)
  refine LinkMoves.trans ?_ (withdrawNotices_moves _ _)
  exact (releaseClaim_moves a _ s).trans (.crane _ k _)

theorem craneLedMove_linkMoves (k : CraneId) (a x : CellId) (s : State) : LinkMoves s (craneLedMove k a x s) := by
  unfold craneLedMove
  dsimp only
  refine LinkMoves.trans ?_ (countCrane_moves k _ _)
  refine LinkMoves.trans ?_ (noticeCrane_moves _ k _)
  refine LinkMoves.trans ?_ (.crane _ k _)
  exact (LinkMoves.crane s k _).trans (releaseClaim_moves a _ _)

theorem strayArrival_linkMoves (k : CraneId) (accepted : Bool) (s : State) : LinkMoves s (strayArrival k accepted s) := by
  unfold strayArrival
  split
  · exact countCrane_moves k _ s
  · exact .refl s

theorem arrival_linkMoves (k : CraneId) (x : CellId) (accepted : Bool) (s : State) :
    LinkMoves s (arrival k x accepted s) := by
  unfold arrival
  split
  · split
    · exact completeHandover_linkMoves _ _ _ _
    · split
      · exact .refl s
      · exact strayArrival_linkMoves _ _ _
  · split
    · exact .refl s
    · unfold otherArrival
      dsimp only
      split
      · have claimed := reserveClaim_moves x (s.crane k).reservation s
        split
        · exact claimed.trans (craneLedMove_linkMoves _ _ _ _)
        · exact claimed.trans (strayArrival_linkMoves _ _ _)
      · exact strayArrival_linkMoves _ _ _
  · exact .refl s

/-! ### The parts of O25 -/

/-- A block of a live crane, and what follows it. -/
theorem takeCraneUp_live {s : State} {radio : Addr} {k : CraneId} (named : dirCrane s radio = some k)
    (live : (s.crane k).Live) (x : CellId) (seq : U16) (payload : List Byte) :
    takeCraneUp x radio seq payload s = settle (liveBlock k x seq payload s) := by
  obtain e | e | e := Crane.live_iff.1 live <;> simp [takeCraneUp, named, e]

/-- The record of the crane at the end of the step in which its block is taken. -/
theorem settled_uplink {k : CraneId} {w : Window} {s : State} (window : (s.crane k).window = some w) (x : CellId) (seq : U16)
    (payload : List Byte) : ∃ taken,
    ((settle (liveBlock k x seq payload s)).crane k).uplink = (((s.crane k).judged w seq).forwarded taken).uplink
      ∧ ((w.judge seq).2 ≠ .accepted → taken = false) := by
  obtain ⟨taken, uplink, refused⟩ := liveBlock_uplink (seq := seq) window x payload
  exact ⟨taken, (settle_follows _ k).uplink.trans uplink, refused⟩

/-- What is claimed of a move of the anchor by the cell of arrival (R83, R87): the port, the cells and the other cranes. -/
theorem MoveTold.released {k : CraneId} {n : Notice} {a : CellId} {s v : State} (told : MoveTold k n s v)
    (events : v.events = s.events ++ [.room a]) : v =
      { s with
        port := s.craneNoticed k n, cov := { s.cov with cells := v.cov.cells }
        clu := { s.clu with cranes := v.clu.cranes, notices := v.clu.notices }, events := s.events ++ [.room a] } := by
  rw [← events]
  exact told.frame

end Machine

open Machine

/-- Settles O25: the window judges the block, what is refused is not forwarded, and the cell of arrival is judged last. -/
theorem liveBlockIsJudgedByTheWindow : Obligations.LiveBlockIsJudgedByTheWindow := by
  refine ⟨?judged, ?duplicate, ?arrived⟩
  case judged =>
    intro x radio seq payload k w s dispatched long named window live newer older isNewer n
    have block := dispatched_block s x
    have taken := exec_craneUp dispatched long radio seq
    have frame := takeCraneUp_linkOnly x radio seq payload (s.dispatched x)
    generalize s.dispatched x = m at block taken frame
    have crane : m.crane k = s.crane k := State.crane_congr block.clu k
    have window_m : (m.crane k).window = some w := by rw [crane, window]
    rw [takeCraneUp_live ((block.dirCrane radio).trans named) (by rw [crane]; exact Crane.live_iff.2 live)] at taken frame
    obtain ⟨sent, uplink, -⟩ := settled_uplink window_m x seq payload
    have accepted := fun v (verdict : w.judge seq = (v, .accepted)) =>
      congrArg settle (liveBlock_accepted window_m verdict x payload)
    have duplicate := fun verdict : w.judge seq = (w, .duplicate) =>
      congrArg settle (liveBlock_duplicate window_m verdict x payload)
    have stale := fun verdict : w.judge seq = (w, .stale) =>
      congrArg settle (liveBlock_stale window_m verdict x payload)
    generalize settle (liveBlock k x seq payload m) = t at taken frame uplink accepted duplicate stale
    rw [crane] at uplink
    have duplicates : (t.crane k).counters.duplicates =
        n.duplicates + (if (w.judge seq).2 = .duplicate then 1 else 0) := (congrArg (·.counters.duplicates) uplink :)
    have stales : (t.crane k).counters.stale = n.stale + (if (w.judge seq).2 = .stale then 1 else 0) :=
      (congrArg (·.counters.stale) uplink :)
    refine ⟨t, (w.judge seq).1, taken, frame, (congrArg Crane.craneHeard uplink :),
      (congrArg (·.counters.uplinkBlocks) uplink :), (congrArg Crane.window uplink :), fun h => ?newer, fun h near e => ?unmarked,
      fun h near e => ?marked, fun h far => ?old, ?accepted, fun h near e => duplicate (Window.judge_marked h near e),
      fun h far => stale (Window.judge_old h far)⟩
    case newer =>
      rw [duplicates, stales, Window.judge_newer h]
      exact ⟨rfl, BitVec.add_zero _, BitVec.add_zero _, fun i within => getLsbD_moved w.marks newer within⟩
    case unmarked =>
      rw [duplicates, stales, Window.judge_unmarked h near e]
      exact ⟨rfl, BitVec.add_zero _, BitVec.add_zero _, fun i within => getLsbD_marked w.marks older within⟩
    case marked =>
      rw [duplicates, stales, Window.judge_marked h near e]
      exact ⟨rfl, rfl, BitVec.add_zero _⟩
    case old =>
      rw [duplicates, stales, Window.judge_old h far]
      exact ⟨rfl, BitVec.add_zero _, rfl⟩
    case accepted =>
      intro good
      refine accepted _ ?_
      by_cases h : w.Newer seq
      · rw [Window.judge_newer h]
      · obtain ⟨near, e⟩ := good.resolve_left h
        rw [Window.judge_unmarked h near e]
  case duplicate =>
    intro x radio seq payload k w s dispatched sound long named window live near marked
    have block := dispatched_block s x
    have taken := exec_craneUp dispatched long radio seq
    generalize s.dispatched x = m at block taken
    have crane : m.crane k = s.crane k := State.crane_congr block.clu k
    have window_m : (m.crane k).window = some w := by rw [crane, window]
    have verdict := Window.judge_marked (Window.not_newer near) near marked
    rw [takeCraneUp_live ((block.dirCrane radio).trans named) (by rw [crane]; exact Crane.live_iff.2 live)] at taken
    have waits : NoneWaits m.port := by
      rw [block.port]
      exact fun up idle => (sound.idle up idle).1
    have moves : LinkMoves m (settle (liveBlock k x seq payload m)) := by
      rw [liveBlock_duplicate window_m verdict]
      exact ((LinkMoves.crane m k _).trans (arrival_linkMoves k x false _)).trans (settle_moves _)
    have stands := moves.craneUpStands waits
    obtain ⟨sent, uplink, refused⟩ := settled_uplink window_m x seq payload
    obtain rfl := refused (by rw [verdict]; nofun)
    rw [block.port] at stands
    rw [Crane.forwarded_false, crane] at uplink
    exact ⟨_, taken, stands.queue, stands.sends, (congrArg (·.counters.forwarded) uplink :)⟩
  case arrived =>
    intro k x a accepted s anchor c n after stray released moved
    have strayed : strayArrival k accepted s = stray := by
      cases accepted with
      | true => rfl
      | false => rfl
    refine ⟨fun linked busy => arrival_off linked busy x accepted, ?handover, ?anchored, ?other⟩
    case handover =>
      intro busy b target
      have judged := arrival_handover busy anchor target x accepted
      refine ⟨fun same => ?_, fun apart same => ?_, fun apart other => ?_⟩
      · rw [if_pos same, ← same] at judged
        obtain ⟨told, events, cell, notices, record⟩ := completeHandover_told k a x s
        refine ⟨_, ⟨judged, told.released events, fun y => (cell y).trans ?_, told.others⟩, record, notices⟩
        have unlinked : ¬(y = x ∧ (s.crane k).state = .linked) := by
          rw [show (s.crane k).state = .handover from busy]
          nofun
        rw [if_neg unlinked]
        by_cases e : y = a
        · rw [if_pos e, if_pos e.symm]
        · rw [if_neg e, if_neg (Ne.symm e)]
          rfl
      · exact judged.trans ((if_neg apart).trans (if_pos same))
      · exact judged.trans ((if_neg apart).trans ((if_neg other).trans strayed))
    case anchored => exact fun linked same => (arrival_linked linked anchor x accepted).trans (if_pos same)
    case other =>
      intro linked apart leads
      have judged := (arrival_linked linked anchor x accepted).trans (if_neg apart)
      refine ⟨fun led room => ?_, fun led full => ?_, fun unled => ?_⟩
      · obtain ⟨told, events, cell, notices, record⟩ := craneLedMove_told k a x
          (s.modCell x fun r => { r with reserved := r.reserved + (s.crane k).reservation })
        refine ⟨_, ⟨judged.trans (otherArrival_led led room), told.after_claim.released events,
          fun y => (cell y).trans ?_, told.others⟩, record, notices⟩
        by_cases e : y = x
        · subst e
          rw [State.cell_modCell, if_neg (Ne.symm apart), if_neg apart, if_pos ⟨rfl, linked⟩]
          rfl
        · rw [State.cell_modCell_ne _ e, if_neg fun h : y = x ∧ _ => e h.1]
          by_cases e : y = a
          · rw [if_pos e, if_pos e.symm]
            rfl
          · rw [if_neg e, if_neg (Ne.symm e)]
            rfl
      · refine judged.trans ((otherArrival_full led full).trans ?_)
        obtain ⟨rfl, -⟩ := led
        rfl
      · exact judged.trans ((otherArrival_stray unled).trans strayed)

end Sys2Proof
end

