-- ==== Sys2Proof/Proofs/EvaluatedCranes.lean ====
section
/-! SUPPORT. What an evaluation leaves of its crane's record (R77-R80), and that neither an evaluation nor a notice of room
reaches a crane that is LOST (R75). -/

namespace Sys2Proof
namespace Machine

/-! ### The record of the crane that is evaluated (R77-R80) -/

/-- A crane record with all that an evaluation may change set aside. -/
def Crane.unevaluated (c : Crane) : Crane :=
  { c with
    state := .vacant, target := none, countdown := 0, deferred := false, progress := 0
    counters := { c.counters with starts := 0, deferrals := 0 } }

@[simp] theorem State.crane_noticeCrane (s : State) (k : CraneId) (n : Notice) (j : CraneId) :
    (s.noticeCrane k n).crane j = s.crane j := State.crane_congr (noticeCrane_portOnly s k n).clu j

section Evaluation

variable (k : CraneId)

theorem startHandover_unevaluated (x : CellId) (s : State) :
    ((startHandover k x s).crane k).unevaluated = (s.crane k).unevaluated := by
  unfold startHandover
  dsimp only
  rw [State.countCrane, State.crane_modCrane]
  split
  · rw [State.crane_modCrane]
    rfl
  next a _ =>
    rw [show ∀ t, (queueNotices k a x t).crane k = t.crane k from fun _ => rfl, State.crane_modCrane]
    rfl

theorem deferHandover_unevaluated (tried : List CellId) (s : State) :
    ((deferHandover k tried s).crane k).unevaluated = (s.crane k).unevaluated := by
  unfold deferHandover
  dsimp only
  split
  · rfl
  · rw [State.countCrane, State.crane_modCrane, State.crane_noticeCrane, State.crane_modCrane]
    rfl

theorem attemptStart_unevaluated (l tried : List CellId) (s : State) :
    ((attemptStart k l tried s).crane k).unevaluated = (s.crane k).unevaluated := by
  induction l generalizing tried s with
  | nil => exact deferHandover_unevaluated k tried s
  | cons x l ih =>
    have claimed := State.crane_congr (reserveClaim_clu x (s.crane k).reservation s) k
    unfold attemptStart
    dsimp only
    split
    · rw [startHandover_unevaluated, claimed]
    · rw [ih, claimed]

theorem holdOff_unevaluated (b : Bool) (ahead : List CellId) (s : State) :
    ((holdOff k b ahead s).crane k).unevaluated = (s.crane k).unevaluated := by
  unfold holdOff
  dsimp only
  split
  · rw [attemptStart_unevaluated, State.crane_modCrane]
    rfl
  · rw [State.crane_modCrane, State.crane_modCrane]
    rfl

/-- Whatever an evaluation comes to, these fields of the crane stand. -/
theorem evaluate_unevaluated (b : Bool) (s : State) :
    ((evaluate k b s).crane k).unevaluated = (s.crane k).unevaluated := by
  unfold evaluate
  dsimp only
  split
  · split
    · split
      · rfl
      · split
        · split
          · rw [stay, State.crane_modCrane]
            rfl
          · exact holdOff_unevaluated k b _ s
        · exact attemptStart_unevaluated k _ _ s
    · exact attemptStart_unevaluated k _ _ s
  · rfl

end Evaluation

/-! ### A crane that is LOST (R75) -/

section Lost

variable {k : CraneId} {s : State}

/-- An evaluation of a crane that is not LINKED is none. -/
theorem evaluate_unlinked (unlinked : (s.crane k).state ≠ .linked) (b : Bool) : evaluate k b s = s := by
  unfold evaluate
  dsimp only
  split
  next linked _ => exact absurd linked unlinked
  next => rfl

/-- No crane's evaluation reaches one that is LOST. -/
theorem evaluate_lost (lost : (s.crane k).state = .lost) (j : CraneId) (b : Bool) :
    (evaluate j b s).crane k = s.crane k := by
  by_cases own : k = j
  · subst own
    rw [evaluate_unlinked (by rw [lost]; nofun)]
  · exact evaluate_only j b s k own

theorem roomNotice_lost (lost : (s.crane k).state = .lost) : (roomNotice s).crane k = s.crane k := by
  unfold roomNotice
  generalize allCranes = l
  induction l generalizing s with
  | nil => rfl
  | cons j l ih =>
    have visited : (if (s.crane j).deferred then evaluate j false s else s).crane k = s.crane k := by
      split
      · exact evaluate_lost lost j false
      · rfl
    rw [List.foldl_cons, ih ((congrArg Crane.state visited).trans lost), visited]

/-- Notices of room, taken one after the other, reach no LOST crane. -/
theorem rooms_lost {l : List CluEvent} (rooms : ∀ e ∈ l, e.IsRoom) (lost : (s.crane k).state = .lost) :
    (l.foldl takeCluEvent s).crane k = s.crane k := by
  induction l generalizing s with
  | nil => rfl
  | cons e l ih =>
    obtain ⟨⟨x, rfl⟩, later⟩ := List.forall_mem_cons.1 rooms
    have taken : (takeCluEvent s (.room x)).crane k = s.crane k := by
      simp only [takeCluEvent, takeLinkEvent, roomNotice_lost lost]
    have stays : ((takeCluEvent s (.room x)).crane k).state = .lost := by rw [taken, lost]
    rw [List.foldl_cons, ih later stays, taken]

/-- Where notices of room alone have been handed on, what follows leaves the record of a LOST crane as it stands. -/
theorem settle_lost (rooms : RoomsOnly s) (lost : (s.crane k).state = .lost) : (settle s).crane k = s.crane k := by
  have kept : (s.events.foldl takeCluEvent { s with events := [] }).crane k = s.crane k :=
    rooms_lost (s := { s with events := [] }) rooms lost
  have none : (s.events.foldl takeCluEvent { s with events := [] }).events = [] :=
    EventsKept.foldl (fun e he => takeCluEvent_room (rooms e he)) { s with events := [] }
  unfold settle settleRounds settleN
  split
  · rfl
  · rw [settleN_nil none, kept]

end Lost

end Machine
end Sys2Proof
end

