-- ==== Sys2Proof/Proofs/ResumedCranes.lean ====
section
/-! O23: a CRANE-RESUME from the crane's station is a resume of a LOST crane with both sides heard, or it is refused (R69,
R70). -/

namespace Sys2Proof
namespace Machine

/-- The record of a crane that resumes (R69), the evaluation still to come. -/
def Crane.resumed (c : Crane) : Crane :=
  { c with
    state := .linked, lost := {}, holds := []
    counters := { c.counters with
      holdsWithdrawn := c.counters.holdsWithdrawn + BitVec.ofNat 32 c.holds.length
      resumes := c.counters.resumes + 1 } }

/-- The record of a crane whose resume is refused (R70). -/
def Crane.resumeRefused (c : Crane) : Crane :=
  { c with counters := { c.counters with resumeRefused := c.counters.resumeRefused + 1 } }

section Resume

variable (k : CraneId) (s : State)

/-- The state in which a crane that resumes is evaluated: its link stands, and the notice is told. -/
def resumedLink : State :=
  { s.modCrane k Crane.resumed with port := s.craneNoticed k (.craneResumed k (s.crane k).anchor) }

@[simp] theorem resumedLink_crane : (resumedLink k s).crane k = (s.crane k).resumed := State.crane_modCrane s k _

theorem resume_eq : resume k s = evaluate k false (resumedLink k s) := by
  let linked := s.modCrane k fun c => { (c.withdrawHolds fun _ => true) with lost := {}, state := .linked }
  have port : linked.craneNoticed k (.craneResumed k (s.crane k).anchor) =
      s.craneNoticed k (.craneResumed k (s.crane k).anchor) :=
    craneNoticed_congr (s := s) (t := linked) (congrArg Crane.defn (State.crane_modCrane s k _) :) rfl rfl rfl _
  have record : linked.countCrane k (fun n => { n with resumes := n.resumes + 1 }) = s.modCrane k Crane.resumed := by
    rw [State.countCrane, State.modCrane_modCrane]
    exact State.modCrane_congr (by simp [Crane.withdrawHolds, Crane.resumed])
  have told := noticeCrane_noticed linked k (.craneResumed k (s.crane k).anchor)
  rw [port] at told
  rw [resume, told, resumedLink, ← record]
  rfl

theorem refuseResume_eq (cause : ResumeRefusal) : refuseResume k cause s =
    { s.modCrane k Crane.resumeRefused with
      port := s.craneNoticed k
        (.craneResumeRefused k cause (s.crane k).state (s.crane k).craneMiss (s.crane k).stationMiss) } := by
  rw [refuseResume, noticeCrane_noticed]
  rfl

/-- A resume hands on nothing. -/
theorem resume_events : EventsKept s (resume k s) := by
  rw [resume_eq]
  exact evaluate_events k false (resumedLink k s)

theorem resume_only : OnlyCrane k s (resume k s) := by
  rw [resume_eq]
  exact (OnlyCrane.modCrane s k Crane.resumed).trans (evaluate_only k false (resumedLink k s))

theorem refuseResume_only (cause : ResumeRefusal) : OnlyCrane k s (refuseResume k cause s) := by
  rw [refuseResume_eq]
  exact .modCrane s k Crane.resumeRefused

theorem resume_linkOnly : LinkOnly s (resume k s) := by
  rw [resume_eq]
  exact LinkOnly.trans ⟨_, _, _, _, rfl⟩ (evaluate_linkOnly k false (resumedLink k s))

theorem refuseResume_linkOnly (cause : ResumeRefusal) : LinkOnly s (refuseResume k cause s) := by
  rw [refuseResume_eq]
  exact ⟨_, _, _, _, rfl⟩

/-- What an evaluation may change aside, the record of a crane that has resumed is the one that R69 gives it. -/
theorem resume_unevaluated : ((resume k s).crane k).unevaluated = (s.crane k).resumed.unevaluated := by
  rw [resume_eq, evaluate_unevaluated, resumedLink_crane]

/-- The link of a crane that has resumed stands, if the evaluation has not begun to move it. -/
theorem resume_onLink : ((resume k s).crane k).OnLink := by
  rw [resume_eq]
  refine (evaluate_follows k false (resumedLink k s) k).onLink ?_
  rw [resumedLink_crane]
  exact .inl rfl

end Resume

/-! ### Which of the two it is (R69, R70) -/

section Judged

variable {k : CraneId} {s : State}

theorem takeResume_heard (lost : (s.crane k).state = .lost) (crane : (s.crane k).craneMiss = 0)
    (station : (s.crane k).stationMiss = 0) : takeResume k s = settle (resume k s) := by
  rw [takeResume, lost]
  exact if_pos ⟨crane, station⟩

theorem takeResume_refused
    (refused : (s.crane k).state ≠ .lost ∨ (s.crane k).craneMiss ≠ 0 ∨ (s.crane k).stationMiss ≠ 0) :
    takeResume k s = refuseResume k (if (s.crane k).state = .lost then .stillSilent else .notLost) s := by
  by_cases lost : (s.crane k).state = .lost
  · have silent : ¬((s.crane k).craneMiss = 0 ∧ (s.crane k).stationMiss = 0) := by
      rw [not_and_or]
      exact refused.resolve_left (not_not_intro lost)
    rw [takeResume, lost, if_pos rfl]
    exact if_neg silent
  · rw [if_neg lost, takeResume]
    cases state : (s.crane k).state with
    | lost => exact absurd state lost
    | vacant => rfl
    | idle => rfl
    | linked => rfl
    | handover => rfl

/-- With nothing handed on before it, a resume leaves nothing to follow. -/
theorem settle_resume (settled : EventsSettled s) : settle (resume k s) = resume k s :=
  settle_of_no_events (Eq.trans (resume_events k s) settled)

end Judged

/-- The record of a crane whose station has been heard (R54). -/
def Crane.heardStation (c : Crane) : Crane :=
  { c with stationHeard := true, counters := { c.counters with stationFrames := c.counters.stationFrames + 1 } }

theorem stationHeard_crane (k : CraneId) (s : State) : (s.stationHeard k).crane k = (s.crane k).heardStation :=
  State.crane_modCrane s.received k _

/-- What R69 leaves of the record of a crane, whatever the evaluation has changed. -/
theorem resumed_stands {c d : Crane} (stands : d.unevaluated = c.heardStation.resumed.unevaluated) :
    d.stationHeard = true ∧ d.counters.stationFrames = c.counters.stationFrames + 1
      ∧ d.lost = {} ∧ d.holds = [] ∧ d.anchor = c.anchor ∧ d.shadow = c.shadow ∧ d.window = c.window
      ∧ d.supervision = c.supervision
      ∧ d.counters.holdsWithdrawn = c.counters.holdsWithdrawn + BitVec.ofNat 32 c.holds.length
      ∧ d.counters.resumes = c.counters.resumes + 1 :=
  ⟨(congrArg Crane.stationHeard stands :), (congrArg (·.counters.stationFrames) stands :), (congrArg Crane.lost stands :),
    (congrArg Crane.holds stands :), (congrArg Crane.anchor stands :), (congrArg Crane.shadow stands :),
    (congrArg Crane.window stands :), (congrArg Crane.supervision stands :),
    (congrArg (·.counters.holdsWithdrawn) stands :), (congrArg (·.counters.resumes) stands :)⟩

theorem exec_craneResume {s : State} {h : RxHeader} {subject : Byte} {k : CraneId} (from_ : FromStation s h subject k) :
    exec (.craneResume h subject) s = .next (takeResume k (s.stationHeard k)) :=
  (take_receive from_.toReaches rfl _).trans (congrArg _ (stationFrame_accepted from_ takeResume))

end Machine

open Machine

/-- Settles O23: the state of the crane and its miss counts decide whether it resumes, and what an evaluation may change is
no part of what a resume is for. -/
theorem craneResumeNeedsBothSidesHeard : Obligations.CraneResumeNeedsBothSidesHeard := by
  intro h subject k s from_ settled c
  have taken := exec_craneResume from_
  have heard := stationHeard_crane k s
  have frame : LinkOnly s (s.stationHeard k) := ⟨_, _, _, _, rfl⟩
  have only : OnlyCrane k s (s.stationHeard k) := .modCrane s.received k _
  have cov : (s.stationHeard k).cov = s.cov := rfl
  have settled' : EventsSettled (s.stationHeard k) := settled
  have noticed := fun n => craneNoticed_congr (s := s.received) (t := s.stationHeard k) (k := k)
    (congrArg Crane.defn heard :) rfl rfl rfl n
  generalize s.stationHeard k = u at *
  by_cases resumes : c.state = .lost ∧ c.craneMiss = 0 ∧ c.stationMiss = 0
  case pos =>
    obtain ⟨lost, crane, station⟩ := resumes
    have settles := settle_resume (k := k) settled'
    rw [takeResume_heard (by rw [heard]; exact lost) (by rw [heard]; exact crane) (by rw [heard]; exact station),
      settles] at taken
    have stands := resume_unevaluated k u
    rw [heard] at stands
    obtain ⟨hears, frames, reasons, holds, anchor, shadow, window, supervision, withdrawn, count⟩ :=
      resumed_stands stands
    refine ⟨_, taken, frame.trans (resume_linkOnly k u), only.trans (resume_only k u), hears, frames,
      fun _ _ _ => ⟨resume_onLink k u, reasons, holds, anchor, shadow, window, supervision, withdrawn, count,
        resumedLink k u, settles.symm.trans (congrArg settle (resume_eq k u)), ?port, ?link⟩,
      fun refused => ?refused⟩
    case port =>
      refine (noticed _).trans ?_
      rw [heard]
      rfl
    case link =>
      have record : u.modCrane k Crane.resumed = u.modCrane k fun q =>
          { q with
            state := .linked, lost := {}, holds := []
            counters := { q.counters with
              holdsWithdrawn := q.counters.holdsWithdrawn + BitVec.ofNat 32 c.holds.length
              resumes := q.counters.resumes + 1 } } := State.modCrane_congr (by rw [heard]; rfl)
      rw [← record]
      rfl
    case refused =>
      obtain other | other | other := refused
      · exact absurd lost other
      · exact absurd crane other
      · exact absurd station other
  case neg =>
    have refused : c.state ≠ .lost ∨ c.craneMiss ≠ 0 ∨ c.stationMiss ≠ 0 := by
      rwa [not_and_or, not_and_or] at resumes
    have state : (u.crane k).state = c.state := by
      rw [heard]
      rfl
    rw [takeResume_refused (by rw [heard]; exact refused), state] at taken
    refine ⟨_, taken, frame.trans (refuseResume_linkOnly k u _), only.trans (refuseResume_only k u _), ?_⟩
    have record : (refuseResume k (if c.state = .lost then .stillSilent else .notLost) u).crane k =
        c.heardStation.resumeRefused := by
      rw [refuseResume_eq, ← heard]
      exact State.crane_modCrane u k _
    refine ⟨(congrArg Crane.stationHeard record :), (congrArg (·.counters.stationFrames) record :),
      fun lost crane station => absurd ⟨lost, crane, station⟩ resumes, fun _ => ⟨?cov, ?port, record⟩⟩
    case cov =>
      rw [refuseResume_eq]
      exact cov
    case port =>
      rw [refuseResume_eq, heard]
      exact noticed _

end Sys2Proof
end

