-- ==== Sys2Proof/Proofs/LostLinks.lean ====
section
/-! SUPPORT. A link that is lost: the cells that its crane is held at (R66, R67), the handover abandoned (R65), and the entry to
LOST with its notice (R66, R72). -/

namespace Sys2Proof
namespace Machine

/-! ### The cells of the holds (R66, R67) -/

theorem mem_rankedCells {s : State} {k : CraneId} {x : CellId} :
    x ∈ s.rankedCells k ↔ ∃ b, (s.crane k).band = some b ∧ x ∈ (s.bandEntry b).ranked := by
  unfold State.rankedCells
  cases (s.crane k).band <;> simp

/-- A LOST crane is held at its anchor and its abandoned target, unless DOWN, and at the ranked cells usable for it. -/
theorem mem_holdCells {s : State} {k : CraneId} {abandoned : Option CellId} {x : CellId} :
    x ∈ holdCells s k abandoned ↔
      ((s.crane k).anchor = some x ∨ abandoned = some x) ∧ (s.cell x).unit ≠ .down
        ∨ x ∈ s.rankedCells k ∧ FitFor s k x := by
  simp [holdCells, ranked_eq, usableFor_iff, isDown, or_and_right, or_assoc]

theorem holdCells_sorted (s : State) (k : CraneId) (abandoned : Option CellId) :
    holdCells s k abandoned = sortCells (holdCells s k abandoned) := (sortCells_sortCells _).symm

/-- Two states agree on all that the holds of a crane depend on. -/
structure HeldAlike (k : CraneId) (s t : State) : Prop where
  unit : ∀ y, (t.cell y).unit = (s.cell y).unit
  barred : ∀ y, (t.cell y).barred = (s.cell y).barred
  count : ∀ y, (t.cell y).shadowCount = (s.cell y).shadowCount
  map : t.cov.map = s.cov.map
  anchor : (t.crane k).anchor = (s.crane k).anchor
  band : (t.crane k).band = (s.crane k).band
  shadow : (t.crane k).shadow = (s.crane k).shadow

/-- A change of the crane's record alone. -/
theorem HeldAlike.of_cov {k : CraneId} {s t : State} (cov : t.cov = s.cov)
    (anchor : (t.crane k).anchor = (s.crane k).anchor) (band : (t.crane k).band = (s.crane k).band)
    (shadow : (t.crane k).shadow = (s.crane k).shadow) : HeldAlike k s t where
  unit y := by rw [State.cell_congr cov]
  barred y := by rw [State.cell_congr cov]
  count y := by rw [State.cell_congr cov]
  map := by rw [cov]
  anchor := anchor
  band := band
  shadow := shadow

theorem HeldAlike.mem_iff {k : CraneId} {s t : State} (h : HeldAlike k s t) {abandoned : Option CellId} {x : CellId} :
    x ∈ holdCells t k abandoned ↔ x ∈ holdCells s k abandoned := by
  have entry : ∀ b, t.bandEntry b = s.bandEntry b := fun b => by rw [State.bandEntry, State.bandEntry, h.map]
  simp only [mem_holdCells, mem_rankedCells, FitFor, h.unit, h.barred, h.count, h.anchor, h.band, h.shadow, entry]

theorem HeldAlike.holdCells_eq {k : CraneId} {s t : State} (h : HeldAlike k s t) (abandoned : Option CellId) :
    holdCells t k abandoned = holdCells s k abandoned := by
  rw [holdCells_sorted t, holdCells_sorted s]
  refine List.filter_congr fun x _ => ?_
  rw [Bool.eq_iff_iff, List.contains_iff_mem, List.contains_iff_mem, h.mem_iff]

/-! ### The handover abandoned (R65) -/

section

variable (k : CraneId)

/-- The record of a crane whose handover to a cell has been abandoned. -/
def Crane.abandoned (x : CellId) (gone : Nat) (c : Crane) : Crane :=
  { (c.withdraw (· == x)).noticesGone gone with
    target := none, countdown := 0
    counters := { ((c.withdraw (· == x)).noticesGone gone).counters with failures := c.counters.failures + 1 } }

/-- The slots of the target are released, and no bar is set. -/
theorem abandonHandover_told (x : CellId) (s : State) :
    let v := abandonHandover k x s
    MoveTold k (.handoverFailed k .lost (s.crane k).anchor (some x) none) s v
      ∧ v.events = s.events ++ [.room x]
      ∧ (∀ y, v.cell y = { s.cell y with reserved := (s.cell y).reserved - (if x = y then (s.crane k).reservation else 0) })
      ∧ ∃ gone, v.crane k = (s.crane k).abandoned x gone := by
  let withdrawn : State := (releaseClaim x (s.crane k).reservation s).modCrane k (Crane.withdraw (· == x))
  let m : State := (withdrawCraneNotices k withdrawn).modCrane k fun c => { c with target := none, countdown := 0 }
  have claims : ClaimsOnly s m :=
    (((ClaimsOnly.releaseClaim x _ s).trans (.modCrane _ k _)).trans (.withdrawNotices _ _)).trans (.modCrane _ k _)
  have only : OnlyCrane k s m :=
    (((OnlyCrane.releaseClaim k x _ s).trans (.modCrane _ k _)).trans (.withdrawCraneNotices k _)).trans (.modCrane _ k _)
  have before : withdrawn.crane k = (s.crane k).withdraw (· == x) := State.crane_modCrane _ k _
  obtain ⟨gone, counted⟩ : ∃ gone, (withdrawCraneNotices k withdrawn).crane k = (withdrawn.crane k).noticesGone gone :=
    ⟨_, withdrawNotices_crane _ withdrawn k⟩
  have record : m.crane k = { ((s.crane k).withdraw (· == x)).noticesGone gone with target := none, countdown := 0 } := by
    rw [State.crane_modCrane, counted, before]
  have events : m.events = s.events ++ [.room x] := withdrawNotices_events _ withdrawn
  have cells : ∀ y, m.cell y = (releaseClaim x (s.crane k).reservation s).cell y := fun y => by
    obtain ⟨_, frame⟩ := withdrawNotices_frame (fun n => n.crane == k) withdrawn
    rw [State.cell_modCrane, withdrawCraneNotices, frame]
    rfl
  have told := moveTold claims only (by rw [record]; rfl) (.handoverFailed k .lost (s.crane k).anchor (some x) none)
    fun c => { c with failures := c.failures + 1 }
  obtain ⟨cell, -, handed, crane⟩ := told_kept k (.handoverFailed k .lost (s.crane k).anchor (some x) none)
    (fun c => { c with failures := c.failures + 1 }) m
  refine ⟨told, handed.trans events, fun y => ?_, gone, crane.trans ?_⟩
  · exact ((cell y).trans (cells y)).trans (releaseClaim_cell x _ s y)
  · rw [record]
    rfl

/-! ### The entry to LOST (R66) -/

/-- The record of a crane that has entered LOST for some reasons, its holds still to come and its notice to be told. -/
def Crane.fallen (reasons : LostReasons) (gone : Nat) (c : Crane) : Crane :=
  { c with
    queue := [], keeps := [], deferred := false, progress := 0, state := .lost, lost := reasons
    counters := { c.counters with
      flushed := c.counters.flushed + BitVec.ofNat 32 c.queue.length
      noticesWithdrawn := c.counters.noticesWithdrawn + BitVec.ofNat 32 gone } }

/-- The record of a crane that has entered LOST, once it is held at its cells and the loss is told and counted. -/
def Crane.lostAt (reasons : LostReasons) (holds : List (CellId × U32)) (gone : Nat) (c : Crane) : Crane :=
  { c.fallen reasons gone with
    holds := holds, counters := { (c.fallen reasons gone).counters with losses := c.counters.losses + 1 } }

/-- The state with the downlink of a crane flushed (R66). -/
def downlinkFlushed (s : State) : State :=
  (s.modCrane k fun c =>
    { c with
      queue := [], counters := { c.counters with flushed := c.counters.flushed + BitVec.ofNat 32 c.queue.length } }).modCrane k
    fun c => { c with keeps := [] }

/-- The state in which a crane has entered LOST, its holds still to come. -/
def fallenLink (reasons : LostReasons) (s : State) : State :=
  (withdrawCraneNotices k (downlinkFlushed k s)).modCrane k fun c =>
    { c with deferred := false, progress := 0, state := .lost, lost := reasons }

theorem fallenLink_claims (reasons : LostReasons) (s : State) : ClaimsOnly s (fallenLink k reasons s) :=
  (((ClaimsOnly.modCrane s k _).trans (.modCrane _ k _)).trans (.withdrawNotices _ _)).trans (.modCrane _ k _)

theorem fallenLink_only (reasons : LostReasons) (s : State) : OnlyCrane k s (fallenLink k reasons s) :=
  (((OnlyCrane.modCrane s k _).trans (.modCrane _ k _)).trans (.withdrawCraneNotices k _)).trans (.modCrane _ k _)

/-- No cell is touched, and nothing is handed on. -/
theorem fallenLink_cov (reasons : LostReasons) (s : State) :
    (fallenLink k reasons s).cov = s.cov ∧ (fallenLink k reasons s).events = s.events := by
  obtain ⟨_, frame⟩ := withdrawNotices_frame (fun n => n.crane == k) (downlinkFlushed k s)
  refine ⟨?_, withdrawNotices_events _ (downlinkFlushed k s)⟩
  rw [fallenLink, State.modCrane_cov, withdrawCraneNotices, frame]
  rfl

theorem fallenLink_crane (reasons : LostReasons) (s : State) : ∃ gone,
    (fallenLink k reasons s).crane k = (s.crane k).fallen reasons gone := by
  refine ⟨(s.clu.notices.filter fun n => decide (n.crane = k) && n.crane == k).length, ?_⟩
  have withdrawn := withdrawNotices_crane (fun n => n.crane == k) (downlinkFlushed k s) k
  rw [fallenLink, State.crane_modCrane, withdrawCraneNotices, withdrawn, downlinkFlushed, State.crane_modCrane,
    State.crane_modCrane]
  rfl

/-- The entry to LOST hands on nothing, and its notice names the cells of the holds. -/
theorem enterLost_told (reasons : LostReasons) (abandoned : Option CellId) (s : State) :
    let v := enterLost k reasons abandoned s
    let cells := holdCells s k abandoned
    MoveTold k (.craneLost k reasons.cause (s.crane k).anchor (s.crane k).band (s.crane k).boom cells) s v
      ∧ v.events = s.events
      ∧ ∃ gone, v.crane k = (s.crane k).lostAt reasons (cells.map fun x => (x, s.time.ms)) gone := by
  intro v cells
  obtain ⟨gone, record⟩ := fallenLink_crane k reasons s
  obtain ⟨cov, events⟩ := fallenLink_cov k reasons s
  have claims := fallenLink_claims k reasons s
  have only := fallenLink_only k reasons s
  have entered : v =
      let m := fallenLink k reasons s
      let held := holdCells m k abandoned
      let u := m.modCrane k fun c => { c with holds := held.map fun x => (x, s.time.ms) }
      (u.noticeCrane k (.craneLost k reasons.cause (u.crane k).anchor (u.crane k).band (u.crane k).boom held)).countCrane k
        fun n => { n with losses := n.losses + 1 } := rfl
  generalize fallenLink k reasons s = m at *
  have alike : HeldAlike k s m := .of_cov cov (by rw [record]; rfl) (by rw [record]; rfl) (by rw [record]; rfl)
  have held : (m.modCrane k fun c => { c with holds := cells.map fun x => (x, s.time.ms) }).crane k =
      { (s.crane k).fallen reasons gone with holds := cells.map fun x => (x, s.time.ms) } := by
    rw [State.crane_modCrane, record]
  dsimp only at entered
  rw [alike.holdCells_eq, held] at entered
  have told := moveTold (claims.trans (.modCrane m k _)) (only.trans (.modCrane m k _)) (by rw [held]; rfl)
    (.craneLost k reasons.cause (s.crane k).anchor (s.crane k).band (s.crane k).boom cells)
    fun n => { n with losses := n.losses + 1 }
  obtain ⟨-, -, handed, crane⟩ := told_kept k
    (.craneLost k reasons.cause (s.crane k).anchor (s.crane k).band (s.crane k).boom cells)
    (fun n => { n with losses := n.losses + 1 }) (m.modCrane k fun c => { c with holds := cells.map fun x => (x, s.time.ms) })
  rw [held] at crane
  rw [entered]
  exact ⟨told, handed.trans events, gone, crane⟩

end

end Machine
end Sys2Proof
end

