-- ==== Sys2Proof/Proofs/SupervisionExpiries.lean ====
section
/-! O26: the expiry of a supervision timer: the keep decision (R58), the miss counts (R63), a link that is lost (R65, R66), and
the holds of a LOST crane refilled (R64, R67). -/

namespace Sys2Proof
namespace Machine

/-! ### A link that is lost (R65, R66) -/

/-- A crane loses its link: its handover is abandoned if there is one, and it enters LOST. -/
def loseLink (k : CraneId) (reasons : LostReasons) (s : State) : State :=
  match (s.crane k).target with
  | some x => enterLost k reasons (some x) (abandonHandover k x s)
  | none => enterLost k reasons none s

/-- The port once an abandoned handover has been told, if there was one (R65, R91). -/
def abandonedPort (k : CraneId) (s : State) : Port :=
  match (s.crane k).target with
  | none => s.port
  | some x => s.craneNoticed k (.handoverFailed k .lost (s.crane k).anchor (some x) none)

/-- A crane record with all that the loss of its link changes set aside. -/
def Crane.unlost (c : Crane) : Crane :=
  { c with
    state := .vacant, target := none, countdown := 0, deferred := false, progress := 0, lost := {}, holds := [], keeps := []
    queue := []
    counters := { c.counters with undeliverable := 0, losses := 0, flushed := 0, failures := 0, noticesWithdrawn := 0 } }

/-- The record of a crane has become that of a lost link (R65, R66). -/
structure Crane.LinkLost (reasons : LostReasons) (holds : List (CellId × U32)) (c d : Crane) : Prop where
  state : d.state = .lost
  target : d.target = none
  lost : d.lost = reasons
  queue : d.queue = []
  keeps : d.keeps = []
  losses : d.counters.losses = c.counters.losses + 1
  holds : d.holds = holds
  kept : d.unlost = c.unlost

section Records

variable {c : Crane} {reasons : LostReasons} {holds : List (CellId × U32)} {gone : Nat}

theorem Crane.lostAt_linkLost (untargeted : c.target = none) : c.LinkLost reasons holds (c.lostAt reasons holds gone) :=
  ⟨rfl, untargeted, rfl, rfl, rfl, rfl, rfl, rfl⟩

theorem Crane.abandoned_unlost (c : Crane) (x : CellId) (gone : Nat) : (c.abandoned x gone).unlost = c.unlost := rfl

theorem Crane.abandoned_linkLost (x : CellId) (withdrawn : Nat) :
    c.LinkLost reasons holds ((c.abandoned x withdrawn).lostAt reasons holds gone) :=
  have lost : (c.abandoned x withdrawn).LinkLost reasons holds ((c.abandoned x withdrawn).lostAt reasons holds gone) :=
    Crane.lostAt_linkLost rfl
  { lost with kept := lost.kept.trans (Crane.abandoned_unlost c x withdrawn) }

end Records

/-- What the loss of a link leaves (R65, R66): the record, the notices, and at most notices of room handed on. -/
structure LinkLost (k : CraneId) (reasons : LostReasons) (s v : State) : Prop where
  rooms : RoomsOnly s → RoomsOnly v
  crane : (s.crane k).LinkLost reasons ((holdCells s k (s.crane k).target).map fun x => (x, s.time.ms)) (v.crane k)
  port : v.port = State.craneNoticed { s with port := abandonedPort k s } k
    (.craneLost k reasons.cause (s.crane k).anchor (s.crane k).band (s.crane k).boom (holdCells s k (s.crane k).target))

/-- An abandoned handover changes nothing that the holds of its crane depend on. -/
theorem abandonHandover_alike (k : CraneId) (x : CellId) (s : State) : HeldAlike k s (abandonHandover k x s) := by
  obtain ⟨told, -, cell, gone, record⟩ := abandonHandover_told k x s
  exact
    { unit := fun y => by rw [cell], barred := fun y => by rw [cell], count := fun y => by rw [cell]
      map := by rw [told.frame], anchor := by rw [record]; rfl, band := by rw [record]; rfl, shadow := by rw [record]; rfl }

/-- The loss of the link of a crane in HANDOVER: the handover is abandoned, and then LOST is entered. -/
theorem abandoned_lost {k : CraneId} {s : State} {x : CellId} (target : (s.crane k).target = some x)
    (reasons : LostReasons) : LinkLost k reasons s (enterLost k reasons (some x) (abandonHandover k x s)) := by
  obtain ⟨told, events, -, gone, record⟩ := abandonHandover_told k x s
  have cells := (abandonHandover_alike k x s).holdCells_eq (some x)
  generalize abandonHandover k x s = m at *
  have port : m.port = abandonedPort k s := by rw [told.frame, abandonedPort, target]
  have time : m.time = s.time := by rw [told.frame]
  have mgmt : m.mgmt = s.mgmt := by rw [told.frame]
  have defn : (m.crane k).defn = (s.crane k).defn := by rw [record]; rfl
  have anchor : (m.crane k).anchor = (s.crane k).anchor := by rw [record]; rfl
  have band : (m.crane k).band = (s.crane k).band := by rw [record]; rfl
  have boom : (m.crane k).boom = (s.crane k).boom := by rw [record]; rfl
  obtain ⟨told', events', gone', record'⟩ := enterLost_told k reasons (some x) m
  constructor
  case rooms =>
    intro rooms e he
    rw [events', events, List.mem_append, List.mem_singleton] at he
    exact he.elim (rooms e) fun room => ⟨x, room⟩
  case crane =>
    rw [record', record, cells, time, target]
    exact Crane.abandoned_linkLost x gone
  case port =>
    rw [told'.frame, cells, target, anchor, band, boom]
    exact craneNoticed_congr (s := { s with port := abandonedPort k s }) defn port mgmt time _

/-- The loss of the link of a crane without a target. -/
theorem untargeted_lost {k : CraneId} {s : State} (untargeted : (s.crane k).target = none) (reasons : LostReasons) :
    LinkLost k reasons s (enterLost k reasons none s) := by
  obtain ⟨told, events, gone, record⟩ := enterLost_told k reasons none s
  have port : abandonedPort k s = s.port := by rw [abandonedPort, untargeted]
  constructor
  case rooms => exact EventsKept.rooms events
  case crane =>
    rw [record, untargeted]
    exact Crane.lostAt_linkLost untargeted
  case port => rw [told.frame, port, untargeted]

theorem loseLink_lost (k : CraneId) (reasons : LostReasons) (s : State) : LinkLost k reasons s (loseLink k reasons s) := by
  unfold loseLink
  split
  next x target => exact abandoned_lost target reasons
  next untargeted => exact untargeted_lost untargeted reasons

/-! ### The keep decision and the miss counts (R58, R63) -/

/-- KEEP blocks are owed: the feature is on, the station was heard, and no copy was sent since the last expiry (R58). -/
def keepOwed (k : CraneId) (s : State) : Bool :=
  s.params.features.keepFrames && (s.crane k).stationHeard && !(s.crane k).downlinkSent

/-- The record of a crane once the keep decision is made (R58). -/
def Crane.keepDecided (owed : Bool) (keeps : List (CellId × U32)) (c : Crane) : Crane :=
  { c with
    keeps := if owed then keeps else c.keeps
    counters := { c.counters with
      keepReplaced := c.counters.keepReplaced + (if owed then BitVec.ofNat 32 c.keeps.length else 0) } }

theorem keepDecision_eq (k : CraneId) (s : State) : keepDecision k s =
    s.modCrane k (Crane.keepDecided (keepOwed k s) ((linkCells s k).map fun x => (x, s.time.ms))) := by
  have decided : keepDecision k s =
      if keepOwed k s then s.modCrane k (Crane.keepDecided true ((linkCells s k).map fun x => (x, s.time.ms))) else s := rfl
  rw [decided]
  cases keepOwed k s with
  | true => rfl
  | false => exact (State.modCrane_self (by simp [Crane.keepDecided])).symm

/-- The record of a crane whose timer has expired and runs on: the keep decision, then the miss counts (R61, R63). -/
def Crane.expired (interval : Nat) (owed : Bool) (keeps : List (CellId × U32)) (c : Crane) : Crane :=
  (Crane.keepDecided owed keeps { c with supervision := some (interval * 4) }).countMisses

section Expiry

variable {k : CraneId} {d : CraneDef} {s : State}

theorem restartSupervision_eq (defn : (s.crane k).defn = some d) :
    restartSupervision k s = s.modCrane k fun c => { c with supervision := some (d.interval * 4) } :=
  State.modCrane_congr (by rw [defn]; rfl)

/-- The state in which the miss counts of an expiry are judged: the keep decision is made and the sides are counted. -/
def expiredLink (k : CraneId) (d : CraneDef) (s : State) : State :=
  s.modCrane k (Crane.expired d.interval (keepOwed k s) ((linkCells s k).map fun x => (x, s.time.ms)))

@[simp] theorem expiredLink_crane (k : CraneId) (d : CraneDef) (s : State) : (expiredLink k d s).crane k =
    (s.crane k).expired d.interval (keepOwed k s) ((linkCells s k).map fun x => (x, s.time.ms)) :=
  State.crane_modCrane s k _

/-- An expiry changes nothing that the holds of its crane depend on. -/
theorem expiredLink_alike (k : CraneId) (d : CraneDef) (s : State) : HeldAlike k s (expiredLink k d s) :=
  .of_cov rfl (by rw [expiredLink_crane]; rfl) (by rw [expiredLink_crane]; rfl) (by rw [expiredLink_crane]; rfl)

theorem expiredLink_eq (defn : (s.crane k).defn = some d) :
    (keepDecision k (restartSupervision k s)).modCrane k Crane.countMisses = expiredLink k d s := by
  have record := State.crane_modCrane s k fun c => { c with supervision := some (d.interval * 4) }
  have owed : keepOwed k (s.modCrane k fun c => { c with supervision := some (d.interval * 4) }) = keepOwed k s := by
    rw [keepOwed, record]
    rfl
  have cells : linkCells (s.modCrane k fun c => { c with supervision := some (d.interval * 4) }) k = linkCells s k := by
    rw [linkCells_eq, linkCells_eq, record]
    rfl
  rw [restartSupervision_eq defn, keepDecision_eq, owed, cells, State.modCrane_modCrane, State.modCrane_modCrane]
  rfl

/-- The sides that are silent at the loss limit of the definition (R63). -/
theorem silentSides_eq {c : Crane} (defn : c.defn = some d) : c.silentSides =
    { craneSilent := d.lossLimit ≤ c.craneMiss, stationSilent := d.lossLimit ≤ c.stationMiss } := by
  rw [Crane.silentSides, defn]
  rfl

/-- The sides that an expiry finds silent at a loss limit (R63). -/
def Crane.silentAt (limit : Nat) (c : Crane) : LostReasons :=
  { craneSilent := limit ≤ missAfter c.craneHeard c.craneMiss
    stationSilent := limit ≤ missAfter c.stationHeard c.stationMiss }

/-- An expiry of a crane on its link: below the loss limit its counts are all that has changed, else its link is lost. -/
theorem superviseLive_eq (defn : (s.crane k).defn = some d) : superviseLive k (restartSupervision k s) =
    if d.lossLimit ≤ missAfter (s.crane k).craneHeard (s.crane k).craneMiss
        ∨ d.lossLimit ≤ missAfter (s.crane k).stationHeard (s.crane k).stationMiss then
      loseLink k ((s.crane k).silentAt d.lossLimit) (expiredLink k d s)
    else expiredLink k d s := by
  have silent : ((expiredLink k d s).crane k).silentSides = (s.crane k).silentAt d.lossLimit := by
    rw [expiredLink_crane]
    exact silentSides_eq defn
  have judged : superviseLive k (restartSupervision k s) =
      if ((s.crane k).silentAt d.lossLimit).craneSilent || ((s.crane k).silentAt d.lossLimit).stationSilent then
        loseLink k ((s.crane k).silentAt d.lossLimit) (expiredLink k d s)
      else expiredLink k d s := by
    rw [superviseLive, expiredLink_eq defn, ← silent]
    rfl
  rw [judged]
  exact if_congr (by simp [Crane.silentAt]) rfl rfl

/-- A link lost at an expiry: its notices are told, and it is held, as the crane stood before it (R65, R66). -/
theorem expiry_lost (k : CraneId) (d : CraneDef) (reasons : LostReasons) (s : State) :
    let v := loseLink k reasons (expiredLink k d s)
    let c := s.crane k
    let cells := holdCells s k c.target
    (RoomsOnly s → RoomsOnly v)
      ∧ (c.expired d.interval (keepOwed k s) ((linkCells s k).map fun x => (x, s.time.ms))).LinkLost reasons
        (cells.map fun x => (x, s.time.ms)) (v.crane k)
      ∧ v.port = State.craneNoticed { s with port := abandonedPort k s } k
        (.craneLost k reasons.cause c.anchor c.band c.boom cells) := by
  intro v c cells
  obtain ⟨rooms, record, port⟩ := loseLink_lost k reasons (expiredLink k d s)
  have kept := expiredLink_crane k d s
  have target : ((expiredLink k d s).crane k).target = c.target := by rw [kept]; rfl
  have anchor : ((expiredLink k d s).crane k).anchor = c.anchor := by rw [kept]; rfl
  have band : ((expiredLink k d s).crane k).band = c.band := by rw [kept]; rfl
  have boom : ((expiredLink k d s).crane k).boom = c.boom := by rw [kept]; rfl
  have defn : ((expiredLink k d s).crane k).defn = c.defn := by rw [kept]; rfl
  have told : abandonedPort k (expiredLink k d s) = abandonedPort k s := by
    rw [abandonedPort, abandonedPort, target, anchor]
    cases c.target with
    | none => rfl
    | some x => exact craneNoticed_congr (s := s) (t := expiredLink k d s) defn rfl rfl rfl _
  rw [target, (expiredLink_alike k d s).holdCells_eq] at record port
  rw [kept] at record
  rw [anchor, band, boom, told] at port
  exact ⟨rooms, record, port.trans (craneNoticed_congr (s := { s with port := abandonedPort k s })
    (t := { expiredLink k d s with port := abandonedPort k s }) defn rfl rfl rfl _)⟩

/-- What an expiry leaves in the record of its crane, whether or not the link is lost: the counts of R63 and the timer. -/
theorem expired_stands {c e : Crane} {interval : Nat} {owed : Bool} {keeps : List (CellId × U32)}
    (stands : e.unlost = (c.expired interval owed keeps).unlost) :
    e.counters.keepReplaced = c.counters.keepReplaced + (if owed then BitVec.ofNat 32 c.keeps.length else 0)
      ∧ e.craneMiss = (if c.craneHeard then 0 else min (c.craneMiss + 1) 15)
      ∧ e.stationMiss = (if c.stationHeard then 0 else min (c.stationMiss + 1) 15)
      ∧ e.craneHeard = false ∧ e.stationHeard = false ∧ e.downlinkSent = false
      ∧ e.supervision = some (interval * 4)
      ∧ e.counters.craneMisses = c.counters.craneMisses + (if c.craneHeard then 0 else 1)
      ∧ e.counters.stationMisses = c.counters.stationMisses + (if c.stationHeard then 0 else 1) :=
  ⟨(congrArg (·.counters.keepReplaced) stands :), (congrArg Crane.craneMiss stands :),
    (congrArg Crane.stationMiss stands :), (congrArg Crane.craneHeard stands :), (congrArg Crane.stationHeard stands :),
    (congrArg Crane.downlinkSent stands :), (congrArg Crane.supervision stands :),
    (congrArg (·.counters.craneMisses) stands :), (congrArg (·.counters.stationMisses) stands :)⟩

/-- The cause of a loss, by the miss counts at the loss limit (R72). -/
theorem cause_of_misses (limit crane station : Nat) :
    LostReasons.cause { craneSilent := limit ≤ crane, stationSilent := limit ≤ station } =
      if crane < limit then .stationSilent else if station < limit then .craneSilent else .bothSilent := by
  rcases Nat.lt_or_ge crane limit with heard | silent
  · simp [LostReasons.cause, heard, Nat.not_le.2 heard]
  · rcases Nat.lt_or_ge station limit with heard' | silent'
    · simp [LostReasons.cause, silent, heard', Nat.not_lt.2 silent, Nat.not_le.2 heard']
    · simp [LostReasons.cause, silent, silent', Nat.not_lt.2 silent, Nat.not_lt.2 silent']

theorem superviseExpiry_onLink (on : (s.crane k).OnLink) :
    superviseExpiry k s = settle (superviseLive k (restartSupervision k s)) := by
  obtain on | on := on <;> rw [superviseExpiry, on]

theorem superviseExpiry_off (off : (s.crane k).state = .vacant ∨ (s.crane k).state = .idle) : superviseExpiry k s = s := by
  obtain off | off := off <;> rw [superviseExpiry, off]

/-! ### An expiry of a LOST crane (R64, R67) -/

/-- The record of a LOST crane whose timer has expired: its counts, its reasons, and its holds refilled. -/
def Crane.refilled (d : CraneDef) (cells : List CellId) (now : U32) (c : Crane) : Crane :=
  let counted := Crane.countMisses { c with supervision := some (d.interval * 4) }
  { counted.withdrawHolds fun x => !cells.contains x with
    lost :=
      { craneSilent := c.lost.craneSilent || decide (d.lossLimit ≤ counted.craneMiss)
        stationSilent := c.lost.stationSilent || decide (d.lossLimit ≤ counted.stationMiss) }
    holds := cells.map fun x => (x, now) }

theorem superviseExpiry_lost (lost : (s.crane k).state = .lost) (defn : (s.crane k).defn = some d) :
    superviseExpiry k s = s.modCrane k (Crane.refilled d (holdCells s k none) s.time.ms) := by
  let m := s.modCrane k fun c => Crane.countMisses { c with supervision := some (d.interval * 4) }
  have counted : (restartSupervision k s).modCrane k Crane.countMisses = m := by
    rw [restartSupervision_eq defn, State.modCrane_modCrane]
  have record : m.crane k = Crane.countMisses { s.crane k with supervision := some (d.interval * 4) } :=
    State.crane_modCrane s k _
  have alike : HeldAlike k s m := .of_cov rfl (by rw [record]; rfl) (by rw [record]; rfl) (by rw [record]; rfl)
  have silent := silentSides_eq (d := d) (c := m.crane k) (by rw [record]; exact defn)
  rw [superviseExpiry, lost]
  dsimp only
  rw [superviseLost, counted]
  dsimp only
  rw [alike.holdCells_eq, silent, State.modCrane_modCrane]
  refine State.modCrane_congr ?_
  rw [record]
  rfl

end Expiry

/-- What stands in the record of a crane when its link is lost at an expiry. -/
theorem expired_lost_kept {c e : Crane} {interval : Nat} {owed : Bool} {keeps : List (CellId × U32)}
    (stands : e.unlost = (c.expired interval owed keeps).unlost) :
    e.anchor = c.anchor ∧ e.window = c.window ∧ e.shadow = c.shadow :=
  ⟨(congrArg Crane.anchor stands :), (congrArg Crane.window stands :), (congrArg Crane.shadow stands :)⟩

theorem EventsSettled.rooms {s : State} (settled : EventsSettled s) : RoomsOnly s := by
  rw [RoomsOnly, settled]
  nofun

/-- The cells and stamps that a refill leaves pending (R67). -/
theorem mem_refilled (k : CraneId) (d : CraneDef) (s : State) (x : CellId) (stamp : U32) :
    (x, stamp) ∈ ((s.crane k).refilled d (holdCells s k none) s.time.ms).holds ↔
      stamp = s.time.ms
        ∧ ((s.crane k).anchor = some x ∧ (s.cell x).unit ≠ .down
          ∨ (∃ b, (s.crane k).band = some b ∧ x ∈ (s.bandEntry b).ranked) ∧ usableFor s k x) := by
  have listed : (x, stamp) ∈ ((s.crane k).refilled d (holdCells s k none) s.time.ms).holds ↔
      x ∈ holdCells s k none ∧ s.time.ms = stamp := by
    simp [Crane.refilled]
  rw [listed, mem_holdCells, mem_rankedCells, usableFor_iff, and_comm, eq_comm]
  simp

theorem keepOwed_iff (k : CraneId) (s : State) : keepOwed k s = true ↔
    s.params.features.keepFrames = true ∧ (s.crane k).stationHeard = true ∧ (s.crane k).downlinkSent = false := by
  simp [keepOwed, and_assoc]

end Machine

open Machine

/-- Settles O26: the miss counts of the expiry decide whether its crane stays on its link, and what follows a loss reaches no
LOST crane. -/
theorem supervisionExpiryCountsMisses : Obligations.SupervisionExpiryCountsMisses := by
  refine ⟨?live, ?rest⟩
  case live =>
    intro k d s awake defn on _ settled c craneMiss stationMiss decided link
    have frame := superviseExpiry_linkOnly k s
    have taken : exec (.supervisionTimerExpiry k) s = .next (superviseExpiry k s) := State.take_awake awake _
    have judged := superviseLive_eq (k := k) defn
    have owed : ∀ {α : Type} (a b : α), (if keepOwed k s then a else b) = if decided then a else b := fun a b =>
      if_congr (keepOwed_iff k s) rfl rfl
    rw [superviseExpiry_onLink on] at taken frame
    by_cases lost : d.lossLimit ≤ craneMiss ∨ d.lossLimit ≤ stationMiss
    case neg =>
      have nothing : (expiredLink k d s).events = [] := settled
      have record := expiredLink_crane k d s
      rw [judged.trans (if_neg lost), settle_of_no_events nothing] at taken frame
      obtain ⟨replaced, counts⟩ := expired_stands (congrArg Crane.unlost record)
      rw [owed] at replaced
      obtain ⟨crane, station, craneHeard, stationHeard, sent, supervision, craneMisses, stationMisses⟩ := counts
      refine ⟨_, taken, frame, replaced, crane, station, craneHeard, stationHeard, sent, supervision, craneMisses,
        stationMisses, fun _ _ => ⟨State.modCrane_congr record.symm, ?_⟩, fun silent => absurd silent lost⟩
      rw [← owed, show link = linkCells s k from (linkCells_eq s k).symm, record]
      rfl
    case pos =>
      obtain ⟨rooms, record, port⟩ := expiry_lost k d (c.silentAt d.lossLimit) s
      have holds := record.holds
      have stays := settle_lost (rooms settled.rooms) record.state
      rw [judged.trans (if_pos lost)] at taken frame
      generalize loseLink k (c.silentAt d.lossLimit) (expiredLink k d s) = v at *
      rw [← stays] at record
      obtain ⟨replaced, counts⟩ := expired_stands record.kept
      rw [owed] at replaced
      obtain ⟨crane, station, craneHeard, stationHeard, sent, supervision, craneMisses, stationMisses⟩ := counts
      obtain ⟨anchor, window, shadow⟩ := expired_lost_kept record.kept
      refine ⟨_, taken, frame, replaced, crane, station, craneHeard, stationHeard, sent, supervision, craneMisses,
        stationMisses, fun below below' => absurd lost (by omega), fun _ => ⟨record.state, anchor, record.target, record.lost,
          record.queue, record.keeps, window, shadow, record.losses, v, holdCells s k c.target, rfl, holds,
          sortCells_sorted _, fun x => mem_holdCells, ?_⟩⟩
      refine port.trans ?_
      rw [Crane.silentAt, cause_of_misses]
      rfl
  case rest =>
    intro k d s awake
    have taken : exec (.supervisionTimerExpiry k) s = .next (superviseExpiry k s) := State.take_awake awake _
    refine ⟨fun off => by rw [taken, superviseExpiry_off off], fun lost defn => ?_⟩
    rw [superviseExpiry_lost lost defn] at taken
    have record := State.crane_modCrane s k (Crane.refilled d (holdCells s k none) s.time.ms)
    refine ⟨_, taken, State.modCrane_congr record.symm, ?_⟩
    rw [record]
    exact ⟨lost, rfl, rfl, rfl, mem_refilled k d s⟩

end Sys2Proof
end

