-- ==== Sys2Proof/Proofs/FailedHandovers.lean ====
section
/-! SUPPORT. A handover that fails (R85): what of the state its withdrawal, its bar and its notice leave, before the evaluation
that ends the failure. -/

namespace Sys2Proof
namespace Machine

section Failure

variable (k : CraneId) (x : CellId) (s : State)

/-- The state with a crane's claim on its target given up: its slots released, what was pending for it withdrawn (R57, R81,
R85). -/
def targetWithdrawn : State :=
  withdrawCraneNotices k ((releaseClaim x (s.crane k).reservation s).modCrane k (Crane.withdraw (· == x)))

theorem targetWithdrawn_claims : ClaimsOnly s (targetWithdrawn k x s) :=
  ((ClaimsOnly.releaseClaim x _ s).trans (.modCrane _ k _)).trans (.withdrawNotices _ _)

theorem targetWithdrawn_only : OnlyCrane k s (targetWithdrawn k x s) :=
  ((OnlyCrane.releaseClaim k x _ s).trans (.modCrane _ k _)).trans (.withdrawCraneNotices k _)

theorem targetWithdrawn_events : (targetWithdrawn k x s).events = s.events ++ [.room x] :=
  withdrawNotices_events _ ((releaseClaim x (s.crane k).reservation s).modCrane k (Crane.withdraw (· == x)))

theorem targetWithdrawn_notices : (targetWithdrawn k x s).clu.notices = s.clu.notices.filter fun m => decide (m.crane ≠ k) :=
  withdrawCraneNotices_notices k _

theorem targetWithdrawn_cell (y : CellId) : (targetWithdrawn k x s).cell y =
    { s.cell y with reserved := (s.cell y).reserved - (if y = x then (s.crane k).reservation else 0) } := by
  obtain ⟨_, frame⟩ := withdrawNotices_frame (fun n => n.crane == k)
    ((releaseClaim x (s.crane k).reservation s).modCrane k (Crane.withdraw (· == x)))
  have released := releaseClaim_cell x (s.crane k).reservation s y
  rw [if_congr (eq_comm (a := x)) rfl rfl] at released
  rw [targetWithdrawn, withdrawCraneNotices, frame, ← released]
  rfl

/-- The notice blocks of a crane that stand pending. -/
def pendingOf : List PendingNotice := s.clu.notices.filter fun m => decide (m.crane = k)

theorem targetWithdrawn_crane : (targetWithdrawn k x s).crane k =
    ((s.crane k).withdraw (· == x)).noticesGone (pendingOf k s).length := by
  have own : (fun n : PendingNotice => decide (n.crane = k) && n.crane == k) = fun n => decide (n.crane = k) := by
    funext n
    by_cases e : n.crane = k <;> simp [e]
  rw [targetWithdrawn, withdrawCraneNotices, withdrawNotices_crane, State.crane_modCrane, own]
  rfl

/-- The record of a crane whose handover to a cell has failed, some of its notice blocks withdrawn (R85). -/
def Crane.failed (bar : Option (CellId × Nat)) (gone : Nat) (c : Crane) : Crane :=
  { (c.withdraw (· == x)).noticesGone gone with
    bar := bar, target := none, countdown := 0, state := .linked
    counters := { ((c.withdraw (· == x)).noticesGone gone).counters with failures := c.counters.failures + 1 } }

/-- The state in which a failure is told and counted, the evaluation that ends it still to come. -/
def failedLink (cause : FailCause) : State :=
  let m := (targetWithdrawn k x s).modCrane k fun c =>
    { c with bar := newBar s x, target := none, countdown := 0, state := .linked }
  (m.noticeCrane k (.handoverFailed k cause (s.crane k).anchor (some x) ((newBar s x).map Prod.snd))).countCrane k fun c =>
    { c with failures := c.failures + 1 }

theorem newBar_openers : (newBar s x).map Prod.snd = if s.params.handoverBar = 0 then none else some s.params.handoverBar := by
  unfold newBar
  split <;> rfl

/-- The record of a failed crane in the terms of R57 and R85. -/
theorem Crane.failed_eq (bar : Option (CellId × Nat)) (gone : Nat) (c : Crane) :
    let left := (c.queue.map fun e => { e with dests := e.dests.filter fun y => decide (y ≠ x) }).filter fun e =>
      decide (e.dests ≠ [])
    c.failed x bar gone =
      { c with
        state := .linked, target := none, countdown := 0, bar := bar
        queue := left, keeps := c.keeps.filter fun e => decide (e.1 ≠ x)
        counters := { c.counters with
          undeliverable := c.counters.undeliverable + BitVec.ofNat 32 (c.queue.length - left.length)
          noticesWithdrawn := c.counters.noticesWithdrawn + BitVec.ofNat 32 gone
          failures := c.counters.failures + 1 } } := by
  have other : ∀ y : CellId, (!(y == x)) = decide (y ≠ x) := fun y => by
    by_cases e : y = x <;> simp [e]
  have filled : ∀ e : DownEntry, (!e.dests.isEmpty) = decide (e.dests ≠ []) := fun e => by
    cases e.dests <;> rfl
  simp only [Crane.failed, Crane.noticesGone, Crane.withdraw, other, filled, List.length_map]

theorem failedLink_failed (cause : FailCause) : HandoverFailed k cause x s (failedLink k x s cause) := by
  let m : State := (targetWithdrawn k x s).modCrane k fun c =>
    { c with bar := newBar s x, target := none, countdown := 0, state := .linked }
  have claims : ClaimsOnly s m := (targetWithdrawn_claims k x s).trans (.modCrane _ k _)
  have only : OnlyCrane k s m := (targetWithdrawn_only k x s).trans (.modCrane _ k _)
  have record : m.crane k =
      { ((s.crane k).withdraw (· == x)).noticesGone (pendingOf k s).length with
        bar := newBar s x, target := none, countdown := 0, state := .linked } := by
    rw [State.crane_modCrane, targetWithdrawn_crane]
  have pending : m.clu.notices = s.clu.notices.filter fun m => decide (m.crane ≠ k) := targetWithdrawn_notices k x s
  have handed : m.events = s.events ++ [.room x] := targetWithdrawn_events k x s
  let notice : Notice := .handoverFailed k cause (s.crane k).anchor (some x) ((newBar s x).map Prod.snd)
  obtain ⟨cell, notices, events, crane⟩ := told_kept k notice (fun c => { c with failures := c.failures + 1 }) m
  obtain ⟨frame, others⟩ := moveTold claims only (by rw [record]; rfl) notice fun c => { c with failures := c.failures + 1 }
  have told : failedLink k x s cause = (m.noticeCrane k notice).countCrane k fun c => { c with failures := c.failures + 1 } :=
    rfl
  rw [told]
  generalize (m.noticeCrane k notice).countCrane k (fun c => { c with failures := c.failures + 1 }) = v at *
  constructor
  case frame =>
    rw [notices, pending, events, handed] at frame
    rw [← newBar_openers x]
    exact frame
  case cells => exact fun y => (cell y).trans (targetWithdrawn_cell k x s y)
  case others => exact others
  case crane =>
    refine crane.trans (Eq.trans ?_ (Crane.failed_eq x (newBar s x) (pendingOf k s).length (s.crane k)))
    rw [record]
    rfl

end Failure

/-- A failure, for whatever cause, is the loss of the target and then an evaluation (R85). -/
theorem failHandover_eq {k : CraneId} {x : CellId} {s : State} (target : (s.crane k).target = some x) (cause : FailCause) :
    failHandover k cause s = evaluate k false (failedLink k x s cause) := by
  rw [failHandover, target]
  rfl

end Machine
end Sys2Proof
end

