-- ==== Sys2Proof/Proofs/AttemptedStarts.lean ====
section
/-! SUPPORT. An evaluation outcome by outcome (R76-R78), and a start: its claims one after the other, the target it takes or the
deferral it ends in (R79-R81). -/

namespace Sys2Proof
namespace Machine

/-! ### Candidates (R76) -/

theorem candidate_iff {s : State} {k : CraneId} {a : CellId} (anchor : (s.crane k).anchor = some a) (x : CellId) :
    candidate s k x = true ↔ FitFor s k x ∧ x ≠ a ∧ ∀ n, (s.crane k).bar ≠ some (x, n) := by
  rw [candidate, Bool.and_eq_true, Bool.and_eq_true, usableFor_iff, and_assoc, bne_iff_ne, bne_iff_ne, anchor, ne_eq, ne_eq,
    Option.some.injEq, eq_comm (a := a)]
  simp

theorem candidates_eq (s : State) (k : CraneId) : candidates s k = (s.rankedCells k).filter (candidate s k) := by
  rw [candidates, ranked_eq]

theorem candidatesAhead_eq (s : State) (k : CraneId) (a : CellId) : candidatesAhead s k a =
    ((s.rankedCells k).takeWhile fun x => decide (x ≠ a)).filter (candidate s k) := by
  have other : (fun x : CellId => x != a) = fun x => decide (x ≠ a) := by
    funext x
    by_cases e : x = a <;> simp [e]
  rw [candidatesAhead, ranked_eq, other]

/-! ### What an evaluation comes to (R77, R78) -/

section Outcomes

variable {k : CraneId} {a : CellId} {s : State} (b : Bool)

/-- The state with a crane's hold-off progress set. -/
def State.progressed (s : State) (k : CraneId) (n : Nat) : State := s.modCrane k fun q => { q with progress := n }

section Linked

variable (linked : (s.crane k).state = .linked) (anchor : (s.crane k).anchor = some a)

include linked anchor

theorem evaluate_unranked (away : ¬FitFor s k a ∨ (s.crane k).band ≠ none ∧ a ∉ s.rankedCells k) :
    evaluate k b s = attemptStart k (candidates s k) [] s := by
  rw [evaluate, linked, anchor]
  dsimp only
  by_cases fit : FitFor s k a
  · obtain ⟨banded, outside⟩ := away.resolve_left (not_not_intro fit)
    have unlisted : (ranked s k).contains a = false := by rw [ranked_eq]; simpa using outside
    rw [if_pos ((usableFor_iff s k a).2 fit), if_neg banded, unlisted]
    rfl
  · rw [if_neg (mt (usableFor_iff s k a).1 fit)]

theorem evaluate_bandless (fit : FitFor s k a) (bandless : (s.crane k).band = none) : evaluate k b s = s := by
  rw [evaluate, linked, anchor]
  dsimp only
  rw [if_pos ((usableFor_iff s k a).2 fit), if_pos bandless]

/-- A usable anchor in the ranked list: STAY with no candidate ahead, else HOLD-OFF. -/
theorem evaluate_ranked (fit : FitFor s k a) (listed : a ∈ s.rankedCells k) : evaluate k b s =
    if candidatesAhead s k a = [] then stay k s else holdOff k b (candidatesAhead s k a) s := by
  have banded : (s.crane k).band ≠ none := fun none => by
    rw [State.rankedCells, none] at listed
    cases listed
  have contained : (ranked s k).contains a = true := by rw [ranked_eq]; simpa using listed
  rw [evaluate, linked, anchor]
  dsimp only
  rw [if_pos ((usableFor_iff s k a).2 fit), if_neg banded, if_pos contained]
  cases candidatesAhead s k a <;> rfl

end Linked

theorem holdOffInUse_defined {c : Crane} {d : CraneDef} (defn : c.defn = some d) :
    c.holdOffInUse = c.oldHoldOff.getD d.holdOff := by
  rw [Crane.holdOffInUse, defn]
  rfl

/-- HOLD-OFF counts a report with a known band, and attempts a start once the progress stands at the hold-off (R78). -/
theorem holdOff_eq (ahead : List CellId) : holdOff k b ahead s =
    let n := (s.crane k).holdOffStep b
    let counted := s.progressed k n
    if (s.crane k).holdOffInUse ≤ n then attemptStart k ahead [] counted
    else counted.modCrane k fun q => { q with deferred := false } := by
  simp only [holdOff, State.progressed, Crane.holdOffReached, decide_eq_true_eq]

/-- Everything an evaluation can come to: nothing, a change of the hold-off progress that ends a deferral, or a start attempted
among candidates (R77, R78). -/
inductive EvaluationOutcome (k : CraneId) (s : State) : State → Prop
  | nothing : EvaluationOutcome k s s
  | waits (linked : (s.crane k).state = .linked) (n : Nat) :
      EvaluationOutcome k s (s.modCrane k fun q => { q with progress := n, deferred := false })
  | attempts (linked : (s.crane k).state = .linked) (n : Nat) (l : List CellId)
      (open_ : ∀ x ∈ l, candidate s k x = true) : EvaluationOutcome k s (attemptStart k l [] (s.progressed k n))

theorem candidates_open : ∀ x ∈ candidates s k, candidate s k x = true := fun _ hx => (List.mem_filter.1 hx).2

theorem candidatesAhead_open : ∀ x ∈ candidatesAhead s k a, candidate s k x = true := fun _ hx => (List.mem_filter.1 hx).2

/-- A start attempted with the progress as it stands. -/
theorem EvaluationOutcome.attempted (linked : (s.crane k).state = .linked) :
    EvaluationOutcome k s (attemptStart k (candidates s k) [] s) := by
  have same : s.progressed k (s.crane k).progress = s := State.modCrane_self rfl
  have attempts := EvaluationOutcome.attempts linked (s.crane k).progress (candidates s k) candidates_open
  rwa [same] at attempts

theorem evaluate_outcome (k : CraneId) (b : Bool) (s : State) : EvaluationOutcome k s (evaluate k b s) := by
  by_cases linked : (s.crane k).state = .linked
  case neg =>
    rw [evaluate_unlinked linked]
    exact .nothing
  case pos =>
    cases anchor : (s.crane k).anchor with
    | none =>
      rw [evaluate, linked, anchor]
      exact .nothing
    | some a =>
      by_cases away : ¬FitFor s k a ∨ (s.crane k).band ≠ none ∧ a ∉ s.rankedCells k
      · rw [evaluate_unranked b linked anchor away]
        exact .attempted linked
      · obtain ⟨fit, known⟩ := not_or.1 away
        rw [not_not] at fit
        by_cases bandless : (s.crane k).band = none
        · rw [evaluate_bandless b linked anchor fit bandless]
          exact .nothing
        · have listed : a ∈ s.rankedCells k := not_not.1 fun outside => known ⟨bandless, outside⟩
          rw [evaluate_ranked b linked anchor fit listed]
          split
          · exact .waits linked 0
          · rw [holdOff_eq]
            dsimp only
            split
            · exact .attempts linked _ _ candidatesAhead_open
            · rw [State.progressed, State.modCrane_modCrane]
              exact .waits linked _

end Outcomes

/-! ### Claims refused (R32, R80) -/

section Refusals

variable (k : CraneId)

/-- The state with so many more reserve claims refused. -/
def State.refusals (s : State) (n : Nat) : State :=
  s.countCov fun c => { c with reserveRefusals := c.reserveRefusals + BitVec.ofNat 32 n }

theorem State.refusals_refusals (s : State) (m n : Nat) : (s.refusals m).refusals n = s.refusals (m + n) := by
  simp only [State.refusals, State.countCov, BitVec.add_assoc, BitVec.ofNat_add]

/-- Cells without room are claimed one after the other, and each refusal is counted. -/
theorem attemptStart_refusals {front : List CellId} {s : State} (full : ∀ y ∈ front, ¬RoomFor s k y)
    (back tried : List CellId) : attemptStart k (front ++ back) tried s =
      attemptStart k back (tried ++ front) (s.refusals front.length) := by
  induction front generalizing tried s with
  | nil =>
    have same : s.refusals 0 = s := by simp [State.refusals, State.countCov]
    rw [List.nil_append, List.append_nil, List.length_nil, same]
  | cons y front ih =>
    obtain ⟨none, others⟩ := List.forall_mem_cons.1 full
    have still : ∀ z ∈ front, ¬RoomFor (s.refusals 1) k z := others
    have counted : (s.countCov fun c => { c with reserveRefusals := c.reserveRefusals + 1 }) = s.refusals 1 := rfl
    rw [List.cons_append, attemptStart_refused none, counted, ih still, State.refusals_refusals, List.append_assoc,
      List.length_cons, Nat.add_comm 1]
    rfl

end Refusals

/-! ### A start granted (R80, R81) -/

section Started

variable (k : CraneId) (a x : CellId)

/-- The record of a crane that has started a handover. -/
def Crane.started (limit : Nat) (c : Crane) : Crane :=
  { c with
    target := some x, countdown := limit, deferred := false, progress := 0, state := .handover
    counters := { c.counters with starts := c.counters.starts + 1 } }

/-- The notice blocks of a start: to the anchor unless it is DOWN, and to the target (R81). -/
def startBlocks (s : State) : List PendingNotice :=
  let block := fun y : CellId => ({ crane := k, cell := y, anchor := a, target := x, stamp := s.time.ms } : PendingNotice)
  (if (s.cell a).unit = .down then [] else [block a]) ++ [block x]

theorem startHandover_eq {s : State} (anchor : (s.crane k).anchor = some a) : startHandover k x s =
    let started := s.modCrane k (Crane.started x s.params.handoverLimit)
    { started with clu := { started.clu with notices := s.clu.notices ++ startBlocks k a x s } } := by
  let s1 : State := s.modCrane k fun c =>
    { c with target := some x, countdown := s.params.handoverLimit, deferred := false, progress := 0, state := .handover }
  have queued : queueNotices k a x s1 =
      { s1 with clu := { s1.clu with notices := s.clu.notices ++ startBlocks k a x s } } := by
    have down : isDown s1 a = decide ((s.cell a).unit = .down) := rfl
    rw [queueNotices, down, startBlocks]
    by_cases gone : (s.cell a).unit = .down
    · simp only [gone, decide_true, if_true]
      rfl
    · simp only [gone, decide_false, if_false]
      rfl
  have recorded : s1.modCrane k (fun c => { c with counters := { c.counters with starts := c.counters.starts + 1 } }) =
      s.modCrane k (Crane.started x s.params.handoverLimit) := State.modCrane_modCrane s k _ _
  rw [startHandover, anchor, ← recorded]
  dsimp only
  rw [queued]
  rfl

/-- A start makes the first cell with room the target: what it leaves of the state (R80, R81). -/
theorem attemptStart_started {front : List CellId} {s : State} (anchor : (s.crane k).anchor = some a)
    (full : ∀ y ∈ front, ¬RoomFor s k y) (room : RoomFor s k x) (back : List CellId) :
    let t := attemptStart k (front ++ x :: back) [] s
    t = { s with
        cov := { s.cov with cells := t.cov.cells, counters := (s.refusals front.length).cov.counters }
        clu := { s.clu with cranes := t.clu.cranes, notices := s.clu.notices ++ startBlocks k a x s } }
      ∧ (∀ y, t.cell y =
        { s.cell y with reserved := (s.cell y).reserved + (if y = x then (s.crane k).reservation else 0) })
      ∧ OnlyCrane k s t ∧ t.crane k = (s.crane k).started x s.params.handoverLimit := by
  intro t
  let m : State := (s.refusals front.length).modCell x fun r => { r with reserved := r.reserved + (s.crane k).reservation }
  have room' : RoomFor (s.refusals front.length) k x := room
  have claimed : t = startHandover k x m :=
    (attemptStart_refusals k full (x :: back) []).trans (attemptStart_granted room' back _)
  have anchor' : (m.crane k).anchor = some a := anchor
  have cells : ∀ y, m.cell y =
      { s.cell y with reserved := (s.cell y).reserved + (if y = x then (s.crane k).reservation else 0) } := fun y => by
    by_cases e : y = x
    · subst e
      rw [State.cell_modCell, if_pos rfl]
      rfl
    · rw [State.cell_modCell_ne _ e, if_neg e]
      rfl
  have blocks : startBlocks k a x m = startBlocks k a x s := by
    rw [startBlocks, cells]
    rfl
  rw [startHandover_eq k a x anchor', blocks] at claimed
  have record : ∀ j, t.crane j = (m.modCrane k (Crane.started x s.params.handoverLimit)).crane j := fun j => by
    rw [claimed]
    rfl
  refine ⟨?_, fun y => ?_, fun j e => (record j).trans (State.crane_modCrane_ne m e _),
    (record k).trans (State.crane_modCrane m k _)⟩
  · rw [claimed]
    rfl
  · rw [← cells, claimed]
    rfl

end Started

/-! ### A start deferred (R79) -/

section Deferred

variable (k : CraneId)

/-- The record of a crane whose start is deferred. -/
def Crane.postponed (c : Crane) : Crane :=
  { c with deferred := true, counters := { c.counters with deferrals := c.counters.deferrals + 1 } }

/-- The notice that tells of a deferral (R79, R91). -/
def deferredNotice (tried : List CellId) (s : State) (anchorUsable : Bool) : Notice :=
  .handoverDeferred k (if tried = [] then .noCandidate else .noRoom) (s.crane k).anchor (s.crane k).band anchorUsable tried

/-- A crane not yet deferred is deferred, and told of once. -/
theorem deferHandover_eq {a : CellId} {s : State} (anchor : (s.crane k).anchor = some a)
    (fresh : (s.crane k).deferred = false) (tried : List CellId) : deferHandover k tried s =
      { s.modCrane k Crane.postponed with port := s.craneNoticed k (deferredNotice k tried s (usableFor s k a)) } := by
  let s1 : State := s.modCrane k fun r => { r with deferred := true }
  have cause : (if tried.isEmpty then DeferCause.noCandidate else .noRoom) = if tried = [] then .noCandidate else .noRoom :=
    if_congr List.isEmpty_iff rfl rfl
  have port : ∀ n, s1.craneNoticed k n = s.craneNoticed k n := fun n =>
    craneNoticed_congr (s := s) (t := s1) (congrArg Crane.defn (State.crane_modCrane s k _) :) rfl rfl rfl n
  have recorded : s1.modCrane k (fun c => { c with counters := { c.counters with deferrals := c.counters.deferrals + 1 } }) =
      s.modCrane k Crane.postponed := State.modCrane_modCrane s k _ _
  rw [deferHandover]
  dsimp only
  rw [fresh, if_neg Bool.false_ne_true, cause, anchor, noticeCrane_noticed, port, ← recorded, deferredNotice, anchor]
  rfl

theorem deferHandover_deferred {s : State} (deferred : (s.crane k).deferred = true) (tried : List CellId) :
    deferHandover k tried s = s := by
  rw [deferHandover]
  exact if_pos deferred

/-- A start that is granted no cell ends in deferral. -/
theorem attemptStart_deferred {cells : List CellId} {s : State} (full : ∀ y ∈ cells, ¬RoomFor s k y) :
    attemptStart k cells [] s = deferHandover k cells (s.refusals cells.length) := by
  have refused := attemptStart_refusals k full [] []
  rwa [List.append_nil] at refused

/-- A deferral leaves the state and the target of every crane as they stood. -/
theorem deferHandover_stands (tried : List CellId) (s : State) :
    ((deferHandover k tried s).crane k).state = (s.crane k).state
      ∧ ((deferHandover k tried s).crane k).target = (s.crane k).target := by
  unfold deferHandover
  dsimp only
  split
  · exact ⟨rfl, rfl⟩
  · rw [State.countCrane, State.crane_modCrane, State.crane_noticeCrane, State.crane_modCrane]
    exact ⟨rfl, rfl⟩

end Deferred

end Machine
end Sys2Proof
end

