-- ==== Sys2Proof/Proofs/EvaluatedLinks.lean ====
section
/-! SUPPORT. What evaluations of cranes, and the notices of room that lead to them, leave of a crane whose handover has failed:
its barred cell is no target of it (R76, R85). -/

namespace Sys2Proof
namespace Machine

/-! ### The target after an attempted start (R79, R80) -/

section Targets

variable (k : CraneId)

theorem startHandover_crane (x : CellId) (s : State) :
    (startHandover k x s).crane k = (s.crane k).started x s.params.handoverLimit := by
  cases anchor : (s.crane k).anchor with
  | none =>
    rw [startHandover, anchor, State.countCrane, State.crane_modCrane, State.crane_modCrane]
    rfl
  | some a =>
    rw [startHandover_eq k a x anchor]
    exact State.crane_modCrane s k _

/-- A start takes one of its cells as the target, or leaves its crane without one. -/
theorem attemptStart_target (l tried : List CellId) (s : State) :
    let d := (attemptStart k l tried s).crane k
    d.state = (s.crane k).state ∧ d.target = (s.crane k).target
      ∨ d.state = .handover ∧ ∃ x ∈ l, d.target = some x := by
  induction l generalizing tried s with
  | nil => exact .inl (deferHandover_stands k tried s)
  | cons x l ih =>
    by_cases room : RoomFor s k x
    · rw [attemptStart_granted room, startHandover_crane]
      exact .inr ⟨rfl, x, List.mem_cons_self, rfl⟩
    · rw [attemptStart_refused room]
      refine (ih (tried ++ [x]) (s.refusals 1)).imp_right ?_
      rintro ⟨busy, y, there, target⟩
      exact ⟨busy, y, List.mem_cons_of_mem x there, target⟩

theorem bar_ne_of_candidate {s : State} {x : CellId} (open_ : candidate s k x = true) (n : Nat) :
    (s.crane k).bar ≠ some (x, n) := by
  intro bar
  simp [candidate, bar] at open_

end Targets

/-! ### A crane that keeps off its barred cell (R76, R85) -/

/-- A crane is LINKED without a target, or on its way to a cell, which is not the given one while that one is barred. -/
def Crane.KeepsOff (x : CellId) (c : Crane) : Prop :=
  c.state = .linked ∧ c.target = none
    ∨ c.state = .handover ∧ c.target ≠ none ∧ ∀ n, c.bar = some (x, n) → c.target ≠ some x

/-- What evaluations may make of a crane record. -/
structure Crane.Evaluated (c d : Crane) : Prop where
  unevaluated : d.unevaluated = c.unevaluated
  keepsOff : ∀ x, c.KeepsOff x → d.KeepsOff x

namespace Crane.Evaluated

variable {c d e : Crane}

theorem refl (c : Crane) : Evaluated c c := ⟨rfl, fun _ => id⟩

theorem trans (h : Evaluated c d) (g : Evaluated d e) : Evaluated c e :=
  ⟨g.unevaluated.trans h.unevaluated, fun x => g.keepsOff x ∘ h.keepsOff x⟩

end Crane.Evaluated

/-- Evaluations lead from one state to the other, as far as the crane records show. -/
def CranesEvaluated (s t : State) : Prop := ∀ j, (s.crane j).Evaluated (t.crane j)

namespace CranesEvaluated

variable {s t u : State}

theorem refl (s : State) : CranesEvaluated s s := fun _ => .refl _

theorem trans (h : CranesEvaluated s t) (g : CranesEvaluated t u) : CranesEvaluated s u := fun j => (h j).trans (g j)

theorem foldl {α : Type} {f : State → α → State} {l : List α} (h : ∀ a ∈ l, ∀ s, CranesEvaluated s (f s a)) (s : State) :
    CranesEvaluated s (l.foldl f s) := by
  induction l generalizing s with
  | nil => exact .refl s
  | cons a l ih => exact (h a List.mem_cons_self s).trans (ih (fun b hb => h b (List.mem_cons_of_mem a hb)) _)

end CranesEvaluated

/-- An evaluation takes no barred cell as a target. -/
theorem EvaluationOutcome.keepsOff {k : CraneId} {s t : State} (outcome : EvaluationOutcome k s t)
    (stands : (t.crane k).bar = (s.crane k).bar) {x : CellId} (off : (s.crane k).KeepsOff x) :
    (t.crane k).KeepsOff x := by
  cases outcome with
  | nothing => exact off
  | waits _ n =>
    rw [State.crane_modCrane]
    exact off
  | attempts _ n l open_ =>
    have before : (s.progressed k n).crane k = { s.crane k with progress := n } := State.crane_modCrane s k _
    obtain ⟨state, target⟩ | ⟨busy, y, there, target⟩ := attemptStart_target k l [] (s.progressed k n)
    · rw [before] at state target
      rwa [Crane.KeepsOff, state, target, stands]
    · refine .inr ⟨busy, by rw [target]; nofun, fun m bar same => ?_⟩
      obtain rfl : y = x := Option.some.inj (target.symm.trans same)
      exact bar_ne_of_candidate k (open_ y there) m (stands.symm.trans bar)

theorem evaluate_evaluated (k : CraneId) (b : Bool) (s : State) : CranesEvaluated s (evaluate k b s) := fun j => by
  by_cases own : j = k
  · subst own
    have same := evaluate_unevaluated j b s
    exact ⟨same, fun x => (evaluate_outcome j b s).keepsOff (congrArg Crane.bar same :)⟩
  · rw [evaluate_only k b s j own]
    exact .refl _

theorem roomNotice_evaluated (s : State) : CranesEvaluated s (roomNotice s) := by
  refine CranesEvaluated.foldl (fun k _ t => ?_) s
  split
  · exact evaluate_evaluated k false t
  · exact .refl t

/-! ### What follows, round by round (R75; log 9) -/

/-- The state once everything handed on so far has been taken, first in first out, and what that caused is handed on. -/
def State.round (s : State) : State := s.events.foldl takeCluEvent { s with events := [] }

theorem State.round_of_no_events {s : State} (none : s.events = []) : s.round = s := by
  rw [State.round, none, List.foldl_nil, ← none]

theorem round_rooms (s : State) : RoomsOnly s.round := foldl_rooms takeCluEvent_rooms _ (roomsOnly_nil s)

/-- Notices of room cause nothing. -/
theorem round_events {s : State} (rooms : RoomsOnly s) : s.round.events = [] :=
  EventsKept.foldl (fun e he => takeCluEvent_room (rooms e he)) { s with events := [] }

theorem settleN_succ (n : Nat) (s : State) : settleN (n + 1) s = settleN n s.round := by
  rw [settleN]
  split
  next empty =>
    have none := List.isEmpty_iff.1 empty
    rw [State.round_of_no_events none, settleN_nil none]
  next => rfl

theorem settleN_of_rooms {s : State} (rooms : RoomsOnly s) (n : Nat) : settleN (n + 1) s = s.round := by
  rw [settleN_succ, settleN_nil (round_events rooms)]

theorem settle_of_rooms {s : State} (rooms : RoomsOnly s) : settle s = s.round := settleN_of_rooms rooms 2

/-- What follows is one round, and what follows that. -/
theorem settle_round (s : State) : settle s = settle s.round := by
  rw [settle_of_rooms (round_rooms s)]
  exact (settleN_succ 2 s).trans (settleN_of_rooms (round_rooms s) 1)

/-- What follows where notices of room alone have been handed on are evaluations. -/
theorem settle_evaluated {s : State} (rooms : RoomsOnly s) : CranesEvaluated s (settle s) := by
  rw [settle_of_rooms rooms]
  have emptied : CranesEvaluated s { s with events := [] } := fun _ => .refl _
  refine emptied.trans (CranesEvaluated.foldl (fun e he t => ?_) { s with events := [] })
  obtain ⟨x, rfl⟩ := rooms e he
  exact roomNotice_evaluated t

/-! ### A failure and all that follows it (R84, R85) -/

theorem HandoverFailed.evaluated {k : CraneId} {cause : FailCause} {x : CellId} {s v : State}
    (failed : HandoverFailed k cause x s v) (rooms : RoomsOnly s) : CranesEvaluated v (settle (evaluate k false v)) := by
  have rooms' : RoomsOnly v := by
    have events : v.events = s.events ++ [.room x] := by rw [failed.frame]
    intro e he
    rw [events, List.mem_append, List.mem_singleton] at he
    obtain before | rfl := he
    · exact rooms e before
    · exact ⟨x, rfl⟩
  exact (evaluate_evaluated k false v).trans (settle_evaluated ((evaluate_events k false v).rooms rooms'))

end Machine
end Sys2Proof
end

