-- ==== Sys2Proof/Proofs/MapChanges.lean ====
section
/-! SUPPORT. The sweeps of the cranes: the visits of a usability change and of a notice of room (R75), and the shadow sets of the
live cranes brought to a new map (R53). -/

namespace Sys2Proof
namespace Machine

/-! ### The visits of a usability change and of a notice of room (R75) -/

section Visits

variable {k : CraneId} {s : State}

theorem sweepVisit_linked (linked : (s.crane k).state = .linked) : sweepVisit k s = evaluate k false s := by
  rw [sweepVisit, linked]

theorem sweepVisit_handover {y : CellId} (busy : (s.crane k).state = .handover) (target : (s.crane k).target = some y) :
    sweepVisit k s = if usableFor s k y then s else failHandover k .targetUnusable s := by
  rw [sweepVisit, busy, target]

theorem sweepVisit_other (unlinked : (s.crane k).state ≠ .linked) (idle : (s.crane k).state ≠ .handover) :
    sweepVisit k s = s := by
  unfold sweepVisit
  split
  next busy _ => exact absurd busy idle
  next linked => exact absurd linked unlinked
  next => rfl

/-- Of the deferred cranes, a notice of room evaluates those that are LINKED. -/
theorem roomVisit_eq (k : CraneId) (s : State) : (if (s.crane k).deferred then evaluate k false s else s) =
    if (s.crane k).state = .linked ∧ (s.crane k).deferred = true then evaluate k false s else s := by
  by_cases linked : (s.crane k).state = .linked
  · simp [linked]
  · simp [linked, evaluate_unlinked linked]

end Visits

theorem takeCluEvent_room_eq (x : CellId) (s : State) : takeCluEvent s (.room x) = allCranes.foldl
    (fun t k => if (t.crane k).state = .linked ∧ (t.crane k).deferred = true then evaluate k false t else t) s := by
  simp only [takeCluEvent, takeLinkEvent, roomNotice, roomVisit_eq]

/-! ### The map, and shadow sets that stand -/

/-- No move of handover or of what follows an event touches the coverage map. -/
theorem LinkMoves.map {s t : State} (h : LinkMoves s t) : t.cov.map = s.cov.map := by
  induction h with
  | trans _ _ ih ih' => exact ih'.trans ih
  | _ => rfl

/-- The shadow set of a crane stands. -/
def ShadowStands (k : CraneId) (s t : State) : Prop := (t.crane k).shadow = (s.crane k).shadow

namespace ShadowStands

variable {k : CraneId} {s t u : State}

theorem trans (h : ShadowStands k s t) (g : ShadowStands k t u) : ShadowStands k s u := Eq.trans g h

theorem foldl {α : Type} {f : State → α → State} (h : ∀ s a, ShadowStands k s (f s a)) (l : List α) (s : State) :
    ShadowStands k s (l.foldl f s) := by
  induction l generalizing s with
  | nil => rfl
  | cons a l ih => exact (h s a).trans (ih _)

theorem of_only {j : CraneId} (only : OnlyCrane j s t) (apart : k ≠ j) : ShadowStands k s t :=
  congrArg Crane.shadow (only k apart)

/-- What follows a claim of a map change reaches no shadow set. -/
theorem settleLink (k : CraneId) (n : Nat) (s : State) : ShadowStands k s (settleLink n s) := (settleLink_run n s).shadow k

end ShadowStands

/-! ### One crane's shadow set brought to a new one (R52, R53) -/

section Claims

variable (k : CraneId) {after : State → State} (quiet : ∀ s, ShadowStands k s (after s))

include quiet

/-- The cells that leave a shadow set, whatever is taken after each claim. -/
theorem mem_shadowsRemoved (l : List CellId) (s : State) (y : CellId) :
    y ∈ ((l.foldl (fun t x => after (shadowRemove k x t)) s).crane k).shadow ↔ y ∈ (s.crane k).shadow ∧ y ∉ l := by
  induction l generalizing s with
  | nil => simp
  | cons x l ih =>
    have left : ((after (shadowRemove k x s)).crane k).shadow = (s.crane k).shadow.filter (· != x) :=
      Eq.trans (quiet (shadowRemove k x s)) (congrArg Crane.shadow (shadowRemove_crane k x s))
    rw [List.foldl_cons, ih, left]
    simp [and_assoc]

/-- The cells that enter a shadow set, whatever is taken after each claim. -/
theorem mem_shadowsAdded (l : List CellId) (s : State) (y : CellId) :
    y ∈ ((l.foldl (fun t x => after (shadowAdd k x t)) s).crane k).shadow ↔ y ∈ (s.crane k).shadow ∨ y ∈ l := by
  induction l generalizing s with
  | nil => simp
  | cons x l ih =>
    have entered : ((after (shadowAdd k x s)).crane k).shadow = sortCells (x :: (s.crane k).shadow) :=
      Eq.trans (quiet (shadowAdd k x s)) (congrArg Crane.shadow (shadowAdd_crane k x s))
    rw [List.foldl_cons, ih, entered]
    simp [or_assoc, or_left_comm]

theorem mem_moveShadow (new : List CellId) (s : State) (y : CellId) :
    y ∈ ((moveShadow k new after s).crane k).shadow ↔ y ∈ new := by
  unfold moveShadow
  dsimp only
  rw [mem_shadowsAdded k quiet, mem_shadowsRemoved k quiet]
  simp only [List.mem_filter, mem_sortCells, List.contains_eq_mem, Bool.not_eq_eq_eq_not, Bool.not_true,
    decide_eq_false_iff_not]
  tauto

/-- Another crane's claims leave the shadow set as it stands. -/
theorem moveShadow_stands {j : CraneId} (apart : k ≠ j) (new : List CellId) (s : State) :
    ShadowStands k s (moveShadow j new after s) :=
  (ShadowStands.foldl (fun t x => (ShadowStands.of_only (shadowRemove_only j x t) apart).trans (quiet _)) _ s).trans
    (ShadowStands.foldl (fun t x => (ShadowStands.of_only (shadowAdd_only j x t) apart).trans (quiet _)) _ _)

end Claims

/-! ### The cranes visited at a map change (R53) -/

section MapVisits

variable {k : CraneId}

theorem mapVisit_live {s : State} (live : (s.crane k).Live) : mapVisit k s =
    moveShadow k (shadowSet s (s.crane k).band (s.crane k).boom) (settleLink settleRounds) s := by
  obtain state | state | state := Crane.live_iff.1 live
  all_goals rw [mapVisit, state]

theorem mapVisit_rest {s : State} (rests : ¬(s.crane k).Live) : mapVisit k s = s := by
  unfold mapVisit
  split
  case h_4 => rfl
  case h_5 => rfl
  all_goals exact absurd (by simp [Crane.Live, *]) rests

/-- A crane visited has the shadow set that the map gives its position. -/
theorem mem_mapVisit {s : State} (live : (s.crane k).Live) (y : CellId) :
    y ∈ ((mapVisit k s).crane k).shadow ↔ y ∈ shadowSet s (s.crane k).band (s.crane k).boom := by
  rw [mapVisit_live live]
  exact mem_moveShadow k (ShadowStands.settleLink k _) _ s y

theorem mapVisit_stands {j : CraneId} (apart : k ≠ j) (s : State) : ShadowStands k s (mapVisit j s) := by
  by_cases live : (s.crane j).Live
  · rw [mapVisit_live live]
    exact moveShadow_stands k (ShadowStands.settleLink k _) apart _ s
  · rw [mapVisit_rest live]
    rfl

theorem mapVisits_stand {l : List CraneId} (apart : k ∉ l) (s : State) :
    ShadowStands k s (l.foldl (fun t j => mapVisit j t) s) := by
  induction l generalizing s with
  | nil => rfl
  | cons j l ih =>
    obtain ⟨other, others⟩ := not_or.1 (mt List.mem_cons.2 apart)
    exact (mapVisit_stands other s).trans (ih others _)

/-- A visit keeps every crane's position. -/
theorem mapVisit_position (j : CraneId) (s : State) :
    ((mapVisit j s).crane k).band = (s.crane k).band ∧ ((mapVisit j s).crane k).boom = (s.crane k).boom := by
  have steady := (mapVisit_follows j s k).steady
  exact ⟨(congrArg Crane.band steady :), (congrArg Crane.boom steady :)⟩

/-- The shadow sets of the map depend on nothing that a visit moves. -/
theorem shadowSet_mapVisit (j : CraneId) (s : State) : shadowSet (mapVisit j s) = shadowSet s := by
  have entries : (mapVisit j s).bandEntry = s.bandEntry := by
    funext b
    rw [State.bandEntry, State.bandEntry, (mapVisit_moves j s).map]
  funext band boom
  simp only [shadowSet, entries]

theorem mapVisits_position (l : List CraneId) (s : State) :
    let u := l.foldl (fun t j => mapVisit j t) s
    (u.crane k).band = (s.crane k).band ∧ (u.crane k).boom = (s.crane k).boom := by
  induction l generalizing s with
  | nil => exact ⟨rfl, rfl⟩
  | cons j l ih =>
    obtain ⟨band, boom⟩ := mapVisit_position (k := k) j s
    obtain ⟨band', boom'⟩ := ih (mapVisit j s)
    exact ⟨band'.trans band, boom'.trans boom⟩

/-- Each live crane visited once has the shadow set that the map gives its position. -/
theorem mem_mapVisits {l : List CraneId} (once : l.Nodup) (there : k ∈ l) {s : State} (live : (s.crane k).Live) (y : CellId) :
    y ∈ ((l.foldl (fun t j => mapVisit j t) s).crane k).shadow ↔ y ∈ shadowSet s (s.crane k).band (s.crane k).boom := by
  induction l generalizing s with
  | nil => cases there
  | cons j l ih =>
    obtain ⟨apart, once'⟩ := List.nodup_cons.1 once
    rw [List.foldl_cons]
    by_cases own : k = j
    · subst own
      rw [mapVisits_stand apart (mapVisit k s), mem_mapVisit live]
    · obtain ⟨band, boom⟩ := mapVisit_position (k := k) j s
      rw [ih once' (List.mem_of_ne_of_mem own there) ((mapVisit_follows j s k).live live), shadowSet_mapVisit, band, boom]

end MapVisits

end Machine
end Sys2Proof
end

