-- ==== Sys2Proof/Proofs/HandoverEvents.lean ====
section
/-! O27: the countdown and the bar of a handover (R82, R86), evaluation and starts (R76-R81), and what is taken of all that is
handed to the Crane Link Unit (R53, R75, R84). -/

namespace Sys2Proof
namespace Machine

section Expiries

variable {k : CraneId} {s : State}

/-- Away from a countdown that stands at 0 in HANDOVER, nothing is due (log 11). -/
theorem timeoutIfDue_notDue (running : (s.crane k).state ≠ .handover ∨ (s.crane k).countdown ≠ 0) : timeoutIfDue k s = s := by
  rw [timeoutIfDue, if_neg]
  rintro ⟨busy, ended⟩
  exact running.elim (absurd busy) (absurd ended)

theorem timeoutIfDue_due (busy : (s.crane k).state = .handover) (ended : (s.crane k).countdown = 0) :
    timeoutIfDue k s = failHandover k .timeout s := by
  rw [timeoutIfDue, if_pos ⟨busy, ended⟩]

theorem exec_handoverCountdownExpiry (awake : s.held = false) :
    exec (.handoverCountdownExpiry k) s = .next (settle (timeoutIfDue k s)) :=
  State.take_awake awake fun t => settle (timeoutIfDue k t)

theorem exec_failedTargetBarExpiry (awake : s.held = false) :
    exec (.failedTargetBarExpiry k) s = .next (barEndIfDue k s) := State.take_awake awake (barEndIfDue k)

theorem barEndIfDue_none (bar : (s.crane k).bar = none) : barEndIfDue k s = s := by
  rw [barEndIfDue, bar]

end Expiries

/-- What a failure for TIMEOUT leaves of its crane, once all that follows it has been taken (R82, R85). -/
theorem timeout_crane {k : CraneId} {x : CellId} {s v : State} (failed : HandoverFailed k .timeout x s v)
    (rooms : RoomsOnly s) :
    let t := settle (evaluate k false v)
    ((t.crane k).state = .linked ∧ (t.crane k).target = none
        ∨ (t.crane k).state = .handover ∧ (t.crane k).target ≠ none
          ∧ (s.params.handoverBar ≠ 0 → (t.crane k).target ≠ some x))
      ∧ (t.crane k).anchor = (s.crane k).anchor
      ∧ (t.crane k).bar = (if s.params.handoverBar = 0 then none else some (x, s.params.handoverBar))
      ∧ (t.crane k).counters.failures = (s.crane k).counters.failures + 1 := by
  obtain ⟨same, off⟩ := failed.evaluated rooms k
  have kept := off x (by rw [failed.crane]; exact .inl ⟨rfl, rfl⟩)
  rw [failed.crane] at same
  have bar := (congrArg Crane.bar same :)
  exact ⟨kept.imp_right fun ⟨busy, there, apart⟩ => ⟨busy, there, fun barred => apart _ (bar.trans (if_neg barred))⟩,
    (congrArg Crane.anchor same :), bar, (congrArg (·.counters.failures) same :)⟩

end Machine

open Machine

/-- Settles O27: a failure is a withdrawal and then an evaluation, an evaluation turns on where the anchor stands among the
candidates, and what is handed on is taken round by round. -/
theorem handoverCountdownAndBarEnd : Obligations.HandoverCountdownAndBarEnd := by
  refine ⟨?timeout, ?fails, ?barEnds, ?evaluates, ?starts, ?settles, ?usability, ?room, ?mapChange⟩
  case timeout =>
    intro k x s awake settled
    have taken := exec_handoverCountdownExpiry (k := k) awake
    have frame := (timeoutIfDue_linkOnly k s).trans (settle_linkOnly _)
    refine ⟨fun running => ?_, fun busy ended target => ?_⟩
    · rw [taken, timeoutIfDue_notDue running, settle_of_no_events settled]
    · rw [timeoutIfDue_due busy ended, failHandover_eq target] at taken frame
      have failed := failedLink_failed k x s .timeout
      obtain ⟨goesOn, anchor, bar, failures⟩ := timeout_crane failed settled.rooms
      exact ⟨_, taken, frame, goesOn, anchor, bar, failures, _, rfl, failed⟩
  case fails => exact fun k cause x s target => ⟨_, failHandover_eq target cause, failedLink_failed k x s cause⟩
  case barEnds =>
    intro k s awake
    rw [exec_failedTargetBarExpiry awake]
    refine ⟨fun x bar => by rw [barEndIfDue_eq bar, if_pos rfl], ?_⟩
    rintro (bar | ⟨x, n, bar⟩)
    · rw [barEndIfDue_none bar]
    · rw [barEndIfDue_eq bar, if_neg n.succ_ne_zero]
  case evaluates =>
    intro k a d report s anchor defn c after listed
    refine ⟨candidate s k, candidate_iff anchor, fun unlinked => evaluate_unlinked unlinked report, fun linked => ?_⟩
    have ranked := evaluate_ranked (a := a) report linked anchor
    have unranked := evaluate_unranked (a := a) report linked anchor
    rw [candidatesAhead_eq] at ranked
    rw [candidates_eq] at unranked
    have inUse : c.holdOffInUse = c.oldHoldOff.getD d.holdOff := holdOffInUse_defined defn
    intro ahead limit n counted
    have waits : FitFor s k a → a ∈ listed → ahead ≠ [] → evaluate k report s =
        if limit ≤ n then attemptStart k ahead [] counted else counted.modCrane k fun q => { q with deferred := false } := by
      intro fit there some
      have step : c.holdOffStep report = n := by rw [Crane.holdOffStep, inUse]
      refine (ranked fit there).trans ((if_neg some).trans ((holdOff_eq report _).trans ?_))
      dsimp only
      rw [step, inUse]
      rfl
    exact ⟨evaluate_bandless report linked anchor, fun fit there none => (ranked fit there).trans (if_pos none),
      fun fit there some before => (waits fit there some).trans (if_neg (Nat.not_le.2 before)),
      fun fit there some reached => (waits fit there some).trans (if_pos reached), unranked⟩
  case starts =>
    intro k a cells s anchor c refusals
    refine ⟨?started, fun full => ⟨fun deferred => ?again, fun fresh => ?deferred⟩⟩
    case started =>
      rintro front x back rfl full room block
      obtain ⟨frame, cell, others, crane⟩ := attemptStart_started k a x anchor full room back
      rw [startBlocks, ← List.append_assoc] at frame
      exact ⟨_, rfl, frame, cell, others, crane⟩
    case again =>
      have stands := deferHandover_deferred k (s := s.refusals cells.length) deferred cells
      exact (attemptStart_deferred k full).trans stands
    case deferred =>
      refine ⟨usableFor s k a, usableFor_iff s k a, ?_⟩
      have postponed := deferHandover_eq k (s := s.refusals cells.length) anchor fresh cells
      refine (attemptStart_deferred k full).trans (postponed.trans ?_)
      have notice : deferredNotice k cells s (usableFor s k a) =
          .handoverDeferred k (if cells = [] then .noCandidate else .noRoom) (some a) c.band (usableFor s k a) cells := by
        rw [deferredNotice, anchor]
      rw [← notice]
      rfl
  case settles => exact fun s => ⟨settle_of_no_events, settle_round s, settle_events s⟩
  case usability =>
    refine fun x s => ⟨fun t k => sweepVisit k t, rfl, fun t k => ⟨sweepVisit_linked, fun busy y target => ?_,
      sweepVisit_other⟩⟩
    have visit := sweepVisit_handover busy target
    exact ⟨fun fit => visit.trans (if_pos ((usableFor_iff t k y).2 fit)),
      fun unfit => visit.trans (if_neg (mt (usableFor_iff t k y).1 unfit))⟩
  case room => exact takeCluEvent_room_eq
  case mapChange =>
    refine fun s => ⟨allCranes.foldl (fun t k => mapVisit k t) s, rfl, fun k => ?_⟩
    obtain ⟨band, boom⟩ := mapVisits_position (k := k) allCranes s
    refine ⟨band, boom, fun live y => ?_⟩
    rw [mem_mapVisits allCranes_nodup (mem_allCranes k) (Crane.live_iff.2 live), mem_shadowSet]

end Sys2Proof
end

