-- ==== Sys2Proof/Proofs/Clears.lean ====
section
/-! PROOF of O56: what CLEAR-EXCURSION and CLEAR-GROUP leave of each reefer and each group (R108, R109). -/

namespace Sys2Proof
namespace Machine

/-- A reefer with a definition is listed: a number that is not listed reads as VACANT. -/
theorem mem_reeferIds_of_defined {s : State} {i : ReeferId} {d : ReeferDef} (h : (s.reefer i).defn = some d) :
    i ∈ s.reeferIds := by
  cases found : sparseFind s.ree.reefers i.val with
  | some r =>
    rw [State.reeferIds_eq]
    exact mem_listed found
  | none =>
    have vacant : s.reefer i = Reefer.vacant := by simp [State.reefer, found]
    rw [vacant] at h
    cases h

/-- A reefer names a group as a member of it. -/
def MemberOf (g : GroupId) (r : Reefer) : Prop := r.defn.map ReeferDef.group = some g

theorem mem_reeferIds_of_member {s : State} {i : ReeferId} {g : GroupId} (h : MemberOf g (s.reefer i)) :
    i ∈ s.reeferIds := by
  obtain ⟨d, defn, -⟩ := Option.map_eq_some_iff.1 h
  exact mem_reeferIds_of_defined defn

/-- The flagged members of a group are those of its members whose excursion flag is set, listed or not. -/
theorem mem_flaggedMembers {s : State} {g : GroupId} {i : ReeferId} :
    i ∈ flaggedMembers s g ↔ MemberOf g (s.reefer i) ∧ (s.reefer i).excursion = true := by
  have named : (s.reefer i).defn.map ReeferDef.group == some g ↔ MemberOf g (s.reefer i) := beq_iff_eq
  simp only [flaggedMembers, List.mem_filter, Bool.and_eq_true, named]
  exact and_iff_right_of_imp fun ⟨member, _⟩ => mem_reeferIds_of_member member

/-- Flags cleared one after the other leave everything but the reefers. -/
theorem clearExcursions_frame (l : List ReeferId) (s : State) :
    ∃ reefers, l.foldl (fun t i => clearExcursion i t) s = { s with ree := { s.ree with reefers := reefers } } := by
  induction l generalizing s with
  | nil => exact ⟨_, rfl⟩
  | cons i l ih =>
    obtain ⟨reefers, rest⟩ := ih (clearExcursion i s)
    exact ⟨reefers, rest⟩

/-- Flags cleared one after the other: each reefer of the list has its flag cleared, and no other changes. -/
theorem clearExcursions_reefer (l : List ReeferId) (s : State) (i : ReeferId) :
    (l.foldl (fun t i => clearExcursion i t) s).reefer i =
      if i ∈ l then { s.reefer i with excursion := false } else s.reefer i := by
  induction l generalizing s with
  | nil => simp
  | cons j l ih =>
    rw [List.foldl_cons, ih]
    by_cases own : i = j
    · subst own
      simp [clearExcursion]
    · simp [clearExcursion, State.reefer_modReefer_ne _ own, own]

section ClearGroup

variable (g : GroupId) (s : State)

theorem clearGroup_frame : clearGroup g s =
    { s with ree := { s.ree with groups := (clearGroup g s).ree.groups, reefers := (clearGroup g s).ree.reefers } } := by
  obtain ⟨reefers, cleared⟩ := clearExcursions_frame (flaggedMembers s g) (s.modGroup g fun r => { r with summary := false })
  rw [clearGroup, cleared]
  rfl

theorem clearGroup_group (j : GroupId) :
    (clearGroup g s).group j = if j = g then { s.group g with summary := false } else s.group j := by
  obtain ⟨reefers, cleared⟩ := clearExcursions_frame (flaggedMembers s g) (s.modGroup g fun r => { r with summary := false })
  have groups : (clearGroup g s).group j = (s.modGroup g fun r => { r with summary := false }).group j := by
    rw [clearGroup, cleared]
    rfl
  rw [groups]
  split
  next own => rw [own, State.group_modGroup]
  next other => rw [State.group_modGroup_ne _ other]

/-- A cleared group has no member with its flag set, and no other reefer changes (R109). -/
theorem clearGroup_reefer (i : ReeferId) : (clearGroup g s).reefer i =
    if (s.reefer i).defn.map ReeferDef.group = some g then { s.reefer i with excursion := false } else s.reefer i := by
  have ungrouped : (s.modGroup g fun r => { r with summary := false }).reefer i = s.reefer i := rfl
  rw [clearGroup, clearExcursions_reefer, ungrouped]
  by_cases member : MemberOf g (s.reefer i)
  · rw [if_pos (c := (s.reefer i).defn.map ReeferDef.group = some g) member]
    split
    next => rfl
    next low =>
      have unset : (s.reefer i).excursion = false := by simpa [mem_flaggedMembers, member] using low
      rw [← unset]
  · rw [if_neg (c := (s.reefer i).defn.map ReeferDef.group = some g) member,
      if_neg fun flagged => member (mem_flaggedMembers.1 flagged).1]

end ClearGroup

/-- Two octets name the number that they carry. -/
theorem pairBelow_eq {n : Nat} {a b : Byte} {i : Fin n} (h : a.toNat * 256 + b.toNat = i.val) :
    pairBelow n [a, b] = some i := by
  have value : valueOf [a, b] = i.val := by simpa [valueOf] using h
  simp [pairBelow, below, value]

theorem clearExcursionRequest_vacant {i : ReeferId} {s : State} (h : (s.reefer i).state = .vacant) :
    clearExcursionRequest i s = answer .notFound s := by
  rw [clearExcursionRequest, h]

theorem clearExcursionRequest_defined {i : ReeferId} {s : State} (h : (s.reefer i).state ≠ .vacant) :
    clearExcursionRequest i s = { st := clearExcursion i s, data := .flagBefore (s.reefer i).excursion } := by
  unfold clearExcursionRequest
  split
  next vacant => exact absurd vacant h
  all_goals rfl

theorem clearGroupRequest_undefined {g : GroupId} {s : State} (h : (s.group g).defn = none) :
    clearGroupRequest g s = answer .notFound s := by
  rw [clearGroupRequest, h]

theorem clearGroupRequest_defined {g : GroupId} {s : State} (h : (s.group g).defn ≠ none) :
    clearGroupRequest g s = { st := clearGroup g s, data := .membersCleared (flaggedMembers s g).length } := by
  unfold clearGroupRequest
  split
  next undefined => exact absurd undefined h
  next => rfl

end Machine

open Machine

/-- Settles O56: each request by whether the thing it names is defined, and a cleared group reefer by reefer. -/
theorem clearExcursionAndClearGroup : Obligations.ClearExcursionAndClearGroup := by
  refine ⟨fun q rest a b i s head data named => ⟨fun vacant => ?_, fun defined => ?_⟩,
    fun q rest g s head data _ => ⟨fun undefined => ?_, fun defined => ?_⟩⟩
  · refine serve_status head rfl ?_
    rw [withArg_some (by rw [data]; exact pairBelow_eq named)]
    exact clearExcursionRequest_vacant vacant
  · refine serve_answered head rfl (r := ⟨clearExcursion i (s.taking q rest), .ok, false, _, _⟩) ?_ rfl
    rw [withArg_some (by rw [data]; exact pairBelow_eq named)]
    exact clearExcursionRequest_defined defined
  · refine serve_status head rfl ?_
    rw [withArg_some (by rw [data]; exact octetBelow_ofNat (by decide) g)]
    exact clearGroupRequest_undefined undefined
  · refine ⟨clearGroup g (s.taking q rest), (flaggedMembers s g).length, ?_, clearGroup_frame g _,
      clearGroup_group g (s.taking q rest), clearGroup_reefer g (s.taking q rest), ?_⟩
    · refine serve_answered head rfl (r := ⟨clearGroup g (s.taking q rest), .ok, false, _, _⟩) ?_ rfl
      rw [withArg_some (by rw [data]; exact octetBelow_ofNat (by decide) g)]
      exact clearGroupRequest_defined defined
    · simp only [flaggedMembers, Bool.and_comm]

end Sys2Proof
end

