-- ==== Sys2Proof/Proofs/Misses.lean ====
section
/-! PROOF of O40: a miss charged to a reefer is masked, counted, or counted up to SILENT (R105-R107). -/

namespace Sys2Proof
namespace Machine

/-! ### A reefer written twice -/

theorem sparseInsert_sparseInsert {α : Type} (l : List (Nat × α)) (i : Nat) (v w : α) :
    sparseInsert (sparseInsert l i v) i w = sparseInsert l i w := by
  induction l with
  | nil => simp [sparseInsert]
  | cons e t ih =>
    obtain ⟨j, u⟩ := e
    rcases lt_trichotomy i j with below | here | above
    · simp [sparseInsert, below]
    · simp [sparseInsert, here]
    · have behind : ¬i < j := by omega
      have apart : i ≠ j := by omega
      simp [sparseInsert, behind, apart, ih]

theorem sparseErase_sparseInsert {α : Type} (l : List (Nat × α)) (i : Nat) (v : α) :
    sparseErase (sparseInsert l i v) i = sparseErase l i := by
  induction l with
  | nil => simp [sparseInsert, sparseErase]
  | cons e t ih =>
    obtain ⟨j, u⟩ := e
    rcases lt_trichotomy i j with below | here | above
    · simp [sparseInsert, sparseErase, below]
    · simp [sparseInsert, sparseErase, here]
    · have behind : ¬i < j := by omega
      have apart : i ≠ j := by omega
      have kept : ∀ t : List (Nat × α), sparseErase ((j, u) :: t) i = (j, u) :: sparseErase t i := fun t => by
        simp [sparseErase, apart.symm]
      rw [sparseInsert, if_neg behind, if_neg apart, kept, kept, ih]

/-- Of two records written to a reefer the later stands, unless the earlier one took it off the list. -/
theorem State.setReefer_setReefer (s : State) {i : ReeferId} {r : Reefer} (listed : r ≠ Reefer.vacant) (q : Reefer) :
    (s.setReefer i r).setReefer i q = s.setReefer i q := by
  simp only [State.setReefer, if_neg listed, sparseInsert_sparseInsert, sparseErase_sparseInsert]

/-- Two changes of a reefer are one, unless the first took it off the list. -/
theorem State.modReefer_modReefer (s : State) {i : ReeferId} {f : Reefer → Reefer} (listed : (f (s.reefer i)).state ≠ .vacant)
    (g : Reefer → Reefer) : (s.modReefer i f).modReefer i g = s.modReefer i fun r => g (f r) := by
  have there : f (s.reefer i) ≠ Reefer.vacant := fun e => listed (by rw [e]; rfl)
  rw [State.modReefer, State.reefer_modReefer, State.modReefer, State.setReefer_setReefer s there]
  rfl

/-! ### A miss that is due (R105) -/

section Miss

variable {i : ReeferId} {d : ReeferDef} {g : GroupDef} {x : CellId} {s : State}

theorem missIfDue_due (reporting : (s.reefer i).state = .reporting) (defn : (s.reefer i).defn = some d)
    (group : (s.group d.group).defn = some g) (due : g.interval ≤ (s.reefer i).age) :
    missIfDue i s = chargeMiss i d g (s.modReefer i fun r => { r with age := 0 }) := by
  simp [missIfDue, reporting, defn, group, due]

/-- Behind a serving cell, a miss is masked as that cell's usability says (R106). -/
theorem masked_behind (cell : (s.reefer i).cell = some x) :
    Masked s (s.reefer i) ↔ s.params.features.missMasking = true ∧ ¬usable s x = true := by
  simp [Masked, cell]

/-- The record of a reefer whose miss is masked (R106). -/
def Reefer.missMasked (r : Reefer) : Reefer :=
  { r with
    masked := min (r.masked + 1) 255
    counters := { r.counters with maskedMisses := r.counters.maskedMisses + 1 } }

theorem chargeMiss_masked_eq (h : Masked s (s.reefer i)) : chargeMiss i d g s = s.modReefer i Reefer.missMasked := by
  rw [chargeMiss, if_pos ((masked_iff _ _).2 h)]
  rfl

/-- The pool's answer to a SILENT entry: a dropped one leaves the reefer owed (R107). -/
def silentPlaced (i : ReeferId) (e : Entry) (s : State) : State :=
  if (placeInPool e .urgent s).2 then afterSeal s (placeInPool e .urgent s).1
  else (afterSeal s (placeInPool e .urgent s).1).modReefer i fun r => { r with owed := true }

/-- The record of a reefer that enters SILENT (R107). -/
def Reefer.silenced (r : Reefer) : Reefer :=
  { r with state := .silent, counters := { r.counters with silences := r.counters.silences + 1 } }

theorem enterSilent_eq (i : ReeferId) (d : ReeferDef) (s : State) :
    enterSilent i d s =
      silentPlaced i (silentEntry i d.unit (s.reefer i).silenced) (s.modReefer i Reefer.silenced) := by
  have own : (s.modReefer i Reefer.silenced).reefer i = (s.reefer i).silenced := State.reefer_modReefer ..
  rw [← own]
  rfl

/-- What the placement of a SILENT entry leaves: everything but the pool, and of the reefers their batch references and what
is owed. -/
theorem silentPlaced_run (i : ReeferId) (e : Entry) (s : State) :
    PoolOnly s (silentPlaced i e s) ∧ (silentPlaced i e s).ree.groups = s.ree.groups
      ∧ (∀ j, j ≠ i → (silentPlaced i e s).reefer j = { s.reefer j with ref := ((silentPlaced i e s).reefer j).ref })
      ∧ ∃ ref owed, (silentPlaced i e s).reefer i = { s.reefer i with ref := ref, owed := owed } := by
  have placed : PoolRun s (afterSeal s (placeInPool e .urgent s).1) := placeEntry_poolRun e .urgent s
  unfold silentPlaced
  split
  · exact ⟨placed.only, placed.groups, fun j _ => placed.reefer j, _, _, placed.reefer i⟩
  · refine ⟨placed.only.trans (modReefer_poolOnly _ _ _), placed.groups, fun j other => ?_,
      ((afterSeal s (placeInPool e .urgent s).1).reefer i).ref, true, ?_⟩
    · rw [State.reefer_modReefer_ne _ other]
      exact placed.reefer j
    · rw [State.reefer_modReefer, placed.reefer i]

end Miss

end Machine

open Machine

/-- Settles O40: a due miss is masked, counted, or counted and the entry of a SILENT reefer placed. -/
theorem missIsMaskedOrCounted : Obligations.MissIsMaskedOrCounted := by
  intro i d g x s awake reporting defn group cell due q masked
  have charged : exec (.missCharge i) s = .next (chargeMiss i d g (s.modReefer i fun r => { r with age := 0 })) :=
    (State.take_awake awake _).trans (congrArg _ (missIfDue_due reporting defn group due))
  have aged : (s.modReefer i fun r => { r with age := 0 }).reefer i = { q with age := 0 } := State.reefer_modReefer ..
  have mask : Masked (s.modReefer i fun r => { r with age := 0 }) { q with age := 0 } ↔ masked :=
    (Masked.of_poolOnly (modReefer_poolOnly i _ s) rfl).trans (masked_behind cell)
  have live : q.state ≠ .vacant := by simp [q, reporting]
  rw [← aged] at mask
  refine ⟨fun hidden => ?masked, fun open_ short => ?counted, fun open_ long => ?silent⟩
  case masked =>
    rw [charged, chargeMiss_masked_eq (mask.2 hidden), State.modReefer_modReefer s live]
    rfl
  case counted =>
    rw [charged, chargeMiss_unmasked (mt mask.1 open_), aged, if_neg (Nat.not_le.2 short),
      State.modReefer_modReefer s live]
    rfl
  case silent =>
    rw [charged, chargeMiss_unmasked (mt mask.1 open_), aged, if_pos long, State.modReefer_modReefer s live, enterSilent_eq,
      State.reefer_modReefer, State.modReefer_modReefer s live]
    have before := modReefer_poolOnly i (fun r => (Reefer.missed { r with age := 0 }).silenced) s
    have silenced : (s.modReefer i fun r => (Reefer.missed { r with age := 0 }).silenced).reefer i =
        (Reefer.missed { q with age := 0 }).silenced := State.reefer_modReefer ..
    obtain ⟨only, groups, others, ref, owed, own⟩ := silentPlaced_run i
      (silentEntry i d.unit (Reefer.missed { q with age := 0 }).silenced)
      (s.modReefer i fun r => (Reefer.missed { r with age := 0 }).silenced)
    rw [silenced] at own
    refine ⟨_, rfl, before.trans only, by rw [own]; rfl, fun j other => ?_, groups, by rw [own]; rfl, by rw [own]; rfl,
      by rw [own]; rfl, s.modReefer i fun r => (Reefer.missed { r with age := 0 }).silenced, ⟨_, rfl⟩,
      fun j other => State.reefer_modReefer_ne s other _, silenced, ?_⟩
    · have stands := others j other
      rwa [State.reefer_modReefer_ne s other] at stands
    · rw [← cell]
      rfl

end Sys2Proof
end

