-- ==== Sys2Proof/Proofs/ReeferLaws.lean ====
section
/-! SUPPORT. The single steps in which the reefer and group tables move (R92-R109), and that each keeps their laws: a reefer fits
its group (R94, R95, R99), and a group counts its members (R92, R96). -/

namespace Sys2Proof
namespace Machine

/-! ### A reefer and its group (R94, R95, R99) -/

/-- A reefer record fits the groups of a state: it is VACANT exactly without a definition, its group is defined, and the summary
of its group is set while its flag is. -/
structure FitsGroups (s : State) (r : Reefer) : Prop where
  defined : r.state = .vacant ↔ r.defn = none
  grouped : ∀ d, r.defn = some d → (s.group d.group).defn.isSome = true
  excursion : ∀ d, r.defn = some d → r.excursion = true → (s.group d.group).summary = true

theorem reefersSound_iff (s : State) : ReefersSound s ↔ ∀ i, FitsGroups s (s.reefer i) :=
  ⟨fun ⟨a, b, c⟩ i => ⟨a i, b i, c i⟩,
    fun h => ⟨fun i => (h i).defined, fun i => (h i).grouped, fun i => (h i).excursion⟩⟩

/-- No group has lost its definition or its summary. -/
def GroupsGrow (s t : State) : Prop :=
  ∀ g, ((s.group g).defn.isSome = true → (t.group g).defn.isSome = true)
    ∧ ((s.group g).summary = true → (t.group g).summary = true)

theorem GroupsGrow.of_eq {s t : State} (h : t.ree.groups = s.ree.groups) : GroupsGrow s t := by
  intro g
  simp only [State.group, h]
  exact ⟨id, id⟩

theorem GroupsGrow.trans {s t u : State} (h : GroupsGrow s t) (k : GroupsGrow t u) : GroupsGrow s u :=
  fun g => ⟨(k g).1 ∘ (h g).1, (k g).2 ∘ (h g).2⟩

theorem GroupsGrow.modGroup (s : State) (g : GroupId) {f : Group → Group}
    (defn : (s.group g).defn.isSome = true → (f (s.group g)).defn.isSome = true)
    (summary : (s.group g).summary = true → (f (s.group g)).summary = true) : GroupsGrow s (s.modGroup g f) := by
  intro h
  by_cases own : h = g
  · subst own
    rw [State.group_modGroup]
    exact ⟨defn, summary⟩
  · rw [State.group_modGroup_ne _ own]
    exact ⟨id, id⟩

theorem FitsGroups.grow {s t : State} {r : Reefer} (h : FitsGroups s r) (k : GroupsGrow s t) : FitsGroups t r where
  defined := h.defined
  grouped d hd := (k d.group).1 (h.grouped d hd)
  excursion d hd flag := (k d.group).2 (h.excursion d hd flag)

theorem FitsGroups.vacant (s : State) : FitsGroups s Reefer.vacant where
  defined := iff_of_true rfl rfl
  grouped _ hd := by cases hd
  excursion _ hd := by cases hd

/-- A record of one reefer that fits, and groups that lose nothing, keep all reefers fitting. -/
theorem ReefersSound.setReefer {s t : State} (h : ReefersSound s) (grow : GroupsGrow s t)
    (reefers : t.ree.reefers = s.ree.reefers) {i : ReeferId} {r : Reefer} (fits : FitsGroups t r) :
    ReefersSound (t.setReefer i r) := by
  rw [reefersSound_iff] at h ⊢
  intro j
  have same : GroupsGrow t (t.setReefer i r) := .of_eq rfl
  by_cases own : j = i
  · subst own
    rw [State.reefer_setReefer]
    exact fits.grow same
  · have stands : t.reefer j = s.reefer j := by rw [State.reefer, reefers, State.reefer]
    rw [State.reefer_setReefer_ne _ own, stands]
    exact (h j).grow (grow.trans same)

theorem ReefersSound.grow {s t : State} (h : ReefersSound s) (grow : GroupsGrow s t)
    (reefers : t.ree.reefers = s.ree.reefers) : ReefersSound t := by
  rw [reefersSound_iff] at h ⊢
  intro j
  have stands : t.reefer j = s.reefer j := by rw [State.reefer, reefers, State.reefer]
  rw [stands]
  exact (h j).grow grow

/-! ### Member counts (R92, R96) -/

/-- The number of reefers that name a group. -/
def memberCount (s : State) (g : GroupId) : Nat :=
  (Finset.univ.filter fun i => (s.reefer i).defn.map ReeferDef.group = some g).card

/-- Every group's count is the number of reefers that name it. -/
def MembersCounted (s : State) : Prop := ∀ g, (s.group g).members = memberCount s g

/-- With the table in order, the reefers listed that name a group are all that name it. -/
theorem membersSound_iff {s : State} (sorted : sparseSorted s.ree.reefers) : MembersSound s ↔ MembersCounted s := by
  have once : s.reeferIds.Nodup := by
    rw [State.reeferIds_eq]
    exact listed_nodup sorted
  have count : ∀ g, (s.reeferIds.filter fun i => (s.reefer i).defn.map ReeferDef.group == some g).length =
      memberCount s g := by
    intro g
    rw [memberCount, ← List.toFinset_card_of_nodup (once.filter _)]
    refine congrArg Finset.card (Finset.ext fun i => ?_)
    simp only [List.mem_toFinset, List.mem_filter, beq_iff_eq, Finset.mem_filter, Finset.mem_univ, true_and]
    exact and_iff_right_of_imp mem_reeferIds_of_member
  simp only [MembersSound, MembersCounted, count]

/-- What a reefer adds to the count of a group. -/
def Reefer.countsFor (r : Reefer) (g : GroupId) : Nat := if r.defn.map ReeferDef.group = some g then 1 else 0

theorem memberCount_congr {s t : State}
    (h : ∀ i, (t.reefer i).defn.map ReeferDef.group = (s.reefer i).defn.map ReeferDef.group) (g : GroupId) :
    memberCount t g = memberCount s g := by
  simp only [memberCount, h]

/-- Two states that agree on the groups of all reefers but one: the counts differ in what that one adds. -/
theorem memberCount_apart {s t : State} {i : ReeferId} (others : ∀ j, j ≠ i → t.reefer j = s.reefer j) (g : GroupId) :
    ∃ rest, memberCount s g = rest + (s.reefer i).countsFor g ∧ memberCount t g = rest + (t.reefer i).countsFor g := by
  have total : ∀ u : State, memberCount u g =
      ∑ j ∈ Finset.univ.erase i, (u.reefer j).countsFor g + (u.reefer i).countsFor g := by
    intro u
    rw [memberCount, Finset.card_filter]
    exact (Finset.sum_erase_add _ _ (Finset.mem_univ i)).symm
  refine ⟨_, total s, ?_⟩
  rw [total t]
  refine congrArg (· + (t.reefer i).countsFor g) (Finset.sum_congr rfl fun j hj => ?_)
  rw [others j (Finset.ne_of_mem_erase hj)]

theorem MembersCounted.congr {s t : State} (h : MembersCounted s) (members : ∀ g, (t.group g).members = (s.group g).members)
    (named : ∀ i, (t.reefer i).defn.map ReeferDef.group = (s.reefer i).defn.map ReeferDef.group) : MembersCounted t :=
  fun g => by rw [members, h g, memberCount_congr named]

/-! ### Groups left and joined (R96) -/

section Groups

variable (s : State)

theorem joinGroup_group (g h : GroupId) : (joinGroup g s).group h =
    { s.group h with members := (s.group h).members + (if g = h then 1 else 0) } := by
  unfold joinGroup
  by_cases own : h = g
  · subst own
    rw [State.group_modGroup, if_pos rfl]
  · rw [State.group_modGroup_ne _ own, if_neg (Ne.symm own)]
    rfl

theorem leaveGroup_group (r : Reefer) (h : GroupId) : (leaveGroup r.defn s).group h =
    { s.group h with members := (s.group h).members - r.countsFor h } := by
  unfold leaveGroup Reefer.countsFor
  cases defn : r.defn with
  | none => rfl
  | some d =>
    dsimp only
    by_cases own : h = d.group
    · subst own
      rw [State.group_modGroup, Option.map_some, if_pos rfl]
    · rw [State.group_modGroup_ne _ own, Option.map_some, if_neg fun e => own (Option.some.inj e).symm]
      rfl

theorem leaveGroup_reefers (d : Option ReeferDef) : (leaveGroup d s).ree.reefers = s.ree.reefers := by
  unfold leaveGroup
  split <;> rfl

/-- Groups left and joined lose neither definition nor summary. -/
theorem leaveGroup_grow (r : Reefer) : GroupsGrow s (leaveGroup r.defn s) := by
  intro g
  rw [leaveGroup_group]
  exact ⟨id, id⟩

theorem joinGroup_grow (g : GroupId) : GroupsGrow s (joinGroup g s) := .modGroup s g id id

end Groups

/-- A group's summary set, when a flag calls for it (R99). -/
def raiseSummary (b : Bool) (g : GroupId) (s : State) : State :=
  if b then s.modGroup g fun q => { q with summary := true } else s

theorem raiseSummary_reefers (b : Bool) (g : GroupId) (s : State) : (raiseSummary b g s).ree.reefers = s.ree.reefers := by
  unfold raiseSummary
  split <;> rfl

theorem raiseSummary_group (b : Bool) (g h : GroupId) (s : State) : (raiseSummary b g s).group h =
    { s.group h with summary := (s.group h).summary || (b && decide (h = g)) } := by
  unfold raiseSummary
  cases b with
  | false => simp
  | true =>
    by_cases own : h = g
    · subst own
      simp
    · simp [State.group_modGroup_ne _ own, own]

theorem raiseSummary_grow (b : Bool) (g : GroupId) (s : State) : GroupsGrow s (raiseSummary b g s) := by
  intro h
  rw [raiseSummary_group]
  exact ⟨id, fun set => by simp [set]⟩

/-! ### A reefer moved into a group (R96) -/

/-- A reefer put into a group, with its record: it leaves the group it was in, and the summary follows its flag (R96, R99). -/
def moveReefer (i : ReeferId) (r : Reefer) (g : GroupId) (b : Bool) (s : State) : State :=
  raiseSummary b g ((joinGroup g (leaveGroup (s.reefer i).defn s)).setReefer i r)

section Moves

variable (i : ReeferId) (r : Reefer) (g : GroupId) (b : Bool) (s : State)

theorem moveReefer_eq : moveReefer i r g b s =
    (raiseSummary b g (joinGroup g (leaveGroup (s.reefer i).defn s))).setReefer i r := by cases b <;> rfl

theorem moveReefer_left_reefers :
    (raiseSummary b g (joinGroup g (leaveGroup (s.reefer i).defn s))).ree.reefers = s.ree.reefers :=
  (raiseSummary_reefers _ _ _).trans (leaveGroup_reefers _ _)

theorem moveReefer_grow : GroupsGrow s (raiseSummary b g (joinGroup g (leaveGroup (s.reefer i).defn s))) :=
  ((leaveGroup_grow s (s.reefer i)).trans (joinGroup_grow _ g)).trans (raiseSummary_grow b g _)

theorem moveReefer_members (h : GroupId) : ((moveReefer i r g b s).group h).members =
    (s.group h).members - (s.reefer i).countsFor h + (if g = h then 1 else 0) := by
  have joined : ∀ t : State, ((raiseSummary b g (t.setReefer i r)).group h).members = (t.group h).members := fun t => by
    rw [raiseSummary_group]
    rfl
  rw [moveReefer, joined, joinGroup_group, leaveGroup_group]

theorem moveReefer_reefer : (moveReefer i r g b s).reefer i = r := by
  rw [moveReefer_eq, State.reefer_setReefer]

theorem moveReefer_reefer_ne {j : ReeferId} (other : j ≠ i) : (moveReefer i r g b s).reefer j = s.reefer j := by
  rw [moveReefer_eq, State.reefer_setReefer_ne _ other, State.reefer, moveReefer_left_reefers, State.reefer]

end Moves

/-! ### The steps -/

/-- A step of the reefer and group tables: a record changed in its group, its state and its flag at most as the laws allow, a
summary set (R99), a group defined (R93), a reefer taken into a group or out of it (R96), a group cleared (R109), a restart
(R92, R94) and power-on. -/
inductive ReeferStep (s : State) : State → Prop
  | same {t : State} (groups : t.ree.groups = s.ree.groups) (reefers : t.ree.reefers = s.ree.reefers) : ReeferStep s t
  | kept (i : ReeferId) (r : Reefer) (named : r.defn.map ReeferDef.group = (s.reefer i).defn.map ReeferDef.group)
      (state : r.state = .vacant ↔ (s.reefer i).state = .vacant)
      (flag : r.excursion = true →
        (s.reefer i).excursion = true ∨ ∀ d, r.defn = some d → (s.group d.group).summary = true) :
      ReeferStep s (s.setReefer i r)
  | raised (b : Bool) (g : GroupId) : ReeferStep s (raiseSummary b g s)
  | groupDefined (g : GroupId) (d : GroupDef) : ReeferStep s (s.modGroup g fun q => { q with defn := some d })
  | moved (i : ReeferId) (r : Reefer) (d : ReeferDef) (b : Bool) (defn : r.defn = some d)
      (group : (s.group d.group).defn.isSome = true)
      (live : r.state = .vacant → (s.reefer i).state = .vacant ∧ (s.reefer i).defn ≠ none)
      (flag : r.excursion = true → b = true) :
      ReeferStep s (moveReefer i r d.group b s)
  | dropped (i : ReeferId) : ReeferStep s ((leaveGroup (s.reefer i).defn s).setReefer i Reefer.vacant)
  | cleared (g : GroupId) : ReeferStep s (clearGroup g s)
  | restarted (taken : Bool) : ReeferStep s (restartTraffic taken s)
  | fresh {t : State} (ree : t.ree = ReeferUnit.reset) : ReeferStep s t

/-- A run of steps of the reefer and group tables. -/
abbrev ReeferRun : State → State → Prop := Relation.ReflTransGen ReeferStep

/-! ### Restarts and clears in the tables -/

theorem sparseFind_map {α β : Type} (f : α → β) (l : List (Nat × α)) (i : Nat) :
    sparseFind (l.map fun e => (e.1, f e.2)) i = (sparseFind l i).map f := by
  induction l with
  | nil => rfl
  | cons e t ih =>
    simp only [List.map_cons, sparseFind, ih]
    split <;> rfl

/-- A restart takes each reefer to what its definition leaves of it (R94). -/
theorem restartTraffic_reefer {s : State} (sorted : sparseSorted s.ree.reefers) (taken : Bool) (i : ReeferId) :
    (restartTraffic taken s).reefer i = (s.reefer i).restartTraffic (reloadOf s) := by
  have found : sparseFind (restartTraffic taken s).ree.reefers i.val =
      ((sparseFind s.ree.reefers i.val).filter fun r => r.defn.isSome).map (Reefer.restartTraffic (reloadOf s)) := by
    rw [← sparseFind_filter (fun e => e.2.defn.isSome) sorted]
    exact sparseFind_map _ _ _
  rw [State.reefer, found, State.reefer]
  cases sparseFind s.ree.reefers i.val with
  | none => rfl
  | some r => cases defn : r.defn <;> simp [Option.filter, Reefer.restartTraffic, defn, Reefer.vacant]

theorem restartTraffic_group (taken : Bool) (s : State) (g : GroupId) :
    (restartTraffic taken s).group g = (s.group g).restartTraffic := by
  simp [restartTraffic, State.group]

theorem restartTraffic_sorted {s : State} (sorted : sparseSorted s.ree.reefers) (taken : Bool) :
    sparseSorted (restartTraffic taken s).ree.reefers :=
  List.Pairwise.map _ (fun _ _ lt => lt) (List.Pairwise.filter _ sorted)

theorem restarted_defn (reload : GroupId → Nat) (r : Reefer) : (r.restartTraffic reload).defn = r.defn := by
  unfold Reefer.restartTraffic
  split
  next none => rw [none]
  next some => rw [some]

theorem clearGroup_sorted {s : State} (sorted : sparseSorted s.ree.reefers) (g : GroupId) :
    sparseSorted (clearGroup g s).ree.reefers := by
  have each : ∀ (l : List ReeferId) (u : State), sparseSorted u.ree.reefers →
      sparseSorted (l.foldl (fun t i => clearExcursion i t) u).ree.reefers := by
    intro l
    induction l with
    | nil => exact fun _ h => h
    | cons i l ih => exact fun u h => ih _ (setReefer_sorted h i _)
  exact each _ (s.modGroup g fun r => { r with summary := false }) sorted

/-! ### The laws under each change of the tables -/

section Kept

variable {s : State} {i : ReeferId}

theorem ReefersSound.moved (h : ReefersSound s) {r : Reefer} {d : ReeferDef} {b : Bool} (defn : r.defn = some d)
    (group : (s.group d.group).defn.isSome = true)
    (live : r.state = .vacant → (s.reefer i).state = .vacant ∧ (s.reefer i).defn ≠ none)
    (flag : r.excursion = true → b = true) : ReefersSound (moveReefer i r d.group b s) := by
  have grow := moveReefer_grow i d.group b s
  rw [moveReefer_eq]
  refine h.setReefer grow (moveReefer_left_reefers i d.group b s) ⟨?_, fun e he => ?_, fun e he set => ?_⟩
  · refine iff_of_false (fun vacant => ?_) (by simp [defn])
    obtain ⟨before, named⟩ := live vacant
    exact named (((reefersSound_iff s).1 h i).defined.1 before)
  · obtain rfl : d = e := Option.some.inj (defn.symm.trans he)
    exact (grow d.group).1 group
  · obtain rfl : d = e := Option.some.inj (defn.symm.trans he)
    simp [raiseSummary_group, flag set]

theorem ReefersSound.cleared (h : ReefersSound s) (g : GroupId) : ReefersSound (clearGroup g s) := by
  refine (reefersSound_iff _).2 fun i => ?_
  have fits := (reefersSound_iff s).1 h i
  have groups : ∀ j, ((clearGroup g s).group j).defn = (s.group j).defn := fun j => by
    rw [clearGroup_group]
    split
    next own => rw [own]
    next => rfl
  have quiet : ((clearGroup g s).reefer i).defn = (s.reefer i).defn
      ∧ ((clearGroup g s).reefer i).state = (s.reefer i).state := by
    rw [clearGroup_reefer]
    split <;> exact ⟨rfl, rfl⟩
  obtain ⟨named, state⟩ := quiet
  refine ⟨by rw [named, state]; exact fits.defined, fun d hd => ?_, fun d hd set => ?_⟩
  · rw [groups]
    exact fits.grouped d (named.symm.trans hd)
  · have defn := named.symm.trans hd
    rw [clearGroup_reefer] at set
    by_cases own : d.group = g
    · simp [defn, own] at set
    · rw [clearGroup_group, if_neg own]
      refine fits.excursion d defn ?_
      simpa [defn, own] using set

theorem ReefersSound.restarted (h : ReefersSound s) (sorted : sparseSorted s.ree.reefers) (taken : Bool) :
    ReefersSound (restartTraffic taken s) := by
  refine (reefersSound_iff _).2 fun i => ?_
  have fits := (reefersSound_iff s).1 h i
  rw [restartTraffic_reefer sorted]
  refine ⟨?_, fun d hd => ?_, fun d hd set => ?_⟩
  · cases defn : (s.reefer i).defn <;> simp [Reefer.restartTraffic, defn]
  · rw [restartTraffic_group]
    exact fits.grouped d ((restarted_defn _ _).symm.trans hd)
  · exfalso
    cases defn : (s.reefer i).defn <;> simp [Reefer.restartTraffic, defn] at set

/-- A record of the same group, whether VACANT or not, whose flag is as the group's summary allows. -/
theorem FitsGroups.kept {q r : Reefer} (fits : FitsGroups s q) (named : r.defn.map ReeferDef.group = q.defn.map ReeferDef.group)
    (state : r.state = .vacant ↔ q.state = .vacant)
    (flag : r.excursion = true → q.excursion = true ∨ ∀ d, r.defn = some d → (s.group d.group).summary = true) :
    FitsGroups s r := by
  have before : ∀ d, r.defn = some d → ∃ e, q.defn = some e ∧ e.group = d.group := fun d hd =>
    Option.map_eq_some_iff.1 (named.symm.trans (congrArg (Option.map ReeferDef.group) hd))
  refine ⟨?_, fun d hd => ?_, fun d hd set => ?_⟩
  · rw [state, fits.defined, ← Option.map_eq_none_iff (f := ReeferDef.group), ← named, Option.map_eq_none_iff]
  · obtain ⟨e, he, same⟩ := before d hd
    exact same ▸ fits.grouped e he
  · obtain old | summary := flag set
    · obtain ⟨e, he, same⟩ := before d hd
      exact same ▸ fits.excursion e he old
    · exact summary d hd

theorem MembersCounted.moved (h : MembersCounted s) {r : Reefer} {d : ReeferDef} (b : Bool) (defn : r.defn = some d) :
    MembersCounted (moveReefer i r d.group b s) := by
  intro g
  have counts : r.countsFor g = if d.group = g then 1 else 0 := by simp [Reefer.countsFor, defn]
  obtain ⟨rest, before, after⟩ := memberCount_apart (fun j other => moveReefer_reefer_ne i r d.group b s other) g
  rw [moveReefer_reefer, counts] at after
  have stood := h g
  rw [moveReefer_members]
  omega

theorem MembersCounted.dropped (h : MembersCounted s) :
    MembersCounted ((leaveGroup (s.reefer i).defn s).setReefer i Reefer.vacant) := by
  intro g
  have others : ∀ j, j ≠ i → ((leaveGroup (s.reefer i).defn s).setReefer i Reefer.vacant).reefer j = s.reefer j :=
    fun j other => by
      rw [State.reefer_setReefer_ne _ other, State.reefer, leaveGroup_reefers, State.reefer]
  obtain ⟨rest, before, after⟩ := memberCount_apart others g
  rw [State.reefer_setReefer] at after
  have none : Reefer.vacant.countsFor g = 0 := rfl
  have members : (((leaveGroup (s.reefer i).defn s).setReefer i Reefer.vacant).group g).members =
      (s.group g).members - (s.reefer i).countsFor g :=
    congrArg Group.members (leaveGroup_group s (s.reefer i) g)
  have stood := h g
  omega

end Kept

/-! ### What each step keeps -/

namespace ReeferStep

variable {s t : State}

theorem sorted (step : ReeferStep s t) (h : sparseSorted s.ree.reefers) : sparseSorted t.ree.reefers := by
  cases step with
  | same _ reefers => rwa [reefers]
  | kept i r _ _ _ => exact setReefer_sorted h i r
  | raised b g => rwa [raiseSummary_reefers]
  | groupDefined g d => exact h
  | moved i r d b _ _ _ _ =>
    rw [moveReefer_eq]
    exact setReefer_sorted ((moveReefer_left_reefers i d.group b s).symm ▸ h) i r
  | dropped i => exact setReefer_sorted ((leaveGroup_reefers s _).symm ▸ h) i _
  | cleared g => exact clearGroup_sorted h g
  | restarted taken => exact restartTraffic_sorted h taken
  | fresh ree =>
    rw [ree]
    exact List.Pairwise.nil

theorem sound (step : ReeferStep s t) (sorted : sparseSorted s.ree.reefers) (h : ReefersSound s) : ReefersSound t := by
  cases step with
  | same groups reefers => exact h.grow (.of_eq groups) reefers
  | kept i r named state flag =>
    exact h.setReefer (.of_eq rfl) rfl (((reefersSound_iff s).1 h i).kept named state flag)
  | raised b g => exact h.grow (raiseSummary_grow b g s) (raiseSummary_reefers b g s)
  | groupDefined g d => exact h.grow (.modGroup s g (fun _ => rfl) id) rfl
  | moved i r d b defn group live flag => exact h.moved defn group live flag
  | dropped i => exact h.setReefer (leaveGroup_grow s (s.reefer i)) (leaveGroup_reefers s _) (.vacant _)
  | cleared g => exact h.cleared g
  | restarted taken => exact h.restarted sorted taken
  | fresh ree =>
    refine (reefersSound_iff _).2 fun i => ?_
    have vacant : t.reefer i = Reefer.vacant := by rw [State.reefer, ree]; rfl
    rw [vacant]
    exact .vacant t

theorem counted (step : ReeferStep s t) (sorted : sparseSorted s.ree.reefers) (h : MembersCounted s) :
    MembersCounted t := by
  cases step with
  | same groups reefers =>
    refine h.congr (fun g => ?_) fun i => ?_
    · rw [State.group, groups, State.group]
    · rw [State.reefer, reefers, State.reefer]
  | kept i r named _ _ =>
    refine h.congr (fun g => rfl) fun j => ?_
    by_cases own : j = i
    · subst own
      rw [State.reefer_setReefer, named]
    · rw [State.reefer_setReefer_ne _ own]
  | raised b g =>
    refine h.congr (fun j => ?_) fun i => ?_
    · rw [raiseSummary_group]
    · rw [State.reefer, raiseSummary_reefers, State.reefer]
  | groupDefined g d =>
    refine h.congr (fun j => ?_) fun i => rfl
    by_cases own : j = g
    · subst own
      rw [State.group_modGroup]
    · rw [State.group_modGroup_ne _ own]
  | moved i r d b defn _ _ _ => exact h.moved b defn
  | dropped i => exact h.dropped
  | cleared g =>
    refine h.congr (fun j => ?_) fun i => ?_
    · rw [clearGroup_group]
      split
      next own => rw [own]
      next => rfl
    · rw [clearGroup_reefer]
      split <;> rfl
  | restarted taken =>
    refine h.congr (fun g => ?_) fun i => ?_
    · rw [restartTraffic_group]
      rfl
    · rw [restartTraffic_reefer sorted, restarted_defn]
  | fresh ree =>
    intro g
    have members : (t.group g).members = 0 := by
      simp [State.group, ree, ReeferUnit.reset]
    have vacant : ∀ i, t.reefer i = Reefer.vacant := fun i => by rw [State.reefer, ree]; rfl
    rw [members, memberCount]
    simp [vacant, Reefer.vacant]

end ReeferStep

/-- What a run of the tables keeps of their laws. -/
theorem ReeferRun.laws {s t : State} (run : ReeferRun s t) (sorted : sparseSorted s.ree.reefers) (sound : ReefersSound s) :
    sparseSorted t.ree.reefers ∧ ReefersSound t ∧ (MembersCounted s → MembersCounted t) := by
  induction run with
  | refl => exact ⟨sorted, sound, id⟩
  | tail _ step ih =>
    obtain ⟨sorted', sound', counted'⟩ := ih
    exact ⟨step.sorted sorted', step.sound sorted' sound', fun h => step.counted sorted' (counted' h)⟩

end Machine
end Sys2Proof
end

