-- ==== Sys2Proof/Proofs/HeardReports.lean ====
section
/-! SUPPORT. What becomes of a report, part by part (R97-R104): heard, forwarded or suppressed, each as one change of its reefer
before the pool is asked and one after. -/

namespace Sys2Proof
namespace Machine

/-! ### A report heard (R97-R99) -/

/-- The record of a reefer whose valid report has been heard and classed (R97, R98, R99). -/
def Reefer.heard (x : CellId) (seq : Byte) (cls : ReportClass) (hit : Bool) (r : Reefer) : Reefer :=
  { r with
    lastSeq := some seq, cell := some x, age := 0, miss := 0, masked := 0, cls := some cls, excursion := r.excursion || hit
    counters := { r.counters with
      taken := r.counters.taken + 1
      excursions := r.counters.excursions + (if hit && !r.excursion then 1 else 0) } }

/-- The summary and the record do not touch each other. -/
theorem raiseSummary_modReefer (b : Bool) (g : GroupId) (i : ReeferId) (f : Reefer → Reefer) (s : State) :
    raiseSummary b g (s.modReefer i f) = (raiseSummary b g s).modReefer i f := by
  cases b <;> rfl

theorem raiseSummary_reefer (b : Bool) (g : GroupId) (s : State) (i : ReeferId) :
    (raiseSummary b g s).reefer i = s.reefer i := by
  rw [State.reefer, raiseSummary_reefers, State.reefer]

/-- The report heard: the summary of the group with the flag that is newly set, and the reefer's record. -/
theorem hearReport_eq (x : CellId) (seq : Byte) (cls : ReportClass) (hit : Bool) (i : ReeferId) (g : GroupId) (s : State) :
    hearReport x seq cls hit (hit && !(s.reefer i).excursion) i g s =
      (raiseSummary (hit && !(s.reefer i).excursion) g s).modReefer i (Reefer.heard x seq cls hit) := by
  have record : ((s.modReefer i fun r =>
      { r with
        lastSeq := some seq, cell := some x, age := 0, miss := 0, masked := 0, cls := some cls
        excursion := r.excursion || hit
        counters := { r.counters with
          taken := r.counters.taken + 1
          excursions := r.counters.excursions + (if hit && !(s.reefer i).excursion then 1 else 0) } })) =
      s.modReefer i (Reefer.heard x seq cls hit) := rfl
  rw [← raiseSummary_modReefer, ← record]
  rfl

/-! ### A report forwarded (R103) -/

/-- The record of a reefer whose report is about to be placed (R103, R104). -/
def Reefer.forwarding (g : GroupDef) (r : Reefer) : Reefer := { r with state := .reporting, countdown := g.reload }

/-- The record of a reefer once the pool has answered (R103). -/
def Reefer.poolAnswered (placed : Bool) (f : Forwarded) (r : Reefer) : Reefer :=
  if placed then
    { r with owed := false, last := some f, counters := { r.counters with forwarded := r.counters.forwarded + 1 } }
  else { r with owed := true, counters := { r.counters with dropped := r.counters.dropped + 1 } }

/-- The answer of the pool to a report's entry, and what it leaves of the reefer. -/
def reportPlaced (i : ReeferId) (u : Urgency) (e : Entry) (f : Forwarded) (s : State) : State :=
  (afterSeal s (placeInPool e u s).1).modReefer i (Reefer.poolAnswered (placeInPool e u s).2 f)

theorem forwardReport_eq (kind : EntryKind) (u : Urgency) (i : ReeferId) (d : ReeferDef) (g : GroupDef) (seq : Byte)
    (f : Forwarded) (s : State) : forwardReport kind u i d g seq f s =
      reportPlaced i u (reportEntry kind i d.unit seq ((s.reefer i).forwarding g) f) f
        (s.modReefer i (Reefer.forwarding g)) := by
  have own : (s.modReefer i (Reefer.forwarding g)).reefer i = (s.reefer i).forwarding g := State.reefer_modReefer ..
  rw [← own]
  unfold forwardReport reportPlaced Reefer.poolAnswered
  dsimp only
  split
  next placed =>
    have answer : (placeInPool (reportEntry kind i d.unit seq ((s.modReefer i (Reefer.forwarding g)).reefer i) f) u
      (s.modReefer i (Reefer.forwarding g))).2 = true := placed
    simp only [answer, if_true]
    rfl
  next dropped =>
    have answer : ¬(placeInPool (reportEntry kind i d.unit seq ((s.modReefer i (Reefer.forwarding g)).reefer i) f) u
      (s.modReefer i (Reefer.forwarding g))).2 = true := dropped
    simp only [if_neg answer]
    rfl

/-! ### A report that is not significant (R102) -/

/-- The record of a reefer whose report is suppressed, with the countdown that is left (R102). -/
def Reefer.suppressed (n : Nat) (r : Reefer) : Reefer :=
  { r with countdown := n, counters := { r.counters with suppressed := r.counters.suppressed + 1 } }

theorem suppressReport_due {i : ReeferId} {g : GroupDef} {s : State}
    (due : g.reload = 0 ∨ min (s.reefer i).countdown g.reload - 1 = 0) (d : ReeferDef) (seq : Byte) (f : Forwarded) :
    suppressReport i d g seq f s = forwardReport .report .routine i d g seq f s := if_pos due

theorem suppressReport_waits {i : ReeferId} {g : GroupDef} {s : State}
    (waits : ¬(g.reload = 0 ∨ min (s.reefer i).countdown g.reload - 1 = 0)) (d : ReeferDef) (seq : Byte) (f : Forwarded) :
    suppressReport i d g seq f s = s.modReefer i (Reefer.suppressed (min (s.reefer i).countdown g.reload - 1)) :=
  if_neg waits

/-! ### A valid report (R97-R104) -/

section Valid

variable (x : CellId) (seq : Byte) (f : Forwarded) (i : ReeferId) (d : ReeferDef) (g : GroupDef) (s : State)

/-- The class of a report under its group (R98). -/
def reportClass : ReportClass := classify g f.mode f.supply f.setpoint

/-- A report lies outside its band while its group enables excursions (R99). -/
def excursionHit : Bool := (reportClass f g).outside && g.excursionEnable

/-- The state once a valid report has been heard: the summary of the group with a flag that is newly set, and the record. -/
def reportHeard : State :=
  (raiseSummary (excursionHit f g && !(s.reefer i).excursion) d.group s).modReefer i
    (Reefer.heard x seq (reportClass f g) (excursionHit f g))

/-- The record of a SILENT reefer that returns (R104). -/
def Reefer.returned (r : Reefer) : Reefer := { r with counters := { r.counters with returned := r.counters.returned + 1 } }

theorem reportHeard_reefer : (reportHeard x seq f i d g s).reefer i =
    (s.reefer i).heard x seq (reportClass f g) (excursionHit f g) := by
  rw [reportHeard, State.reefer_modReefer, raiseSummary_reefer]

theorem reportHeard_reefer_ne {j : ReeferId} (other : j ≠ i) : (reportHeard x seq f i d g s).reefer j = s.reefer j := by
  rw [reportHeard, State.reefer_modReefer_ne _ other, raiseSummary_reefer]

theorem reportHeard_group (h : GroupId) : (reportHeard x seq f i d g s).group h =
    (raiseSummary (excursionHit f g && !(s.reefer i).excursion) d.group s).group h := rfl

/-- The changes a report makes against its reefer's record (R100). -/
def reportChanges : Changes := changesOf g (s.reefer i) (reportClass f g) f

/-- A report is significant for its reefer (R100). -/
def reportSignificant : Bool :=
  significant (s.reefer i) (reportChanges f i g s) (excursionHit f g && !(s.reefer i).excursion)

/-- The urgency of a significant report (R101). -/
def reportUrgency : Urgency :=
  if urgentReport (reportChanges f i g s) (reportClass f g) f (excursionHit f g && !(s.reefer i).excursion) then .urgent
  else .routine

/-- The counter of what is heard and what is asked of the pool, by the state of the reefer (R102-R104). -/
theorem takeValid_eq : takeValid x seq f i d g s =
    match (s.reefer i).state with
    | .vacant => reportHeard x seq f i d g s
    | .silent => forwardReport .returned .urgent i d g seq f ((reportHeard x seq f i d g s).modReefer i Reefer.returned)
    | .expected | .reporting =>
      if reportSignificant f i g s then
        forwardReport .report (reportUrgency f i g s) i d g seq f (reportHeard x seq f i d g s)
      else suppressReport i d g seq f (reportHeard x seq f i d g s) := by
  rw [reportHeard, excursionHit, ← hearReport_eq]
  rfl

variable {x seq f i d g s}

theorem takeValid_silent (silent : (s.reefer i).state = .silent) : takeValid x seq f i d g s =
    forwardReport .returned .urgent i d g seq f ((reportHeard x seq f i d g s).modReefer i Reefer.returned) := by
  rw [takeValid_eq, silent]

theorem takeValid_significant (live : (s.reefer i).state = .expected ∨ (s.reefer i).state = .reporting)
    (significant : reportSignificant f i g s = true) : takeValid x seq f i d g s =
      forwardReport .report (reportUrgency f i g s) i d g seq f (reportHeard x seq f i d g s) := by
  rw [takeValid_eq]
  obtain state | state := live <;> rw [state] <;> exact if_pos significant

theorem takeValid_insignificant (live : (s.reefer i).state = .expected ∨ (s.reefer i).state = .reporting)
    (insignificant : reportSignificant f i g s = false) : takeValid x seq f i d g s =
      suppressReport i d g seq f (reportHeard x seq f i d g s) := by
  rw [takeValid_eq]
  obtain state | state := live <;> rw [state] <;> exact if_neg (by simp [insignificant])

end Valid

end Machine
end Sys2Proof
end

