-- ==== Sys2Proof/Proofs/StandingTables.lean ====
section
/-! SUPPORT. The blocks of the part that leave the reefer and group tables as they are: the Chain Controllers with what they hand
to the cranes and the cells, the port, the directory and the frames of stations and of the manager. -/

namespace Sys2Proof
namespace Machine

theorem PortOnly.ree {s t : State} (h : PortOnly s t) : t.ree = s.ree := by
  obtain ⟨_, rfl⟩ := h
  rfl

theorem ChainOnly.ree {s t : State} (h : ChainOnly s t) : t.ree = s.ree := by
  obtain ⟨_, _, _, _, _, _, _, _, rfl⟩ := h
  rfl

theorem LinkOnly.ree {s t : State} (h : LinkOnly s t) : t.ree = s.ree := h.chainOnly.ree

theorem CovOnly.ree {s t : State} (h : CovOnly s t) : t.ree = s.ree := by
  unfold CovOnly at h
  rw [h]

/-! ### The Chain Controllers -/

section Chains

variable (c : Chain) (s : State)

theorem breakChain_chainOnly (cause : ChainCause) (abortCell : Option CellId) :
    ChainOnly s (breakChain c cause abortCell s) :=
  (leaveRunning_chainOnly c s).trans (enterState_chainOnly _ _ _ _ _ _)

theorem missedTurn_chainOnly (f : ChainRec → ChainRec) :
    ChainOnly s (cycleEnd c .missedTurn ((countMissed c s).modChain c f)) :=
  ((modChain_chainOnly s c _).trans (modChain_chainOnly _ c f)).trans (cycleEnd_linkOnly _ _ _).chainOnly

theorem rollcallExpiry_chainOnly : ChainOnly s (rollcallExpiry c s) := by
  unfold rollcallExpiry
  split
  · exact sendCycle_chainOnly c s
  · dsimp only
    have ended := missedTurn_chainOnly c s
    split
    · exact (ended _).trans (enterState_chainOnly _ _ _ _ _ _)
    · exact (ended _).trans (sendCycle_chainOnly _ _)

theorem runningExpiry_chainOnly : ChainOnly s (runningExpiry c s) := by
  unfold runningExpiry
  split
  · exact sendCycle_chainOnly c s
  · dsimp only
    have ended := missedTurn_chainOnly c s
    split
    · exact (ended _).trans (breakChain_chainOnly _ _ _ _)
    · exact (ended _).trans (sendCycle_chainOnly _ _)

theorem cycleExpiry_chainOnly : ChainOnly s (cycleExpiry c s) := by
  have timed := modChain_chainOnly s c fun r => { r with cycleTimer := s.params.cyclePeriod }
  unfold cycleExpiry
  dsimp only
  split
  · exact timed.trans (cycleEnd_linkOnly _ _ _).chainOnly
  · exact timed.trans (cycleEnd_linkOnly _ _ _).chainOnly
  · exact timed.trans (rollcallExpiry_chainOnly _ _)
  · exact timed.trans (runningExpiry_chainOnly _ _)

theorem backoffExpiry_chainOnly : ChainOnly s (backoffExpiry c s) := by
  unfold backoffExpiry
  split
  · exact (modChain_chainOnly s c _).trans (enterState_chainOnly _ _ _ _ _ _)
  · exact .refl s

theorem stableExpiry_chainOnly : ChainOnly s (stableExpiry c s) := by
  unfold stableExpiry
  split
  · exact modChain_chainOnly s c _
  · exact .refl s

theorem lineSilent_chainOnly : ChainOnly s (lineSilent c s) := by
  unfold lineSilent
  split
  · exact (modChain_chainOnly s c _).trans (breakChain_chainOnly _ _ _ _)
  · exact .refl s

theorem disableChain_chainOnly : ChainOnly s (disableChain c s) := by
  unfold disableChain
  split
  · exact .refl s
  · exact (leaveRunning_chainOnly c s).trans (enterState_chainOnly _ _ _ _ _ _)
  all_goals exact enterState_chainOnly _ _ _ _ _ _

theorem rollcallBlink_ree : (rollcallBlink c s).ree = s.ree := by
  unfold rollcallBlink
  split
  · cases c <;> rfl
  · rfl

/-! ### The returning stream -/

theorem rollcallTurn_chainOnly (qs : List (CellId × StatusRecord)) : ChainOnly s (rollcallTurn c qs s) := by
  have judged := modChain_chainOnly s c fun r =>
    { r with
      goodTurns := r.goodTurns + 1, rollcallTurns := r.rollcallTurns + 1, heard := sortCells (qs.map Prod.fst) }
  unfold rollcallTurn
  dsimp only
  split
  · exact (judged.trans (enterState_chainOnly _ _ _ _ _ _)).trans (handTurn_linkOnly _ _ _).chainOnly
  · split
    · exact judged.trans (enterState_chainOnly _ _ _ _ _ _)
    · exact judged

theorem countChain_chainOnly (f : ChainCounters → ChainCounters) : ChainOnly s (s.countChain c f) := by
  rw [State.countChain_eq]
  exact modChain_chainOnly s c _

theorem countMalformed_chainOnly (n : Nat) : ChainOnly s (countMalformed c n s) := countChain_chainOnly c s _

theorem staleTurn_chainOnly (n : Nat) : ChainOnly s (staleTurn c n s) := countChain_chainOnly c s _

theorem takeTurn_chainOnly (cycle : Byte) (records : List StatusRecord) : ChainOnly s (takeTurn c cycle records s) := by
  unfold takeTurn
  split
  · dsimp only
    generalize taken : countMalformed c _ _ = u
    have counted : ChainOnly s u := taken ▸ (modChain_chainOnly s c _).trans (countMalformed_chainOnly c _ _)
    split
    · exact (counted.trans (modChain_chainOnly _ c _)).trans (handTurn_linkOnly _ _ _).chainOnly
    · exact counted.trans (rollcallTurn_chainOnly _ _ _)
    · exact counted
    · exact counted
  · exact staleTurn_chainOnly c s _

theorem takeAbort_chainOnly (x : CellId) : ChainOnly s (takeAbort x s) := by
  have noted := modChain_chainOnly s (chainOf x) (ChainRec.noteAbort x)
  unfold takeAbort
  dsimp only
  split
  · exact noted.trans (breakChain_chainOnly _ _ _ _)
  · exact noted.trans (modChain_chainOnly _ _ _)
  · exact noted
  · exact noted

end Chains

/-! ### The directory and the general units (R38-R43) -/

section Directory

variable (s : State)

theorem dirForget_ree (a : Addr) (t : DirTarget) : (dirForget a t s).ree = s.ree := by
  unfold dirForget
  split <;> rfl

theorem removeGeneral_ree (j : GeneralId) : (removeGeneral j s).ree = s.ree := by
  unfold removeGeneral
  split <;> rfl

theorem dirDefine_ree (a : Addr) (t : DirTarget) : (dirDefine a t s).ree = s.ree := by
  unfold dirDefine
  split
  · exact removeGeneral_ree s _
  all_goals rfl

theorem moveEntry_ree (old : Option Addr) (new : Addr) (t : DirTarget) : (moveEntry old new t s).ree = s.ree := by
  unfold moveEntry
  split
  · exact dirDefine_ree s _ _
  · split
    · rfl
    · exact (dirDefine_ree _ _ _).trans (dirForget_ree _ _ _)

theorem ageOutIfDue_ree (j : GeneralId) : (ageOutIfDue j s).ree = s.ree := by
  unfold ageOutIfDue
  split
  · rfl
  · split
    · exact removeGeneral_ree s _
    · rfl

theorem takeGeneralUp_ree (x : CellId) (unit : Addr) (payload : List Byte) :
    (takeGeneralUp x unit payload s).ree = s.ree := by
  have learnt : (learnGeneral x unit s).ree = s.ree := by
    unfold learnGeneral
    dsimp only
    split
    · split <;> rfl
    · rfl
  have heard : (hearGeneral x unit s).ree = s.ree := by
    unfold hearGeneral
    split
    · rfl
    · exact learnt
    all_goals rfl
  unfold takeGeneralUp
  split
  · rfl
  · exact (offer_portOnly _ _ _).ree.trans heard

theorem takeGeneralDown_ree (unit : Addr) (payload : List Byte) : (takeGeneralDown unit payload s).ree = s.ree := by
  have offered : ∀ x, (offerGeneralDown x unit payload s).ree = s.ree := by
    intro x
    unfold offerGeneralDown
    dsimp only
    split <;> exact State.modChain_ree ..
  unfold takeGeneralDown
  split
  · split
    · rfl
    · split
      · exact offered _
      · rfl
  all_goals rfl

end Directory

/-! ### The port and the frames of stations and of the manager -/

section Frames

variable (s : State)

theorem discardFrame_ree (h : RxHeader) (octets : List Byte) : (State.discardFrame h octets s).ree = s.ree := by
  unfold State.discardFrame
  split
  · rfl
  · split <;> rfl

theorem linkComesUp_ree : s.linkComesUp.ree = s.ree := by
  unfold State.linkComesUp
  split <;> rfl

theorem abandonLoad_ree (cause : AbandonCause) : (abandonLoad cause s).ree = s.ree := by
  unfold abandonLoad
  split <;> rfl

theorem abandonUnreported_ree (cause : AbandonCause) : (abandonUnreported cause s).ree = s.ree := by
  unfold abandonUnreported
  split
  · exact abandonLoad_ree s cause
  · rfl

theorem fromManager_ree (q : Request) : (fromManager q s).ree = s.ree := by
  unfold fromManager
  split
  · unfold takeRequest
    split
    · rfl
    · unfold offerResponse
      dsimp only
      split <;> rfl
  · rfl

theorem stationFrame_ree (src : Addr) (subject : Byte) {f : CraneId → State → State}
    (hf : ∀ k u, (f k u).ree = u.ree) : (stationFrame src subject f s).ree = s.ree := by
  unfold stationFrame
  dsimp only
  split
  · split
    · rfl
    · split
      · exact hf _ _
      · rfl
  · rfl

theorem takeCraneDown_ree (payload : List Byte) (k : CraneId) : (takeCraneDown payload k s).ree = s.ree := by
  unfold takeCraneDown
  split
  · rfl
  · split
    · split <;> rfl
    · split <;> rfl
    all_goals rfl

theorem takeResume_linkOnly (k : CraneId) : LinkOnly s (takeResume k s) := by
  unfold takeResume
  dsimp only
  split
  · split
    · exact (resume_linkOnly k s).trans (settle_linkOnly _)
    · exact refuseResume_linkOnly k s _
  all_goals exact refuseResume_linkOnly k s _

end Frames

/-! ### Loads of cranes and of cells -/

theorem applyCrane_ree (s : State) (e : CraneEntry) : (applyCrane s e).ree = s.ree := by
  unfold applyCrane
  split
  · rfl
  · dsimp only
    split
    · exact moveEntry_ree _ _ _ _
    · split
      · exact dirForget_ree _ _ _
      all_goals rfl

theorem foldl_ree {α : Type} {f : State → α → State} (h : ∀ s a, (f s a).ree = s.ree) (l : List α) (s : State) :
    (l.foldl f s).ree = s.ree := by
  induction l generalizing s with
  | nil => rfl
  | cons a l ih => exact (ih _).trans (h s a)

end Machine
end Sys2Proof
end

