-- ==== Sys2Proof/Proofs/ReeferRuns.lean ====
section
/-! SUPPORT. What the Reefer Unit, the pool and the loads do, as runs of the steps of the reefer and group tables (R92-R109). -/

namespace Sys2Proof
namespace Machine

/-! ### What leaves the tables alone, and what only sets references -/

theorem ReeferRun.of_ree {s t : State} (h : t.ree = s.ree) : ReeferRun s t :=
  .single (.same (congrArg ReeferUnit.groups h) (congrArg ReeferUnit.reefers h))

theorem ReeferRun.foldl {α : Type} {f : State → α → State} (h : ∀ s a, ReeferRun s (f s a)) (l : List α) (s : State) :
    ReeferRun s (l.foldl f s) := by
  induction l generalizing s with
  | nil => exact .refl
  | cons a l ih => exact (h s a).trans (ih _)

/-- A reefer that keeps its definition and whether it is VACANT, and whose flag is not raised. -/
theorem modReefer_reeferRun (i : ReeferId) {f : Reefer → Reefer} {s : State}
    (defn : (f (s.reefer i)).defn = (s.reefer i).defn)
    (state : (f (s.reefer i)).state = .vacant ↔ (s.reefer i).state = .vacant)
    (flag : (f (s.reefer i)).excursion = true → (s.reefer i).excursion = true) : ReeferRun s (s.modReefer i f) :=
  .single (.kept i _ (congrArg _ defn) state fun set => .inl (flag set))

theorem countReefer_reeferRun (i : ReeferId) (f : ReeferCounters → ReeferCounters) (s : State) :
    ReeferRun s (s.countReefer i f) := modReefer_reeferRun i rfl Iff.rfl id

theorem PoolRun.reeferRun {s t : State} (h : PoolRun s t) : ReeferRun s t := by
  induction h with
  | refl => exact .refl
  | trans _ _ ih ih' => exact ih.trans ih'
  | other s _ _ _ => exact .of_ree rfl
  | setRef s i r => exact modReefer_reeferRun i rfl Iff.rfl id

/-! ### Reports (R97-R104) -/

section Reports

variable {i : ReeferId} {s : State}

theorem poolAnswered_reeferRun (placed : Bool) (f : Forwarded) (s : State) :
    ReeferRun s (s.modReefer i (Reefer.poolAnswered placed f)) := by
  cases placed <;> exact modReefer_reeferRun i rfl Iff.rfl id

theorem forwardReport_reeferRun (kind : EntryKind) (u : Urgency) (d : ReeferDef) (g : GroupDef) (seq : Byte) (f : Forwarded)
    (live : (s.reefer i).state ≠ .vacant) : ReeferRun s (forwardReport kind u i d g seq f s) := by
  have reporting : ReeferRun s (s.modReefer i (Reefer.forwarding g)) :=
    modReefer_reeferRun i rfl (iff_of_false (by simp [Reefer.forwarding]) live) id
  rw [forwardReport_eq]
  exact (reporting.trans (placeEntry_poolRun _ _ _).reeferRun).trans (poolAnswered_reeferRun _ _ _)

theorem suppressReport_reeferRun (d : ReeferDef) (g : GroupDef) (seq : Byte) (f : Forwarded)
    (live : (s.reefer i).state ≠ .vacant) : ReeferRun s (suppressReport i d g seq f s) := by
  by_cases due : g.reload = 0 ∨ min (s.reefer i).countdown g.reload - 1 = 0
  · rw [suppressReport_due due]
    exact forwardReport_reeferRun _ _ _ _ _ _ live
  · rw [suppressReport_waits due]
    exact modReefer_reeferRun i rfl Iff.rfl id

/-- A report heard sets the flag of its reefer after the summary of its group (R99). -/
theorem reportHeard_reeferRun (x : CellId) (seq : Byte) (f : Forwarded) {d : ReeferDef} (g : GroupDef)
    (defn : (s.reefer i).defn = some d) : ReeferRun s (reportHeard x seq f i d g s) := by
  refine .trans (.single (.raised (excursionHit f g && !(s.reefer i).excursion) d.group))
    (.single (.kept i _ rfl Iff.rfl fun set => ?_))
  rw [raiseSummary_reefer] at set ⊢
  rcases before : (s.reefer i).excursion with _ | _
  · refine .inr fun e he => ?_
    obtain rfl : d = e := Option.some.inj (defn.symm.trans he)
    have hit : excursionHit f g = true := by simpa [Reefer.heard, before] using set
    simp [raiseSummary_group, hit]
  · exact .inl rfl

theorem takeValid_reeferRun (x : CellId) (seq : Byte) (f : Forwarded) {d : ReeferDef} (g : GroupDef)
    (defn : (s.reefer i).defn = some d) : ReeferRun s (takeValid x seq f i d g s) := by
  have heard := reportHeard_reeferRun x seq f g defn
  have live : (s.reefer i).state ≠ .vacant → ((reportHeard x seq f i d g s).reefer i).state ≠ .vacant := by
    rw [reportHeard_reefer]
    exact id
  rw [takeValid_eq]
  split
  next => exact heard
  next silent =>
    refine (heard.trans (modReefer_reeferRun i rfl Iff.rfl id)).trans (forwardReport_reeferRun _ _ _ _ _ _ ?_)
    rw [State.reefer_modReefer]
    exact live (by simp [silent])
  all_goals
    split
    · exact heard.trans (forwardReport_reeferRun _ _ _ _ _ _ (live (by simp [*])))
    · exact heard.trans (suppressReport_reeferRun _ _ _ _ (live (by simp [*])))

theorem takeReport_reeferRun (x : CellId) (r : Report) (s : State) : ReeferRun s (takeReport x r s) := by
  unfold takeReport
  split
  · exact .single (.same rfl rfl)
  · split
    · split
      · split
        · exact countReefer_reeferRun _ _ _
        · split
          · exact .refl
          · split
            · exact .refl
            · exact takeValid_reeferRun _ _ _ _ ‹_›
      · exact countReefer_reeferRun _ _ _
    · exact countReefer_reeferRun _ _ _

end Reports

/-! ### Misses and the report tick (R105-R107) -/

section Misses

variable {i : ReeferId} {s : State}

theorem enterSilent_reeferRun (d : ReeferDef) (live : (s.reefer i).state ≠ .vacant) : ReeferRun s (enterSilent i d s) := by
  have silent : ReeferRun s (s.modReefer i fun r =>
      { r with state := .silent, counters := { r.counters with silences := r.counters.silences + 1 } }) :=
    modReefer_reeferRun i rfl (iff_of_false (by simp) live) id
  unfold enterSilent
  dsimp only
  have placed := silent.trans (placeEntry_poolRun (silentEntry i d.unit (State.reefer (s.modReefer i fun r =>
    { r with state := .silent, counters := { r.counters with silences := r.counters.silences + 1 } }) i)) .urgent _).reeferRun
  split
  · exact placed
  · exact placed.trans (modReefer_reeferRun i rfl Iff.rfl id)

theorem chargeMiss_reeferRun (d : ReeferDef) (g : GroupDef) (live : (s.reefer i).state ≠ .vacant) :
    ReeferRun s (chargeMiss i d g s) := by
  unfold chargeMiss
  split
  · exact modReefer_reeferRun i rfl Iff.rfl id
  · have counted : ReeferRun s (s.modReefer i fun r =>
        { r with
          miss := min (r.miss + 1) Config.reeferMissCeiling
          counters := { r.counters with misses := r.counters.misses + 1 } }) := modReefer_reeferRun i rfl Iff.rfl id
    dsimp only
    split
    · refine counted.trans (enterSilent_reeferRun d ?_)
      rw [State.reefer_modReefer]
      exact live
    · exact counted

theorem missIfDue_reeferRun (i : ReeferId) (s : State) : ReeferRun s (missIfDue i s) := by
  unfold missIfDue
  split
  next reporting _ =>
    split
    · exact .refl
    · split
      · refine .trans (modReefer_reeferRun i (f := fun r => { r with age := 0 }) rfl Iff.rfl id) (chargeMiss_reeferRun _ _ ?_)
        rw [State.reefer_modReefer]
        exact fun vacant => by cases reporting.symm.trans vacant
      · exact .refl
  next => exact .refl

theorem tickReefer_reeferRun (s : State) (i : ReeferId) : ReeferRun s (tickReefer s i) := by
  unfold tickReefer
  split
  · exact .trans (modReefer_reeferRun i (f := fun r => { r with age := r.age + 1 }) rfl Iff.rfl id) (missIfDue_reeferRun _ _)
  all_goals exact .refl

theorem reportTick_reeferRun (s : State) : ReeferRun s (reportTick s) :=
  (ReeferRun.foldl tickReefer_reeferRun _ s).trans (ReeferRun.of_ree (reportTick_covOnly s).ree)

end Misses

/-! ### Loads of reefers and groups (R93, R95, R96) -/

/-- The group that an entry names, unless it removes its reefer, is defined (R95). -/
def ReeferEntry.Grouped (s : State) (e : ReeferEntry) : Prop :=
  e.action ≠ 2 → ∀ g, below 64 e.group = some g → (s.group g).defn.isSome = true

section Loads

variable {i : ReeferId} {g : GroupId} {s : State}

theorem addReefer_reeferRun (unit : Addr) (group : (s.group g).defn.isSome = true) :
    ReeferRun s (addReefer i g unit s) := by
  have removed := removeLive_poolRun i s
  have named : ((removeLive i s).reefer i).defn = (s.reefer i).defn := by rw [removed.reefer]
  refine .trans (removed.reeferRun.trans (.single ?_)) (ReeferRun.of_ree (moveEntry_ree _ _ _ _))
  rw [← named]
  refine .moved i _ { unit := unit, group := g } false rfl ?_ nofun nofun
  rw [State.group, removed.groups]
  exact group

theorem regroupReefer_reeferRun (unit : Addr) (group : (s.group g).defn.isSome = true)
    (defined : (s.reefer i).defn ≠ none) : ReeferRun s (regroupReefer i g unit s) := by
  unfold regroupReefer
  dsimp only
  by_cases same : (s.reefer i).defn.map ReeferDef.group = some g
  · rw [if_pos same]
    have raised : ReeferRun (s.modReefer i fun q => { q with defn := some { unit := unit, group := g } })
        (raiseSummary (s.reefer i).excursion g (s.modReefer i fun q => { q with defn := some { unit := unit, group := g } })) :=
      .single (.raised _ g)
    have replaced : ReeferRun s (s.setReefer i { s.reefer i with defn := some { unit := unit, group := g } }) :=
      .single (.kept i _ same.symm Iff.rfl .inl)
    exact replaced.trans raised
  · rw [if_neg same]
    have moved : ReeferRun s (raiseSummary (s.reefer i).excursion g ((joinGroup g (leaveGroup (s.reefer i).defn s)).setReefer i
        { s.reefer i with defn := some { unit := unit, group := g } })) :=
      .single (.moved i _ { unit := unit, group := g } _ rfl group (fun vacant => ⟨vacant, defined⟩) id)
    have record : (joinGroup g (leaveGroup (s.reefer i).defn s)).reefer i = s.reefer i := by
      have stands : (joinGroup g (leaveGroup (s.reefer i).defn s)).ree.reefers = s.ree.reefers := leaveGroup_reefers s _
      rw [State.reefer, stands, State.reefer]
    rw [State.modReefer, record]
    exact moved

theorem dropReefer_reeferRun : ReeferRun s (dropReefer i s) := by
  unfold dropReefer
  split
  · exact .refl
  next d defn =>
    have removed := removeLive_poolRun i s
    have named : ((removeLive i s).reefer i).defn = some d := by rw [removed.reefer, defn]
    refine .trans (removed.reeferRun.trans (.single ?_)) (ReeferRun.of_ree (dirForget_ree _ _ _))
    rw [← named]
    exact .dropped i

/-- An entry that names a defined group takes effect within the laws. -/
theorem applyReefer_reeferRun {e : ReeferEntry} (grouped : e.Grouped s) : ReeferRun s (applyReefer s e) := by
  unfold applyReefer
  split
  · exact .refl
  · split
    · exact dropReefer_reeferRun
    next adds =>
      split
      · exact .refl
      next g named =>
        have group := grouped adds g named
        split
        next replaced =>
          refine regroupReefer_reeferRun _ group fun none => ?_
          rw [none] at replaced
          cases replaced.2
        next => exact addReefer_reeferRun _ group

/-- A reefer's entry leaves the definitions of the groups as they are. -/
theorem applyReefer_groupDefn (s : State) (e : ReeferEntry) (h : GroupId) :
    ((applyReefer s e).group h).defn = (s.group h).defn := by
  have removed : ∀ i r, ((leaveGroup (Reefer.defn r) (removeLive i s)).group h).defn = (s.group h).defn := fun i r => by
    rw [leaveGroup_group, State.group, (removeLive_poolRun i s).groups, State.group]
  unfold applyReefer
  split
  · rfl
  next i _ =>
    split
    · unfold dropReefer
      split
      · rfl
      next d defn =>
        rw [← defn, State.group, dirForget_ree]
        exact removed i (s.reefer i)
    · split
      · rfl
      next g _ =>
        split
        · have joined : ((if (s.reefer i).defn.map ReeferDef.group = some g then s
              else joinGroup g (leaveGroup (s.reefer i).defn s)).group h).defn = (s.group h).defn := by
            split
            · rfl
            · rw [joinGroup_group, leaveGroup_group]
          have raised := fun u => congrArg Group.defn (raiseSummary_group (s.reefer i).excursion g h u)
          exact (raised _).trans joined
        · have joined : ((joinGroup g (leaveGroup (s.reefer i).defn (removeLive i s))).group h).defn = (s.group h).defn := by
            rw [joinGroup_group]
            exact removed i (s.reefer i)
          unfold addReefer
          rw [State.group, moveEntry_ree]
          exact joined

theorem applyReefers_reeferRun (l : List ReeferEntry) (grouped : ∀ e ∈ l, e.Grouped s) :
    ReeferRun s (l.foldl applyReefer s) := by
  induction l generalizing s with
  | nil => exact .refl
  | cons e l ih =>
    refine (applyReefer_reeferRun (grouped e List.mem_cons_self)).trans (ih fun e' he' adds g named => ?_)
    rw [applyReefer_groupDefn]
    exact grouped e' (List.mem_cons_of_mem _ he') adds g named

/-- A load of reefers that is not at fault names defined groups. -/
theorem reeferFault_grouped {l : List ReeferEntry} (h : reeferFault s l = none) : ∀ e ∈ l, e.Grouped s := by
  obtain ⟨ranges, -⟩ := orElse_none h
  intro e he adds g named
  obtain ⟨n, hn⟩ := List.mem_iff_getElem?.1 he
  have inRange := entryFault_none.1 ranges n e hn
  unfold reeferOutOfRange groupDefined at inRange
  rw [named] at inRange
  simp_all

theorem applyGroup_reeferRun (s : State) (e : GroupEntry) : ReeferRun s (applyGroup s e) := by
  unfold applyGroup
  split
  · exact .refl
  · exact .single (.groupDefined _ _)

theorem applyLoad_reeferRun {t : Table} {content : List Byte} (h : loadFault t content s = none) :
    ReeferRun s (applyLoad t content s) := by
  obtain ⟨-, fits⟩ := orElse_none h
  cases t with
  | cranes => exact .of_ree (foldl_ree applyCrane_ree _ _)
  | cells => exact .of_ree (foldl_ree (fun s e => (applyCell_linkOnly s e).ree) _ _)
  | coverage => exact .of_ree rfl
  | reefers => exact applyReefers_reeferRun _ (reeferFault_grouped fits)
  | groups => exact ReeferRun.foldl applyGroup_reeferRun _ _

end Loads

end Machine
end Sys2Proof
end

