-- ==== Sys2Proof/Proofs/ReefersSound.lean ====
section
/-! PROOF of O16: every command is a run of the steps of the reefer and group tables, and so keeps their laws (R92, R94-R96,
R99). -/

namespace Sys2Proof
namespace Machine

/-! ### Frames and blocks -/

section Frames

variable {s t : State}

theorem ChainOnly.reeferRun (h : ChainOnly s t) : ReeferRun s t := .of_ree h.ree

theorem LinkOnly.reeferRun (h : LinkOnly s t) : ReeferRun s t := .of_ree h.ree

variable (s)

theorem receive_reeferRun (g : RxHeader) (ok : Bool) {f : State → State} (hf : ∀ u, ReeferRun u (f u)) :
    ReeferRun s (State.receive g ok f s) := by
  have counted : ∀ k : PortCounters → PortCounters, ReeferRun s (s.countPort k) := fun k => .of_ree rfl
  unfold State.receive
  split
  · exact .refl
  · split
    · exact counted _
    · split
      · exact counted _
      · split
        · exact counted _
        · exact (counted _).trans (hf _)

theorem linkLost_reeferRun : ReeferRun s (linkLost s) := by
  unfold linkLost
  split
  · have lost : ReeferRun s (drainLinkLoss (s.modPort Port.loseLink)) :=
      .trans (ReeferRun.of_ree (t := s.modPort Port.loseLink) rfl) (drainLinkLoss_poolRun _).reeferRun
    exact (lost.trans (ReeferRun.of_ree (abandonUnreported_ree _ .linkLoss))).trans (ReeferRun.of_ree rfl)
  · exact .refl

theorem frameSent_reeferRun : ReeferRun s (frameSent s) := by
  unfold frameSent
  split
  · exact .refl
  next c _ _ =>
    have counted : ReeferRun s (s.modPort fun p => p.countSent c) := .of_ree rfl
    dsimp only
    split
    · exact (counted.trans (drainReport_poolRun _).reeferRun).trans (ReeferRun.of_ree rfl)
    · exact counted.trans (ReeferRun.of_ree rfl)

theorem onBlock_reeferRun (c : Chain) {f : State → State} (hf : ∀ u, ReeferRun u (f u)) : ReeferRun s (onBlock c f s) := by
  unfold onBlock
  split
  · exact .refl
  · exact (modChain_chainOnly s c _).reeferRun.trans (hf _)

theorem uplinkBlock_reeferRun (x : CellId) (ok : Bool) {f : State → State} (hf : ∀ u, ReeferRun u (f u)) :
    ReeferRun s (uplinkBlock x ok f s) := by
  refine onBlock_reeferRun s _ fun u => ?_
  split
  · exact (countMalformed_chainOnly _ u 1).reeferRun
  · split
    · exact (modCell_linkOnly x _ u).reeferRun.trans (hf _)
    · exact (countChain_chainOnly _ u _).reeferRun

end Frames

/-! ### Requests (R155-R167) -/

/-- A reply leaves the tables as a run of their steps leaves them, and so does what follows it. -/
structure Reply.RunsTables (s : State) (r : Reply) : Prop where
  st : ReeferRun s r.st
  after : ∀ b t, ReeferRun t (r.after b t)

section Requests

variable {s₀ s : State}

theorem Reply.RunsTables.keeps {r : Reply} (h : r.RunsTables s) (run : ReeferRun s₀ s) : r.Keeps (ReeferRun s₀) :=
  ⟨run.trans h.st, fun b t ht => ht.trans (h.after b t)⟩

/-- A reply that nothing follows. -/
theorem Reply.RunsTables.still {r : Reply} (st : ReeferRun s r.st) (after : ∀ b t, r.after b t = t) : r.RunsTables s :=
  ⟨st, fun b t => by rw [after]⟩

/-- A reply that what its effects hand on follows. -/
theorem Reply.RunsTables.settled {r : Reply} (st : ReeferRun s r.st) (after : ∀ b t, r.after b t = settle t) :
    r.RunsTables s := ⟨st, fun b t => by rw [after]; exact (settle_linkOnly t).reeferRun⟩

theorem answer_tables (st : Status) : (answer st s).RunsTables s := .still .refl fun _ _ => rfl

theorem answerData_tables (d : ResponseData) : (answerData d s).RunsTables s := .still .refl fun _ _ => rfl

theorem answerLoad_tables (st : Status) {t : State} (h : t.ree = s.ree) : (answerLoad st t).RunsTables s :=
  .still (.of_ree h) fun _ _ => rfl

variable (s)

theorem sealDueBatches_reeferRun (a b : Bool) : ReeferRun s (sealDueBatches a b s) := by
  have popped : ReeferRun s s.popChoice.2 := .of_ree rfl
  have sealed : ∀ u v, ReeferRun v (sealByAge u v) := fun u v =>
    ((sealOpen_poolRun u .age v).trans (afterSeal_poolRun v _)).reeferRun
  unfold sealDueBatches
  split
  · split
    · exact popped.trans ((sealed _ _).trans (sealed _ _))
    · exact popped.trans ((sealed _ _).trans (sealed _ _))
  · exact sealed _ _
  · exact sealed _ _
  · exact .refl

theorem setParams_tables (q : Request) : (setParams q s).RunsTables s := by
  unfold setParams
  split
  · exact .still .refl fun _ _ => rfl
  next new _ =>
    have taken : ∀ t : State, ReeferRun t (t.modMgmt fun m => { m with params := new }) := fun t => .of_ree rfl
    exact ⟨.refl, fun _ t => (taken t).trans (sealDueBatches_reeferRun _ _ _)⟩

theorem loadBegin_tables (q : Request) : (loadBegin q s).RunsTables s := by
  unfold loadBegin
  split
  · exact answerLoad_tables _ rfl
  · split
    · exact answerLoad_tables _ rfl
    · split
      · exact answerLoad_tables _ rfl
      · split <;> exact answerLoad_tables _ rfl

theorem refuseLoad_tables (st : Status) : (refuseLoad st s).RunsTables s := answerLoad_tables _ (abandonLoad_ree s _)

theorem loadSegment_tables (q : Request) : (loadSegment q s).RunsTables s := by
  unfold loadSegment
  split
  · exact answerLoad_tables _ rfl
  · split
    · exact answerLoad_tables _ rfl
    · split
      · exact refuseLoad_tables s _
      · split
        · exact refuseLoad_tables s _
        · exact answerLoad_tables _ rfl

theorem closeAndApply_tables (t : Transaction) : (closeAndApply t s).RunsTables s := by
  unfold closeAndApply
  dsimp only
  split
  · exact .still (.of_ree rfl) fun _ _ => rfl
  next fits => exact .settled ((applyLoad_reeferRun fits).trans (ReeferRun.of_ree rfl)) fun _ _ => rfl

theorem loadEnd_tables (q : Request) : (loadEnd q s).RunsTables s := by
  unfold loadEnd
  split
  · split
    · exact answerLoad_tables _ rfl
    · split
      · exact refuseLoad_tables s _
      · split
        · exact refuseLoad_tables s _
        · split
          · exact refuseLoad_tables s _
          · exact closeAndApply_tables s _
  · exact answerLoad_tables _ rfl

theorem readCrane_tables (k : CraneId) : (readCrane k s).RunsTables s := by
  unfold readCrane
  dsimp only
  split <;> exact answerData_tables _

theorem readGroup_tables (g : GroupId) : (readGroup g s).RunsTables s := by
  unfold readGroup
  split <;> exact answerData_tables _

theorem clearCounters_reeferRun (a : Scope) : ReeferRun s (clearCounters s a) := by
  cases a with
  | chain c => exact (countChain_chainOnly c s fun _ => {}).reeferRun
  | coverage =>
    exact ((countCov_linkOnly _ s).trans (LinkOnly.foldl (fun t x => modCell_linkOnly x _ t) _ _)).reeferRun
  | reefer first n =>
    exact (ReeferRun.foldl (fun t i => countReefer_reeferRun i _ t) _ s).trans (.single (.same rfl rfl))
  | port => exact .of_ree rfl
  | crane k => exact .of_ree rfl
  | pool => exact .of_ree rfl
  | drain => exact .of_ree rfl
  | management => exact .of_ree rfl

theorem readCounters_tables (a : Scope × Bool) : (readCounters a s).RunsTables s := by
  refine .still ?_ fun _ _ => rfl
  unfold readCounters
  dsimp only
  split
  · exact clearCounters_reeferRun s _
  · exact .refl

theorem clearExcursion_tables (i : ReeferId) : (clearExcursionRequest i s).RunsTables s := by
  have cleared : ReeferRun s (clearExcursion i s) := modReefer_reeferRun i rfl Iff.rfl nofun
  unfold clearExcursionRequest
  split
  · exact answer_tables _
  all_goals exact .still cleared fun _ _ => rfl

theorem clearGroup_tables (g : GroupId) : (clearGroupRequest g s).RunsTables s := by
  unfold clearGroupRequest
  split
  · exact answer_tables _
  · exact .still (.single (.cleared g)) fun _ _ => rfl

theorem releaseRequest_tables (k : CraneId) : (releaseRequest k s).RunsTables s := by
  unfold releaseRequest
  split
  · exact answer_tables _
  · exact answer_tables _
  all_goals exact .settled (releaseCrane_linkOnly k s).reeferRun fun _ _ => rfl

theorem barRequest_tables (b : Bool) (x : CellId) : (barRequest b x s).RunsTables s :=
  .settled (setBarred_linkOnly x b s).reeferRun fun _ _ => rfl

theorem enableRequest_tables (c : Chain) : (enableRequest c s).RunsTables s := by
  unfold enableRequest
  split
  · exact .still (enterState_chainOnly _ _ _ _ _ _).reeferRun fun _ _ => rfl
  all_goals exact answer_tables _

end Requests

/-! ### Every command -/

/-- The effect of an event that is a run of the tables. -/
theorem take_reeferRun {s t : State} {f : State → State} (hf : ∀ u, ReeferRun u (f u)) (h : s.take f = .next t) :
    ReeferRun s t :=
  take_keeps (P := ReeferRun s) (fun _ => hf s) .refl h

/-- The tables are in neither the port nor the Management Unit. -/
theorem ReeferRun.quiet {s₀ : State} (s : State) (p : Port) (m : Mgmt) (h : ReeferRun s₀ s) :
    ReeferRun s₀ { s with port := p, mgmt := m } := h.trans (ReeferRun.of_ree rfl)

/-- A request without data that is served is a run of the tables when its reply is. -/
theorem serve_plain_reeferRun {s t : State} {k : RequestKind} {f : State → Reply} (hf : ∀ u, (f u).RunsTables u)
    (h : s.take (serve k (withoutData f)) = .next t) : ReeferRun s t :=
  take_keeps (fun run => serve_keeps ReeferRun.quiet
    (fun q u run => withoutData_keeps run ((hf u).keeps run) q) k run) .refl h

/-- A request about one thing. -/
theorem serve_arg_reeferRun {α : Type} {s t : State} {k : RequestKind} {parse : List Byte → Option α} {f : α → State → Reply}
    (hf : ∀ a u, (f a u).RunsTables u) (h : s.take (serve k (withArg parse f)) = .next t) : ReeferRun s t :=
  take_keeps (fun run => serve_keeps ReeferRun.quiet
    (fun q u run => withArg_keeps run (fun a => (hf a u).keeps run) parse q) k run) .refl h

/-- A request that judges its data itself. -/
theorem serve_reeferRun {s t : State} {k : RequestKind} {body : Request → State → Reply}
    (hbody : ∀ q u, (body q u).RunsTables u) (h : s.take (serve k body) = .next t) : ReeferRun s t :=
  take_keeps (fun run => serve_keeps ReeferRun.quiet (fun q u run => (hbody q u).keeps run) k run) .refl h

theorem exec_reeferRun (i : Instr) {s t : State} (h : exec i s = .next t) : ReeferRun s t := by
  have ofDrain : ∀ {f : State → State} (g : RxHeader), (∀ u, PoolRun u (f u)) → ∀ u,
      ReeferRun u (State.receive g true (fromCollector g.src f) u) := fun g hf u =>
    receive_reeferRun u g true fun v => (fromCollector_poolRun _ hf v).reeferRun
  cases i with
  | resetNAssert => cases h; exact .single (.fresh rfl)
  | resetNRelease straps => cases h; exact .single (.fresh rfl)
  | linkUp => exact take_reeferRun (fun u => .of_ree (linkComesUp_ree u)) h
  | linkLoss => exact take_reeferRun linkLost_reeferRun h
  | frameSent => exact take_reeferRun frameSent_reeferRun h
  | uplinkFrameDiscarded g octets => exact take_reeferRun (fun u => .of_ree (discardFrame_ree u g octets)) h
  | craneDown g subject payload =>
    exact take_reeferRun (receive_reeferRun · _ _ fun u =>
      .of_ree (stationFrame_ree u _ _ fun k v => takeCraneDown_ree v payload k)) h
  | craneResume g subject =>
    exact take_reeferRun (receive_reeferRun · _ _ fun u =>
      .of_ree (stationFrame_ree u _ _ fun k v => (takeResume_linkOnly v k).ree)) h
  | drainOpen g tag credit => exact take_reeferRun (ofDrain g (takeOpen_poolRun tag credit)) h
  | drainCheck g tag index crc => exact take_reeferRun (ofDrain g (ofOpenDrain_poolRun tag (takeCheck_poolRun _ crc))) h
  | drainPause g tag => exact take_reeferRun (ofDrain g (ofOpenDrain_poolRun tag takePause_poolRun)) h
  | drainResume g tag => exact take_reeferRun (ofDrain g (ofOpenDrain_poolRun tag takeDrainResume_poolRun)) h
  | drainStop g tag => exact take_reeferRun (ofDrain g (ofOpenDrain_poolRun tag takeStop_poolRun)) h
  | mgmtRequest g id command data =>
    exact take_reeferRun (receive_reeferRun · _ _ fun u => .of_ree (fromManager_ree u _)) h
  | generalFrame g unit payload =>
    exact take_reeferRun (receive_reeferRun · _ _ fun u => .of_ree (takeGeneralDown_ree u unit payload)) h
  | cycleTimerExpiry c => exact take_reeferRun (fun u => (cycleExpiry_chainOnly c u).reeferRun) h
  | backoffTimerExpiry c => exact take_reeferRun (fun u => (backoffExpiry_chainOnly c u).reeferRun) h
  | stableTimerExpiry c => exact take_reeferRun (fun u => (stableExpiry_chainOnly c u).reeferRun) h
  | signalLoss c => exact take_reeferRun (fun u => (lineSilent_chainOnly c u).reeferRun) h
  | fillBlock c => exact take_reeferRun (onBlock_reeferRun · c fun _ => .refl) h
  | openerReturned c => exact take_reeferRun (onBlock_reeferRun · c fun _ => .refl) h
  | undeliveredDownlink x =>
    exact take_reeferRun (onBlock_reeferRun · _ fun u => (countChain_chainOnly _ u _).reeferRun) h
  | craneUp x radio seq payload =>
    exact take_reeferRun (uplinkBlock_reeferRun · x _ fun u => (takeCraneUp_linkOnly x radio seq payload u).reeferRun) h
  | reeferReport x r => exact take_reeferRun (uplinkBlock_reeferRun · x _ (takeReport_reeferRun x r)) h
  | generalUp x unit payload =>
    exact take_reeferRun (uplinkBlock_reeferRun · x _ fun u => .of_ree (takeGeneralUp_ree u x unit payload)) h
  | turnMarker c cycle records =>
    refine take_reeferRun (onBlock_reeferRun · c fun u => ?_) h
    split
    · exact (takeTurn_chainOnly c u cycle records).reeferRun
    · exact (countMalformed_chainOnly c u 1).reeferRun
  | abortMarker x => exact take_reeferRun (onBlock_reeferRun · _ fun u => (takeAbort_chainOnly u x).reeferRun) h
  | malformedBlock c b =>
    refine take_reeferRun (onBlock_reeferRun · c fun u => ?_) h
    split
    · exact (countMalformed_chainOnly c u 1).reeferRun
    · exact .refl
  | supervisionTimerExpiry k => exact take_reeferRun (fun u => (superviseExpiry_linkOnly k u).reeferRun) h
  | handoverCountdownExpiry k =>
    exact take_reeferRun (f := fun u => settle (timeoutIfDue k u))
      (fun u => ((timeoutIfDue_linkOnly k u).trans (settle_linkOnly _)).reeferRun) h
  | failedTargetBarExpiry k => exact take_reeferRun (fun u => (barEndIfDue_linkOnly k u).reeferRun) h
  | reportTick => exact take_reeferRun reportTick_reeferRun h
  | missCharge i => exact take_reeferRun (missIfDue_reeferRun i) h
  | generalAgeOut j => exact take_reeferRun (fun u => .of_ree (ageOutIfDue_ree u j)) h
  | sealTimeExpiry u =>
    exact take_reeferRun (f := fun v => afterSeal v (sealOpen u .age v))
      (fun v => ((sealOpen_poolRun u .age v).trans (afterSeal_poolRun v _)).reeferRun) h
  | checkTimerExpiry index => exact take_reeferRun (fun u => (checkExpiry_poolRun index u).reeferRun) h
  | pauseTimerExpiry => exact take_reeferRun (fun u => (pauseExpiry_poolRun u).reeferRun) h
  | transactionTimerExpiry => exact take_reeferRun (fun u => .of_ree (abandonUnreported_ree u .timeout)) h
  | identify => exact serve_plain_reeferRun (fun _ => answerData_tables _) h
  | readParams => exact serve_plain_reeferRun (fun _ => answerData_tables _) h
  | setParams => exact serve_reeferRun (fun q u => setParams_tables u q) h
  | loadBegin => exact serve_reeferRun (fun q u => loadBegin_tables u q) h
  | loadSegment => exact serve_reeferRun (fun q u => loadSegment_tables u q) h
  | loadEnd => exact serve_reeferRun (fun q u => loadEnd_tables u q) h
  | readCrane => exact serve_arg_reeferRun (fun k u => readCrane_tables u k) h
  | readCell => exact serve_arg_reeferRun (fun _ _ => answerData_tables _) h
  | readChain => exact serve_arg_reeferRun (fun _ _ => answerData_tables _) h
  | readReefer => exact serve_arg_reeferRun (fun _ _ => answerData_tables _) h
  | readGroup => exact serve_arg_reeferRun (fun g u => readGroup_tables u g) h
  | readBatches => exact serve_plain_reeferRun (fun _ => answerData_tables _) h
  | readDrain => exact serve_plain_reeferRun (fun _ => answerData_tables _) h
  | readCounters => exact serve_arg_reeferRun (fun a u => readCounters_tables u a) h
  | clearExcursion => exact serve_arg_reeferRun (fun i u => clearExcursion_tables u i) h
  | clearGroup => exact serve_arg_reeferRun (fun g u => clearGroup_tables u g) h
  | releaseCrane => exact serve_arg_reeferRun (fun k u => releaseRequest_tables u k) h
  | barCell => exact serve_arg_reeferRun (fun x u => barRequest_tables u true x) h
  | unbarCell => exact serve_arg_reeferRun (fun x u => barRequest_tables u false x) h
  | chainEnable => exact serve_arg_reeferRun (fun c u => enableRequest_tables u c) h
  | chainDisable =>
    exact serve_arg_reeferRun (fun c u => .still (disableChain_chainOnly c u).reeferRun fun _ _ => rfl) h
  | restartTraffic =>
    exact serve_plain_reeferRun (fun _ => ⟨.refl, fun b _ => .single (.restarted b)⟩) h
  | restartAll => exact serve_plain_reeferRun (fun _ => ⟨.refl, fun _ _ => .single (.fresh rfl)⟩) h
  | unknownRequest => exact take_keeps (takeUnknown_keeps ReeferRun.quiet) .refl h
  | rollcallLedBlink c => exact take_reeferRun (fun u => .of_ree (rollcallBlink_ree c u)) h

theorem tick_ree (s : State) : s.tick.ree = s.ree := by
  unfold State.tick
  split <;> rfl

theorem step_reeferRun {s t : State} (h : step s = .next t) : ReeferRun s t := by
  unfold step at h
  split at h
  next =>
    cases h
    exact .of_ree (tick_ree s)
  next c rest _ =>
    have rested : ReeferRun s { s with pending := rest } := .of_ree rfl
    exact rested.trans (exec_reeferRun c h)

end Machine

open Machine

/-- Settles O16: no quarter of a millisecond and no command breaks the laws of the reefers and of the groups. -/
theorem stepKeepsTheReefersSound : Obligations.StepKeepsTheReefersSound := by
  refine ⟨fun s t tables sound stepped => ?_, fun s t tables sound members stepped => ?_⟩
  · obtain ⟨-, sound', -⟩ := (step_reeferRun stepped).laws tables.reefers sound
    exact sound'
  · obtain ⟨sorted', -, counted⟩ := (step_reeferRun stepped).laws tables.reefers sound
    exact (membersSound_iff sorted').2 (counted ((membersSound_iff tables.reefers).1 members))

end Sys2Proof
end

