-- ==== Sys2Proof/Proofs/ArrivingReports.lean ====
section
/-! SUPPORT. What a report is before the pool is asked: where its block arrives (R18a), which check it fails (R97), what its
class is (R98), and what makes it significant and urgent (R100, R101). -/

namespace Sys2Proof
namespace Machine

/-! ### A dispatched report (R18a) -/

section Dispatch

variable (s : State) (x : CellId)

theorem dispatched_chainOnly : ChainOnly s (s.dispatched x) :=
  (modChain_chainOnly s _ _).trans (modCell_linkOnly x _ _).chainOnly

theorem dispatched_ree : (s.dispatched x).ree = s.ree := (dispatched_chainOnly s x).ree

theorem dispatched_pool : (s.dispatched x).pool = s.pool := by
  obtain ⟨_, _, _, _, _, _, _, _, eq⟩ := dispatched_chainOnly s x
  rw [eq]

theorem dispatched_drain : (s.dispatched x).drain = s.drain := by
  obtain ⟨_, _, _, _, _, _, _, _, eq⟩ := dispatched_chainOnly s x
  rw [eq]

theorem dispatched_reefer (i : ReeferId) : (s.dispatched x).reefer i = s.reefer i := by
  rw [State.reefer, dispatched_ree, State.reefer]

theorem dispatched_group (g : GroupId) : (s.dispatched x).group g = s.group g := by
  rw [State.group, dispatched_ree, State.group]

theorem dispatched_dirReefer (a : Addr) : dirReefer (s.dispatched x) a = dirReefer s a := by
  have directory : (s.dispatched x).cov.directory = s.cov.directory := by rw [(dispatched_block s x).cov]
  simp only [dirReefer, dirFind, directory]

variable {s x}

/-- A REEFER-REPORT block that is dispatched reaches the Reefer Unit. -/
theorem exec_reeferReport (dispatched : Dispatched s x) {r : Report} (short : r.alarms.length ≤ 4) :
    exec (.reeferReport x r) s = .next (takeReport x r (s.dispatched x)) := by
  refine (State.take_awake dispatched.awake _).trans ?_
  rw [decide_eq_true short, uplinkBlock_dispatched dispatched]

end Dispatch

/-! ### The checks of R97 -/

theorem modeOf_isSome {o : Byte} : (modeOf o).isSome = true ↔ o.toNat ≤ 3 := by
  unfold modeOf
  split <;> simp_all
  omega

theorem powerOf_isSome {o : Byte} : (powerOf o).isSome = true ↔ o.toNat ≤ 2 := by
  unfold powerOf
  split <;> simp_all
  omega

theorem temperatureOk_iff {t : U16} : temperatureOk t = true ↔ t = 0x8000#16 ∨ -1000 ≤ t.toInt ∧ t.toInt ≤ 1000 := by
  rw [temperatureOk, Bool.or_eq_true, decide_eq_true_iff, Bool.and_eq_true, decide_eq_true_iff, decide_eq_true_iff]
  rfl

/-- The mode, the power and the three temperatures of a report are defined (R97, step 2). -/
def ValidReport (r : Report) : Prop :=
  (modeOf r.mode).isSome = true ∧ (powerOf r.power).isSome = true ∧ ∀ v ∈ [r.supply, r.ret, r.setpoint], temperatureOk v = true

/-- The forwarded values of a report with the mode and the power that its codes name. -/
def reportValues (r : Report) (m : Mode) (p : Power) : Forwarded :=
  { supply := r.supply, ret := r.ret, setpoint := r.setpoint, mode := m, power := p, alarms := alarmSet r.alarms }

section Checks

variable {x : CellId} {r : Report} {i : ReeferId} {s : State}

theorem takeReport_unknown (unknown : dirReefer s r.unit = none) :
    takeReport x r s = { s with ree := { s.ree with unknown := s.ree.unknown + 1 } } := by
  rw [takeReport, unknown]

theorem takeReport_invalid (known : dirReefer s r.unit = some i) (invalid : ¬ValidReport r) :
    takeReport x r s = s.countReefer i fun k => { k with invalid := k.invalid + 1 } := by
  rw [takeReport, known]
  dsimp only
  split
  next m p mode power =>
    refine if_neg fun temperatures => invalid ⟨by rw [mode]; rfl, by rw [power]; rfl, ?_⟩
    simpa [Bool.and_eq_true, and_assoc] using temperatures
  next => rfl

/-- The values of a valid report are all in range. -/
theorem ValidReport.temperatures (valid : ValidReport r) :
    (temperatureOk r.supply && temperatureOk r.ret && temperatureOk r.setpoint) = true := by
  obtain ⟨-, -, temperatures⟩ := valid
  simpa [Bool.and_eq_true, and_assoc] using temperatures

theorem takeReport_duplicate (known : dirReefer s r.unit = some i) (valid : ValidReport r)
    (duplicate : (s.reefer i).lastSeq = some r.seq) :
    takeReport x r s = s.countReefer i fun k => { k with duplicates := k.duplicates + 1 } := by
  obtain ⟨m, mode⟩ := Option.isSome_iff_exists.1 valid.1
  obtain ⟨p, power⟩ := Option.isSome_iff_exists.1 valid.2.1
  rw [takeReport, known]
  dsimp only
  rw [mode, power]
  dsimp only
  rw [if_pos valid.temperatures, if_pos duplicate]

theorem takeReport_valid {m : Mode} {p : Power} {d : ReeferDef} {g : GroupDef} (known : dirReefer s r.unit = some i)
    (mode : modeOf r.mode = some m) (power : powerOf r.power = some p) (valid : ValidReport r)
    (fresh : (s.reefer i).lastSeq ≠ some r.seq) (defn : (s.reefer i).defn = some d)
    (group : (s.group d.group).defn = some g) : takeReport x r s = takeValid x r.seq (reportValues r m p) i d g s := by
  rw [takeReport, known]
  dsimp only
  rw [mode, power]
  dsimp only
  rw [if_pos valid.temperatures, if_neg fresh, defn]
  dsimp only
  rw [group]
  rfl

/-- A valid report that is dispatched is heard and judged. -/
theorem takeReport_dispatched {m : Mode} {p : Power} {d : ReeferDef} {g : GroupDef} (known : dirReefer s r.unit = some i)
    (mode : modeOf r.mode = some m) (power : powerOf r.power = some p)
    (temperatures : ∀ v ∈ [r.supply, r.ret, r.setpoint], temperatureOk v = true)
    (fresh : (s.reefer i).lastSeq ≠ some r.seq) (defn : (s.reefer i).defn = some d)
    (group : (s.group d.group).defn = some g) :
    takeReport x r (s.dispatched x) = takeValid x r.seq (reportValues r m p) i d g (s.dispatched x) := by
  rw [← dispatched_reefer s x] at fresh defn
  rw [← dispatched_group s x] at group
  rw [← dispatched_dirReefer s x] at known
  exact takeReport_valid known mode power ⟨by rw [mode]; rfl, by rw [power]; rfl, temperatures⟩ fresh defn group

end Checks

/-! ### The class of a report (R98, R99) -/

section Class

variable {f : Forwarded} {g : GroupDef}

/-- The mode takes a band, and both its temperatures are measured (R98). -/
def Forwarded.Banded (f : Forwarded) : Prop :=
  (f.mode = .chill ∨ f.mode = .frozen) ∧ f.supply ≠ notMeasured ∧ f.setpoint ≠ notMeasured

theorem reportClass_banded (h : f.Banded) : reportClass f g =
    if f.supply.toInt < f.setpoint.toInt - g.bandBelow then .below
    else if f.setpoint.toInt + g.bandAbove < f.supply.toInt then .above else .within := by
  obtain ⟨mode | mode, supply, setpoint⟩ := h <;> simp [reportClass, classify, mode, supply, setpoint]

theorem reportClass_unbanded (h : ¬f.Banded) :
    reportClass f g = if f.mode = .defrost ∨ f.mode = .off then .exempt else .within := by
  have unmeasured : f.mode = .chill ∨ f.mode = .frozen → f.supply = notMeasured ∨ f.setpoint = notMeasured := by
    simpa [Forwarded.Banded, imp_iff_not_or, or_assoc] using h
  cases mode : f.mode with
  | chill => simp [reportClass, classify, mode, unmeasured (.inl mode)]
  | frozen => simp [reportClass, classify, mode, unmeasured (.inr mode)]
  | defrost => simp [reportClass, classify, mode]
  | off => simp [reportClass, classify, mode]

theorem Forwarded.Banded.not_exempt (h : f.Banded) : ¬(f.mode = .defrost ∨ f.mode = .off) := by
  obtain ⟨mode | mode, -⟩ := h <;> simp [mode]

theorem reportClass_exempt : reportClass f g = .exempt ↔ f.mode = .defrost ∨ f.mode = .off := by
  by_cases banded : f.Banded
  · rw [reportClass_banded banded]
    exact iff_of_false (by split_ifs <;> simp) banded.not_exempt
  · rw [reportClass_unbanded banded]
    split_ifs with exempt <;> simp [exempt]

theorem reportClass_below :
    reportClass f g = .below ↔ f.Banded ∧ f.supply.toInt < f.setpoint.toInt - g.bandBelow := by
  by_cases banded : f.Banded
  · rw [reportClass_banded banded]
    split_ifs with below <;> simp [banded, below]
  · rw [reportClass_unbanded banded]
    split_ifs <;> simp [banded]

theorem reportClass_above : reportClass f g = .above ↔ f.Banded ∧ ¬f.supply.toInt < f.setpoint.toInt - g.bandBelow
    ∧ f.setpoint.toInt + g.bandAbove < f.supply.toInt := by
  by_cases banded : f.Banded
  · rw [reportClass_banded banded]
    split_ifs with below above <;> simp [banded, below]
    · exact above
    · exact Int.not_lt.1 above
  · rw [reportClass_unbanded banded]
    split_ifs <;> simp [banded]

theorem outside_iff {c : ReportClass} : c.outside = true ↔ c = .below ∨ c = .above := by cases c <;> simp [ReportClass.outside]

theorem excursionHit_iff : excursionHit f g = true ↔
    (reportClass f g = .below ∨ reportClass f g = .above) ∧ g.excursionEnable = true := by
  rw [excursionHit, Bool.and_eq_true, outside_iff]

end Class

/-! ### Alarm sets (R100, R103) -/

theorem mem_alarmSet {a : U16} {l : List U16} : a ∈ alarmSet l ↔ a ∈ l := by
  have collected : ∀ (l acc : List U16),
      a ∈ l.foldl (fun acc b => if acc.contains b then acc else acc ++ [b]) acc ↔ a ∈ acc ∨ a ∈ l := by
    intro l
    induction l with
    | nil => simp
    | cons b l ih =>
      intro acc
      rw [List.foldl_cons, ih]
      split
      next there =>
        have there : b ∈ acc := by simpa using there
        simp only [List.mem_cons]
        refine ⟨fun h => h.imp_right .inr, ?_⟩
        rintro (h | rfl | h)
        · exact .inl h
        · exact .inl there
        · exact .inr h
      next => simp [or_assoc]
  exact (collected l []).trans (by simp)

theorem alarmSet_isEmpty {l : List U16} : (alarmSet l).isEmpty = false ↔ l ≠ [] := by
  rw [← Bool.not_eq_true, List.isEmpty_iff, not_iff_not, List.eq_nil_iff_forall_not_mem, List.eq_nil_iff_forall_not_mem]
  simp only [mem_alarmSet]

theorem sameAlarms_iff {k l : List U16} : sameAlarms k l = true ↔ ∀ a, a ∈ k ↔ a ∈ l := by
  simp only [sameAlarms, Bool.and_eq_true, List.all_eq_true, List.contains_iff_mem]
  exact ⟨fun ⟨h, h'⟩ a => ⟨h a, h' a⟩, fun h => ⟨fun a => (h a).1, fun a => (h a).2⟩⟩

theorem supplyReaches_iff {g : GroupDef} {last new : U16} : supplyReaches g last new = true ↔
    ¬(last = 0x8000#16 ∧ new = 0x8000#16
      ∨ last ≠ 0x8000#16 ∧ new ≠ 0x8000#16 ∧ (new.toInt - last.toInt).natAbs < g.deadband) := by
  unfold supplyReaches notMeasured
  split_ifs <;> simp_all
  tauto

/-! ### Significance and urgency (R100, R101) -/

/-- A report differs from the last forwarded values in what a predicate compares; with none it differs in everything (R100). -/
def Differs (last : Option Forwarded) (same : Forwarded → Prop) : Prop := ∀ l, last = some l → ¬same l

/-- A comparison that counts as a change with no last forwarded values, and otherwise compares with them. -/
theorem differs_iff {compare : Option Forwarded → Bool} {same : Forwarded → Prop} (last : Option Forwarded)
    (first : compare none = true) (later : ∀ l, compare (some l) = true ↔ ¬same l) :
    compare last = true ↔ Differs last same := by
  cases last with
  | none => exact iff_of_true first nofun
  | some l =>
    rw [later]
    exact ⟨fun differs k found => Option.some.inj found ▸ differs, fun differs => differs l rfl⟩

section Judged

variable (f : Forwarded) (i : ReeferId) (g : GroupDef) (s : State)

theorem changedClass_iff : (reportChanges f i g s).cls = true ↔ (s.reefer i).cls ≠ some (reportClass f g) := by
  simp [reportChanges, changesOf]

/-- The changes of a report against a record with the given last forwarded values. -/
def changesAgainst (last : Option Forwarded) : Changes := changesOf g { s.reefer i with last := last } (reportClass f g) f

theorem changedAlarms_iff : (reportChanges f i g s).alarms = true ↔
    Differs (s.reefer i).last fun l => ∀ a, a ∈ l.alarms ↔ a ∈ f.alarms :=
  differs_iff (compare := fun last => (changesAgainst f i g s last).alarms) _ rfl fun l => by
    have compared : (changesAgainst f i g s (some l)).alarms = !sameAlarms l.alarms f.alarms := rfl
    rw [compared, Bool.not_eq_true', ← sameAlarms_iff, Bool.not_eq_true]

theorem changedMode_iff : (reportChanges f i g s).mode = true ↔ Differs (s.reefer i).last fun l => l.mode = f.mode :=
  differs_iff (compare := fun last => (changesAgainst f i g s last).mode) _ rfl fun _ => bne_iff_ne

theorem changedPower_iff : (reportChanges f i g s).power = true ↔ Differs (s.reefer i).last fun l => l.power = f.power :=
  differs_iff (compare := fun last => (changesAgainst f i g s last).power) _ rfl fun _ => bne_iff_ne

theorem changedSupply_iff : (reportChanges f i g s).supply = true ↔ Differs (s.reefer i).last fun l =>
    l.supply = 0x8000#16 ∧ f.supply = 0x8000#16
      ∨ l.supply ≠ 0x8000#16 ∧ f.supply ≠ 0x8000#16 ∧ (f.supply.toInt - l.supply.toInt).natAbs < g.deadband :=
  differs_iff (compare := fun last => (changesAgainst f i g s last).supply) _ rfl fun _ => supplyReaches_iff

/-- The excursion flag of its reefer is set anew (R99). -/
theorem flagSet_iff : (excursionHit f g && !(s.reefer i).excursion) = true ↔
    (reportClass f g = .below ∨ reportClass f g = .above) ∧ g.excursionEnable = true ∧ (s.reefer i).excursion = false := by
  rw [Bool.and_eq_true, excursionHit_iff, Bool.not_eq_true', and_assoc]

theorem reportSignificant_iff : reportSignificant f i g s = true ↔
    (s.reefer i).state = .expected ∨ (reportChanges f i g s).cls = true ∨ (reportChanges f i g s).alarms = true
      ∨ (reportChanges f i g s).mode = true ∨ (reportChanges f i g s).power = true
      ∨ (excursionHit f g && !(s.reefer i).excursion) = true ∨ (reportChanges f i g s).supply = true
      ∨ (s.reefer i).owed = true := by
  simp only [reportSignificant, significant, Bool.or_eq_true, beq_iff_eq, or_assoc]

theorem reportUrgency_urgent : reportUrgency f i g s = .urgent ↔
    (reportChanges f i g s).alarms = true ∧ f.alarms.isEmpty = false
      ∨ (excursionHit f g && !(s.reefer i).excursion) = true
      ∨ (reportChanges f i g s).cls = true ∧ (reportClass f g = .below ∨ reportClass f g = .above)
      ∨ (reportChanges f i g s).power = true ∧ f.power = .none := by
  have judged : reportUrgency f i g s = .urgent ↔ urgentReport (reportChanges f i g s) (reportClass f g) f
      (excursionHit f g && !(s.reefer i).excursion) = true := by
    unfold reportUrgency
    split <;> simp [*]
  rw [judged]
  generalize (excursionHit f g && !(s.reefer i).excursion) = flag
  simp [urgentReport, outside_iff, or_assoc]

theorem reportUrgency_routine (calm : reportUrgency f i g s ≠ .urgent) : reportUrgency f i g s = .routine := by
  cases asked : reportUrgency f i g s with
  | urgent => exact absurd asked calm
  | routine => rfl

end Judged

end Machine
end Sys2Proof
end

