-- ==== Sys2Proof/Proofs/ValidReports.lean ====
section
/-! PROOF of O38: a valid report is heard and classed, and then judged: placed, or suppressed (R97-R104). -/

namespace Sys2Proof
namespace Machine

/-! ### What the judgement of a report leaves of what was heard -/

/-- What the judgement of a report leaves of its reefer's record: REPORTING, and all of it but the countdown, the last forwarded
values, what is owed, the batch reference and the counters of the judgement. -/
def Reefer.Judged (q r : Reefer) : Prop :=
  r = { q with
    state := .reporting, countdown := r.countdown, last := r.last, owed := r.owed, ref := r.ref
    counters := { q.counters with
      forwarded := r.counters.forwarded, dropped := r.counters.dropped, suppressed := r.counters.suppressed } }

theorem poolAnswered_judged (placed : Bool) (f : Forwarded) (g : GroupDef) (q : Reefer) (ref : Option (BatchId × Nat)) :
    q.Judged (Reefer.poolAnswered placed f { q.forwarding g with ref := ref }) := by
  cases placed <;> rfl

/-- The judgement of a report changes its own reefer and, of the others, only batch references. -/
structure ReportJudged (i : ReeferId) (s t : State) : Prop where
  record : (s.reefer i).Judged (t.reefer i)
  others : ∀ j, j ≠ i → t.reefer j = { s.reefer j with ref := (t.reefer j).ref }
  groups : t.ree.groups = s.ree.groups

theorem ReportJudged.group {i : ReeferId} {s t : State} (h : ReportJudged i s t) (g : GroupId) : t.group g = s.group g := by
  rw [State.group, h.groups, State.group]

section Judgement

variable {i : ReeferId} {s : State}

theorem forwardReport_judged (kind : EntryKind) (u : Urgency) (d : ReeferDef) (g : GroupDef) (seq : Byte) (f : Forwarded) :
    ReportJudged i s (forwardReport kind u i d g seq f s) := by
  rw [forwardReport_eq]
  generalize reportEntry kind i d.unit seq _ f = e
  have run := placeEntry_poolRun e u (s.modReefer i (Reefer.forwarding g))
  refine ⟨?_, fun j other => ?_, run.groups⟩
  · have own := run.reefer i
    rw [State.reefer_modReefer] at own
    rw [reportPlaced, State.reefer_modReefer]
    exact own ▸ poolAnswered_judged _ _ _ _ _
  · have stands := run.reefer j
    rw [State.reefer_modReefer_ne _ other] at stands
    rw [reportPlaced, State.reefer_modReefer_ne _ other]
    exact stands

theorem suppressReport_judged (d : ReeferDef) (g : GroupDef) (seq : Byte) (f : Forwarded)
    (reporting : (s.reefer i).state = .reporting) : ReportJudged i s (suppressReport i d g seq f s) := by
  by_cases due : g.reload = 0 ∨ min (s.reefer i).countdown g.reload - 1 = 0
  · rw [suppressReport_due due]
    exact forwardReport_judged _ _ _ _ _ _
  · rw [suppressReport_waits due]
    refine ⟨?_, fun j other => ?_, rfl⟩
    · rw [State.reefer_modReefer, Reefer.Judged, ← reporting]
      rfl
    · rw [State.reefer_modReefer_ne _ other]

end Judgement

/-! ### A valid report (R97-R104) -/

section Valid

variable {x : CellId} {seq : Byte} {f : Forwarded} {i : ReeferId} {d : ReeferDef} {g : GroupDef} {s : State}

/-- The state in which a report is judged: what was heard, and the return of a SILENT reefer counted (R104). -/
def reportReturned (x : CellId) (seq : Byte) (f : Forwarded) (i : ReeferId) (d : ReeferDef) (g : GroupDef) (s : State) :
    State :=
  if (s.reefer i).state = .silent then (reportHeard x seq f i d g s).modReefer i Reefer.returned
  else reportHeard x seq f i d g s

/-- The record of a reefer whose valid report has been heard, with its return counted when it was SILENT. -/
def Reefer.heardBack (x : CellId) (seq : Byte) (cls : ReportClass) (hit : Bool) (r : Reefer) : Reefer :=
  { r.heard x seq cls hit with
    counters := { (r.heard x seq cls hit).counters with
      returned := r.counters.returned + (if r.state = .silent then 1 else 0) } }

theorem reportReturned_reefer : (reportReturned x seq f i d g s).reefer i =
    (s.reefer i).heardBack x seq (reportClass f g) (excursionHit f g) := by
  unfold reportReturned Reefer.heardBack
  split
  next silent =>
    rw [State.reefer_modReefer, reportHeard_reefer]
    rfl
  next =>
    rw [reportHeard_reefer]
    simp [Reefer.heard]

theorem reportReturned_reefer_ne {j : ReeferId} (other : j ≠ i) : (reportReturned x seq f i d g s).reefer j = s.reefer j := by
  unfold reportReturned
  split
  · rw [State.reefer_modReefer_ne _ other, reportHeard_reefer_ne _ _ _ _ _ _ _ other]
  · rw [reportHeard_reefer_ne _ _ _ _ _ _ _ other]

theorem reportReturned_group (h : GroupId) : (reportReturned x seq f i d g s).group h =
    { s.group h with
      summary := (s.group h).summary || (excursionHit f g && !(s.reefer i).excursion && decide (h = d.group)) } := by
  have heard : (reportReturned x seq f i d g s).group h = (reportHeard x seq f i d g s).group h := by
    unfold reportReturned
    split <;> rfl
  rw [heard, reportHeard_group, raiseSummary_group]

theorem reportHeard_tables : ∃ ree, reportHeard x seq f i d g s = { s with ree := ree } := by
  unfold reportHeard raiseSummary
  split <;> exact ⟨_, rfl⟩

theorem reportReturned_tables : ∃ ree, reportReturned x seq f i d g s = { s with ree := ree } := by
  obtain ⟨ree, heard⟩ := reportHeard_tables (x := x) (seq := seq) (f := f) (i := i) (d := d) (g := g) (s := s)
  unfold reportReturned
  rw [heard]
  split <;> exact ⟨_, rfl⟩

/-- The three judgements of a valid report of a reefer that is not VACANT (R100-R104). -/
theorem takeValid_judged (live : (s.reefer i).state ≠ .vacant) :
    ReportJudged i (reportReturned x seq f i d g s) (takeValid x seq f i d g s) := by
  unfold reportReturned
  rw [takeValid_eq]
  cases state : (s.reefer i).state with
  | vacant => exact absurd state live
  | silent => exact forwardReport_judged ..
  | expected =>
    have significant : reportSignificant f i g s = true := (reportSignificant_iff f i g s).2 (.inl state)
    simp only [significant, if_true]
    exact forwardReport_judged ..
  | reporting =>
    rw [if_neg nofun]
    dsimp only
    split
    · exact forwardReport_judged ..
    · refine suppressReport_judged _ _ _ _ ?_
      rw [reportHeard_reefer]
      exact state

/-- A report's entry is asked of the pool: the entry, the state in which it is asked, and what is left of the answer (R103). -/
def ForwardedAs (kind : EntryKind) (u : Urgency) (x : CellId) (seq : Byte) (f : Forwarded) (i : ReeferId) (d : ReeferDef)
    (g : GroupDef) (s t : State) : Prop :=
  let entry : Entry :=
    { kind := kind, urgent := decide (u = .urgent), reefer := i, unit := d.unit
      report := some { seq := seq, mode := f.mode, power := f.power, supply := f.supply, ret := f.ret, setpoint := f.setpoint }
      cls := some (reportClass f g), excursion := (t.reefer i).excursion, cell := some x, alarms := f.alarms }
  ∃ v : State, (∃ ree, v = { s with ree := ree }) ∧ (∀ j, j ≠ i → v.reefer j = s.reefer j)
    ∧ (v.reefer i).ref = (s.reefer i).ref ∧ (v.reefer i).state = .reporting ∧ (v.reefer i).countdown = g.reload
    ∧ (v.reefer i).last = (s.reefer i).last ∧ t = reportPlaced i u entry f v

/-- The report's entry as it is asked of the pool once the report is heard. -/
theorem forwardReport_as (kind : EntryKind) (u : Urgency) :
    ForwardedAs kind u x seq f i d g s (forwardReport kind u i d g seq f (reportReturned x seq f i d g s)) := by
  have record := reportReturned_reefer (x := x) (seq := seq) (f := f) (i := i) (d := d) (g := g) (s := s)
  have judged := (forwardReport_judged (s := reportReturned x seq f i d g s) (i := i) kind u d g seq f).record
  have excursion := congrArg Reefer.excursion judged
  obtain ⟨ree, tables⟩ := reportReturned_tables (x := x) (seq := seq) (f := f) (i := i) (d := d) (g := g) (s := s)
  unfold ForwardedAs
  rw [excursion, forwardReport_eq, record]
  refine ⟨(reportReturned x seq f i d g s).modReefer i (Reefer.forwarding g), ?_, fun j other => ?_, ?_, ?_, ?_, ?_, rfl⟩
  · rw [tables]
    exact ⟨_, rfl⟩
  · rw [State.reefer_modReefer_ne _ other, reportReturned_reefer_ne other]
  all_goals rw [State.reefer_modReefer, record]; rfl

/-! ### The cases of the judgement -/

theorem takeValid_returned (silent : (s.reefer i).state = .silent) :
    ForwardedAs .returned .urgent x seq f i d g s (takeValid x seq f i d g s) := by
  have forwarded := forwardReport_as (x := x) (seq := seq) (f := f) (i := i) (d := d) (g := g) (s := s) .returned .urgent
  rw [takeValid_silent silent]
  rwa [reportReturned, if_pos silent] at forwarded

theorem takeValid_forwarded (live : (s.reefer i).state = .expected ∨ (s.reefer i).state = .reporting)
    (significant : reportSignificant f i g s = true) :
    ForwardedAs .report (reportUrgency f i g s) x seq f i d g s (takeValid x seq f i d g s) := by
  have forwarded := forwardReport_as (x := x) (seq := seq) (f := f) (i := i) (d := d) (g := g) (s := s) .report
    (reportUrgency f i g s)
  have back : ¬(s.reefer i).state = .silent := by obtain state | state := live <;> simp [state]
  rw [takeValid_significant live significant]
  rwa [reportReturned, if_neg back] at forwarded

theorem takeValid_due (live : (s.reefer i).state = .expected ∨ (s.reefer i).state = .reporting)
    (insignificant : reportSignificant f i g s = false)
    (due : g.reload = 0 ∨ min (s.reefer i).countdown g.reload - 1 = 0) :
    ForwardedAs .report .routine x seq f i d g s (takeValid x seq f i d g s) := by
  have forwarded := forwardReport_as (x := x) (seq := seq) (f := f) (i := i) (d := d) (g := g) (s := s) .report .routine
  have back : ¬(s.reefer i).state = .silent := by obtain state | state := live <;> simp [state]
  rw [takeValid_insignificant live insignificant, suppressReport_due]
  · rwa [reportReturned, if_neg back] at forwarded
  · rw [reportHeard_reefer]
    exact due

theorem takeValid_waits (live : (s.reefer i).state = .expected ∨ (s.reefer i).state = .reporting)
    (insignificant : reportSignificant f i g s = false)
    (waits : ¬(g.reload = 0 ∨ min (s.reefer i).countdown g.reload - 1 = 0)) :
    takeValid x seq f i d g s =
      (reportHeard x seq f i d g s).modReefer i (Reefer.suppressed (min (s.reefer i).countdown g.reload - 1)) := by
  rw [takeValid_insignificant live insignificant, suppressReport_waits, reportHeard_reefer]
  · rfl
  · rw [reportHeard_reefer]
    exact waits

end Valid

end Machine

open Machine

/-- Settles O38: the state once the report is judged, and each case of the judgement. -/
theorem validReportIsHeardAndClassed : Obligations.ValidReportIsHeardAndClassed := by
  intro x r i d g m p s dispatched short known mode power temperatures fresh defn group live before measured
  have reefer := dispatched_reefer s x
  have alive : ((s.dispatched x).reefer i).state ≠ .vacant := by rwa [reefer]
  have taken := takeReport_dispatched (x := x) known mode power temperatures fresh defn group
  have judged := takeValid_judged (x := x) (seq := r.seq) (f := reportValues r m p) (d := d) (g := g) alive
  have record := judged.record
  rw [reportReturned_reefer, reefer, Reefer.Judged] at record
  refine ⟨_, reportClass (reportValues r m p) g,
    (exec_reeferReport dispatched short).trans (congrArg _ taken), ?_, fun j other => ?_, fun h other => ?_,
    (congrArg Reefer.state record :), (congrArg Reefer.cls record :), reportClass_exempt, reportClass_below,
    reportClass_above, (congrArg Reefer.lastSeq record :), (congrArg Reefer.cell record :), (congrArg Reefer.age record :),
    (congrArg Reefer.miss record :), (congrArg Reefer.masked record :),
    (congrArg (fun q => q.counters.taken) record :), ⟨?_, fun hit unset => ⟨?_, ?_⟩⟩, fun silent => ?_, ?_⟩
  · rw [← taken]
    exact takeReport_poolOnly x r _
  · rw [judged.others j other, reportReturned_reefer_ne other, reefer]
  · rw [judged.group, reportReturned_group, dispatched_group]
    simp [other]
  · rw [(congrArg Reefer.excursion record :)]
    simp only [Reefer.heardBack, Reefer.heard, Bool.or_eq_true, excursionHit_iff]
    rfl
  · rw [judged.group, reportReturned_group, reefer, excursionHit_iff.2 hit]
    simp [before, unset]
  · rw [(congrArg (fun q => q.counters.excursions) record :)]
    simp [Reefer.heardBack, Reefer.heard, excursionHit_iff.2 hit, before, unset]
  · rw [(congrArg (fun q => q.counters.returned) record :)]
    simp [Reefer.heardBack, before, silent]
  · intro changed newAlarms newPower newClass hit reached significant urgent countdown due forwarded
    have judges : reportSignificant (reportValues r m p) i g (s.dispatched x) = true ↔ significant := by
      rw [reportSignificant_iff, changedClass_iff, changedAlarms_iff, changedMode_iff, changedPower_iff, flagSet_iff,
        changedSupply_iff, reefer]
      simp only [reportValues, mem_alarmSet]
      rfl
    have urges : reportUrgency (reportValues r m p) i g (s.dispatched x) = .urgent ↔ urgent := by
      rw [reportUrgency_urgent, changedClass_iff, changedAlarms_iff, changedPower_iff, flagSet_iff, reefer]
      simp only [reportValues, mem_alarmSet, alarmSet_isEmpty]
      rfl
    have placed : ∀ kind u, ForwardedAs kind u x r.seq (reportValues r m p) i d g (s.dispatched x)
        (takeValid x r.seq (reportValues r m p) i d g (s.dispatched x)) → forwarded kind u := by
      rintro kind u ⟨v, frame, others, ref, reporting, full, last, eq⟩
      rw [reefer] at ref last
      exact ⟨v, frame, fun j other => (others j other).trans (dispatched_reefer s x j), ref, reporting, full, last, eq⟩
    have awake : before.state ≠ .silent →
        ((s.dispatched x).reefer i).state = .expected ∨ ((s.dispatched x).reefer i).state = .reporting := by
      rw [reefer]
      intro loud
      cases state : (s.reefer i).state <;> simp_all [before]
    refine ⟨fun silent => placed _ _ (takeValid_returned (by rwa [reefer])), fun loud hs hu => ?_, fun loud hs hu => ?_,
      fun loud hs hd => ?_, fun loud hs hd => ?_⟩
    · have forward := takeValid_forwarded (awake loud) (judges.2 hs) (x := x) (seq := r.seq) (d := d)
      rw [urges.2 hu] at forward
      exact placed _ _ forward
    · have forward := takeValid_forwarded (awake loud) (judges.2 hs) (x := x) (seq := r.seq) (d := d)
      rw [reportUrgency_routine _ _ _ _ (mt urges.1 hu)] at forward
      exact placed _ _ forward
    · exact placed _ _ (takeValid_due (awake loud) (Bool.eq_false_iff.2 (mt judges.1 hs)) (by rwa [reefer]))
    · have waits := takeValid_waits (awake loud) (Bool.eq_false_iff.2 (mt judges.1 hs)) (by rwa [reefer]) (x := x)
        (seq := r.seq) (d := d)
      rw [reefer] at waits
      obtain ⟨ree, heard⟩ := reportHeard_tables (x := x) (seq := r.seq) (f := reportValues r m p) (i := i) (d := d) (g := g)
        (s := s.dispatched x)
      obtain ⟨port, -, -⟩ := dispatched_keeps s x
      have own := congrArg (State.reefer · i) waits
      rw [State.reefer_modReefer, reportHeard_reefer, reefer] at own
      rw [own, waits, heard]
      exact ⟨dispatched_pool s x, port, dispatched_drain s x, rfl, rfl, rfl, rfl⟩

end Sys2Proof
end

