-- ==== Sys2Proof/Proofs/PoolPlaces.lean ====
section
/-! SUPPORT. Where the pool places an entry (R111, R115-R120): the batches it looks at, a live entry overwritten or upgraded, and
a new one appended, overflowed or dropped. -/

namespace Sys2Proof
namespace Machine

/-! ### Looking at the pool (R111, R116) -/

section Batches

variable {s : State} {u : Urgency} {b : BatchId} {st : BatchState}

theorem mem_batchesIn : b ∈ batchesIn s st ↔ (s.batch b).state = st := by
  simp [batchesIn, mem_allBatches]

theorem batchesIn_ne_nil : batchesIn s st ≠ [] ↔ ∃ b, (s.batch b).state = st := by
  refine ⟨fun some => ?_, fun ⟨b, h⟩ => List.ne_nil_of_mem (mem_batchesIn.2 h)⟩
  obtain ⟨b, h⟩ := List.exists_mem_of_ne_nil _ some
  exact ⟨b, mem_batchesIn.1 h⟩

theorem batchesIn_length (s : State) (st : BatchState) : (batchesIn s st).length =
    (allBatches.filter fun b => decide ((s.batch b).state = st)).length := by
  simp only [batchesIn, beq_eq_decide]

theorem openBatch_eq (s : State) (u : Urgency) : openBatch s u = (batchesIn s (openStateOf u)).head? := by
  cases u <;> rfl

theorem openBatch_isSome : (openBatch s u).isSome = true ↔ ∃ b, (s.batch b).state = openStateOf u := by
  rw [openBatch_eq, List.isSome_head?]
  exact batchesIn_ne_nil

theorem openBatch_none (closed : ∀ b, (s.batch b).state ≠ openStateOf u) : openBatch s u = none := by
  rw [← Option.not_isSome_iff_eq_none, openBatch_isSome]
  exact fun ⟨b, opened⟩ => closed b opened

theorem openBatch_some (h : openBatch s u = some b) : (s.batch b).state = openStateOf u := by
  rw [openBatch_eq] at h
  exact mem_batchesIn.1 (List.mem_of_head? h)

/-- The open batch of an urgency is the one there is (R111). -/
theorem PoolSound.openBatch (sound : PoolSound s) (opened : (s.batch b).state = openStateOf u) : openBatch s u = some b := by
  obtain ⟨c, found⟩ := Option.isSome_iff_exists.1 (openBatch_isSome.2 ⟨b, opened⟩)
  have other := openBatch_some found
  have same : c = b := by
    cases u with
    | urgent => exact sound.oneUrgent c b other opened
    | routine => exact sound.oneRoutine c b other opened
  rw [found, same]

theorem allBatches_pairwise : allBatches.Pairwise (· < ·) := by decide

/-- The first of the batches in a state is the one of the lowest number (R116). -/
theorem batchesIn_lowest (h : (s.batch b).state = st) (lowest : ∀ a, (s.batch a).state = st → b.val ≤ a.val) :
    ∃ rest, batchesIn s st = b :: rest := by
  have ordered : (batchesIn s st).Pairwise (· < ·) := allBatches_pairwise.filter _
  have there := mem_batchesIn.2 h
  cases listed : batchesIn s st with
  | nil => simp [listed] at there
  | cons c rest =>
    rw [listed] at ordered there
    obtain ⟨ahead, -⟩ := List.pairwise_cons.1 ordered
    have first : b.val ≤ c.val := lowest c (mem_batchesIn.1 (listed ▸ List.mem_cons_self))
    obtain rfl | later := List.mem_cons.1 there
    · exact ⟨rest, rfl⟩
    · exact absurd (Fin.lt_def.1 (ahead b later)) (by omega)

end Batches

/-! ### A live entry removed (R114) -/

section Removal

variable {s : State} {b : BatchId} {n : Nat}

theorem moveRefs_tables (b : BatchId) (l : List Entry) (old new : Nat) (s : State) :
    ∃ ree, moveRefs b l old new s = { s with ree := ree } := by
  induction l generalizing old new s with
  | nil => exact ⟨_, rfl⟩
  | cons e l ih =>
    unfold moveRefs
    dsimp only
    split
    · obtain ⟨ree, moved⟩ := ih (old + 1) (new + 1) (s.setRef e.reefer (some (b, new)))
      exact ⟨ree, moved⟩
    · exact ih _ _ _

theorem freeBatch_batch (b : BatchId) (s : State) : (freeBatch b s).batch b = Batch.emptied :=
  (rfl : _ = (s.modBatch b fun _ => Batch.emptied).batch b).trans (State.batch_modBatch ..)

theorem freeBatch_batch_ne {a b : BatchId} (other : a ≠ b) (s : State) : (freeBatch b s).batch a = s.batch a :=
  (rfl : _ = (s.modBatch b fun _ => Batch.emptied).batch a).trans (State.batch_modBatch_ne _ other _)

/-- What a removal leaves of the pool (R114, R118). -/
structure EntryRemoved (b : BatchId) (left : List Entry) (s v : State) : Prop where
  frame : ∃ ree pool, v = { s with ree := ree, pool := pool }
  others : ∀ a, a ≠ b → v.batch a = s.batch a
  batch : v.batch b = if left = [] then {} else { s.batch b with entries := left }
  list : v.pool.sealedList = s.pool.sealedList.filter fun a => decide (left = [] → a ≠ b)
  exhausted : v.pool.exhausted = true ↔ s.pool.exhausted = true ∧ left ≠ []
  counters : v.pool.counters = s.pool.counters

theorem removeEntry_removed (b : BatchId) (n : Nat) (s : State) :
    EntryRemoved b ((s.batch b).entries.eraseIdx n) s (removeEntry b n s) := by
  unfold removeEntry
  dsimp only
  generalize (s.batch b).entries.eraseIdx n = left
  obtain ⟨ree, moved⟩ := moveRefs_tables b ((s.batch b).entries.drop (n + 1)) (n + 1) n
    (s.modBatch b fun r => { r with entries := left })
  rw [moved]
  have kept : ∀ a, a ≠ b → State.batch { (s.modBatch b fun r => { r with entries := left }) with ree := ree } a = s.batch a :=
    fun a other => State.batch_modBatch_ne s other fun r => { r with entries := left }
  have own : State.batch { (s.modBatch b fun r => { r with entries := left }) with ree := ree } b =
      { s.batch b with entries := left } := State.batch_modBatch s b fun r => { r with entries := left }
  by_cases empty : left = []
  · rw [if_pos (List.isEmpty_iff.2 empty)]
    refine ⟨⟨_, _, rfl⟩, fun a other => (freeBatch_batch_ne other _).trans (kept a other), ?_, ?_, ?_, rfl⟩
    · rw [if_pos empty, freeBatch_batch]
      rfl
    · exact List.filter_congr fun a _ => by simp only [empty, true_implies, ne_eq, decide_not]; rfl
    · exact iff_of_false nofun fun stays => stays.2 empty
  · rw [if_neg (mt List.isEmpty_iff.1 empty)]
    refine ⟨⟨_, _, rfl⟩, kept, own.trans (if_neg empty).symm, ?_, ?_, rfl⟩
    · exact (List.filter_eq_self.2 fun a _ => by simp [empty]).symm
    · exact (and_iff_left empty).symm

end Removal

/-! ### An entry placed for its reefer (7.3, R115) -/

section Placing

variable {e old : Entry} {u : Urgency} {b : BatchId} {n : Nat} {s : State}

/-- An entry marked by the urgency it is placed with (R112). -/
def Entry.marked (e : Entry) (u : Urgency) : Entry := { e with urgent := decide (u = .urgent) }

theorem changeable_iff {st : BatchState} : st.changeable = true ↔ st = .openUrgent ∨ st = .openRoutine ∨ st = .sealed := by
  cases st <;> simp [BatchState.changeable]

theorem placeInPool_new (ref : (s.reefer e.reefer).ref = none) : placeInPool e u s = placeNew (e.marked u) u s := by
  unfold placeInPool
  dsimp only
  rw [ref]
  rfl

theorem placeInPool_frozen (ref : (s.reefer e.reefer).ref = some (b, n)) (frozen : (s.batch b).state.changeable = false) :
    placeInPool e u s = placeNew (e.marked u) u s := by
  unfold placeInPool
  dsimp only
  rw [ref]
  dsimp only
  rw [if_pos (by simp [frozen])]
  rfl

theorem placeInPool_overwrites (ref : (s.reefer e.reefer).ref = some (b, n)) (live : (s.batch b).entries[n]? = some old)
    (changeable : (s.batch b).state.changeable = true) (stays : old.urgent = true ∨ u = .routine) :
    placeInPool e u s = (overwriteEntry b n { e with urgent := old.urgent || decide (u = .urgent) } s, true) := by
  unfold placeInPool
  dsimp only
  rw [ref]
  dsimp only
  rw [if_neg (by simp [changeable]), live]
  exact if_pos (by simpa using stays)

theorem placeInPool_urgent (ref : (s.reefer e.reefer).ref = some (b, n)) (live : (s.batch b).entries[n]? = some old)
    (changeable : (s.batch b).state.changeable = true) (unmarked : old.urgent = false) :
    placeInPool e .urgent s =
      if (openBatch s .urgent).isSome || !(batchesIn s .free).isEmpty then
        ((placeNew (e.marked .urgent) .urgent ((removeEntry b n s).setRef e.reefer none)).1.countPool
          fun k => { k with upgrades := k.upgrades + 1 },
          (placeNew (e.marked .urgent) .urgent ((removeEntry b n s).setRef e.reefer none)).2)
      else
        ((overwriteEntry b n (e.marked .urgent) s).countPool fun k => { k with overflow := k.overflow + 1 }, true) := by
  unfold placeInPool
  dsimp only
  rw [ref]
  dsimp only
  rw [if_neg (by simp [changeable]), live]
  exact if_neg (by simp [unmarked])

/-- An urgent entry finds an urgent batch open, or a batch to open (R115, R116). -/
theorem urgentRoom_iff : ((openBatch s .urgent).isSome || !(batchesIn s .free).isEmpty) = true ↔
    ¬∀ a, (s.batch a).state ≠ .openUrgent ∧ (s.batch a).state ≠ .free := by
  rw [Bool.or_eq_true, openBatch_isSome, Bool.not_eq_true', ← Bool.not_eq_true, List.isEmpty_iff, ← ne_eq,
    batchesIn_ne_nil]
  simp only [openStateOf, not_forall, not_and_or, ne_eq, not_not, exists_or]

end Placing

/-! ### A new entry (R116, R117) -/

section New

variable {e : Entry} {u : Urgency} {b : BatchId} {s : State}

theorem placeNew_open (opened : openBatch s u = some b) : placeNew e u s = (appendEntry b e s, true) := by
  rw [placeNew, opened]

theorem placeNew_opens {rest : List BatchId} (closed : openBatch s u = none) (free : batchesIn s .free = b :: rest)
    (enough : reserveOf u ≤ (batchesIn s .free).length) : placeNew e u s = (appendEntry b e (openNew b u s), true) := by
  rw [free, List.length_cons] at enough
  rw [placeNew, closed]
  dsimp only
  rw [free]
  exact if_pos enough

theorem placeNew_overflow (closed : openBatch s u = none) (few : (batchesIn s .free).length < reserveOf u) :
    placeNew e u s = placeNew.overflow e u s := by
  rw [placeNew, closed]
  dsimp only
  cases free : batchesIn s .free with
  | nil => rfl
  | cons b rest =>
    rw [free, List.length_cons] at few
    exact if_neg (Nat.not_le.2 few)

theorem overflow_appends (opened : openBatch s .routine = some b) :
    placeNew.overflow e .urgent s = ((appendEntry b e s).countPool fun k => { k with overflow := k.overflow + 1 }, true) := by
  unfold placeNew.overflow
  rw [opened]

theorem overflow_drops (none : u = .routine ∨ openBatch s .routine = none) :
    placeNew.overflow e u s = (dropEntry e u s, false) := by
  unfold placeNew.overflow
  cases u with
  | routine => rfl
  | urgent => rw [none.resolve_left nofun]

end New

end Machine
end Sys2Proof
end

