-- ==== Sys2Proof/Proofs/ReportsPlaced.lean ====
section
/-! PROOF of O37: the reports that place no entry, and what the pool does with an entry (R97, R102, R115-R120). -/

namespace Sys2Proof
namespace Machine

/-! ### Reports that are discarded (R97) -/

theorem validReport_iff {r : Report} : ValidReport r ↔ r.mode.toNat ≤ 3 ∧ r.power.toNat ≤ 2
    ∧ ∀ v ∈ [r.supply, r.ret, r.setpoint], v = 0x8000#16 ∨ -1000 ≤ v.toInt ∧ v.toInt ≤ 1000 := by
  simp only [ValidReport, modeOf_isSome, powerOf_isSome, temperatureOk_iff]

/-! ### A report that is suppressed (R102) -/

section Suppressed

variable {x : CellId} {seq : Byte} {f : Forwarded} {i : ReeferId} {d : ReeferDef} {g : GroupDef} {s : State}

/-- The record of a reefer whose report repeats its class, lies in its band and waits for its countdown. -/
theorem suppressed_heard {q : Reefer} {c : ReportClass} (same : q.cls = some c) (n : Nat) :
    (q.heard x seq c false).suppressed n =
      { q with
        lastSeq := some seq, cell := some x, age := 0, miss := 0, masked := 0, countdown := n
        counters := { q.counters with taken := q.counters.taken + 1, suppressed := q.counters.suppressed + 1 } } := by
  simp [Reefer.heard, Reefer.suppressed, same]

/-- A class within its band, or none, is no hit (R99). -/
theorem excursionHit_inside (inside : reportClass f g = .within ∨ reportClass f g = .exempt) : excursionHit f g = false := by
  obtain inside | inside := inside <;> simp [excursionHit, inside, ReportClass.outside]

/-- A report that changes nothing is not significant (R100). -/
theorem reportSignificant_unchanged {l : Forwarded} (reporting : (s.reefer i).state = .reporting)
    (paid : (s.reefer i).owed = false) (last : (s.reefer i).last = some l) (mode : l.mode = f.mode)
    (power : l.power = f.power) (alarms : ∀ a, a ∈ l.alarms ↔ a ∈ f.alarms)
    (same : (s.reefer i).cls = some (reportClass f g)) (inside : reportClass f g = .within ∨ reportClass f g = .exempt)
    (before : l.supply ≠ 0x8000#16) (now : f.supply ≠ 0x8000#16)
    (near : (f.supply.toInt - l.supply.toInt).natAbs < g.deadband) : reportSignificant f i g s = false := by
  rw [← Bool.not_eq_true, reportSignificant_iff, changedClass_iff, changedAlarms_iff, changedMode_iff, changedPower_iff,
    changedSupply_iff, excursionHit_inside inside]
  simp only [Differs, last, reporting, paid, same]
  simp_all

theorem takeValid_unchanged (reporting : (s.reefer i).state = .reporting) (unchanged : reportSignificant f i g s = false)
    (same : (s.reefer i).cls = some (reportClass f g)) (inside : reportClass f g = .within ∨ reportClass f g = .exempt)
    (waits : 2 ≤ min (s.reefer i).countdown g.reload) :
    takeValid x seq f i d g s = s.modReefer i fun q =>
      { q with
        lastSeq := some seq, cell := some x, age := 0, miss := 0, masked := 0
        countdown := min (s.reefer i).countdown g.reload - 1
        counters := { q.counters with taken := q.counters.taken + 1, suppressed := q.counters.suppressed + 1 } } := by
  have listed : ((s.reefer i).heard x seq (reportClass f g) false).state ≠ .vacant := by
    simp [Reefer.heard, reporting]
  have calm : reportHeard x seq f i d g s = s.modReefer i (Reefer.heard x seq (reportClass f g) false) := by
    rw [reportHeard, excursionHit_inside inside]
    rfl
  rw [takeValid_waits (.inr reporting) unchanged (by omega), calm, State.modReefer_modReefer s listed]
  exact congrArg (s.setReefer i) (suppressed_heard same _)

end Suppressed

/-! ### An entry at the tail of a batch (R116, R119) -/

theorem appendEntry_eq (b : BatchId) (e : Entry) (s : State) : appendEntry b e s =
    let length := (s.batch b).entries.length
    let v := ((s.modBatch b fun r => { r with entries := r.entries ++ [e] }).setRef e.reefer (some (b, length))).countPool
      fun k => { k with placed := k.placed + 1 }
    if 63 ≤ length then sealBatch b .full v
    else if (s.batch b).state = .openUrgent ∧ s.params.urgentSealMs = 0 then sealBatch b .age v
    else v := by
  unfold appendEntry
  simp only [Config.batchEntries, Nat.reduceLeDiff]

/-! ### An entry that finds no place (R117, R118) -/

theorem dropEntry_eq (e : Entry) (u : Urgency) (s : State) : dropEntry e u s =
    let k := s.pool.counters
    let dropped := match u with
      | .urgent => { k with droppedUrgent := k.droppedUrgent + 1 }
      | .routine => { k with droppedRoutine := k.droppedRoutine + 1 }
    { s with
      port := if s.pool.exhausted then s.port
        else s.controllerNoticed (.poolExhausted u e.reefer e.kind (batchesIn s .free).length (batchesIn s .sealed).length
          (batchesIn s .inFlight).length)
      pool := { s.pool with
        exhausted := true
        counters := { dropped with episodes := k.episodes + (if s.pool.exhausted then 0 else 1) } } } := by
  unfold dropEntry
  cases exhausted : s.pool.exhausted
  · cases u <;> simp [State.countPool, exhausted, noticeController_noticed] <;> rfl
  · cases u <;> simp [State.countPool, exhausted]

/-! ### Sealing (R119, R120, R130) -/

section Sealing

variable {s before : State} {b : BatchId}

theorem mem_insertSealed {a : BatchId} (l : List BatchId) : a ∈ insertSealed s b l ↔ a = b ∨ a ∈ l := by
  induction l with
  | nil => simp [insertSealed]
  | cons c l ih =>
    unfold insertSealed
    split
    · simp
    · rw [List.mem_cons, ih, List.mem_cons, or_left_comm]

theorem sealBatch_batch (b : BatchId) (cause : SealCause) (s : State) :
    (sealBatch b cause s).batch b = { s.batch b with state := .sealed, stamp := some s.pool.stamp } :=
  State.batch_modBatch s b fun r => { r with state := .sealed, stamp := some s.pool.stamp }

theorem sealBatch_batch_ne {a : BatchId} (other : a ≠ b) (cause : SealCause) (s : State) :
    (sealBatch b cause s).batch a = s.batch a :=
  State.batch_modBatch_ne s other fun r => { r with state := .sealed, stamp := some s.pool.stamp }

theorem sealBatch_list {a : BatchId} (cause : SealCause) :
    a ∈ (sealBatch b cause s).pool.sealedList ↔ a = b ∨ a ∈ s.pool.sealedList := mem_insertSealed _

/-- A placement that seals nothing, or seals while no drain is SENDING, starts no burst (R130). -/
theorem afterSeal_idle (idle : s.drain.state ≠ .sending ∨ s.pool.stamp = before.pool.stamp) : afterSeal before s = s := by
  obtain quiet | unsealed := idle
  · refine afterSeal_waits fun may => quiet ?_
    obtain ⟨sending, -⟩ := may
    exact sending
  · exact afterSeal_unsealed unsealed

end Sealing

end Machine

open Machine

/-- Settles O37, part by part: discarded reports, the suppressed one, a live entry, a new one and what sealing leaves. -/
theorem reportsThatPlaceNoEntry : Obligations.ReportsThatPlaceNoEntry := by
  refine ⟨fun x r s dispatched short => ?discarded, ?suppressed, ?live, fun e u s ref => placeInPool_new ref, ?new,
    fun b cause before s => ⟨rfl, fun a other => sealBatch_batch_ne other cause s, sealBatch_batch b cause s, rfl,
      fun a => sealBatch_list cause, afterSeal_idle⟩⟩
  case discarded =>
    intro d valid
    rw [exec_reeferReport dispatched short]
    refine ⟨fun unknown => ?_, fun i known => ?_⟩
    · rw [takeReport_unknown ((dispatched_dirReefer s x r.unit).trans unknown), dispatched_ree]
    · rw [← dispatched_dirReefer s x] at known
      refine ⟨fun invalid => ?_, fun sound repeated => ?_⟩
      · rw [takeReport_invalid known (mt validReport_iff.1 invalid)]
      · rw [takeReport_duplicate known (validReport_iff.2 sound)]
        rwa [dispatched_reefer]
  case suppressed =>
    intro x r i d g m p l s dispatched short known mode power temperatures fresh defn group reporting paid last sameMode
      samePower alarms same inside before now near waits
    have taken := takeReport_dispatched (x := x) known mode power temperatures fresh defn group
    have reefer := dispatched_reefer s x i
    rw [← reefer] at reporting paid last same waits
    have unchanged := reportSignificant_unchanged (f := reportValues r m p) reporting paid last sameMode samePower
      (fun a => (alarms a).trans mem_alarmSet.symm) same inside before now near
    rw [exec_reeferReport dispatched short, taken, takeValid_unchanged reporting unchanged same inside waits, reefer]
  case live =>
    intro e u b n old s sound ref there m changeable written noUrgent left
    refine ⟨fun sent => placeInPool_frozen ref (by rw [sent]; rfl), fun may stays => ?_, fun may unmarked urgent full => ?_,
      fun may unmarked urgent room => ?_⟩
    · rw [placeInPool_overwrites ref there (changeable_iff.2 may) stays]
      rfl
    · subst urgent
      rw [placeInPool_urgent ref there (changeable_iff.2 may) unmarked, if_neg (mt urgentRoom_iff.1 (not_not.2 full))]
      rfl
    · subst urgent
      have removed := removeEntry_removed b n s
      refine ⟨(removeEntry b n s).setRef e.reefer none, ?_, ?_, ?_, removed.others, removed.batch, removed.list,
        removed.exhausted, removed.counters⟩
      · rw [placeInPool_urgent ref there (changeable_iff.2 may) unmarked, if_pos (urgentRoom_iff.2 room)]
        rfl
      · obtain ⟨ree, pool, frame⟩ := removed.frame
        rw [frame]
        exact ⟨_, _, rfl⟩
      · rw [State.setRef, State.reefer_modReefer]
  case new =>
    intro m u s sound isOpen need number added
    have opens : isOpen = openStateOf u := by cases u <;> rfl
    have needs : need = reserveOf u := by cases u <;> rfl
    have counts : ∀ st, number st = (batchesIn s st).length := fun st => (batchesIn_length s st).symm
    have appends : ∀ b t, t.params = s.params → appendEntry b m t = added b t := fun b t params => by
      rw [appendEntry_eq, params]
    rw [opens, needs]
    refine ⟨fun b opened => ?_, fun closed enough b free lowest => ?_, fun closed few => ⟨fun urgent b routine => ?_,
      fun none => ?_⟩⟩
    · rw [placeNew_open (sound.openBatch opened), appends b s rfl]
    · obtain ⟨rest, first⟩ := batchesIn_lowest free lowest
      rw [placeNew_opens (openBatch_none closed) first (by rwa [← counts]), appends b (openNew b u s) rfl]
      cases u <;> rfl
    · subst urgent
      rw [placeNew_overflow (openBatch_none closed) (by rwa [← counts]), overflow_appends (sound.openBatch routine),
        appends b s rfl]
    · have dropped : placeNew m u s = (dropEntry m u s, false) := by
        rw [placeNew_overflow (openBatch_none closed) (by rwa [← counts]), overflow_drops (none.imp_right openBatch_none)]
      have drop := dropEntry_eq m u s
      rw [← counts, ← counts, ← counts] at drop
      exact dropped.trans (congrArg (·, false) (drop.trans (by cases u <;> rfl)))

end Sys2Proof
end
